-- ==== Sys2Proof/Word.lean ====
section
/-! DEFINITION. Word.lean: the word and byte types of HUFFCORE and their plainest reading.

Every value of the hardware is an unsigned integer (00_scope.md R12); a register or bus word is 32
bits with bit 0 its least significant bit (00_scope.md R10). -/

namespace Sys2Proof

/-- A register or bus word (00_scope.md R6: BUS_DATA_W = CMD_W = 32). -/
abbrev Word := BitVec 32

/-- A stream byte or a symbol (00_scope.md R6: stream data width, R16: symbol). -/
abbrev Byte := BitVec 8

/-- A node index, 0..511 (10_state.md R41). -/
abbrev NodeIx := BitVec 9

/-- The largest value a 32-bit count holds, 2^32 - 1 (00_scope.md R12). -/
def maxWord : Nat := 4294967295

end Sys2Proof
end

