-- ==== Sys2Proof/Config.lean ====
section
/-! DEFINITION. Config.lean: the fixed parameters of HUFFCORE (00_scope.md R6) and the free values,
which the spec leaves open. A free value is opaque: nothing in Lean can evaluate it or prove a value
of it. -/

namespace Sys2Proof.Config

/-- TB_MAX_BITS, the largest TB_LEN (00_scope.md R6). -/
def tbMaxBits : Nat := 2560
/-- TB_BUCKETS, the 16-bit buckets of the tree bit buffer (00_scope.md R6). -/
def tbBuckets : Nat := 161
/-- The bit positions of the tree bit buffer, 161 buckets of 16 (10_state.md R43). -/
def tbBits : Nat := 2576
/-- NODE_CAP (00_scope.md R6). -/
def nodeCap : Nat := 512
/-- HEAP_CAP (00_scope.md R6). -/
def heapCap : Nat := 256
/-- CODE_MAX_BITS (00_scope.md R6). -/
def codeMaxBits : Nat := 255
/-- SYMBOLS (00_scope.md R6). -/
def symbols : Nat := 256
/-- What ID reads in every phase (10_state.md R37). -/
def idValue : Word := 0x48554646#32
/-- What VERSION reads in every phase (10_state.md R37). -/
def versionValue : Word := 0x00010000#32

/-- FREE VALUE. The n-th draw for a register the rules say reads "any value" while STATUS.BUSY = 1
(20_memory.md R97, 93 S1). A read uses the low bits of it, as many as the field has. Log 4. -/
opaque busyDraw : Nat → Word

/-- FREE VALUE. What the 512 entries of the traversal stack hold after a traversal: "Stack contents
are not observable and are undefined between commands" (43_tree.md R222). Log 5. -/
opaque stackResidue : Nat → Vector (NodeIx × Bool) 512

end Sys2Proof.Config
end

