-- ==== Sys2Proof/Syntax.lean ====
section
/-! DEFINITION. Syntax.lean: the 24 commands of HUFFCORE, one constructor per row of the opcode map
(30_encoding.md R116), in the map's order. -/

namespace Sys2Proof

/-- A command. `arg` is the 16-bit unsigned operand of a format A command (30_encoding.md R115; its
range is checked in WellFormed.lean) and `f` the flag of a format F command. -/
inductive Instr where
  /-- 0x00, 40_control.md R135 -/
  | nop
  /-- 0x01, 40_control.md R136 -/
  | softReset
  /-- 0x02, 40_control.md R137 -/
  | inDiscard
  /-- 0x10, 41_bitbuffer.md R154 -/
  | bbCreate (arg : Nat)
  /-- 0x11, 41_bitbuffer.md R155 -/
  | bbSet (arg : Nat)
  /-- 0x12, 41_bitbuffer.md R156 -/
  | bbClear (arg : Nat)
  /-- 0x13, 41_bitbuffer.md R157 -/
  | bbGet (arg : Nat)
  /-- 0x14, 41_bitbuffer.md R158 -/
  | bbResize (arg : Nat)
  /-- 0x15, 41_bitbuffer.md R159; `f`: emit the end marker -/
  | bbSerialize (f : Bool)
  /-- 0x16, 41_bitbuffer.md R160 -/
  | bbDeserialize
  /-- 0x20, 42_pqueue.md R184 -/
  | pqClear
  /-- 0x21, 42_pqueue.md R185 -/
  | pqInsert (arg : Nat)
  /-- 0x22, 42_pqueue.md R186 -/
  | pqExtract
  /-- 0x30, 43_tree.md R204 -/
  | treeBuild
  /-- 0x31, 43_tree.md R208 -/
  | treeDestroy
  /-- 0x32, 43_tree.md R210 -/
  | treeSerialize
  /-- 0x33, 43_tree.md R213 -/
  | treeDeserialize
  /-- 0x40, 44_codec.md R233 -/
  | freqClear
  /-- 0x41, 44_codec.md R234 -/
  | freqAccum
  /-- 0x42, 44_codec.md R236 -/
  | codeGen
  /-- 0x43, 44_codec.md R237; `f`: emit the end marker -/
  | pack (f : Bool)
  /-- 0x44, 44_codec.md R239; `f`: open a new input message -/
  | unpack (f : Bool)
  /-- 0x48, 44_codec.md R241 -/
  | encode
  /-- 0x49, 44_codec.md R242 -/
  | decode
deriving DecidableEq, Repr

end Sys2Proof
end

