-- ==== Sys2Proof/WellFormed.lean ====
section
/-! DEFINITION. WellFormed.lean: which terms of `Instr` are commands. The operand of a format A
command is an unsigned integer 0..65535 (30_encoding.md R115; a literal outside that range "is an
assembly error, not a command", R119). Formats N and F have nothing to check. -/

namespace Sys2Proof

/-- The operand fits the 16-bit field ARG (30_encoding.md R111, R115). -/
def argFits (arg : Nat) : Bool := decide (arg < 65536)

/-- The check of a command's operand, constructor by constructor. -/
def Instr.wellFormed : Instr → Bool
  | .nop => true
  | .softReset => true
  | .inDiscard => true
  | .bbCreate arg => argFits arg
  | .bbSet arg => argFits arg
  | .bbClear arg => argFits arg
  | .bbGet arg => argFits arg
  | .bbResize arg => argFits arg
  | .bbSerialize _ => true
  | .bbDeserialize => true
  | .pqClear => true
  | .pqInsert arg => argFits arg
  | .pqExtract => true
  | .treeBuild => true
  | .treeDestroy => true
  | .treeSerialize => true
  | .treeDeserialize => true
  | .freqClear => true
  | .freqAccum => true
  | .codeGen => true
  | .pack _ => true
  | .unpack _ => true
  | .encode => true
  | .decode => true

/-- A well-formed command. -/
abbrev WellFormed (i : Instr) : Prop := i.wellFormed = true

end Sys2Proof
end

