-- ==== Sys2Proof/Decode.lean ====
section
/-! DEFINITION. Decode.lean: the command decoder (30_encoding.md R117, R118), total on every 32-bit
word and rejecting by name; then the encoder, from the same opcode map (R111 to R116). -/

namespace Sys2Proof

/-- The three command formats (30_encoding.md R112, R113, R114). -/
inductive Format where
  /-- no operand -/
  | N
  /-- a flag -/
  | F
  /-- a 16-bit operand -/
  | A
deriving DecidableEq, Repr

/-- Why a word is ILLEGAL (the cases of 30_encoding.md R118). All of them raise the one error
ILLEGAL; the names are the decoder's. -/
inductive Illegal where
  /-- an OP value that is not in the opcode map -/
  | unknownOpcode
  /-- RSV ≠ 0 -/
  | reservedBits
  /-- F ≠ 0 in a word of format N or A -/
  | unusedFlag
  /-- ARG ≠ 0 in a word of format N or F -/
  | unusedArg
deriving DecidableEq, Repr

/-- Field OP, bits [7:0] (30_encoding.md R111). -/
def opField (w : Word) : Nat := (w.extractLsb' 0 8).toNat
/-- Field F, bit [8] (30_encoding.md R111). -/
def flagField (w : Word) : Bool := w.getLsbD 8
/-- Field RSV, bits [15:9] (30_encoding.md R111). -/
def rsvField (w : Word) : Nat := (w.extractLsb' 9 7).toNat
/-- Field ARG, bits [31:16] (30_encoding.md R111, R115). -/
def argField (w : Word) : Nat := (w.extractLsb' 16 16).toNat

/-- The opcode map (30_encoding.md R116): the format of an opcode, and its command for a flag and an
operand. `none` for an OP value that is not in the map. -/
def opcodeRow (op : Nat) (f : Bool) (arg : Nat) : Option (Format × Instr) :=
  match op with
  | 0x00 => some (.N, .nop)
  | 0x01 => some (.N, .softReset)
  | 0x02 => some (.N, .inDiscard)
  | 0x10 => some (.A, .bbCreate arg)
  | 0x11 => some (.A, .bbSet arg)
  | 0x12 => some (.A, .bbClear arg)
  | 0x13 => some (.A, .bbGet arg)
  | 0x14 => some (.A, .bbResize arg)
  | 0x15 => some (.F, .bbSerialize f)
  | 0x16 => some (.N, .bbDeserialize)
  | 0x20 => some (.N, .pqClear)
  | 0x21 => some (.A, .pqInsert arg)
  | 0x22 => some (.N, .pqExtract)
  | 0x30 => some (.N, .treeBuild)
  | 0x31 => some (.N, .treeDestroy)
  | 0x32 => some (.N, .treeSerialize)
  | 0x33 => some (.N, .treeDeserialize)
  | 0x40 => some (.N, .freqClear)
  | 0x41 => some (.N, .freqAccum)
  | 0x42 => some (.N, .codeGen)
  | 0x43 => some (.F, .pack f)
  | 0x44 => some (.F, .unpack f)
  | 0x48 => some (.N, .encode)
  | 0x49 => some (.N, .decode)
  | _ => none

/-- What the format forbids in the fields OP does not cover (30_encoding.md R117). -/
def fieldFault (fmt : Format) (f : Bool) (rsv arg : Nat) : Option Illegal :=
  if rsv ≠ 0 then some .reservedBits
  else match fmt with
    | .N => if f then some .unusedFlag else if arg ≠ 0 then some .unusedArg else none
    | .F => if arg ≠ 0 then some .unusedArg else none
    | .A => if f then some .unusedFlag else none

/-- `decode(w)` (30_encoding.md R117): every word is one command of R116 or ILLEGAL. -/
def decode (w : Word) : Except Illegal Instr :=
  match opcodeRow (opField w) (flagField w) (argField w) with
  | none => .error .unknownOpcode
  | some (fmt, i) =>
    match fieldFault fmt (flagField w) (rsvField w) (argField w) with
    | some why => .error why
    | none => .ok i

/-- What the host asks of the decoder: the command read from a word whose bits are `w`. A command is
exactly one 32-bit word (30_encoding.md R110); bits at `nbits` and above are 0. -/
def decodeTableWord (nbits w : Nat) : Option Instr :=
  match decode (BitVec.ofNat 32 (w % 2 ^ nbits)) with
  | .ok i => some i
  | .error _ => none

/-- The word {ARG, 7'b0, F, OP} (30_encoding.md R119). -/
def commandWord (op : Nat) (f : Bool) (arg : Nat) : Word :=
  BitVec.ofNat 16 arg ++ 0#7 ++ BitVec.ofBool f ++ BitVec.ofNat 8 op

/-- The word of a command (30_encoding.md R112 to R116, R119). -/
def encode : Instr → Word
  | .nop => commandWord 0x00 false 0
  | .softReset => commandWord 0x01 false 0
  | .inDiscard => commandWord 0x02 false 0
  | .bbCreate arg => commandWord 0x10 false arg
  | .bbSet arg => commandWord 0x11 false arg
  | .bbClear arg => commandWord 0x12 false arg
  | .bbGet arg => commandWord 0x13 false arg
  | .bbResize arg => commandWord 0x14 false arg
  | .bbSerialize f => commandWord 0x15 f 0
  | .bbDeserialize => commandWord 0x16 false 0
  | .pqClear => commandWord 0x20 false 0
  | .pqInsert arg => commandWord 0x21 false arg
  | .pqExtract => commandWord 0x22 false 0
  | .treeBuild => commandWord 0x30 false 0
  | .treeDestroy => commandWord 0x31 false 0
  | .treeSerialize => commandWord 0x32 false 0
  | .treeDeserialize => commandWord 0x33 false 0
  | .freqClear => commandWord 0x40 false 0
  | .freqAccum => commandWord 0x41 false 0
  | .codeGen => commandWord 0x42 false 0
  | .pack f => commandWord 0x43 f 0
  | .unpack f => commandWord 0x44 f 0
  | .encode => commandWord 0x48 false 0
  | .decode => commandWord 0x49 false 0

end Sys2Proof
end

