-- ==== Sys2Proof/Machine/State.lean ====
section
/-! DEFINITION. Machine/State.lean: everything the spec gives HUFFCORE, as plain data, with its reset
values (10_state.md, 70_reset_and_hazards.md R310), and the reasons a step can stop. -/

namespace Sys2Proof.Machine

/-- Why the machine stops. The spec has no such outcome: an error abort is a defined next state
(60_exceptions.md R295). -/
inductive Fault where
  /-- Raised by TREE_SERIALIZE (and ENCODE through it) when the NODE RAM holds no tree below ROOT, so
  that the walk overruns the traversal stack or the tree bit buffer. 43_tree.md R211 and R222 say it
  cannot happen; no run reaches such a state. Safe: the model stops where the spec is silent. Log 11. -/
  | traversalOverrun
deriving DecidableEq, Repr

/-- Why the model gives an instruction no meaning. -/
inductive Refusal where
  /-- Raised by an arm of `exec` whose command has no meaning yet. Safe. No arm raises it: every
  command word has a defined meaning (60_exceptions.md R295). -/
  | notModelled (mnemonic : String)
deriving DecidableEq, Repr

/-- `r_phase` (10_state.md R22). -/
inductive Phase where
  /-- the reset-initialisation phase -/
  | init
  /-- waiting for a command -/
  | idle
  /-- executing `r_cmd` -/
  | exec
deriving DecidableEq, Repr

/-- The error codes 1 to 9 (60_exceptions.md R280). -/
inductive ErrKind where
  | alloc | outOfBounds | empty | treeEmpty | unmappedByte | encoding | overflow | sequence | illegal
deriving DecidableEq, Repr

/-- `raise E(info)` (00_scope.md R14, 60_exceptions.md R283). -/
structure Raise where
  kind : ErrKind
  info : Word
deriving DecidableEq, Repr

/-- One entry of NODE (10_state.md R41). -/
structure Node where
  isLeaf : Bool
  synth : Bool
  sym : Byte
  left : NodeIx
  right : NodeIx
  freq : Word
deriving DecidableEq, Repr

/-- The reset value of an entry of NODE: every field 0 (10_state.md R41). -/
def Node.zero : Node := ⟨false, false, 0, 0, 0, 0⟩

/-- One entry of CODE (10_state.md R44). Bit position `j` of the code is `bits.getMsbD j`, so position
0, the branch taken at the root, is the most significant bit (00_scope.md R11). -/
structure CodeEntry where
  len : BitVec 8
  bits : BitVec 255
deriving DecidableEq, Repr

/-- The reset value of an entry of CODE: no code (10_state.md R44). -/
def CodeEntry.zero : CodeEntry := ⟨0, 0⟩

/-- One transfer on a stream (20_memory.md R86, R87). -/
structure Beat where
  data : Byte
  last : Bool
  empty : Bool
deriving DecidableEq, Repr

/-- One bus access as the host presents it (20_memory.md R70: bus_req_write, bus_req_addr,
bus_req_wdata). -/
structure BusReq where
  write : Bool
  addr : BitVec 15
  wdata : Word
deriving DecidableEq, Repr

/-- One bus response (20_memory.md R70: bus_rsp_rdata, bus_rsp_err). -/
structure BusRsp where
  rdata : Word
  err : Bool
deriving DecidableEq, Repr

/-- One entry of the interleaving of host steps and core steps (20_memory.md R97). Log 1. -/
inductive Turn where
  /-- The core takes a turn. With `hold` it stops before an ending step (completion, abort, the end of
  initialisation): CMD_LATENCY and RESET_INIT_TIME have not yet passed (00_scope.md R8). Log 12. -/
  | core (hold : Bool)
  /-- The host presents a register access (20_memory.md R72). -/
  | access (a : BusReq)
  /-- The outstanding access gets its response (20_memory.md R72). -/
  | respond
  /-- The host offers an input beat (20_memory.md R88, R91). -/
  | offer (b : Beat)
  /-- The host becomes ready to take one more output beat (20_memory.md R88). -/
  | ready
  /-- The pin rst_n takes a level (20_memory.md R71). -/
  | rst (level : Bool)
deriving DecidableEq, Repr

/-- The sequencer's pending operations inside a running command (10_state.md R22). -/
inductive Op where
  /-- run the procedure `do_<i>` as an internal step (40_control.md R133) -/
  | run (i : Instr)
  /-- `out_put(b)` (20_memory.md R92) -/
  | put (b : Byte)
  /-- `out_end()` (20_memory.md R93) -/
  | putEnd
  /-- the loop of IN_DISCARD (40_control.md R137) -/
  | discard
  /-- the loop of FREQ_ACCUM (44_codec.md R234) -/
  | accum
  /-- `rd_int(4)` of BB_DESERIALIZE with `k` bytes read into `v` (41_bitbuffer.md R160) -/
  | rdLen (k : Nat) (v : Word)
  /-- `rd_int(2)` of BB_DESERIALIZE: the declared length `n`, the buckets `got` so far, and `k` bytes
  read into `v` (41_bitbuffer.md R160) -/
  | rdBucket (n : Nat) (got : List (BitVec 16)) (k : Nat) (v : BitVec 16)
  /-- the loop of PACK with its flag (44_codec.md R237) -/
  | pack (f : Bool)
  /-- the loop of UNPACK with `n` symbols emitted (44_codec.md R239) -/
  | unpack (n : Nat) (stop : Bool)
  /-- a `raise` whose abort step is still to come (60_exceptions.md R283; log 12) -/
  | fail (r : Raise)
deriving DecidableEq, Repr

/-- The machine. The comment of a field names the spec's name and rule. -/
structure State where
  -- host-visible registers (10_state.md R23)
  /-- CTRL[2:0] (R24) -/
  ctrl : BitVec 3
  /-- SYM_LIMIT (R25) -/
  symLimit : Word
  /-- CMD, `r_cmd` (R26, R51) -/
  cmd : Word
  /-- ERR_CODE[3:0] (R28) -/
  errCode : BitVec 4
  /-- ERR_INFO (R29) -/
  errInfo : Word
  /-- RESULT (R30) -/
  result : Word
  /-- IRQ_STATUS[3:0] (R31) -/
  irqStatus : BitVec 4
  /-- IRQ_ENABLE[3:0] (R32) -/
  irqEnable : BitVec 4
  /-- TB_LEN[11:0] (R33) -/
  tbLen : BitVec 12
  /-- NODE_COUNT[9:0] (R34) -/
  nodeCount : BitVec 10
  /-- ROOT[8:0] (R34) -/
  root : NodeIx
  /-- PQ_SIZE[8:0] (R35) -/
  pqSize : BitVec 9
  /-- FREQ_TOTAL (R36) -/
  freqTotal : Word
  /-- IN_COUNT (R36) -/
  inCount : Word
  /-- OUT_COUNT (R36) -/
  outCount : Word
  -- the sequencer (R22, R51)
  /-- `r_phase` (R22) -/
  phase : Phase
  /-- the pending operations of the running command; `none`: it has not begun (R22) -/
  prog : Option (List Op)
  -- internal RAMs: sparse, sorted, an unlisted index reads as the reset value (log 3)
  /-- FREQ (R40) -/
  freq : List (Nat × Word)
  /-- NODE (R41) -/
  node : List (Nat × Node)
  /-- HEAP (R42) -/
  heap : List (Nat × NodeIx)
  /-- TB, position `i` is `tb.getMsbD i` (R43, 41_bitbuffer.md R151) -/
  tb : BitVec 2576
  /-- CODE (R44) -/
  code : List (Nat × CodeEntry)
  -- internal registers
  /-- `r_in_eom` (R45) -/
  inEom : Bool
  /-- `r_wire_be` (R46) -/
  wireBe : Bool
  /-- `r_sym_lsb` (R46) -/
  symLsb : Bool
  /-- `r_limit_en` (R46) -/
  limitEn : Bool
  /-- `r_sym_limit` (R46) -/
  symLimitL : Word
  /-- `r_path`, position `j` is `path.getMsbD j` (R47) -/
  path : BitVec 255
  /-- `r_depth` (R47) -/
  depth : BitVec 8
  /-- `r_acc` (R48) -/
  acc : Byte
  /-- `r_acc_n` (R48) -/
  accN : BitVec 3
  /-- `r_walk` (R49) -/
  walk : NodeIx
  /-- `r_pos` (R50) -/
  pos : BitVec 12
  /-- the traversal stack: node index and "left done" mark (R50) -/
  stack : Vector (NodeIx × Bool) 512
  /-- `r_tree_valid` (R52) -/
  treeValid : Bool
  /-- `r_code_valid` (R52) -/
  codeValid : Bool
  /-- `r_tail_partial` (R53) -/
  tailPartial : Bool
  /-- `r_limit_hit` (R53) -/
  limitHit : Bool
  -- ports and the host's side
  /-- the pin rst_n (20_memory.md R71) -/
  rstN : Bool
  /-- the response of the outstanding access (20_memory.md R72) -/
  busRsp : Option BusRsp
  /-- input beats the host offers, the next one first (20_memory.md R91) -/
  inQ : List Beat
  /-- how many further output beats the host will take (20_memory.md R88) -/
  outReady : Nat
  -- the model's own (logs 1, 4, 12, 13, 15)
  /-- output beats transferred, oldest first (70_reset_and_hazards.md R325) -/
  outLog : List Beat
  /-- responses delivered, oldest first -/
  rspLog : List BusRsp
  /-- the coming turns, the next one first -/
  sched : List Turn
  /-- the core's present turn may not take an ending step -/
  hold : Bool
  /-- how many free values have been drawn -/
  draws : Nat
deriving DecidableEq, Repr

/-- The machine right after reset: every value of 70_reset_and_hazards.md R310, rst_n just deasserted,
`r_phase` = INIT, nothing offered by the host and nothing scheduled (logs 2, 13, 14). -/
def State.reset : State where
  ctrl := 0
  symLimit := 0
  cmd := 0
  errCode := 0
  errInfo := 0
  result := 0
  irqStatus := 0
  irqEnable := 0
  tbLen := 0
  nodeCount := 0
  root := 0
  pqSize := 0
  freqTotal := 0
  inCount := 0
  outCount := 0
  phase := .init
  prog := none
  freq := []
  node := []
  heap := []
  tb := 0
  code := []
  inEom := true
  wireBe := false
  symLsb := false
  limitEn := false
  symLimitL := 0
  path := 0
  depth := 0
  acc := 0
  accN := 0
  walk := 0
  pos := 0
  stack := Vector.replicate 512 (0, false)
  treeValid := false
  codeValid := false
  tailPartial := false
  limitHit := false
  rstN := true
  busRsp := none
  inQ := []
  outReady := 0
  outLog := []
  rspLog := []
  sched := []
  hold := false
  draws := 0

end Sys2Proof.Machine
end

