-- ==== Sys2Proof/Machine/Ops.lean ====
section
/-! DEFINITION. Machine/Ops.lean: the named operations over RAMs, the tree bit buffer and the streams,
and the command lifecycle: acceptance, completion, and taking an error abort with the return from
it. -/

namespace Sys2Proof.Machine

/-! ### Sparse RAMs (log 3) -/

/-- A RAM: (index, entry) pairs in one canonical form, see `Memory.wf`. An index that is not listed
reads as the RAM's reset value `d` (70_reset_and_hazards.md R310). -/
abbrev Memory (α : Type) := List (Nat × α)

/-- The entry at an index. -/
def Memory.read {α : Type} (d : α) : Memory α → Nat → α
  | [], _ => d
  | (k, v) :: m, a => if a < k then d else if a = k then v else Memory.read d m a

/-- Store an entry. Storing the reset value removes the pair. -/
def Memory.write {α : Type} [DecidableEq α] (d : α) : Memory α → Nat → α → Memory α
  | [], a, v => if v = d then [] else [(a, v)]
  | (k, w) :: m, a, v =>
    if a < k then (if v = d then (k, w) :: m else (a, v) :: (k, w) :: m)
    else if a = k then (if v = d then m else (a, v) :: m)
    else (k, w) :: Memory.write d m a v

/-- Indices rise strictly from `lo` on and stay below `bound`, and no entry is the reset value. -/
def Memory.wfFrom {α : Type} [DecidableEq α] (d : α) (bound : Nat) : Nat → Memory α → Bool
  | _, [] => true
  | lo, (k, v) :: m =>
    decide (lo ≤ k) && decide (k < bound) && decide (v ≠ d) && Memory.wfFrom d bound (k + 1) m

/-- The canonical form of a RAM of `bound` entries. -/
def Memory.wf {α : Type} [DecidableEq α] (d : α) (bound : Nat) (m : Memory α) : Bool :=
  Memory.wfFrom d bound 0 m

/-- FREQ[s] (10_state.md R40). -/
def freqAt (m : Memory Word) (s : Byte) : Word := Memory.read 0 m s.toNat
/-- NODE[x] (10_state.md R41). -/
def nodeAt (m : Memory Node) (x : NodeIx) : Node := Memory.read Node.zero m x.toNat
/-- HEAP[k] (10_state.md R42). -/
def heapAt (m : Memory NodeIx) (k : Nat) : NodeIx := Memory.read 0 m k
/-- CODE[s] (10_state.md R44). -/
def codeAt (m : Memory CodeEntry) (s : Byte) : CodeEntry := Memory.read CodeEntry.zero m s.toNat

/-- `FREQ[s] <- v`. -/
def freqPut (m : Memory Word) (s : Byte) (v : Word) : Memory Word := Memory.write 0 m s.toNat v
/-- `NODE[x] <- v`. -/
def nodePut (m : Memory Node) (x : NodeIx) (v : Node) : Memory Node :=
  Memory.write Node.zero m x.toNat v
/-- `HEAP[k] <- v`. -/
def heapPut (m : Memory NodeIx) (k : Nat) (v : NodeIx) : Memory NodeIx := Memory.write 0 m k v
/-- `CODE[s] <- v`. -/
def codePut (m : Memory CodeEntry) (s : Byte) (v : CodeEntry) : Memory CodeEntry :=
  Memory.write CodeEntry.zero m s.toNat v

/-! ### The tree bit buffer (41_bitbuffer.md R151, R152) -/

/-- The vector with only position `i` set; zero for a position the RAM does not have. -/
def tbBit (i : Nat) : BitVec 2576 :=
  if i < Config.tbBits then BitVec.twoPow 2576 (Config.tbBits - 1 - i) else 0

/-- `tb_get(i)` (41_bitbuffer.md R152). -/
def tbGet (tb : BitVec 2576) (i : Nat) : Bool := tb.getMsbD i

/-- `tb_put(i, b)` (41_bitbuffer.md R152). -/
def tbPut (tb : BitVec 2576) (i : Nat) (b : Bool) : BitVec 2576 :=
  if b then tb ||| tbBit i else tb &&& ~~~ tbBit i

/-- The positions below `n` kept, every other position 0 (41_bitbuffer.md R153). -/
def tbKeep (tb : BitVec 2576) (n : Nat) : BitVec 2576 :=
  tb &&& (BitVec.allOnes 2576 <<< (Config.tbBits - n))

/-- bucket_k: `bucket_k[15 - t] = TB[16k + t]` (41_bitbuffer.md R151). -/
def tbBucket (tb : BitVec 2576) (k : Nat) : BitVec 16 :=
  tb.extractLsb' (16 * (Config.tbBuckets - 1 - k)) 16

/-- TB with `bucket_k <- v` for the listed buckets, from bucket `k` on, all others 0. -/
def tbOfBuckets : Nat → List (BitVec 16) → BitVec 2576
  | _, [] => 0
  | k, v :: vs => (v.setWidth 2576 <<< (16 * (Config.tbBuckets - 1 - k))) ||| tbOfBuckets (k + 1) vs

/-- `nb(n) = ceil(n/16) + 1`, the bucket count (41_bitbuffer.md R162). -/
def bucketCount (n : Nat) : Nat := (n + 15) / 16 + 1

/-! ### Streams -/

/-- The transfer of `in_take()` (20_memory.md R90); `none` while the host offers no beat. -/
def State.takeBeat (s : State) : Option (Beat × State) :=
  match s.inQ with
  | [] => none
  | b :: q =>
    some (b, { s with inQ := q, inEom := b.last,
                      inCount := if b.empty then s.inCount else s.inCount + 1 })

/-- A data beat of the output stream (20_memory.md R87). -/
def dataBeat (b : Byte) : Beat := ⟨b, false, false⟩

/-- The end-of-message marker (20_memory.md R87, R93). -/
def endBeat : Beat := ⟨0, true, true⟩

/-- The transfer of `out_put(b)` (20_memory.md R92); `none` while the host takes no beat. -/
def State.putByte (s : State) (b : Byte) : Option State :=
  match s.outReady with
  | 0 => none
  | n + 1 => some { s with outReady := n, outLog := s.outLog ++ [dataBeat b],
                           outCount := s.outCount + 1 }

/-- The transfer of `out_end()` (20_memory.md R93); `none` while the host takes no beat. -/
def State.putMarker (s : State) : Option State :=
  match s.outReady with
  | 0 => none
  | n + 1 => some { s with outReady := n, outLog := s.outLog ++ [endBeat] }

/-! ### Command lifecycle -/

/-- `latch_config()` (40_control.md R131). -/
def State.latchConfig (s : State) : State :=
  { s with wireBe := s.ctrl.getLsbD 0, symLsb := s.ctrl.getLsbD 1, limitEn := s.ctrl.getLsbD 2,
           symLimitL := s.symLimit }

/-- Acceptance of a command word (40_control.md R130). It is also all the return from an error there
is: ERR_CODE and ERR_INFO are cleared and nothing is restored (60_exceptions.md R285). -/
def State.accept (s : State) (w : Word) : State :=
  State.latchConfig
    { s with cmd := w, phase := .exec, prog := none, errCode := 0, errInfo := 0,
             inCount := 0, outCount := 0 }

/-- IRQ_STATUS.DONE (10_state.md R31). -/
def irqDone : BitVec 4 := 0b0001#4
/-- IRQ_STATUS.ERR (10_state.md R31). -/
def irqErr : BitVec 4 := 0b0010#4
/-- IRQ_STATUS.DROPPED (10_state.md R31). -/
def irqDropped : BitVec 4 := 0b0100#4
/-- IRQ_STATUS.BUS_ERR (10_state.md R31). -/
def irqBusErr : BitVec 4 := 0b1000#4

/-- An event sets an IRQ_STATUS bit (10_state.md R31). -/
def State.raiseIrq (s : State) (bit : BitVec 4) : State :=
  { s with irqStatus := s.irqStatus ||| bit }

/-- `complete()` (40_control.md R132). -/
def State.complete (s : State) : State :=
  State.raiseIrq { s with phase := .idle, prog := none } irqDone

/-- The 4-bit value of an error code (60_exceptions.md R280). -/
def ErrKind.code : ErrKind → BitVec 4
  | .alloc => 1
  | .outOfBounds => 2
  | .empty => 3
  | .treeEmpty => 4
  | .unmappedByte => 5
  | .encoding => 6
  | .overflow => 7
  | .sequence => 8
  | .illegal => 9

/-- `abort(E, info)` after the raising command's clean-up (60_exceptions.md R283): the one operation
that takes an error. -/
def State.abort (s : State) (r : Raise) : State :=
  State.raiseIrq
    { s with errCode := r.kind.code, errInfo := r.info, phase := .idle, prog := none } irqErr

/-- `raise E(info)` with a number as its detail. -/
def raiseNat (kind : ErrKind) (info : Nat) : Raise := ⟨kind, BitVec.ofNat 32 info⟩

/-- `tree_release()` (43_tree.md R203). -/
def State.treeRelease (s : State) : State :=
  { s with nodeCount := 0, root := 0, pqSize := 0, treeValid := false, codeValid := false }

/-- The traversal stack after a traversal: its contents are undefined (43_tree.md R222; log 5). -/
def State.spoilStack (s : State) : State :=
  { s with stack := Config.stackResidue s.draws, draws := s.draws + 1 }

/-! ### What a procedure answers -/

/-- The outcome of an internal computation over some part `σ` of the state: a value, or a `raise`
with the part as it was then. -/
inductive Ans (σ α : Type) where
  | ok (a : α) (s : σ)
  | raise (r : Raise) (s : σ)
deriving DecidableEq, Repr

/-- Go on after an answer; a `raise` leaves at once (00_scope.md R14). -/
def Ans.bind {σ α β : Type} : Ans σ α → (α → σ → Ans σ β) → Ans σ β
  | .ok a s, k => k a s
  | .raise r s, _ => .raise r s

/-- The outcome of one sequencer operation. -/
inductive Res where
  /-- done; `more` comes before the operations still pending -/
  | ok (s : State) (more : List Op)
  /-- `raise`, with the raising procedure's clean-up done -/
  | raise (r : Raise) (s : State)
  /-- blocked in a stream wait: nothing has changed -/
  | wait
  /-- the machine stops -/
  | fault (f : Fault)
deriving DecidableEq, Repr

end Sys2Proof.Machine
end

