-- ==== Sys2Proof/Machine/Operands.lean ====
section
/-! DEFINITION. Machine/Operands.lean: the forms in which commands read and lay out values: the
header's integers (20_memory.md R95), the symbol bits of a leaf (43_tree.md R212), codes and paths
(10_state.md R44, R47), and the bits of a body byte (44_codec.md R231). -/

namespace Sys2Proof.Machine

/-- The bytes of an n-byte unsigned integer, least significant first. -/
def intBytesLe {w : Nat} (n : Nat) (v : BitVec w) : List Byte :=
  (List.range n).map (fun k => v.extractLsb' (8 * k) 8)

/-- `wr_int(v, n)`: the bytes in the order they are emitted (20_memory.md R95). -/
def intBytes {w : Nat} (be : Bool) (n : Nat) (v : BitVec w) : List Byte :=
  if be then (intBytesLe n v).reverse else intBytesLe n v

/-- `rd_int(n)`: byte `k` of the integer enters `v`, whose place for it is still 0 (20_memory.md R95). -/
def intByteIn {w : Nat} (be : Bool) (n k : Nat) (v : BitVec w) (d : Byte) : BitVec w :=
  v ||| (d.setWidth w <<< (8 * (if be then n - 1 - k else k)))

/-- `symbit(v, j)` (43_tree.md R212). -/
def symbit (lsb : Bool) (v : Byte) (j : Nat) : Bool := if lsb then v.getLsbD j else v.getMsbD j

/-- The eight symbol bits in the order they stand in the tree bit buffer (43_tree.md R209, R212). -/
def symBits (lsb : Bool) (v : Byte) : List Bool := (List.range 8).map (symbit lsb v)

/-- The byte whose symbol bit `j` is `bit j` (43_tree.md R213). -/
def symOfBits (lsb : Bool) (bit : Nat → Bool) : Byte :=
  (List.range 8).foldl
    (fun v j => v ||| (BitVec.ofBool (bit j)).setWidth 8 <<< (if lsb then j else 7 - j)) 0

/-- `r_path[j] <- b` (44_codec.md R236). -/
def pathPut (p : BitVec 255) (j : Nat) (b : Bool) : BitVec 255 :=
  let bit := if j < Config.codeMaxBits then BitVec.twoPow 255 (Config.codeMaxBits - 1 - j) else 0
  if b then p ||| bit else p &&& ~~~ bit

/-- `copy_prefix(r_path, n)`: the first `n` bits, every later position 0 (41_bitbuffer.md R161). -/
def pathPrefix (p : BitVec 255) (n : Nat) : BitVec 255 :=
  p &&& (BitVec.allOnes 255 <<< (Config.codeMaxBits - n))

/-- The bits of a code, position 0 first (10_state.md R44). -/
def CodeEntry.toBits (e : CodeEntry) : List Bool := (List.range e.len.toNat).map (e.bits.getMsbD ·)

/-- The bits of a body byte, most significant first (44_codec.md R231, R239). -/
def byteBits (d : Byte) : List Bool := (List.range 8).map (d.getMsbD ·)

/-- All byte values in ascending order (`for s in 0..255`). -/
def allSymbols : List Byte := (List.range Config.symbols).map (BitVec.ofNat 8)

end Sys2Proof.Machine
end

