-- ==== Sys2Proof/Machine/Flags.lean ====
section
/-! DEFINITION. Machine/Flags.lean: everything derived from the flags and the phase: STATUS
(10_state.md R27), the interrupt output (60_exceptions.md R286) and the handshake outputs
(20_memory.md R70, R71, R91, R94). -/

namespace Sys2Proof.Machine

/-- STATUS.BUSY (10_state.md R27). -/
def State.busy (s : State) : Bool := decide (s.phase ≠ .idle)

/-- STATUS.ERROR (10_state.md R27). -/
def State.errorFlag (s : State) : Bool := decide (s.errCode ≠ 0)

/-- STATUS.ROOT_LEAF (10_state.md R27). -/
def State.rootLeaf (s : State) : Bool := s.treeValid && (nodeAt s.node s.root).isLeaf

/-- A flag at a bit position of a 32-bit word. -/
def flagBit (i : Nat) (b : Bool) : Word := (BitVec.ofBool b).setWidth 32 <<< i

/-- What STATUS reads while STATUS.BUSY = 0 (10_state.md R27): IN_WAIT and OUT_WAIT are 0. -/
def State.statusIdle (s : State) : Word :=
  flagBit 1 s.errorFlag ||| flagBit 2 s.treeValid ||| flagBit 3 s.codeValid ||| flagBit 4 s.inEom
    ||| flagBit 5 s.tailPartial ||| flagBit 6 s.limitHit ||| flagBit 7 s.rootLeaf

/-- What STATUS reads: exact while idle; 0x00000001 during initialisation (70_reset_and_hazards.md
R311); while a command executes BUSY = 1, ERROR = 0 and bits [9:2] from the draw `d` (10_state.md R27,
20_memory.md R97). -/
def State.statusWord (s : State) (d : Word) : Word :=
  match s.phase with
  | .idle => s.statusIdle
  | .init => 1#32
  | .exec => (d &&& 0x3FC#32) ||| 1#32

/-- The interrupt output irq (60_exceptions.md R286), 0 while rst_n = 0 (20_memory.md R71). -/
def State.irq (s : State) : Bool := s.rstN && decide (s.irqStatus &&& s.irqEnable ≠ 0)

/-- A write of 1 clears a bit of IRQ_STATUS, a write of 0 leaves it (10_state.md R31). -/
def clearWritten (status : BitVec 4) (v : Word) : BitVec 4 := status &&& ~~~ v.setWidth 4

/-- A pending operation that is inside `in_take` while the host offers nothing (20_memory.md R90). -/
def Op.takesInput : Op → Bool
  | .discard | .accum | .rdLen .. | .rdBucket .. | .pack _ | .unpack .. => true
  | .run _ | .put _ | .putEnd | .fail _ => false

/-- The beat a pending operation offers inside `out_put` or `out_end` (20_memory.md R92, R93). -/
def Op.offers : Op → Option Beat
  | .put b => some (dataBeat b)
  | .putEnd => some endBeat
  | .run _ | .discard | .accum | .rdLen .. | .rdBucket .. | .pack _ | .unpack .. | .fail _ => none

/-- in_ready: 1 only while the core is inside `in_take` (20_memory.md R91). -/
def State.inReady (s : State) : Bool :=
  match s.phase, s.prog with
  | .exec, some (op :: _) => s.rstN && op.takesInput
  | _, _ => false

/-- The output beat on offer; out_valid is 1 when there is one (20_memory.md R94). -/
def State.outOffer (s : State) : Option Beat :=
  match s.phase, s.prog with
  | .exec, some (op :: _) => if s.rstN then op.offers else none
  | _, _ => none

/-- bus_req_ready: 0 while rst_n = 0 and from an acceptance until its response (20_memory.md R71, R72). -/
def State.busReqReady (s : State) : Bool := s.rstN && s.busRsp.isNone

end Sys2Proof.Machine
end

