-- ==== Sys2Proof/Machine/ControlProc.lean ====
section
/-! DEFINITION. Machine/ControlProc.lean: the procedures of the control commands (40_control.md R135,
R136, R137). -/

namespace Sys2Proof.Machine

/-- `do_NOP()` (40_control.md R135). -/
def doNop (s : State) : Res := .ok s []

/-- The datapath at its reset state; CTRL, SYM_LIMIT, IRQ_ENABLE, IRQ_STATUS, `r_cmd`, the latched
configuration and the counters stay (40_control.md R136). -/
def State.softReset (s : State) : State :=
  { s with
    freq := [], code := [], node := [], heap := [], tb := 0
    freqTotal := 0, tbLen := 0, nodeCount := 0, root := 0, pqSize := 0, result := 0
    treeValid := false, codeValid := false
    inEom := true, tailPartial := false, limitHit := false
    path := 0, depth := 0, acc := 0, accN := 0, walk := 0, pos := 0 }

/-- `do_SOFT_RESET()` (40_control.md R136). -/
def doSoftReset (s : State) : Res := .ok s.softReset []

/-- `do_IN_DISCARD()` (40_control.md R137). -/
def doInDiscard (s : State) : Res := .ok s [.discard]

/-- One pass of the loop of IN_DISCARD (40_control.md R137). -/
def discardLoop (s : State) : Res :=
  if s.inEom then .ok s []
  else match s.takeBeat with
    | none => .wait
    | some (_, s') => .ok s' [.discard]

end Sys2Proof.Machine
end

