-- ==== Sys2Proof/Machine/BitBufferProc.lean ====
section
/-! DEFINITION. Machine/BitBufferProc.lean: the procedures of the tree bit buffer commands
(41_bitbuffer.md R154 to R160). -/

namespace Sys2Proof.Machine

/-- `do_BB_CREATE(arg)` (41_bitbuffer.md R154). -/
def doBbCreate (arg : Nat) (s : State) : Res :=
  if Config.tbMaxBits < arg then .raise (raiseNat .alloc arg) s
  else .ok { s with tb := 0, tbLen := BitVec.ofNat 12 arg } []

/-- `do_BB_SET(arg)` (41_bitbuffer.md R155). -/
def doBbSet (arg : Nat) (s : State) : Res :=
  if s.tbLen.toNat ≤ arg then .raise (raiseNat .outOfBounds arg) s
  else .ok { s with tb := tbPut s.tb arg true } []

/-- `do_BB_CLEAR(arg)` (41_bitbuffer.md R156). -/
def doBbClear (arg : Nat) (s : State) : Res :=
  if s.tbLen.toNat ≤ arg then .raise (raiseNat .outOfBounds arg) s
  else .ok { s with tb := tbPut s.tb arg false } []

/-- `do_BB_GET(arg)` (41_bitbuffer.md R157). -/
def doBbGet (arg : Nat) (s : State) : Res :=
  if s.tbLen.toNat ≤ arg then .raise (raiseNat .outOfBounds arg) s
  else .ok { s with result := (BitVec.ofBool (tbGet s.tb arg)).setWidth 32 } []

/-- `do_BB_RESIZE(arg)` (41_bitbuffer.md R158): a shrink clears the positions `arg..TB_LEN-1`. -/
def doBbResize (arg : Nat) (s : State) : Res :=
  if Config.tbMaxBits < arg then .raise (raiseNat .alloc arg) s
  else
    let tb' := if arg < s.tbLen.toNat
      then (List.range' arg (s.tbLen.toNat - arg)).foldl (fun tb i => tbPut tb i false) s.tb
      else s.tb
    .ok { s with tb := tb', tbLen := BitVec.ofNat 12 arg } []

/-- The bytes BB_SERIALIZE emits: total_bits, then the `nb` buckets (41_bitbuffer.md R159). -/
def headerBytes (be : Bool) (len : BitVec 12) (tb : BitVec 2576) : List Byte :=
  intBytes be 4 (len.setWidth 32) ++
    (List.range (bucketCount len.toNat)).flatMap (fun k => intBytes be 2 (tbBucket tb k))

/-- `do_BB_SERIALIZE(f)` (41_bitbuffer.md R159). -/
def doBbSerialize (f : Bool) (s : State) : Res :=
  .ok s ((headerBytes s.wireBe s.tbLen s.tb).map .put ++ if f then [.putEnd] else [])

/-- `tb_discard()` (41_bitbuffer.md R160). -/
def State.tbDiscard (s : State) : State := { s with tb := 0, tbLen := 0 }

/-- `do_BB_DESERIALIZE()` opens an input message and reads the header (41_bitbuffer.md R160). -/
def doBbDeserialize (s : State) : Res := .ok { s with inEom := false } [.rdLen 0 0]

/-- One beat of `rd_int(4)`, the declared total_bits (41_bitbuffer.md R160, 20_memory.md R95). ALLOC
is decided as soon as the integer is complete. -/
def rdLenLoop (k : Nat) (v : Word) (s : State) : Res :=
  match s.takeBeat with
  | none => .wait
  | some (b, s') =>
    let k' := if b.empty then k else k + 1
    let v' := if b.empty then v else intByteIn s.wireBe 4 k v b.data
    if k' < 4 then
      if b.last then .raise (raiseNat .encoding k') s'.tbDiscard
      else .ok s' [.rdLen k' v']
    else if Config.tbMaxBits < v'.toNat then .raise ⟨.alloc, v'⟩ s'.tbDiscard
    else .ok s' [.rdBucket v'.toNat [] 0 0]

/-- The end of the header: TB holds the received buckets with the padding dropped (41_bitbuffer.md
R160, R153). -/
def State.loadBuckets (s : State) (n : Nat) (got : List (BitVec 16)) : State :=
  { s with tb := tbKeep (tbOfBuckets 0 got) n, tbLen := BitVec.ofNat 12 n }

/-- One beat of `rd_int(2)`, a bucket of the header (41_bitbuffer.md R160, 20_memory.md R95). A message
that has ended before the header is complete raises ENCODING with the number of data bytes taken, also
where it ended between two integers: no beat of the next message is taken (R160's exceptions, D13;
log 7). The buckets reach TB together, see log 8. -/
def rdBucketLoop (n : Nat) (got : List (BitVec 16)) (k : Nat) (v : BitVec 16) (s : State) : Res :=
  if s.inEom then .raise (raiseNat .encoding (4 + 2 * got.length + k)) s.tbDiscard
  else match s.takeBeat with
  | none => .wait
  | some (b, s') =>
    let k' := if b.empty then k else k + 1
    let v' := if b.empty then v else intByteIn s.wireBe 2 k v b.data
    if k' < 2 then
      if b.last then .raise (raiseNat .encoding (4 + 2 * got.length + k')) s'.tbDiscard
      else .ok s' [.rdBucket n got k' v']
    else if got.length + 1 < bucketCount n then .ok s' [.rdBucket n (got ++ [v']) 0 0]
    else .ok (s'.loadBuckets n (got ++ [v'])) []

end Sys2Proof.Machine
end

