-- ==== Sys2Proof/Machine/PqueueProc.lean ====
section
/-! DEFINITION. Machine/PqueueProc.lean: the priority queue (42_pqueue.md R181, R182, R183) and the
procedures of its commands (R184, R185, R186). -/

namespace Sys2Proof.Machine

/-- `outranks(a, b)`: a's frequency is strictly lower (42_pqueue.md R181). -/
def outranks (node : Memory Node) (a b : NodeIx) : Bool :=
  decide ((nodeAt node a).freq.toNat < (nodeAt node b).freq.toNat)

/-- `swap(HEAP[i], HEAP[j])`. -/
def heapSwap (h : Memory NodeIx) (i j : Nat) : Memory NodeIx :=
  heapPut (heapPut h i (heapAt h j)) j (heapAt h i)

/-- The sift-up loop of `pq_insert` from position `k` (42_pqueue.md R182); `k` passes are enough. -/
def siftUp (node : Memory Node) : Nat → Nat → Memory NodeIx → Memory NodeIx
  | 0, _, h => h
  | fuel + 1, k, h =>
    if k = 0 then h
    else
      let p := (k - 1) / 2
      if outranks node (heapAt h k) (heapAt h p) then siftUp node fuel p (heapSwap h k p) else h

/-- The child the sift-down loop compares with: the right one only when it strictly outranks the left
one (42_pqueue.md R183). -/
def heapChild (node : Memory Node) (size k : Nat) (h : Memory NodeIx) : Nat :=
  if 2 * k + 2 < size && outranks node (heapAt h (2 * k + 2)) (heapAt h (2 * k + 1))
  then 2 * k + 2 else 2 * k + 1

/-- The sift-down loop of `pq_extract` from position `k` (42_pqueue.md R183); `size` passes are
enough. -/
def siftDown (node : Memory Node) (size : Nat) : Nat → Nat → Memory NodeIx → Memory NodeIx
  | 0, _, h => h
  | fuel + 1, k, h =>
    if size ≤ 2 * k + 1 then h
    else
      let c := heapChild node size k h
      if outranks node (heapAt h c) (heapAt h k) then siftDown node size fuel c (heapSwap h k c)
      else h

/-- The part of the state the queue and the tree builder work on. -/
structure Arena where
  node : Memory Node
  nodeCount : BitVec 10
  heap : Memory NodeIx
  pqSize : BitVec 9
deriving DecidableEq, Repr

/-- The arena of a state. -/
def State.arena (s : State) : Arena := ⟨s.node, s.nodeCount, s.heap, s.pqSize⟩

/-- A state with another arena. -/
def State.withArena (s : State) (a : Arena) : State :=
  { s with node := a.node, nodeCount := a.nodeCount, heap := a.heap, pqSize := a.pqSize }

/-- `pq_insert(x)` (42_pqueue.md R182). -/
def pqInsert (x : NodeIx) (a : Arena) : Ans Arena Unit :=
  if Config.heapCap ≤ a.pqSize.toNat then .raise (raiseNat .alloc (Config.heapCap + 1)) a
  else
    let k := a.pqSize.toNat
    .ok () { a with heap := siftUp a.node k k (heapPut a.heap k x), pqSize := a.pqSize + 1 }

/-- `pq_extract()` (42_pqueue.md R183). -/
def pqExtract (a : Arena) : Ans Arena NodeIx :=
  if a.pqSize = 0 then .raise (raiseNat .empty 0) a
  else
    let top := heapAt a.heap 0
    let n := a.pqSize.toNat - 1
    if n = 0 then .ok top { a with pqSize := 0 }
    else
      .ok top { a with heap := siftDown a.node n n 0 (heapPut a.heap 0 (heapAt a.heap n)),
                       pqSize := BitVec.ofNat 9 n }

/-- `do_PQ_CLEAR()` (42_pqueue.md R184). -/
def doPqClear (s : State) : Res := .ok { s with pqSize := 0 } []

/-- `do_PQ_INSERT(arg)` (42_pqueue.md R185): the bounds check comes before the full-queue check. -/
def doPqInsert (arg : Nat) (s : State) : Res :=
  if s.nodeCount.toNat ≤ arg then .raise (raiseNat .outOfBounds arg) s
  else match pqInsert (BitVec.ofNat 9 arg) s.arena with
    | .ok _ a => .ok (s.withArena a) []
    | .raise r a => .raise r (s.withArena a)

/-- `do_PQ_EXTRACT()` (42_pqueue.md R186). -/
def doPqExtract (s : State) : Res :=
  match pqExtract s.arena with
  | .ok x a => .ok { s.withArena a with result := x.setWidth 32 } []
  | .raise r a => .raise r (s.withArena a)

end Sys2Proof.Machine
end

