-- ==== Sys2Proof/Machine/TreeProc.lean ====
section
/-! DEFINITION. Machine/TreeProc.lean: the node arena (43_tree.md R202), the tree builder (R204, R206),
the tree serializer (R210) and deserializer (R213), and the procedures of the tree commands. -/

namespace Sys2Proof.Machine

/-! ### Building (43_tree.md R202, R204) -/

/-- `alloc_leaf(sym, freq, synth)` (43_tree.md R202). -/
def allocLeaf (sym : Byte) (freq : Word) (synth : Bool) (a : Arena) : NodeIx × Arena :=
  let i := a.nodeCount.setWidth 9
  (i, { a with node := nodePut a.node i ⟨true, synth, sym, 0, 0, freq⟩, nodeCount := a.nodeCount + 1 })

/-- `alloc_internal(left, right, freq)` (43_tree.md R202). -/
def allocInternal (left right : NodeIx) (freq : Word) (a : Arena) : NodeIx × Arena :=
  let i := a.nodeCount.setWidth 9
  (i, { a with node := nodePut a.node i ⟨false, false, 0, left, right, freq⟩,
               nodeCount := a.nodeCount + 1 })

/-- A leaf for every symbol of the list that occurs, inserted as it is made (43_tree.md R204). -/
def insertLeaves (freq : Memory Word) : List Byte → Arena → Ans Arena Unit
  | [], a => .ok () a
  | s :: ss, a =>
    if freqAt freq s = 0 then insertLeaves freq ss a
    else
      let (i, a') := allocLeaf s (freqAt freq s) false a
      (pqInsert i a').bind fun _ a'' => insertLeaves freq ss a''

/-- One merge: the first extraction is the left child, the second the right one (43_tree.md R204). -/
def mergeOnce (a : Arena) : Ans Arena Unit :=
  (pqExtract a).bind fun l a1 =>
  (pqExtract a1).bind fun r a2 =>
    let f := (nodeAt a2.node l).freq.toNat + (nodeAt a2.node r).freq.toNat
    if maxWord < f then .raise (raiseNat .overflow a2.nodeCount.toNat) a2
    else
      let (i, a3) := allocInternal l r (BitVec.ofNat 32 f) a2
      pqInsert i a3

/-- `repeat n times` the merge (43_tree.md R204). -/
def mergeLoop : Nat → Arena → Ans Arena Unit
  | 0, a => .ok () a
  | n + 1, a => (mergeOnce a).bind fun _ a' => mergeLoop n a'

/-- The single-symbol tree: the one leaf and a synthetic leaf under a root (43_tree.md R206). -/
def pairSingle (a : Arena) : Ans Arena NodeIx :=
  (pqExtract a).bind fun x a1 =>
    let (y, a2) := allocLeaf ((nodeAt a1.node x).sym ^^^ 0x01#8) 0 true a1
    let (r, a3) := allocInternal x y (nodeAt a2.node x).freq a2
    .ok r a3

/-- The tree builder from a released arena: the root index (43_tree.md R204). -/
def buildTree (freq : Memory Word) (a : Arena) : Ans Arena NodeIx :=
  (insertLeaves freq allSymbols a).bind fun _ a1 =>
    let leaves := a1.nodeCount.toNat
    if leaves = 0 then .raise (raiseNat .treeEmpty 0) a1
    else if leaves = 1 then pairSingle a1
    else (mergeLoop (leaves - 1) a1).bind fun _ a2 => pqExtract a2

/-- `do_TREE_BUILD()` (43_tree.md R204); on an error the tree is released again. -/
def doTreeBuild (s : State) : Res :=
  let s0 := s.treeRelease
  match buildTree s0.freq s0.arena with
  | .ok r a => .ok { s0.withArena a with root := r, treeValid := true } []
  | .raise e a => .raise e (s0.withArena a).treeRelease

/-- `do_TREE_DESTROY()` (43_tree.md R208). -/
def doTreeDestroy (s : State) : Res := .ok s.treeRelease []

/-! ### Serializing (43_tree.md R209, R210) -/

/-- `tb_put(r_pos, b); r_pos <- r_pos + 1`; `none` at a position no tree reaches (43_tree.md R211). -/
def serBit (b : Bool) (t : BitVec 2576 × Nat) : Option (BitVec 2576 × Nat) :=
  if t.2 < Config.tbMaxBits then some (tbPut t.1 t.2 b, t.2 + 1) else none

/-- Bits written one after the other. -/
def serBits : List Bool → BitVec 2576 × Nat → Option (BitVec 2576 × Nat)
  | [], t => some t
  | b :: bs, t => (serBit b t).bind (serBits bs)

/-- `ser(x)` (43_tree.md R210). `room` is how many entries of the traversal stack are free; an
internal node takes one while its subtrees are visited (43_tree.md R222). `none`: overrun (log 11). -/
def ser (node : Memory Node) (lsb : Bool) :
    Nat → NodeIx → BitVec 2576 × Nat → Option (BitVec 2576 × Nat)
  | room, x, t =>
    if (nodeAt node x).isLeaf then serBits (true :: symBits lsb (nodeAt node x).sym) t
    else match room with
      | 0 => none
      | room + 1 =>
        (serBit false t).bind fun t1 =>
        (ser node lsb room (nodeAt node x).left t1).bind fun t2 =>
          ser node lsb room (nodeAt node x).right t2

/-- `do_TREE_SERIALIZE()` (43_tree.md R210). -/
def doTreeSerialize (s : State) : Res :=
  if s.treeValid then
    match ser s.node s.symLsb Config.nodeCap s.root (0, 0) with
    | none => .fault .traversalOverrun
    | some (tb, pos) =>
      .ok (State.spoilStack { s with tb := tb, tbLen := BitVec.ofNat 12 pos,
                                     pos := BitVec.ofNat 12 pos }) []
  else .raise (raiseNat .sequence 0) s

/-! ### Deserializing (43_tree.md R213, R214) -/

/-- The part of the state the deserializer works on. -/
structure Parse where
  node : Memory Node
  nodeCount : BitVec 10
  pos : Nat
deriving DecidableEq, Repr

/-- A node appended at NODE_COUNT (43_tree.md R202). -/
def Parse.alloc (n : Node) (p : Parse) : NodeIx × Parse :=
  let i := p.nodeCount.setWidth 9
  (i, { p with node := nodePut p.node i n, nodeCount := p.nodeCount + 1 })

/-- `NODE[x].left <- l; NODE[x].right <- r` (43_tree.md R213). -/
def Parse.link (x l r : NodeIx) (p : Parse) : Parse :=
  { p with node := nodePut p.node x { nodeAt p.node x with left := l, right := r } }

/-- `des()` (43_tree.md R213). `room` is how many entries of the traversal stack are free; with NODE_CAP
of them at the start it ends no parse before the check of NODE_CAP does (43_tree.md R222). -/
def des (tb : BitVec 2576) (len : Nat) (lsb : Bool) : Nat → Parse → Ans Parse NodeIx
  | room, p =>
    if len ≤ p.pos then .raise (raiseNat .encoding p.pos) p
    else if Config.nodeCap ≤ p.nodeCount.toNat then .raise (raiseNat .encoding p.pos) p
    else if tbGet tb p.pos then
      if len < p.pos + 1 + 8 then .raise (raiseNat .encoding p.pos) { p with pos := p.pos + 1 }
      else
        let v := symOfBits lsb (fun j => tbGet tb (p.pos + 1 + j))
        let (i, p') := Parse.alloc ⟨true, false, v, 0, 0, 0⟩ { p with pos := p.pos + 9 }
        .ok i p'
    else match room with
      | 0 => .raise (raiseNat .encoding p.pos) p
      | room + 1 =>
        let (x, p1) := Parse.alloc ⟨false, false, 0, 0, 0, 0⟩ { p with pos := p.pos + 1 }
        (des tb len lsb room p1).bind fun l p2 =>
        (des tb len lsb room p2).bind fun r p3 => .ok x (p3.link x l r)

/-- A state with the nodes and the position of a parse. -/
def State.withParse (s : State) (p : Parse) : State :=
  { s with node := p.node, nodeCount := p.nodeCount, pos := BitVec.ofNat 12 p.pos }

/-- `do_TREE_DESERIALIZE()` (43_tree.md R213); on an error the tree is released again. -/
def doTreeDeserialize (s : State) : Res :=
  let s0 := s.treeRelease
  match des s0.tb s0.tbLen.toNat s0.symLsb Config.nodeCap ⟨s0.node, s0.nodeCount, 0⟩ with
  | .ok r p => .ok (State.spoilStack { s0.withParse p with root := r, treeValid := true }) []
  | .raise e p => .raise e (s0.withParse p).treeRelease.spoilStack

end Sys2Proof.Machine
end

