-- ==== Sys2Proof/Machine/CodecProc.lean ====
section
/-! DEFINITION. Machine/CodecProc.lean: the frequency accumulator (44_codec.md R233, R234), the code
table (R236), the bit-packer (R232, R237), the bit-unpacker (R239) and the pipelines (R241, R242). -/

namespace Sys2Proof.Machine

/-! ### Frequency accumulator -/

/-- `do_FREQ_CLEAR()` (44_codec.md R233). -/
def doFreqClear (s : State) : Res := .ok { s with freq := [], freqTotal := 0 } []

/-- `do_FREQ_ACCUM()` opens an input message (44_codec.md R234). -/
def doFreqAccum (s : State) : Res := .ok { s with inEom := false } [.accum]

/-- A data byte counted (44_codec.md R234). -/
def State.countByte (s : State) (d : Byte) : State :=
  { s with freq := freqPut s.freq d (freqAt s.freq d + 1), freqTotal := s.freqTotal + 1 }

/-- One pass of the loop of FREQ_ACCUM (44_codec.md R234). -/
def accumLoop (s : State) : Res :=
  if s.inEom then .ok s []
  else match s.takeBeat with
    | none => .wait
    | some (b, s') =>
      if b.empty then .ok s' [.accum]
      else if s'.freqTotal.toNat = maxWord ∨ (freqAt s'.freq b.data).toNat = maxWord then
        .raise (raiseNat .overflow b.data.toNat) s'
      else .ok (s'.countByte b.data) [.accum]

/-! ### Code table -/

/-- The part of the state the code walk works on. -/
structure Gen where
  code : Memory CodeEntry
  path : BitVec 255
  depth : BitVec 8
deriving DecidableEq, Repr

/-- `r_path[r_depth] <- b; r_depth <- r_depth + 1` (44_codec.md R236). -/
def Gen.push (b : Bool) (g : Gen) : Gen :=
  { g with path := pathPut g.path g.depth.toNat b, depth := g.depth + 1 }

/-- `r_depth <- r_depth - 1` (44_codec.md R236). -/
def Gen.pop (g : Gen) : Gen := { g with depth := g.depth - 1 }

/-- The path stored as the code of a symbol (44_codec.md R236, 41_bitbuffer.md R161). -/
def Gen.store (sym : Byte) (g : Gen) : Gen :=
  { g with code := codePut g.code sym ⟨g.depth, pathPrefix g.path g.depth.toNat⟩ }

/-- `walk(x)` (44_codec.md R236). `room` is CODE_MAX_BITS - r_depth: an internal node at depth
CODE_MAX_BITS raises ALLOC. -/
def walkCodes (node : Memory Node) : Nat → NodeIx → Gen → Ans Gen Unit
  | room, x, g =>
    if (nodeAt node x).isLeaf then
      .ok () (if (nodeAt node x).synth then g else g.store (nodeAt node x).sym)
    else match room with
      | 0 => .raise (raiseNat .alloc (Config.codeMaxBits + 1)) g
      | room + 1 =>
        (walkCodes node room (nodeAt node x).left (g.push false)).bind fun _ g1 =>
        (walkCodes node room (nodeAt node x).right (g1.pop.push true)).bind fun _ g2 =>
          .ok () g2.pop

/-- The clean-up of CODE_GEN on every error: CODE cleared, CODE_VALID = 0 (44_codec.md R236,
60_exceptions.md R283). -/
def State.codeDiscard (s : State) : State := { s with code := [], codeValid := false }

/-- `do_CODE_GEN()` (44_codec.md R236). -/
def doCodeGen (s : State) : Res :=
  if !s.treeValid then .raise (raiseNat .sequence 0) s.codeDiscard
  else if (nodeAt s.node s.root).isLeaf then .raise (raiseNat .encoding 0) s.codeDiscard
  else match walkCodes s.node Config.codeMaxBits s.root ⟨[], s.path, 0⟩ with
    | .ok _ g =>
      .ok (State.spoilStack { s with code := g.code, path := g.path, depth := g.depth,
                                     codeValid := true }) []
    | .raise e g =>
      .raise e (State.spoilStack (State.codeDiscard { s with path := g.path, depth := g.depth }))

/-! ### Bit-packer -/

/-- `emit_bit(b)` on (r_acc, r_acc_n): the new pair, and the byte it completes (44_codec.md R232). -/
def emitBit (acc : Byte) (n : BitVec 3) (b : Bool) : Byte × BitVec 3 × List Byte :=
  let acc' := (acc <<< 1) ||| (BitVec.ofBool b).setWidth 8
  if n = 7 then (0, 0, [acc']) else (acc', n + 1, [])

/-- `emit_bit` for bits one after the other: the pair after them and the bytes completed. -/
def emitBits : List Bool → Byte → BitVec 3 → Byte × BitVec 3 × List Byte
  | [], acc, n => (acc, n, [])
  | b :: bs, acc, n =>
    let r := emitBit acc n b
    let q := emitBits bs r.1 r.2.1
    (q.1, q.2.1, r.2.2 ++ q.2.2)

/-- `flush()`: the partial byte, left-aligned and zero-padded (44_codec.md R232). -/
def flushByte (acc : Byte) (n : BitVec 3) : List Byte :=
  if n = 0 then [] else [acc <<< (8 - n.toNat)]

/-- `do_PACK(f)` (44_codec.md R237). -/
def doPack (f : Bool) (s : State) : Res :=
  if s.codeValid then .ok { s with inEom := false, acc := 0, accN := 0 } [.pack f]
  else .raise (raiseNat .sequence 0) s

/-- One pass of the loop of PACK, and the flush and end marker after it (44_codec.md R237). -/
def packLoop (f : Bool) (s : State) : Res :=
  if s.inEom then
    .ok { s with acc := 0, accN := 0 }
      ((flushByte s.acc s.accN).map .put ++ if f then [.putEnd] else [])
  else match s.takeBeat with
    | none => .wait
    | some (b, s') =>
      if b.empty then .ok s' [.pack f]
      else if (codeAt s'.code b.data).len = 0 then .raise (raiseNat .unmappedByte b.data.toNat) s'
      else
        let r := emitBits (codeAt s'.code b.data).toBits s'.acc s'.accN
        .ok { s' with acc := r.1, accN := r.2.1 } (r.2.2.map .put ++ [.pack f])

/-! ### Bit-unpacker -/

/-- Where the unpacker stands inside a byte (44_codec.md R239). -/
structure Walker where
  /-- `r_walk` -/
  walk : NodeIx
  /-- symbols emitted -/
  n : Nat
  /-- the limit was reached -/
  hit : Bool
deriving DecidableEq, Repr

/-- The walk of 44_codec.md R239 over bits one after the other: where it ends and the symbols emitted.
`limit` is SYM_LIMIT when LIMIT_EN = 1; reaching it leaves the loop. -/
def walkBits (node : Memory Node) (root : NodeIx) (limit : Option Nat) :
    List Bool → Walker → Walker × List Byte
  | [], w => (w, [])
  | b :: bs, w =>
    let x := if b then (nodeAt node w.walk).right else (nodeAt node w.walk).left
    if (nodeAt node x).isLeaf then
      if limit = some (w.n + 1) then (⟨root, w.n + 1, true⟩, [(nodeAt node x).sym])
      else
        let q := walkBits node root limit bs ⟨root, w.n + 1, false⟩
        (q.1, (nodeAt node x).sym :: q.2)
    else walkBits node root limit bs { w with walk := x }

/-- The symbol limit in force, from the latched configuration (10_state.md R46). -/
def State.limit (s : State) : Option Nat := if s.limitEn then some s.symLimitL.toNat else none

/-- `do_UNPACK(f)` (44_codec.md R239). -/
def doUnpack (f : Bool) (s : State) : Res :=
  if !s.treeValid then .raise (raiseNat .sequence 0) s
  else if (nodeAt s.node s.root).isLeaf then .raise (raiseNat .encoding 0) s
  else
    let stop := decide (s.limit = some 0)
    .ok { s with inEom := if f then false else s.inEom, walk := s.root, tailPartial := false,
                 limitHit := stop } [.unpack 0 stop]

/-- One pass of the loop of UNPACK, and TAIL_PARTIAL and the end marker after it (44_codec.md R239). -/
def unpackLoop (n : Nat) (stop : Bool) (s : State) : Res :=
  if s.inEom then
    .ok { s with tailPartial := !stop && decide (s.walk ≠ s.root) } [.putEnd]
  else match s.takeBeat with
    | none => .wait
    | some (b, s') =>
      if b.empty || stop then .ok s' [.unpack n stop]
      else
        let r := walkBits s'.node s'.root s'.limit (byteBits b.data) ⟨s'.walk, n, false⟩
        .ok { s' with walk := r.1.walk, limitHit := r.1.hit }
          (r.2.map .put ++ [.unpack r.1.n r.1.hit])

/-! ### Pipelines -/

/-- `do_ENCODE()`: seven internal steps (44_codec.md R241). -/
def doEncode (s : State) : Res :=
  .ok s [.run .freqClear, .run .freqAccum, .run .treeBuild, .run .treeSerialize,
         .run (.bbSerialize false), .run .codeGen, .run (.pack true)]

/-- `do_DECODE()`: three internal steps (44_codec.md R242). -/
def doDecode (s : State) : Res :=
  .ok s [.run .bbDeserialize, .run .treeDeserialize, .run (.unpack false)]

end Sys2Proof.Machine
end

