-- ==== Sys2Proof/Machine/Sequencer.lean ====
section
/-! DEFINITION. Machine/Sequencer.lean: how a command's procedure runs (40_control.md R130, R132, R133;
20_memory.md R97). A core turn runs the pending operations until the command ends, or waits for the
host in `in_take`, `out_put` or `out_end` (00_scope.md R17). -/

namespace Sys2Proof.Machine

/-- `out_put(b)` (20_memory.md R92). -/
def putOp (b : Byte) (s : State) : Res :=
  match s.putByte b with
  | some s' => .ok s' []
  | none => .wait

/-- `out_end()` (20_memory.md R93). -/
def putEndOp (s : State) : Res :=
  match s.putMarker with
  | some s' => .ok s' []
  | none => .wait

/-- `do_<mnemonic>(d.f, d.arg)` (40_control.md R130). -/
def procOf (i : Instr) (s : State) : Res :=
  match i with
  | .nop => doNop s
  | .softReset => doSoftReset s
  | .inDiscard => doInDiscard s
  | .bbCreate arg => doBbCreate arg s
  | .bbSet arg => doBbSet arg s
  | .bbClear arg => doBbClear arg s
  | .bbGet arg => doBbGet arg s
  | .bbResize arg => doBbResize arg s
  | .bbSerialize f => doBbSerialize f s
  | .bbDeserialize => doBbDeserialize s
  | .pqClear => doPqClear s
  | .pqInsert arg => doPqInsert arg s
  | .pqExtract => doPqExtract s
  | .treeBuild => doTreeBuild s
  | .treeDestroy => doTreeDestroy s
  | .treeSerialize => doTreeSerialize s
  | .treeDeserialize => doTreeDeserialize s
  | .freqClear => doFreqClear s
  | .freqAccum => doFreqAccum s
  | .codeGen => doCodeGen s
  | .pack f => doPack f s
  | .unpack f => doUnpack f s
  | .encode => doEncode s
  | .decode => doDecode s

/-- One sequencer operation. -/
def runOp (op : Op) (s : State) : Res :=
  match op with
  | .run i => procOf i s
  | .put b => putOp b s
  | .putEnd => putEndOp s
  | .discard => discardLoop s
  | .accum => accumLoop s
  | .rdLen k v => rdLenLoop k v s
  | .rdBucket n got k v => rdBucketLoop n got k v s
  | .pack f => packLoop f s
  | .unpack n stop => unpackLoop n stop s
  | .fail r => .raise r s

/-- The successful end of the top-level command (40_control.md R132); a held turn stops before it. -/
def finish (s : State) : Host.Outcome State Fault Refusal :=
  if s.hold then .next { s with prog := some [] } else .next s.complete

/-- The abort of the top-level command (60_exceptions.md R283); a held turn stops before it. -/
def failWith (r : Raise) (s : State) : Host.Outcome State Fault Refusal :=
  if s.hold then .next { s with prog := some [.fail r] } else .next (s.abort r)

/-- The pending operations, one after the other, at most `fuel` of them. -/
def runOps : Nat → List Op → State → Host.Outcome State Fault Refusal
  | _, [], s => finish s
  | 0, ops, s => .next { s with prog := some ops }
  | fuel + 1, op :: ops, s =>
    match runOp op s with
    | .ok s' more => runOps fuel (more ++ ops) s'
    | .raise r s' => failWith r s'
    | .wait => .next { s with prog := some (op :: ops) }
    | .fault f => .fault f

/-- Enough operations for a turn to end only at the command's end or in a stream wait: an operation
either takes an offered beat, gives one to a ready host, or is one of the bounded number left. -/
def turnFuel (ops : List Op) (s : State) : Nat :=
  s.inQ.length + s.outReady + 16 * (ops.length + 1)

/-- A core turn of the running command whose procedure is `body`: it begins the procedure, or goes on
where the last turn stopped. -/
def command (body : State → Res) (s : State) : Host.Outcome State Fault Refusal :=
  match s.prog with
  | some ops => runOps (turnFuel ops s) ops s
  | none =>
    match body s with
    | .ok s' more => runOps (turnFuel more s') more s'
    | .raise r s' => failWith r s'
    | .wait => .next s
    | .fault f => .fault f

end Sys2Proof.Machine
end

