-- ==== Sys2Proof/Machine/BitBuffer.lean ====
section
/-! DEFINITION. Machine/BitBuffer.lean: the meanings of the tree bit buffer commands (41_bitbuffer.md R154 to R160): what a core turn does while the
accepted command is this one. -/

namespace Sys2Proof.Machine

/-- BB_CREATE (41_bitbuffer.md R154). -/
def execBbCreate (arg : Nat) (s : State) : Host.Outcome State Fault Refusal := command (doBbCreate arg) s

/-- BB_SET (41_bitbuffer.md R155). -/
def execBbSet (arg : Nat) (s : State) : Host.Outcome State Fault Refusal := command (doBbSet arg) s

/-- BB_CLEAR (41_bitbuffer.md R156). -/
def execBbClear (arg : Nat) (s : State) : Host.Outcome State Fault Refusal := command (doBbClear arg) s

/-- BB_GET (41_bitbuffer.md R157). -/
def execBbGet (arg : Nat) (s : State) : Host.Outcome State Fault Refusal := command (doBbGet arg) s

/-- BB_RESIZE (41_bitbuffer.md R158). -/
def execBbResize (arg : Nat) (s : State) : Host.Outcome State Fault Refusal := command (doBbResize arg) s

/-- BB_SERIALIZE (41_bitbuffer.md R159). -/
def execBbSerialize (f : Bool) (s : State) : Host.Outcome State Fault Refusal := command (doBbSerialize f) s

/-- BB_DESERIALIZE (41_bitbuffer.md R160). -/
def execBbDeserialize (s : State) : Host.Outcome State Fault Refusal := command doBbDeserialize s

end Sys2Proof.Machine
end

