-- ==== Sys2Proof/Machine/Codec.lean ====
section
/-! DEFINITION. Machine/Codec.lean: the meanings of the codec commands (44_codec.md R233 to R242): what a core turn does while the
accepted command is this one. -/

namespace Sys2Proof.Machine

/-- FREQ_CLEAR (44_codec.md R233). -/
def execFreqClear (s : State) : Host.Outcome State Fault Refusal := command doFreqClear s

/-- FREQ_ACCUM (44_codec.md R234). -/
def execFreqAccum (s : State) : Host.Outcome State Fault Refusal := command doFreqAccum s

/-- CODE_GEN (44_codec.md R236). -/
def execCodeGen (s : State) : Host.Outcome State Fault Refusal := command doCodeGen s

/-- PACK (44_codec.md R237). -/
def execPack (f : Bool) (s : State) : Host.Outcome State Fault Refusal := command (doPack f) s

/-- UNPACK (44_codec.md R239). -/
def execUnpack (f : Bool) (s : State) : Host.Outcome State Fault Refusal := command (doUnpack f) s

/-- ENCODE (44_codec.md R241). -/
def execEncode (s : State) : Host.Outcome State Fault Refusal := command doEncode s

/-- DECODE (44_codec.md R242). -/
def execDecode (s : State) : Host.Outcome State Fault Refusal := command doDecode s

end Sys2Proof.Machine
end

