-- ==== Sys2Proof/Machine/Control.lean ====
section
/-! DEFINITION. Machine/Control.lean: the meanings of the control commands (40_control.md R135, R136, R137): what a core turn does while the
accepted command is this one. -/

namespace Sys2Proof.Machine

/-- NOP (40_control.md R135). -/
def execNop (s : State) : Host.Outcome State Fault Refusal := command doNop s

/-- SOFT_RESET (40_control.md R136). -/
def execSoftReset (s : State) : Host.Outcome State Fault Refusal := command doSoftReset s

/-- IN_DISCARD (40_control.md R137). -/
def execInDiscard (s : State) : Host.Outcome State Fault Refusal := command doInDiscard s

end Sys2Proof.Machine
end

