-- ==== Sys2Proof/Machine/Pqueue.lean ====
section
/-! DEFINITION. Machine/Pqueue.lean: the meanings of the priority queue commands (42_pqueue.md R184, R185, R186): what a core turn does while the
accepted command is this one. -/

namespace Sys2Proof.Machine

/-- PQ_CLEAR (42_pqueue.md R184). -/
def execPqClear (s : State) : Host.Outcome State Fault Refusal := command doPqClear s

/-- PQ_INSERT (42_pqueue.md R185). -/
def execPqInsert (arg : Nat) (s : State) : Host.Outcome State Fault Refusal := command (doPqInsert arg) s

/-- PQ_EXTRACT (42_pqueue.md R186). -/
def execPqExtract (s : State) : Host.Outcome State Fault Refusal := command doPqExtract s

end Sys2Proof.Machine
end

