-- ==== Sys2Proof/Machine/Tree.lean ====
section
/-! DEFINITION. Machine/Tree.lean: the meanings of the tree commands (43_tree.md R204, R208, R210, R213): what a core turn does while the
accepted command is this one. -/

namespace Sys2Proof.Machine

/-- TREE_BUILD (43_tree.md R204). -/
def execTreeBuild (s : State) : Host.Outcome State Fault Refusal := command doTreeBuild s

/-- TREE_DESTROY (43_tree.md R208). -/
def execTreeDestroy (s : State) : Host.Outcome State Fault Refusal := command doTreeDestroy s

/-- TREE_SERIALIZE (43_tree.md R210). -/
def execTreeSerialize (s : State) : Host.Outcome State Fault Refusal := command doTreeSerialize s

/-- TREE_DESERIALIZE (43_tree.md R213). -/
def execTreeDeserialize (s : State) : Host.Outcome State Fault Refusal := command doTreeDeserialize s

end Sys2Proof.Machine
end

