-- ==== Sys2Proof/Machine/Dispatch.lean ====
section
/-! DEFINITION. Machine/Dispatch.lean: which meaning a core turn of a command has. -/

namespace Sys2Proof.Machine

def exec (i : Instr) (s : State) : Host.Outcome State Fault Refusal :=
  match i with
  | .nop => Sys2Proof.Machine.execNop s
  | .softReset => Sys2Proof.Machine.execSoftReset s
  | .inDiscard => Sys2Proof.Machine.execInDiscard s
  | .bbCreate arg => Sys2Proof.Machine.execBbCreate arg s
  | .bbSet arg => Sys2Proof.Machine.execBbSet arg s
  | .bbClear arg => Sys2Proof.Machine.execBbClear arg s
  | .bbGet arg => Sys2Proof.Machine.execBbGet arg s
  | .bbResize arg => Sys2Proof.Machine.execBbResize arg s
  | .bbSerialize f => Sys2Proof.Machine.execBbSerialize f s
  | .bbDeserialize => Sys2Proof.Machine.execBbDeserialize s
  | .pqClear => Sys2Proof.Machine.execPqClear s
  | .pqInsert arg => Sys2Proof.Machine.execPqInsert arg s
  | .pqExtract => Sys2Proof.Machine.execPqExtract s
  | .treeBuild => Sys2Proof.Machine.execTreeBuild s
  | .treeDestroy => Sys2Proof.Machine.execTreeDestroy s
  | .treeSerialize => Sys2Proof.Machine.execTreeSerialize s
  | .treeDeserialize => Sys2Proof.Machine.execTreeDeserialize s
  | .freqClear => Sys2Proof.Machine.execFreqClear s
  | .freqAccum => Sys2Proof.Machine.execFreqAccum s
  | .codeGen => Sys2Proof.Machine.execCodeGen s
  | .pack f => Sys2Proof.Machine.execPack f s
  | .unpack f => Sys2Proof.Machine.execUnpack f s
  | .encode => Sys2Proof.Machine.execEncode s
  | .decode => Sys2Proof.Machine.execDecode s

end Sys2Proof.Machine
end

