-- ==== Sys2Proof/Machine/Bus.lean ====
section
/-! DEFINITION. Machine/Bus.lean: the register bus: the address map (20_memory.md R75, 10_state.md R23),
the windows (20_memory.md R79 to R83), reads, writes, and accesses not performed (R76, R77, R78). -/

namespace Sys2Proof.Machine

/-- The registers in the order of their offsets (10_state.md R23). -/
inductive Reg where
  | id | version | ctrl | symLimit | cmd | status | errCode | errInfo | result | irqStatus
  | irqEnable | tbLen | nodeCount | root | pqSize | freqTotal | inCount | outCount
deriving DecidableEq, Repr

/-- What an address names (20_memory.md R75). -/
inductive Target where
  /-- a register of 10_state.md R23 -/
  | reg (r : Reg)
  /-- FREQ window word `s` (20_memory.md R79) -/
  | freq (s : Byte)
  /-- HEAP window word `k` (20_memory.md R80) -/
  | heap (k : Nat)
  /-- NODE window entry `i`, its second word when `hi` (20_memory.md R81) -/
  | node (i : NodeIx) (hi : Bool)
  /-- TB window word `k` (20_memory.md R83) -/
  | tb (k : Nat)
  /-- CODE window entry `s`, word `w` (20_memory.md R82) -/
  | code (s : Byte) (w : Nat)
  /-- a reserved range, or an address that is not a multiple of 4 (20_memory.md R78 cases 1, 2) -/
  | nothing
deriving DecidableEq, Repr

/-- The register at word offset `n` (10_state.md R23). -/
def regAt (n : Nat) : Target :=
  match n with
  | 0 => .reg .id
  | 1 => .reg .version
  | 2 => .reg .ctrl
  | 3 => .reg .symLimit
  | 4 => .reg .cmd
  | 5 => .reg .status
  | 6 => .reg .errCode
  | 7 => .reg .errInfo
  | 8 => .reg .result
  | 9 => .reg .irqStatus
  | 10 => .reg .irqEnable
  | 11 => .reg .tbLen
  | 12 => .reg .nodeCount
  | 13 => .reg .root
  | 14 => .reg .pqSize
  | 15 => .reg .freqTotal
  | 16 => .reg .inCount
  | 17 => .reg .outCount
  | _ => .nothing

/-- The address map (20_memory.md R73, R75). -/
def targetOf (addr : BitVec 15) : Target :=
  let a := addr.toNat
  if a % 4 ≠ 0 then .nothing
  else if a < 0x0400 then regAt (a / 4)
  else if a < 0x0800 then .freq (BitVec.ofNat 8 ((a - 0x0400) / 4))
  else if a < 0x0C00 then .heap ((a - 0x0800) / 4)
  else if a < 0x1000 then .nothing
  else if a < 0x2000 then .node (BitVec.ofNat 9 ((a - 0x1000) / 8)) (decide (a % 8 = 4))
  else if a < 0x2284 then .tb ((a - 0x2000) / 4)
  else if a < 0x4000 then .nothing
  else .code (BitVec.ofNat 8 ((a - 0x4000) / 64)) ((a - 0x4000) % 64 / 4)

/-- Registers that read as any value while a command executes (20_memory.md R97). -/
def Reg.drawnWhileBusy : Reg → Bool
  | .status | .result | .tbLen | .nodeCount | .root | .pqSize | .freqTotal => true
  | .id | .version | .ctrl | .symLimit | .cmd | .errCode | .errInfo | .irqStatus | .irqEnable
  | .inCount | .outCount => false

/-- A read of this register in this state is a draw (20_memory.md R97). -/
def State.isDraw (s : State) (r : Reg) : Bool := decide (s.phase = .exec) && r.drawnWhileBusy

/-- A field of `w` bits that is exact while idle and drawn while a command executes. -/
def State.drawnField {w : Nat} (s : State) (v : BitVec w) : Word :=
  if s.phase = .exec then ((Config.busyDraw s.draws).setWidth w).setWidth 32 else v.setWidth 32

/-- What a register reads (10_state.md R24 to R37). -/
def State.readReg (s : State) : Reg → Word
  | .id => Config.idValue
  | .version => Config.versionValue
  | .ctrl => s.ctrl.setWidth 32
  | .symLimit => s.symLimit
  | .cmd => s.cmd
  | .status => s.statusWord (Config.busyDraw s.draws)
  | .errCode => s.errCode.setWidth 32
  | .errInfo => s.errInfo
  | .result => s.drawnField s.result
  | .irqStatus => s.irqStatus.setWidth 32
  | .irqEnable => s.irqEnable.setWidth 32
  | .tbLen => s.drawnField s.tbLen
  | .nodeCount => s.drawnField s.nodeCount
  | .root => s.drawnField (if s.treeValid then s.root else 0)
  | .pqSize => s.drawnField s.pqSize
  | .freqTotal => s.drawnField s.freqTotal
  | .inCount => s.inCount
  | .outCount => s.outCount

/-- Word 0 of a NODE window entry (20_memory.md R81). -/
def Node.word0 (n : Node) : Word :=
  BitVec.ofBool n.isLeaf ++ BitVec.ofBool n.synth ++ 0#4 ++ n.sym ++ n.right ++ n.left

/-- Word `w` of a CODE window entry (20_memory.md R82). -/
def CodeEntry.word (e : CodeEntry) (w : Nat) : Word :=
  if w = 0 then e.len.setWidth 32
  else if w ≤ 8 then (e.bits ++ 0#1).extractLsb' (32 * (8 - w)) 32
  else 0

/-- What a window word reads while idle (20_memory.md R79 to R83). -/
def State.readTarget (s : State) : Target → Word
  | .reg r => s.readReg r
  | .freq x => freqAt s.freq x
  | .heap k => if k < s.pqSize.toNat then (heapAt s.heap k).setWidth 32 else 0
  | .node i hi =>
    if i.toNat < s.nodeCount.toNat then
      (if hi then (nodeAt s.node i).freq else (nodeAt s.node i).word0)
    else 0
  | .tb k => (tbBucket s.tb k).setWidth 32
  | .code x w => (codeAt s.code x).word w
  | .nothing => 0

/-- Whether a read is performed (20_memory.md R76, R78 cases 1, 2, 4, 5). -/
def State.readable (s : State) : Target → Bool
  | .nothing => false
  | .reg .id | .reg .version | .reg .status => true
  | .reg _ => decide (s.phase ≠ .init)
  | .freq _ | .heap _ | .node .. | .tb _ | .code .. => decide (s.phase = .idle)

/-- Whether a write is performed (20_memory.md R77, R78). -/
def State.writable (s : State) : Target → Bool
  | .reg .ctrl | .reg .symLimit | .reg .cmd | .reg .irqStatus | .reg .irqEnable =>
    decide (s.phase ≠ .init)
  | .freq _ => decide (s.phase = .idle)
  | .reg _ | .heap _ | .node .. | .tb _ | .code .. | .nothing => false

/-- A CMD write: acceptance while idle, dropped while a command executes (10_state.md R26,
40_control.md R130, R134). -/
def State.writeCmd (s : State) (v : Word) : State :=
  if s.phase = .idle then s.accept v else s.raiseIrq irqDropped

/-- The effect of a performed write (20_memory.md R77, R79; 10_state.md R24, R25, R31, R32). -/
def State.writeTarget (s : State) (t : Target) (v : Word) : State :=
  match t with
  | .reg .ctrl => { s with ctrl := v.setWidth 3 }
  | .reg .symLimit => { s with symLimit := v }
  | .reg .cmd => s.writeCmd v
  | .reg .irqStatus => { s with irqStatus := clearWritten s.irqStatus v }
  | .reg .irqEnable => { s with irqEnable := v.setWidth 4 }
  | .freq x => { s with freq := freqPut s.freq x v }
  | .reg _ | .heap _ | .node .. | .tb _ | .code .. | .nothing => s

/-- The draw counter after a read (20_memory.md R97). -/
def State.countDraw (s : State) : Target → State
  | .reg r => if s.isDraw r then { s with draws := s.draws + 1 } else s
  | .freq _ | .heap _ | .node .. | .tb _ | .code .. | .nothing => s

/-- An access that is not performed (20_memory.md R78). -/
def State.notPerformed (s : State) : State :=
  { s.raiseIrq irqBusErr with busRsp := some ⟨0, true⟩ }

/-- One accepted bus access: its effect and its response (20_memory.md R72, R76, R77). -/
def State.busAccess (s : State) (a : BusReq) : State :=
  let t := targetOf a.addr
  if a.write then
    if s.writable t then { s.writeTarget t a.wdata with busRsp := some ⟨0, false⟩ }
    else s.notPerformed
  else
    if s.readable t then { s.countDraw t with busRsp := some ⟨s.readTarget t, false⟩ }
    else s.notPerformed

end Sys2Proof.Machine
end

