-- ==== Sys2Proof/Machine/Turns.lean ====
section
/-! DEFINITION. Machine/Turns.lean: what the host's turns do (20_memory.md R70 to R72, R86 to R92;
70_reset_and_hazards.md R310 to R312), the end of initialisation, and the abort of an ILLEGAL word. -/

namespace Sys2Proof.Machine

/-- The outstanding access gets its response (20_memory.md R72). -/
def State.respond (s : State) : State :=
  match s.busRsp with
  | some r => { s with busRsp := none, rspLog := s.rspLog ++ [r] }
  | none => s

/-- Every piece of state at its reset value (70_reset_and_hazards.md R310). The host's side and the
model's own fields stay. -/
def State.atReset (s : State) : State :=
  { State.reset with
    inQ := s.inQ, outReady := s.outReady, outLog := s.outLog, rspLog := s.rspLog, sched := s.sched,
    hold := s.hold, draws := s.draws }

/-- rst_n = 0: every piece of state takes its reset value and an access in flight gets no response
(20_memory.md R71; 70_reset_and_hazards.md R310, R312). -/
def State.assertReset (s : State) : State := { s.atReset with rstN := false }

/-- The pin rst_n takes a level. -/
def State.setRst (s : State) (level : Bool) : State :=
  if level then { s with rstN := true } else s.assertReset

/-- The end of initialisation: every piece of state at its reset value, also an IRQ_STATUS.BUS_ERR that
an access in INIT has set (70_reset_and_hazards.md R310), and `r_phase` = IDLE (R311). The response of
such an access is still given (20_memory.md R72). A held turn stays in INIT: RESET_INIT_TIME
(00_scope.md R8). -/
def State.endInit (s : State) : State :=
  if s.hold then s else { s.atReset with phase := .idle, rstN := s.rstN, busRsp := s.busRsp }

/-- A core turn of an ILLEGAL word: `raise ILLEGAL(w)` and no other effect (30_encoding.md R117). -/
def State.illegalTurn (s : State) : State :=
  if s.hold then s else s.abort ⟨.illegal, s.cmd⟩

/-- A turn of the host; `rest` is the schedule after it. An access is accepted only while
bus_req_ready = 1: an outstanding response is given first (20_memory.md R72), and while rst_n = 0 it is
not accepted at all (log 14). A core turn is not the host's: the schedule alone moves on. -/
def State.hostTurn (s : State) (t : Turn) (rest : List Turn) : State :=
  match t with
  | .core _ => { s with sched := rest }
  | .access a =>
    if s.busRsp.isSome then s.respond
    else if s.rstN then { s with sched := rest }.busAccess a
    else { s with sched := rest }
  | .respond => { s with sched := rest }.respond
  | .offer b => { s with sched := rest, inQ := s.inQ ++ [b] }
  | .ready => { s with sched := rest, outReady := s.outReady + 1 }
  | .rst level => { s with sched := rest }.setRst level

end Sys2Proof.Machine
end

