-- ==== Sys2Proof/Machine/Step.lean ====
section
/-! DEFINITION. Machine/Step.lean: one step of the machine (20_memory.md R97): the turn the schedule
names, or a core turn when it names none; and how the host places a command (log 2). -/

namespace Sys2Proof.Machine

/-- A core turn: in EXEC it runs the command that `r_cmd` decodes to, or aborts an ILLEGAL word
(30_encoding.md R117); in INIT it ends the initialisation; otherwise the core waits. -/
def coreTurn (s : State) : Host.Outcome State Fault Refusal :=
  if s.rstN then
    match s.phase with
    | .init => .next s.endInit
    | .idle => .next s
    | .exec =>
      match decode s.cmd with
      | .ok i => exec i s
      | .error _ => .next s.illegalTurn
  else .next s

/-- One step. -/
def step (s : State) : Host.Outcome State Fault Refusal :=
  match s.sched with
  | .core hold :: rest => coreTurn { s with sched := rest, hold := hold }
  | t :: rest => .next (s.hostTurn t rest)
  | [] =>
    match s.busRsp with
    | some _ => .next s.respond
    | none => coreTurn { s with hold := false }

/-- The word placed where the machine takes its next command from: accepted as CMD's write accepts it
(40_control.md R130), with no other turn before the core's. It stands for the host's CMD write
(log 2). -/
def State.withFetchWord (s : State) (nbits w : Nat) : State :=
  State.accept { s with rstN := true, busRsp := none, sched := [] } (BitVec.ofNat 32 (w % 2 ^ nbits))

end Sys2Proof.Machine
end

