-- ==== Sys2Proof/Safety.lean ====
section
/-! DEFINITION. Safety.lean: the terms claims are stated in: what a message is, what a Huffman tree is
apart from its RAM (43_tree.md R200, R209), what a heap is (42_pqueue.md R187), and the invariant of
the machine. Nothing here is used by the machine. -/

namespace Sys2Proof.Machine

/-! ### Turns, accesses and encodings -/

/-- The next turn is the core's, and `s1` is the state it starts from. -/
def State.CoreTurn (s s1 : State) : Prop :=
  (s.sched = [] ∧ s.busRsp = none ∧ s1 = { s with hold := false }) ∨
    ∃ hold rest, s.sched = .core hold :: rest ∧ s1 = { s with sched := rest, hold := hold }

/-- The next turn is a bus access that is accepted (20_memory.md R72); `rest` is the schedule after it. -/
def State.Presents (s : State) (a : BusReq) (rest : List Turn) : Prop :=
  s.rstN = true ∧ s.busRsp = none ∧ s.sched = .access a :: rest

/-- A read of the register or window word at a byte address. -/
def readOf (addr : BitVec 15) (wdata : Word) : BusReq := ⟨false, addr, wdata⟩

/-- A write to the register or window word at a byte address. -/
def writeOf (addr : BitVec 15) (v : Word) : BusReq := ⟨true, addr, v⟩

/-- The state after an accepted access that changed nothing else. -/
def State.answered (s : State) (rest : List Turn) (rdata : Word) (err : Bool) : State :=
  { s with sched := rest, busRsp := some ⟨rdata, err⟩ }

/-- The state with more beats offered and more readiness of the host. -/
def State.offered (s : State) (q : List Beat) (k : Nat) : State :=
  { s with inQ := s.inQ ++ q, outReady := s.outReady + k }

/-- The OP values of format N (30_encoding.md R116). -/
def opsN : List Nat :=
  [0x00, 0x01, 0x02, 0x16, 0x20, 0x22, 0x30, 0x31, 0x32, 0x33, 0x40, 0x41, 0x42, 0x48, 0x49]
/-- The OP values of format F (30_encoding.md R116). -/
def opsF : List Nat := [0x15, 0x43, 0x44]
/-- The OP values of format A (30_encoding.md R116). -/
def opsA : List Nat := [0x10, 0x11, 0x12, 0x13, 0x14, 0x21]

/-- The byte addresses of the read-only registers (10_state.md R23, 20_memory.md R78). -/
def roRegisters : List Nat :=
  [0x000, 0x004, 0x014, 0x018, 0x01C, 0x020, 0x02C, 0x030, 0x034, 0x038, 0x03C, 0x040, 0x044]

/-! ### Commands and streams -/

/-- The command has been accepted and has not begun, and its turn may take the ending step. -/
def State.Fresh (s : State) : Prop := s.prog = none ∧ s.hold = false

/-- The state after the running command has completed without error (40_control.md R132). -/
def State.ended (s : State) : State :=
  { s with phase := .idle, prog := none, irqStatus := s.irqStatus ||| 0b0001#4 }

/-- The state after the running command has aborted with an error code and its detail (60_exceptions.md
R280, R281, R283). -/
def State.aborted (s : State) (code : BitVec 4) (info : Word) : State :=
  { s with phase := .idle, prog := none, errCode := code, errInfo := info, irqStatus := s.irqStatus ||| 0b0010#4 }

/-- The commands one after the other, each as the internal step of one command (40_control.md R133,
60_exceptions.md R287): a step that completes without error is followed by the next one, an abort or a stream
wait ends it, and only the end of all raises DONE. -/
def runSteps : List Instr → State → Host.Outcome State Fault Refusal
  | [], s => .next s.ended
  | i :: is, s =>
    match exec i s with
    | .next t =>
      if t.phase = .idle ∧ t.errCode = s.errCode
      then runSteps is { t with phase := s.phase, prog := s.prog, irqStatus := s.irqStatus }
      else .next t
    | other => other

/-- A message: no beat but the final one has `last` = 1 (20_memory.md R89). -/
def IsMessage : List Beat → Prop
  | [] => False
  | [b] => b.last = true
  | b :: bs => b.last = false ∧ IsMessage bs

/-- The bytes that beats carry (20_memory.md R86). -/
def payload (bs : List Beat) : List Byte := (bs.filter (fun b => !b.empty)).map (·.data)

/-- IN_COUNT or OUT_COUNT after `n` counted beats (10_state.md R36: modulo 2^32). -/
def countUp (c : Word) (n : Nat) : Word := c + BitVec.ofNat 32 n

/-- The `last` of the last of some beats, `d` when there is none. -/
def lastFlag (d : Bool) (bs : List Beat) : Bool := (bs.getLast?.map (·.last)).getD d

/-- The beats carry exactly these bytes, up to the last of them: the final beat carries a byte, and no
beat before it ends the message. -/
def Carries (q : List Beat) (ds : List Byte) : Prop :=
  payload q = ds ∧ (∀ b ∈ q.dropLast, b.last = false) ∧ ∃ b, q.getLast? = some b ∧ b.empty = false

/-- The state after the beats `bs` have been taken and nothing else has happened; `rest` is what the
host still offers (20_memory.md R90). -/
def State.took (s : State) (bs rest : List Beat) : State :=
  { s with inQ := rest, inEom := lastFlag s.inEom bs,
           inCount := countUp s.inCount (payload bs).length }

/-- The state after the bytes have been given to the host, one beat each (20_memory.md R92). -/
def State.gave (s : State) (bs : List Byte) : State :=
  { s with outReady := s.outReady - bs.length, outLog := s.outLog ++ bs.map dataBeat,
           outCount := countUp s.outCount bs.length }

/-- The state after the end-of-message marker, if `f` asks for it, has been given to the host
(20_memory.md R93). -/
def State.gaveEnd (s : State) (f : Bool) : State :=
  if f then { s with outReady := s.outReady - 1, outLog := s.outLog ++ [endBeat] } else s

/-- The beats of a message of the given data bytes, the last one with `last` = 1; the empty message is
one empty beat (20_memory.md R89). -/
def messageOf : List Byte → List Beat
  | [] => [⟨0, true, true⟩]
  | [b] => [⟨b, true, false⟩]
  | b :: bs => ⟨b, false, false⟩ :: messageOf bs

/-- The bytes of an n-byte unsigned integer in wire order (20_memory.md R95). -/
def wrInt (be : Bool) (n v : Nat) : List Byte :=
  let le := (List.range n).map (fun k => BitVec.ofNat 8 (v / 256 ^ k))
  if be then le.reverse else le

/-- The value of bucket `k`: `bucket_k[15 - t] = TB[16k + t]` (41_bitbuffer.md R151). -/
def bucketValue (tb : BitVec 2576) (k : Nat) : Nat :=
  (List.range 16).foldl (fun v t => 2 * v + (tbGet tb (16 * k + t)).toNat) 0

/-- The header of a buffer of `len` bits: its length, then `ceil(len/16) + 1` buckets (41_bitbuffer.md
R159, R162). -/
def headerOf (be : Bool) (len : Nat) (tb : BitVec 2576) : List Byte :=
  wrInt be 4 len ++ (List.range ((len + 15) / 16 + 1)).flatMap (fun k => wrInt be 2 (bucketValue tb k))

/-- The bytes are the layout of the bit sequence: most significant bit first, the last byte padded with
zeros (44_codec.md R231). -/
def BytesOfBits (bits : List Bool) (bytes : List Byte) : Prop :=
  ∃ pad, pad < 8 ∧ bytes.flatMap byteBits = bits ++ List.replicate pad false

/-! ### The heap -/

/-- No item outranks its parent (42_pqueue.md R187). -/
def HeapOrdered (node : Memory Node) (heap : Memory NodeIx) (size : Nat) : Prop :=
  ∀ k, 0 < k → k < size → outranks node (heapAt heap k) (heapAt heap ((k - 1) / 2)) = false

/-- The items of the queue, in heap order (10_state.md R42). -/
def heapItems (heap : Memory NodeIx) (size : Nat) : List NodeIx :=
  (List.range size).map (heapAt heap)

/-- The `j`-th ancestor of heap position `n` (10_state.md R42). -/
def heapUp (n j : Nat) : Nat := (fun k => (k - 1) / 2)^[j] n

/-- What sifting up leaves (42_pqueue.md R182): `x` stands `m` places up from position `n`, the items it
outranks have moved down one place each, it outranks no parent any more, and nothing else has moved. -/
structure SiftedUp (node : Memory Node) (old new : Memory NodeIx) (x : NodeIx) (n m : Nat) : Prop where
  here : heapAt new (heapUp n m) = x
  moved : ∀ j, j < m → 0 < heapUp n j ∧ heapAt new (heapUp n j) = heapAt old (heapUp n (j + 1)) ∧
    outranks node x (heapAt old (heapUp n (j + 1))) = true
  stops : heapUp n m = 0 ∨ outranks node x (heapAt old (heapUp n (m + 1))) = false
  rest : ∀ p, (∀ j, j ≤ m → p ≠ heapUp n j) → heapAt new p = heapAt old p

/-- The `j`-th position of the sift-down path from the root in a queue of `n` items: the right child
only where it strictly outranks the left one (42_pqueue.md R183). -/
def heapDown (node : Memory Node) (old : Memory NodeIx) (n : Nat) : Nat → Nat
  | 0 => 0
  | j + 1 =>
    let k := heapDown node old n j
    if 2 * k + 2 < n ∧ outranks node (heapAt old (2 * k + 2)) (heapAt old (2 * k + 1)) = true
    then 2 * k + 2 else 2 * k + 1

/-- What sifting down leaves (42_pqueue.md R183): `x` stands `m` places down the path, the items that
outrank it have moved up one place each, no child outranks it any more, and nothing else has moved. -/
structure SiftedDown (node : Memory Node) (old new : Memory NodeIx) (x : NodeIx) (n m : Nat) : Prop where
  here : heapAt new (heapDown node old n m) = x
  moved : ∀ j, j < m → heapDown node old n (j + 1) < n ∧
    heapAt new (heapDown node old n j) = heapAt old (heapDown node old n (j + 1)) ∧
    outranks node (heapAt old (heapDown node old n (j + 1))) x = true
  stops : n ≤ heapDown node old n (m + 1) ∨ outranks node (heapAt old (heapDown node old n (m + 1))) x = false
  rest : ∀ p, (∀ j, j ≤ m → p ≠ heapDown node old n j) → heapAt new p = heapAt old p

/-- One extraction (42_pqueue.md R183) makes the heap `new` of `old` and leaves `n` items: the last item has
been sifted down from the root, or nothing moved because no item is left. -/
def Drained (node : Memory Node) (old new : Memory NodeIx) (n : Nat) : Prop :=
  (n = 0 → new = old) ∧ (0 < n → ∃ m, SiftedDown node old new (heapAt old n) n m)

/-- The two extractions of a merge (43_tree.md R204): from a queue of `n + 2` items with the heap `old` they
return first `x` and then `y`, each the root of its heap, and leave the heap `new`. -/
def DrawsTwo (node : Memory Node) (old new : Memory NodeIx) (n : Nat) (x y : NodeIx) : Prop :=
  ∃ mid, x = heapAt old 0 ∧ Drained node old mid (n + 1) ∧ y = heapAt mid 0 ∧ Drained node mid new n

/-- `HeapTrace m L h0 i h`: TREE_BUILD, started with the heap RAM `h0` on `L` used symbols, has the heap RAM `h`
when it has inserted the nodes 0 to `i - 1`, and has made each of its merges of what it extracted (43_tree.md
R204). The leaves are inserted in their order; before node `L + j` is inserted its two children are extracted,
the left one first. Each insertion sifts up and each extraction sifts down by the tie rules of 42_pqueue.md R182
and R183, so that the trace leaves no choice among nodes of equal frequency. -/
inductive HeapTrace (m : Memory Node) (L : Nat) (h0 : Memory NodeIx) : Nat → Memory NodeIx → Prop
  /-- nothing inserted yet -/
  | start : HeapTrace m L h0 0 h0
  /-- a leaf -/
  | leaf {i k : Nat} {h h' : Memory NodeIx} : i < L → HeapTrace m L h0 i h →
      SiftedUp m h h' (BitVec.ofNat 9 i) i k → HeapTrace m L h0 (i + 1) h'
  /-- merge `j`, from a queue of `L - j = n + 2` items -/
  | merge {j n k : Nat} {h h2 h' : Memory NodeIx} : L = j + n + 2 → HeapTrace m L h0 (L + j) h →
      DrawsTwo m h h2 n (nodeAt m (BitVec.ofNat 9 (L + j))).left (nodeAt m (BitVec.ofNat 9 (L + j))).right →
      SiftedUp m h2 h' (BitVec.ofNat 9 (L + j)) n k → HeapTrace m L h0 (L + j + 1) h'

/-! ### Trees -/

/-- A Huffman tree (00_scope.md R16). `synth` marks the synthetic leaf (43_tree.md R206). -/
inductive HTree where
  | leaf (sym : Byte) (synth : Bool)
  | node (l r : HTree)
deriving DecidableEq, Repr

/-- How many leaves a tree has. -/
def HTree.leaves : HTree → Nat
  | .leaf _ _ => 1
  | .node l r => l.leaves + r.leaves

/-- How many nodes a tree has. -/
def HTree.size : HTree → Nat
  | .leaf _ _ => 1
  | .node l r => l.size + r.size + 1

/-- The tree bits by the grammar of 43_tree.md R209. -/
def HTree.toBits (lsb : Bool) : HTree → List Bool
  | .leaf sym _ => true :: symBits lsb sym
  | .node l r => false :: (l.toBits lsb ++ r.toBits lsb)

/-- The tree as a reader of its bits sees it: no leaf is synthetic (43_tree.md R215, R216). -/
def HTree.plain : HTree → HTree
  | .leaf sym _ => .leaf sym false
  | .node l r => .node l.plain r.plain

/-- The node RAM holds the tree at index `x`, in entries below `n` (43_tree.md R200). -/
def Holds (m : Memory Node) (n : Nat) : NodeIx → HTree → Prop
  | x, .leaf sym synth =>
    x.toNat < n ∧ (nodeAt m x).isLeaf = true ∧ (nodeAt m x).sym = sym ∧ (nodeAt m x).synth = synth
  | x, .node l r =>
    x.toNat < n ∧ (nodeAt m x).isLeaf = false ∧
      Holds m n (nodeAt m x).left l ∧ Holds m n (nodeAt m x).right r

/-- How many bits each node takes in the tree bits, in pre-order: a leaf 9, an internal node 1 (43_tree.md
R209). -/
def HTree.widths : HTree → List Nat
  | .leaf _ _ => [9]
  | .node l r => 1 :: (l.widths ++ r.widths)

/-- The node RAM holds the tree from index `i` on, in pre-order, with every freq and synth 0: what
TREE_DESERIALIZE makes (43_tree.md R201, R213, R216). -/
def ParsedAt (m : Memory Node) : Nat → HTree → Prop
  | i, .leaf sym _ => nodeAt m (BitVec.ofNat 9 i) = ⟨true, false, sym, 0, 0, 0⟩
  | i, .node l r =>
    nodeAt m (BitVec.ofNat 9 i) =
        ⟨false, false, 0, BitVec.ofNat 9 (i + 1), BitVec.ofNat 9 (i + 1 + l.size), 0⟩ ∧
      ParsedAt m (i + 1) l ∧ ParsedAt m (i + 1 + l.size) r

/-- The buffer's positions from `pos` on, as far as `len` reaches, are the given bits. -/
def BitsAt (tb : BitVec 2576) (len pos : Nat) (bits : List Bool) : Prop :=
  ∀ i, i < bits.length → pos + i < len → tbGet tb (pos + i) = bits.getD i false

/-- The symbols of the leaves that are not synthetic, in pre-order. -/
def HTree.syms : HTree → List Byte
  | .leaf sym synth => if synth then [] else [sym]
  | .node l r => l.syms ++ r.syms

/-- The frequencies of a built tree (10_state.md R41, 43_tree.md R207): a leaf has its symbol's count, a
synthetic leaf 0, and an internal node the exact sum of its children's. -/
def Weighs (freq : Memory Word) (m : Memory Node) : NodeIx → HTree → Prop
  | x, .leaf sym synth => (nodeAt m x).freq = if synth then 0 else freqAt freq sym
  | x, .node l r =>
    (nodeAt m x).freq.toNat =
        (nodeAt m (nodeAt m x).left).freq.toNat + (nodeAt m (nodeAt m x).right).freq.toNat ∧
      Weighs freq m (nodeAt m x).left l ∧ Weighs freq m (nodeAt m x).right r

/-- The symbols with a non-zero count, in ascending order (43_tree.md R201, R204). -/
def usedSymbols (freq : Memory Word) : List Byte := allSymbols.filter (fun x => freqAt freq x ≠ 0)

/-- The leaves that TREE_BUILD makes, in ascending symbol order at the indices 0, 1, 2, ... (43_tree.md
R201). -/
def LeavesAt (freq : Memory Word) (xs : List Byte) (m : Memory Node) : Prop :=
  ∀ i (h : i < xs.length), nodeAt m (BitVec.ofNat 9 i) = ⟨true, false, xs[i], 0, 0, freqAt freq xs[i]⟩

/-- The queue of TREE_BUILD after `j` merges, as a collection of node indices (43_tree.md R204): at first
the leaves 0 to L - 1; a merge takes out the two children of the node `L + j` that it makes, and puts that
node in. -/
def mergeQueue (m : Memory Node) (L : Nat) : Nat → List NodeIx
  | 0 => (List.range L).map (BitVec.ofNat 9)
  | j + 1 =>
    let x := BitVec.ofNat 9 (L + j)
    x :: ((mergeQueue m L j).erase (nodeAt m x).left).erase (nodeAt m x).right

/-- The item is in the queue and no item of it has a lower frequency (42_pqueue.md R187). -/
def IsLowest (m : Memory Node) (x : NodeIx) (q : List NodeIx) : Prop :=
  x ∈ q ∧ ∀ y ∈ q, (nodeAt m x).freq.toNat ≤ (nodeAt m y).freq.toNat

/-- The nodes `L` to `L + n - 1` are the merges of 43_tree.md R204 in their order: the left child is a
lowest item of the queue, the right child a lowest one of what is left, and the frequency their exact sum. -/
def MergesTo (m : Memory Node) (L n : Nat) : Prop :=
  ∀ j, j < n →
    let v := nodeAt m (BitVec.ofNat 9 (L + j))
    v.isLeaf = false ∧ v.synth = false ∧ v.sym = 0 ∧
      IsLowest m v.left (mergeQueue m L j) ∧ IsLowest m v.right ((mergeQueue m L j).erase v.left) ∧
      v.freq.toNat = (nodeAt m v.left).freq.toNat + (nodeAt m v.right).freq.toNat

/-- The merge after `j` merges is the first that overflows: the sum of the two items it draws passes
2^32 - 1, and the merges before it were made (43_tree.md R204, 60_exceptions.md R287). -/
def OverflowsAt (m : Memory Node) (L j : Nat) : Prop :=
  MergesTo m L j ∧ ∃ x y, IsLowest m x (mergeQueue m L j) ∧ IsLowest m y ((mergeQueue m L j).erase x) ∧
    2 ^ 32 ≤ (nodeAt m x).freq.toNat + (nodeAt m y).freq.toNat

/-- The heap RAM `h` is what the queue has come to when merge `j` overflows (43_tree.md R204): the merges before it
were made, and its two extractions return items whose sum passes 2^32 - 1. -/
def OverflowHeap (m : Memory Node) (L j : Nat) (h0 h : Memory NodeIx) : Prop :=
  ∃ n old x y, L = j + n + 2 ∧ HeapTrace m L h0 (L + j) old ∧ DrawsTwo m old h n x y ∧
    2 ^ 32 ≤ (nodeAt m x).freq.toNat + (nodeAt m y).freq.toNat

/-- What a TREE_BUILD of the symbols `xs`, two or more, leaves in NODE and HEAP (43_tree.md R201, R204): the leaves
in ascending order, each merge of the two lowest items, and the queue's own choice among equal ones. -/
structure BuiltFrom (freq : Memory Word) (xs : List Byte) (m : Memory Node) (h0 h : Memory NodeIx) : Prop where
  leaves : LeavesAt freq xs m
  merges : MergesTo m xs.length (xs.length - 1)
  queue : HeapTrace m xs.length h0 (2 * xs.length - 1) h

/-- The sum of the counts of some symbols. -/
def totalOf (freq : Memory Word) (xs : List Byte) : Nat := (xs.map (fun x => (freqAt freq x).toNat)).sum

/-- The codes of the leaves that are not synthetic, in pre-order: left appends 0 and right appends 1
(44_codec.md R236). -/
def HTree.codes : HTree → List Bool → List (Byte × List Bool)
  | .leaf sym synth, path => if synth then [] else [(sym, path)]
  | .node l r, path => l.codes (path ++ [false]) ++ r.codes (path ++ [true])

/-- The code of a symbol: where two leaves carry it, the later one in pre-order counts (44_codec.md
R236). -/
def HTree.codeOf (t : HTree) (sym : Byte) : Option (List Bool) :=
  ((t.codes []).reverse.find? (fun c => c.1 = sym)).map (·.2)

/-- The depth and the symbol of the leaf reached by zeros only (44_codec.md R240). -/
def HTree.leftmost : HTree → Nat × Byte
  | .leaf sym _ => (0, sym)
  | .node l _ => (l.leftmost.1 + 1, l.leftmost.2)

/-- The node reached from `x` by following bits, 0 to the left and 1 to the right (44_codec.md R238). -/
def followBits (m : Memory Node) (x : NodeIx) (bits : List Bool) : NodeIx :=
  bits.foldl (fun y b => if b then (nodeAt m y).right else (nodeAt m y).left) x

/-- A code table entry that says exactly these bits (10_state.md R44). -/
def CodeEntry.Says (e : CodeEntry) (bits : List Bool) : Prop :=
  e.len.toNat = bits.length ∧ ∀ j, e.bits.getMsbD j = bits.getD j false

/-- What ENCODE, started in `s`, has made of a first message `S` before it packs the second one (44_codec.md R241):
the counts, the tree TREE_BUILD makes of them (43_tree.md R204, R206), its bits in TB, and the code of every byte
of `S`, of no other byte. -/
structure State.EncodesFor (t s : State) (S : List Byte) (T : HTree) : Prop where
  counts : ∀ x, (freqAt t.freq x).toNat = S.count x
  tree : Holds t.node t.nodeCount.toNat t.root T
  weights : Weighs t.freq t.node t.root T
  symbols : T.syms.Perm (usedSymbols t.freq)
  single : ∀ x, usedSymbols t.freq = [x] → T = .node (.leaf x false) (.leaf (x ^^^ 0x01#8) true)
  built : 2 ≤ (usedSymbols t.freq).length → t.root.toNat = 2 * (usedSymbols t.freq).length - 2 ∧
    BuiltFrom t.freq (usedSymbols t.freq) t.node s.heap t.heap
  bits : ∀ i, tbGet t.tb i = (T.toBits s.symLsb).getD i false
  bitCount : t.tbLen.toNat = (T.toBits s.symLsb).length
  mapped : ∀ x ∈ S, ∃ c, T.codeOf x = some c ∧ (codeAt t.code x).Says c ∧ c ≠ []
  unmapped : ∀ x, x ∉ S → codeAt t.code x = ⟨0, 0⟩

/-- The descent of 44_codec.md R239 from the subtree `cur`, with no limit: the symbols emitted and the
subtree where it ends. -/
def HTree.descend (root : HTree) : HTree → List Bool → List Byte × HTree
  | cur, [] => ([], cur)
  | .leaf _ _, _ => ([], root)
  | .node l r, b :: bs =>
    match (if b then r else l) with
    | .leaf sym _ => let q := HTree.descend root root bs; (sym :: q.1, q.2)
    | .node l' r' => HTree.descend root (.node l' r') bs

/-! ### Bus and reset -/

/-- An access that is not performed: the five cases of 20_memory.md R78, over the map of R75. -/
def State.Refuses (s : State) (a : BusReq) : Prop :=
  let n := a.addr.toNat
  n % 4 ≠ 0 ∨
  ((0x048 ≤ n ∧ n < 0x400) ∨ (0xC00 ≤ n ∧ n < 0x1000) ∨ (0x2284 ≤ n ∧ n < 0x4000)) ∨
  (a.write = true ∧ (n ∈ roRegisters ∨ 0x800 ≤ n)) ∨
  (0x400 ≤ n ∧ s.phase ≠ .idle) ∨
  (s.phase = .init ∧ ¬ (a.write = false ∧ n ∈ [0x000, 0x004, 0x014]))

/-- Every value of the table of 70_reset_and_hazards.md R310 but `r_phase`. -/
structure State.HasResetValues (s : State) : Prop where
  ctrl : s.ctrl = 0
  symLimit : s.symLimit = 0
  cmd : s.cmd = 0
  err : s.errCode = 0 ∧ s.errInfo = 0 ∧ s.result = 0
  irq : s.irqStatus = 0 ∧ s.irqEnable = 0
  lengths : s.tbLen = 0 ∧ s.nodeCount = 0 ∧ s.root = 0 ∧ s.pqSize = 0
  counters : s.freqTotal = 0 ∧ s.inCount = 0 ∧ s.outCount = 0
  freq : ∀ x, freqAt s.freq x = 0
  node : ∀ x, nodeAt s.node x = ⟨false, false, 0, 0, 0, 0⟩
  heap : ∀ k, heapAt s.heap k = 0
  tb : ∀ i, tbGet s.tb i = false
  code : ∀ x, codeAt s.code x = ⟨0, 0⟩
  inEom : s.inEom = true
  latched : s.wireBe = false ∧ s.symLsb = false ∧ s.limitEn = false ∧ s.symLimitL = 0
  path : s.path = 0 ∧ s.depth = 0
  acc : s.acc = 0 ∧ s.accN = 0
  walk : s.walk = 0
  pos : s.pos = 0
  stack : ∀ i : Fin 512, s.stack[i] = (0, false)
  valid : s.treeValid = false ∧ s.codeValid = false
  tail : s.tailPartial = false ∧ s.limitHit = false

/-! ### The invariant -/

/-- A pending operation is one that a run can leave pending: a declared header length is within
TB_MAX_BITS, with fewer buckets received than it needs (41_bitbuffer.md R160). -/
def Op.ok : Op → Bool
  | .rdLen k _ => decide (k < 4)
  | .rdBucket n got k _ => decide (n ≤ Config.tbMaxBits ∧ got.length < bucketCount n ∧ k < 2)
  | .run _ | .put _ | .putEnd | .discard | .accum | .pack _ | .unpack .. | .fail _ => true

/-- The operation can give the host an end-of-message marker, itself or by what it leaves pending. -/
def Op.mayEnd : Op → Bool
  | .putEnd | .unpack .. | .run (.unpack _) | .run .encode | .run .decode => true
  | .pack f | .run (.pack f) | .run (.bbSerialize f) => f
  | .run _ | .put _ | .discard | .accum | .rdLen .. | .rdBucket .. | .fail _ => false

/-- Only the last pending operation can give a marker: it is the last thing a command does (20_memory.md
R93). -/
def marksLast (ops : List Op) : Bool := ops.dropLast.all (fun op => !op.mayEnd)

/-- What holds of every state that a run reaches: the RAMs keep their canonical form, the registers
their ranges, the RAM invariants of 10_state.md R43 and R44, and the validity flags tell the truth
(10_state.md R52). -/
structure State.Inv (s : State) : Prop where
  freqWf : Memory.wf 0 Config.symbols s.freq = true
  nodeWf : Memory.wf Node.zero Config.nodeCap s.node = true
  heapWf : Memory.wf 0 Config.heapCap s.heap = true
  codeWf : Memory.wf CodeEntry.zero Config.symbols s.code = true
  tbLenRange : s.tbLen.toNat ≤ Config.tbMaxBits
  nodeCountRange : s.nodeCount.toNat ≤ Config.nodeCap
  pqSizeRange : s.pqSize.toNat ≤ Config.heapCap
  errCodeRange : s.errCode.toNat ≤ 9
  /-- 41_bitbuffer.md R153 -/
  tbTail : ∀ i, s.tbLen.toNat ≤ i → tbGet s.tb i = false
  /-- 10_state.md R44 -/
  codeTail : ∀ x j, (codeAt s.code x).len.toNat ≤ j → (codeAt s.code x).bits.getMsbD j = false
  /-- 10_state.md R34, R52; 43_tree.md R205, R211: at most 256 leaves -/
  treeHeld : s.treeValid = true →
    ∃ t, Holds s.node s.nodeCount.toNat s.root t ∧ t.leaves ≤ Config.symbols
  /-- 10_state.md R34 -/
  rootFree : s.treeValid = false → s.root = 0
  /-- 44_codec.md R237 -/
  codeNeedsTree : s.codeValid = true → s.treeValid = true
  /-- 10_state.md R22, R28 -/
  execClean : s.phase = .exec → s.errCode = 0 ∧ s.errInfo = 0
  notExec : s.phase ≠ .exec → s.prog = none
  initFlags : s.phase = .init → s.treeValid = false ∧ s.pqSize = 0 ∧ s.tbLen = 0
  progOk : ∀ ops, s.prog = some ops → ops.all Op.ok = true
  markerLast : ∀ ops, s.prog = some ops → marksLast ops = true

/-- The heap property at a state (42_pqueue.md R187). -/
def State.HeapInv (s : State) : Prop := HeapOrdered s.node s.heap s.pqSize.toNat

end Sys2Proof.Machine
end

