-- ==== Sys2Proof/Certificates/Slice0/Obligations.lean ====
section
/-! DEFINITION. Certificates/Slice0/Obligations.lean: the statements for the provers. -/

section Statements

open Sys2Proof Sys2Proof.Machine

/-! ### Encoding -/

/-- 30_encoding.md R111 to R117, R119: no bit of a command is dropped by its word. -/
def Obligations.EncodedCommandDecodes : Prop :=
  ∀ i : Instr, WellFormed i → Sys2Proof.decode (Sys2Proof.encode i) = .ok i

/-- 30_encoding.md R117: every word that decodes is the one word of its command. -/
def Obligations.DecodedWordEncodesBack : Prop :=
  ∀ (w : Word) (i : Instr), Sys2Proof.decode w = .ok i → WellFormed i ∧ Sys2Proof.encode i = w

/-- 30_encoding.md R117, R118: exactly the listed words are illegal. -/
def Obligations.IllegalWordsAreExactlyThese : Prop :=
  ∀ w : Word,
    let op := w.toNat % 256
    let f := w.toNat / 256 % 2
    let rsv := w.toNat / 512 % 128
    let arg := w.toNat / 65536
    (∃ why, Sys2Proof.decode w = .error why) ↔
      op ∉ opsN ++ opsF ++ opsA ∨ rsv ≠ 0 ∨ (op ∈ opsN ∧ (f ≠ 0 ∨ arg ≠ 0)) ∨ (op ∈ opsF ∧ arg ≠ 0) ∨
        (op ∈ opsA ∧ f ≠ 0)

/-- 30_encoding.md R119, R120 and the encodings named in the command rules. -/
def Obligations.SpecWordsDecode : Prop :=
  Sys2Proof.decode 0x00110011#32 = .ok (.bbSet 17) ∧
  Sys2Proof.decode 0x00000143#32 = .ok (.pack true) ∧
  Sys2Proof.decode 0x00000144#32 = .ok (.unpack true) ∧
  Sys2Proof.decode 0x00000010#32 = .ok (.bbCreate 0) ∧
  Sys2Proof.decode 0x00000020#32 = .ok .pqClear ∧
  Sys2Proof.decode 0x0A010010#32 = .ok (.bbCreate 2561) ∧
  Sys2Proof.decode 0x00000115#32 = .ok (.bbSerialize true)

/-! ### Steps and the life of a command -/

/-- 30_encoding.md R117, 40_control.md R130, 20_memory.md R97: a core turn in EXEC is the meaning of the
command that r_cmd decodes to. The turn's schedule entry is consumed; nothing else is added. -/
def Obligations.StepRunsDecodedCommand : Prop :=
  ∀ (s s1 : Machine.State) (i : Instr), s.CoreTurn s1 → s.rstN = true → s.phase = .exec →
    Sys2Proof.decode s.cmd = .ok i → Machine.step s = Machine.exec i s1

/-- 30_encoding.md R117: "A word classified ILLEGAL is not executed." Its abort is a core turn of its own (log 10);
a turn that is held before its ending step changes nothing yet (log 12). -/
def Obligations.IllegalWordAborts : Prop :=
  ∀ (s s1 : Machine.State) (why : Illegal), s.CoreTurn s1 → s.rstN = true → s.phase = .exec →
    Sys2Proof.decode s.cmd = .error why →
    (s1.hold = false → Machine.step s = .next { s1 with
      errCode := 9, errInfo := s.cmd, irqStatus := s.irqStatus ||| 2#4, phase := .idle, prog := none }) ∧
    (s1.hold = true → Machine.step s = .next s1)

/-- 40_control.md R130, R131: a CMD write while idle is accepted, in the step of the write. Of an ILLEGAL word too:
its abort is the core's next turn and not part of the write (log 10, the model's reading of `accept`). -/
def Obligations.CmdWriteWhileIdleIssues : Prop :=
  ∀ (s : Machine.State) (w : Word) (rest : List Turn), s.Presents (writeOf 0x010 w) rest → s.phase = .idle →
    Machine.step s = .next { s with
      sched := rest, busRsp := some ⟨0, false⟩, cmd := w, phase := .exec, prog := none
      errCode := 0, errInfo := 0, inCount := 0, outCount := 0
      wireBe := s.ctrl.getLsbD 0, symLsb := s.ctrl.getLsbD 1, limitEn := s.ctrl.getLsbD 2
      symLimitL := s.symLimit }

/-- 40_control.md R134: a CMD write in EXEC is dropped, one in INIT is not performed. -/
def Obligations.CmdWriteWhileBusyIsLost : Prop :=
  ∀ (s : Machine.State) (w : Word) (rest : List Turn), s.Presents (writeOf 0x010 w) rest →
    (s.phase = .exec → Machine.step s = .next { s with
      sched := rest, busRsp := some ⟨0, false⟩, irqStatus := s.irqStatus ||| 4#4 }) ∧
    (s.phase = .init → Machine.step s = .next { s with
      sched := rest, busRsp := some ⟨0, true⟩, irqStatus := s.irqStatus ||| 8#4 })

/-- 40_control.md R131: a running command reads only the latched configuration, never CTRL or SYM_LIMIT. -/
def Obligations.CommandReadsOnlyLatchedConfiguration : Prop :=
  ∀ (i : Instr) (s t : Machine.State) (c : BitVec 3) (l : Word), Machine.exec i s = .next t →
    Machine.exec i { s with ctrl := c, symLimit := l } = .next { t with ctrl := c, symLimit := l }

/-- 00_scope.md R8: a turn that is held before its ending step only delays it (log 12). -/
def Obligations.HeldTurnOnlyDelays : Prop :=
  ∀ (i : Instr) (s t : Machine.State), s.phase = .exec → s.hold = true → Machine.exec i s = .next t →
    t.phase = .exec ∧ Machine.exec i { t with hold := false } = Machine.exec i { s with hold := false }

/-- 20_memory.md R90, R92, R97: when the host offers its beats and takes the core's makes no difference: a
command that waited and goes on ends as if everything had been there from the start. -/
def Obligations.PacingOfBeatsMakesNoDifference : Prop :=
  ∀ (i : Instr) (s t : Machine.State) (q : List Beat) (k : Nat), s.phase = .exec →
    Machine.exec i s = .next t → t.phase = .exec →
    Machine.exec i (t.offered q k) = Machine.exec i (s.offered q k)

/-- 20_memory.md R90, R92, 60_exceptions.md R294: the core waits with all state held, while idle and while
the host offers or takes nothing. -/
def Obligations.WaitingCoreHoldsAllState : Prop :=
  ∀ (s s1 : Machine.State), s.CoreTurn s1 → s.rstN = true →
    (s.phase = .idle → Machine.step s = .next s1) ∧
    ∀ (i : Instr) (op : Op) (ops : List Op), s.phase = .exec → Sys2Proof.decode s.cmd = .ok i →
      s.prog = some (op :: ops) →
      (op.takesInput = true ∧ s.inQ = [] ∧ s.inEom = false) ∨ (op.offers.isSome = true ∧ s.outReady = 0) →
      Machine.step s = .next s1

/-- 20_memory.md R91, R94, R97: a core turn that is not held leaves a running command inside `in_take`
with nothing offered, or inside `out_put` or `out_end` with the host not ready: in_ready and out_valid are
never both 1. -/
def Obligations.RunningCommandIsInAStreamWait : Prop :=
  ∀ (i : Instr) (s t : Machine.State), s.phase = .exec → s.rstN = true → s.hold = false →
    Machine.exec i s = .next t → t.phase = .exec →
    (t.inReady = true ∧ t.outOffer = none ∧ t.inQ = []) ∨
      (t.inReady = false ∧ t.outOffer.isSome = true ∧ t.outReady = 0)

/-! ### Reset -/

/-- 70_reset_and_hazards.md R310, R311: what reset leaves, and what initialisation makes of it. -/
def Obligations.ResetLeavesTheTableOfValues : Prop :=
  Machine.State.reset.HasResetValues ∧ Machine.State.reset.phase = .init ∧
    Machine.State.reset.statusWord 0 = 0x00000001#32 ∧
    ∃ t, Machine.step Machine.State.reset = .next t ∧ t.HasResetValues ∧ t.phase = .idle ∧
      t.statusWord 0 = 0x00000010#32

/-- 20_memory.md R71, 70_reset_and_hazards.md R312: rst_n = 0 abandons everything, whatever was going on.
What is the host's stays the host's. -/
def Obligations.AssertedResetAbandonsEverything : Prop :=
  ∀ (s : Machine.State) (rest : List Turn), s.sched = .rst false :: rest →
    ∃ t, Machine.step s = .next t ∧ t.HasResetValues ∧ t.phase = .init ∧ t.prog = none ∧
      t.busRsp = none ∧ t.busReqReady = false ∧ t.inReady = false ∧ t.outOffer = none ∧ t.irq = false ∧
      t.inQ = s.inQ ∧ t.outReady = s.outReady ∧ t.outLog = s.outLog ∧ t.rspLog = s.rspLog ∧ t.sched = rest

/-- 70_reset_and_hazards.md R310, R311: initialisation ends in one step, with every piece of state at its value of the
table of R310, IRQ_STATUS and IRQ_ENABLE too, and the core idle; while rst_n = 0 it does not end. What is the
host's stays the host's. -/
def Obligations.InitialisationEndsIdle : Prop :=
  ∀ (s s1 : Machine.State), s.CoreTurn s1 → s.phase = .init →
    (s.rstN = true → s1.hold = false → ∃ t, Machine.step s = .next t ∧ t.HasResetValues ∧ t.phase = .idle ∧
      t.prog = none ∧ t.rstN = true ∧ t.busRsp = s.busRsp ∧ t.inQ = s.inQ ∧ t.outReady = s.outReady ∧
      t.outLog = s.outLog ∧ t.rspLog = s.rspLog ∧ t.sched = s1.sched) ∧
    (s.rstN = false ∨ s1.hold = true → Machine.step s = .next s1)

/-! ### The register bus -/

/-- 20_memory.md R78: "An access that is not performed sets IRQ_STATUS.BUS_ERR to 1 and answers with
bus_rsp_err = 1 and bus_rsp_rdata = 0." -/
def Obligations.RefusedAccessSetsBusErrOnly : Prop :=
  ∀ (s : Machine.State) (a : BusReq) (rest : List Turn), s.Presents a rest → s.Refuses a →
    Machine.step s = .next { s with
      sched := rest, busRsp := some ⟨0, true⟩, irqStatus := s.irqStatus ||| 0b1000#4 }

/-- 20_memory.md R74, R76, R77: every other access is performed; a read has no side effect (`draws` is the
model's own counter, log 4). -/
def Obligations.OtherAccessesArePerformed : Prop :=
  ∀ (s : Machine.State) (a : BusReq) (rest : List Turn), s.Presents a rest → ¬ s.Refuses a →
    ∃ t d, Machine.step s = .next t ∧ t.busRsp = some ⟨d, false⟩ ∧ (a.write = true → d = 0) ∧
      (a.write = false → t = { s with sched := rest, busRsp := some ⟨d, false⟩, draws := t.draws })

/-- 10_state.md R23 to R37, 20_memory.md R97: what the registers read. Those that are draws while a command executes
read exactly while idle, and in EXEC some value within the width of their field (93_implementation_defined.md S1);
that a draw moves the counter of the free values is the model's own (log 4). -/
def Obligations.RegistersReadTheirValues : Prop :=
  ∀ (s : Machine.State) (rest : List Turn) (w : Word),
    (∀ p ∈ [(0x000#15, 0x48554646#32), (0x004#15, 0x00010000#32)],
      s.Presents (readOf p.1 w) rest → Machine.step s = .next (s.answered rest p.2 false)) ∧
    (∀ p ∈ [(0x008#15, s.ctrl.setWidth 32), (0x00C#15, s.symLimit), (0x010#15, s.cmd),
        (0x018#15, s.errCode.setWidth 32), (0x01C#15, s.errInfo), (0x024#15, s.irqStatus.setWidth 32),
        (0x028#15, s.irqEnable.setWidth 32), (0x040#15, s.inCount), (0x044#15, s.outCount)],
      s.Presents (readOf p.1 w) rest → s.phase ≠ .init →
        Machine.step s = .next (s.answered rest p.2 false)) ∧
    (∀ p ∈ [(0x020#15, s.result), (0x02C#15, s.tbLen.setWidth 32), (0x030#15, s.nodeCount.setWidth 32),
        (0x034#15, (if s.treeValid then s.root.setWidth 32 else 0)), (0x038#15, s.pqSize.setWidth 32),
        (0x03C#15, s.freqTotal)],
      s.Presents (readOf p.1 w) rest → s.phase = .idle →
        Machine.step s = .next (s.answered rest p.2 false)) ∧
    (∀ p ∈ [(0x020#15, 32), (0x02C#15, 12), (0x030#15, 10), (0x034#15, 9), (0x038#15, 9), (0x03C#15, 32)],
      s.Presents (readOf p.1 w) rest → s.phase = .exec → ∃ d : Word, d.toNat < 2 ^ p.2 ∧
        Machine.step s = .next { s.answered rest d false with draws := s.draws + 1 })

/-- 10_state.md R27, 70_reset_and_hazards.md R311: what STATUS reads, bit by bit; and the interrupt output,
at every moment the OR of the enabled sources (60_exceptions.md R286), and 0 while rst_n = 0 (20_memory.md R71). -/
def Obligations.StatusAndIrqReportThePhaseAndFlags : Prop :=
  ∀ (s : Machine.State),
    (s.rstN = true → (s.irq = true ↔
      ∃ i, i < 4 ∧ s.irqStatus.getLsbD i = true ∧ s.irqEnable.getLsbD i = true)) ∧
    (s.rstN = false → s.irq = false) ∧
    ∀ (rest : List Turn) (w : Word), s.Presents (readOf 0x014 w) rest →
      (s.phase = .idle → ∃ d : Word, Machine.step s = .next (s.answered rest d false) ∧
        d.getLsbD 0 = false ∧ d.getLsbD 1 = decide (s.errCode ≠ 0) ∧ d.getLsbD 2 = s.treeValid ∧
        d.getLsbD 3 = s.codeValid ∧ d.getLsbD 4 = s.inEom ∧ d.getLsbD 5 = s.tailPartial ∧
        d.getLsbD 6 = s.limitHit ∧ d.getLsbD 7 = (s.treeValid && (nodeAt s.node s.root).isLeaf) ∧
        ∀ i, 8 ≤ i → d.getLsbD i = false) ∧
      (s.phase = .exec → ∃ d : Word, Machine.step s = .next { s.answered rest d false with draws := s.draws + 1 } ∧
        d.getLsbD 0 = true ∧ d.getLsbD 1 = false ∧ ∀ i, 10 ≤ i → d.getLsbD i = false) ∧
      (s.phase = .init → Machine.step s = .next (s.answered rest 1 false))

/-- 10_state.md R24, R25, R31, R32; 20_memory.md R77: what the writable registers do with a value, also
while a command executes. -/
def Obligations.RegisterWritesTakeEffectAtOnce : Prop :=
  ∀ (s : Machine.State) (rest : List Turn) (v : Word), s.phase ≠ .init →
    (s.Presents (writeOf 0x008 v) rest → Machine.step s = .next { s with
      sched := rest, busRsp := some ⟨0, false⟩, ctrl := v.extractLsb' 0 3 }) ∧
    (s.Presents (writeOf 0x00C v) rest → Machine.step s = .next { s with
      sched := rest, busRsp := some ⟨0, false⟩, symLimit := v }) ∧
    (s.Presents (writeOf 0x024 v) rest → Machine.step s = .next { s with
      sched := rest, busRsp := some ⟨0, false⟩, irqStatus := s.irqStatus &&& ~~~ v.extractLsb' 0 4 }) ∧
    (s.Presents (writeOf 0x028 v) rest → Machine.step s = .next { s with
      sched := rest, busRsp := some ⟨0, false⟩, irqEnable := v.extractLsb' 0 4 })

/-- 20_memory.md R79: "A read returns FREQ[s]. A write sets FREQ[s] to v." -/
def Obligations.FreqWindowReadsAndWritesFreq : Prop :=
  ∀ (s : Machine.State) (rest : List Turn) (x : Byte) (v : Word), s.phase = .idle →
    (s.Presents (readOf (BitVec.ofNat 15 (0x400 + 4 * x.toNat)) v) rest →
      Machine.step s = .next (s.answered rest (freqAt s.freq x) false)) ∧
    (s.Presents (writeOf (BitVec.ofNat 15 (0x400 + 4 * x.toNat)) v) rest →
      Memory.wf 0 Config.symbols s.freq = true →
      ∃ m, Machine.step s = .next { s.answered rest 0 false with freq := m } ∧
        ∀ y, freqAt m y = if y = x then v else freqAt s.freq y)

/-- 20_memory.md R80, R81: what the HEAP window and the two words of a NODE window entry read. -/
def Obligations.HeapAndNodeWindowsReadWhatIsInUse : Prop :=
  ∀ (s : Machine.State) (rest : List Turn) (i : Nat) (w : Word), s.phase = .idle → i < 512 →
    (i < 256 → s.Presents (readOf (BitVec.ofNat 15 (0x800 + 4 * i)) w) rest →
      Machine.step s = .next (s.answered rest
        (if i < s.pqSize.toNat then BitVec.ofNat 32 (heapAt s.heap i).toNat else 0) false)) ∧
    (s.Presents (readOf (BitVec.ofNat 15 (0x1000 + 8 * i)) w) rest →
      Machine.step s = .next (s.answered rest (if i < s.nodeCount.toNat then
        let n := nodeAt s.node (BitVec.ofNat 9 i)
        BitVec.ofNat 32 (n.isLeaf.toNat * 2 ^ 31 + n.synth.toNat * 2 ^ 30 + n.sym.toNat * 2 ^ 18 +
          n.right.toNat * 2 ^ 9 + n.left.toNat) else 0) false)) ∧
    (s.Presents (readOf (BitVec.ofNat 15 (0x1004 + 8 * i)) w) rest →
      Machine.step s = .next (s.answered rest
        (if i < s.nodeCount.toNat then (nodeAt s.node (BitVec.ofNat 9 i)).freq else 0) false))

/-- 20_memory.md R82, R83, 41_bitbuffer.md R151: the words of the CODE and TB windows, bit by bit. -/
def Obligations.CodeAndTbWindowsReadTheirBits : Prop :=
  ∀ (s : Machine.State) (rest : List Turn) (w : Word), s.phase = .idle →
    (∀ (x : Byte) (k : Nat), k < 16 →
      s.Presents (readOf (BitVec.ofNat 15 (0x4000 + 64 * x.toNat + 4 * k)) w) rest →
      ∃ d : Word, Machine.step s = .next (s.answered rest d false) ∧
        (k = 0 → d.toNat = (codeAt s.code x).len.toNat) ∧
        (1 ≤ k → k ≤ 8 → ∀ t, t < 32 → d.getLsbD (31 - t) =
          (decide (32 * (k - 1) + t < 255) && (codeAt s.code x).bits.getMsbD (32 * (k - 1) + t))) ∧
        (9 ≤ k → d = 0)) ∧
    (∀ k, k < 161 → s.Presents (readOf (BitVec.ofNat 15 (0x2000 + 4 * k)) w) rest →
      ∃ d : Word, Machine.step s = .next (s.answered rest d false) ∧
        (∀ t, t < 16 → d.getLsbD (15 - t) = tbGet s.tb (16 * k + t)) ∧ ∀ i, 16 ≤ i → d.getLsbD i = false)

/-- 20_memory.md R71, R72, R86, R91: one access is outstanding at a time, and it waits while its predecessor
has no response; an outstanding response is given at its turn, or as soon as nothing is scheduled (log 15); what the
host offers is kept on its side. -/
def Obligations.HostTurnsDoTheirPart : Prop :=
  ∀ (s : Machine.State) (rest : List Turn),
    (∀ a r, s.sched = .access a :: rest → s.busRsp = some r →
      s.busReqReady = false ∧ Machine.step s = .next { s with busRsp := none, rspLog := s.rspLog ++ [r] }) ∧
    (∀ a, s.sched = .access a :: rest → s.busRsp = none → s.rstN = false →
      s.busReqReady = false ∧ Machine.step s = .next { s with sched := rest }) ∧
    (∀ r, s.sched = .respond :: rest → s.busRsp = some r →
      Machine.step s = .next { s with sched := rest, busRsp := none, rspLog := s.rspLog ++ [r] }) ∧
    (s.sched = .respond :: rest → s.busRsp = none → Machine.step s = .next { s with sched := rest }) ∧
    (∀ r, s.sched = [] → s.busRsp = some r →
      Machine.step s = .next { s with busRsp := none, rspLog := s.rspLog ++ [r] }) ∧
    (∀ b, s.sched = .offer b :: rest → Machine.step s = .next { s with sched := rest, inQ := s.inQ ++ [b] }) ∧
    (s.sched = .ready :: rest → Machine.step s = .next { s with sched := rest, outReady := s.outReady + 1 }) ∧
    (s.sched = .rst true :: rest → Machine.step s = .next { s with sched := rest, rstN := true })

/-! ### Control commands -/

/-- 40_control.md R136: SOFT_RESET, with the registers it leaves alone. That it clears RESULT and leaves the traversal
stack are the model's choices (logs 17 and 5): R136 names neither. -/
def Obligations.SoftResetClearsTheDatapath : Prop :=
  Sys2Proof.decode 0x00000001#32 = .ok .softReset ∧
    ∀ s : Machine.State, s.Fresh → ∃ t, Machine.exec .softReset s = .next t ∧
      t = State.ended { s with
        freq := t.freq, node := t.node, heap := t.heap, tb := 0, code := t.code
        freqTotal := 0, tbLen := 0, nodeCount := 0, root := 0, pqSize := 0, result := 0
        treeValid := false, codeValid := false, inEom := true, tailPartial := false, limitHit := false
        path := 0, depth := 0, acc := 0, accN := 0, walk := 0, pos := 0 } ∧
      (∀ x, freqAt t.freq x = 0) ∧ (∀ x, nodeAt t.node x = ⟨false, false, 0, 0, 0, 0⟩) ∧
      (∀ k, heapAt t.heap k = 0) ∧ ∀ x, codeAt t.code x = ⟨0, 0⟩

/-- 40_control.md R137: IN_DISCARD takes the rest of an open message, or nothing. -/
def Obligations.InDiscardDrainsTheOpenMessage : Prop :=
  ∀ (s : Machine.State), s.Fresh →
    (s.inEom = true → Machine.exec .inDiscard s = .next s.ended) ∧
    (s.inEom = false → ∀ q rest, IsMessage q → s.inQ = q ++ rest →
      Machine.exec .inDiscard s = .next (State.ended { s with
        inQ := rest, inEom := true, inCount := countUp s.inCount (payload q).length }))

/-! ### The tree bit buffer -/

/-- 41_bitbuffer.md R154: BB_CREATE. -/
def Obligations.BbCreateMakesZeroBits : Prop :=
  ∀ (s : Machine.State) (arg : Nat), s.Fresh → arg < 65536 →
    Sys2Proof.decode (BitVec.ofNat 32 (arg * 65536 + 0x0010)) = .ok (.bbCreate arg) ∧
    (arg ≤ 2560 → ∃ t, Machine.exec (.bbCreate arg) s = .next t ∧
      t = State.ended { s with tb := t.tb, tbLen := BitVec.ofNat 12 arg } ∧ ∀ i, tbGet t.tb i = false) ∧
    (2560 < arg → Machine.exec (.bbCreate arg) s = .next (s.aborted 1 (BitVec.ofNat 32 arg)))

/-- 41_bitbuffer.md R155, R156: BB_SET and BB_CLEAR. -/
def Obligations.BbSetAndBbClearForceOneBit : Prop :=
  ∀ (s : Machine.State) (arg : Nat), s.Fresh → arg < 65536 → s.tbLen.toNat ≤ 2560 →
    Sys2Proof.decode (BitVec.ofNat 32 (arg * 65536 + 0x0011)) = .ok (.bbSet arg) ∧
    (arg < s.tbLen.toNat → ∃ t, Machine.exec (.bbSet arg) s = .next t ∧ t = State.ended { s with tb := t.tb } ∧
      ∀ i, tbGet t.tb i = if i = arg then true else tbGet s.tb i) ∧
    (s.tbLen.toNat ≤ arg → Machine.exec (.bbSet arg) s = .next (s.aborted 2 (BitVec.ofNat 32 arg))) ∧
    Sys2Proof.decode (BitVec.ofNat 32 (arg * 65536 + 0x0012)) = .ok (.bbClear arg) ∧
    (arg < s.tbLen.toNat → ∃ t, Machine.exec (.bbClear arg) s = .next t ∧ t = State.ended { s with tb := t.tb } ∧
      ∀ i, tbGet t.tb i = if i = arg then false else tbGet s.tb i) ∧
    (s.tbLen.toNat ≤ arg → Machine.exec (.bbClear arg) s = .next (s.aborted 2 (BitVec.ofNat 32 arg)))

/-- 41_bitbuffer.md R157: BB_GET. -/
def Obligations.BbGetReadsOneBit : Prop :=
  ∀ (s : Machine.State) (arg : Nat), s.Fresh → arg < 65536 →
    Sys2Proof.decode (BitVec.ofNat 32 (arg * 65536 + 0x0013)) = .ok (.bbGet arg) ∧
    (arg < s.tbLen.toNat → Machine.exec (.bbGet arg) s = .next (State.ended { s with
      result := if tbGet s.tb arg then 1 else 0 })) ∧
    (s.tbLen.toNat ≤ arg → Machine.exec (.bbGet arg) s = .next (s.aborted 2 (BitVec.ofNat 32 arg)))

/-- 41_bitbuffer.md R153, R158: BB_RESIZE. From a buffer with only zeros past TB_LEN (R153, `State.Inv.tbTail`) a
growth exposes zeros, and past the new TB_LEN there are only zeros again. -/
def Obligations.BbResizeKeepsWhatStaysCovered : Prop :=
  ∀ (s : Machine.State) (arg : Nat), s.Fresh → arg < 65536 → s.tbLen.toNat ≤ 2560 →
    Sys2Proof.decode (BitVec.ofNat 32 (arg * 65536 + 0x0014)) = .ok (.bbResize arg) ∧
    (arg ≤ 2560 → ∃ t, Machine.exec (.bbResize arg) s = .next t ∧
      t = State.ended { s with tb := t.tb, tbLen := BitVec.ofNat 12 arg } ∧
      (∀ i, tbGet t.tb i = if arg ≤ i ∧ i < s.tbLen.toNat then false else tbGet s.tb i) ∧
      ((∀ i, s.tbLen.toNat ≤ i → tbGet s.tb i = false) →
        (∀ i, s.tbLen.toNat ≤ i → i < arg → tbGet t.tb i = false) ∧ ∀ i, arg ≤ i → tbGet t.tb i = false)) ∧
    (2560 < arg → Machine.exec (.bbResize arg) s = .next (s.aborted 1 (BitVec.ofNat 32 arg)))

/-- 41_bitbuffer.md R159, 20_memory.md R92, R93, R95: the bytes BB_SERIALIZE emits. -/
def Obligations.BbSerializeEmitsTheHeader : Prop :=
  ∀ (s : Machine.State) (f : Bool), s.Fresh → s.tbLen.toNat ≤ 2560 →
    4 + 2 * ((s.tbLen.toNat + 15) / 16 + 1) + f.toNat ≤ s.outReady →
    (headerOf s.wireBe s.tbLen.toNat s.tb).length = 4 + 2 * ((s.tbLen.toNat + 15) / 16 + 1) ∧
    Machine.exec (.bbSerialize f) s = .next (State.ended { s with
      outReady := s.outReady - (4 + 2 * ((s.tbLen.toNat + 15) / 16 + 1)) - f.toNat
      outLog := s.outLog ++ (headerOf s.wireBe s.tbLen.toNat s.tb).map dataBeat ++
        (if f then [endBeat] else [])
      outCount := countUp s.outCount (4 + 2 * ((s.tbLen.toNat + 15) / 16 + 1)) })

/-- 41_bitbuffer.md R160, 20_memory.md R90, R95: a whole header loads the buffer; received padding bits
are dropped, and IN_EOM tells whether its last byte ended the message. -/
def Obligations.BbDeserializeLoadsAHeader : Prop :=
  ∀ (s : Machine.State) (n : Nat) (vs : List (BitVec 16)) (q rest : List Beat), s.Fresh → n ≤ 2560 →
    vs.length = (n + 15) / 16 + 1 → s.inQ = q ++ rest →
    Carries q (wrInt s.wireBe 4 n ++ vs.flatMap (fun v => wrInt s.wireBe 2 v.toNat)) →
    ∃ t, Machine.exec .bbDeserialize s = .next t ∧
      t = State.ended { s with
        tb := t.tb, tbLen := BitVec.ofNat 12 n, inQ := rest, inEom := lastFlag false q
        inCount := countUp s.inCount (4 + 2 * vs.length) } ∧
      ∀ i, tbGet t.tb i = (decide (i < n) && (vs.getD (i / 16) 0).getMsbD (i % 16))

/-- 41_bitbuffer.md R160, 60_exceptions.md R281, R283: a declared length above 2560 raises ALLOC as soon as
it is complete, and a message that ends before the header is complete raises ENCODING with the number of
its data bytes, wherever it ends (between two integers: log 7). -/
def Obligations.BbDeserializeRejectsBadHeaders : Prop :=
  ∀ (s : Machine.State) (q rest : List Beat), s.Fresh → s.inQ = q ++ rest →
    (∀ n, 2560 < n → n < 2 ^ 32 → Carries q (wrInt s.wireBe 4 n) →
      Machine.exec .bbDeserialize s = .next (State.aborted { s with
        tb := 0, tbLen := 0, inQ := rest, inEom := lastFlag false q, inCount := countUp s.inCount 4 }
        1 (BitVec.ofNat 32 n))) ∧
    (IsMessage q → (payload q).length < 4 →
      Machine.exec .bbDeserialize s = .next (State.aborted { s with
        tb := 0, tbLen := 0, inQ := rest, inEom := true, inCount := countUp s.inCount (payload q).length }
        6 (BitVec.ofNat 32 (payload q).length))) ∧
    (∀ n ds, n ≤ 2560 → IsMessage q → payload q = wrInt s.wireBe 4 n ++ ds →
      ds.length < 2 * ((n + 15) / 16 + 1) →
      Machine.exec .bbDeserialize s = .next (State.aborted { s with
        tb := 0, tbLen := 0, inQ := rest, inEom := true, inCount := countUp s.inCount (payload q).length }
        6 (BitVec.ofNat 32 (payload q).length)))

/-- 41_bitbuffer.md R163: "BB_DESERIALIZE applied to the bytes BB_SERIALIZE emitted restores TB_LEN and TB
exactly, when `r_wire_be` is the same for both". -/
def Obligations.HeaderRoundTripRestoresTheBuffer : Prop :=
  ∀ (s : Machine.State) (f : Bool), s.Fresh → s.tbLen.toNat ≤ 2560 →
    (∀ i, s.tbLen.toNat ≤ i → tbGet s.tb i = false) → 327 ≤ s.outReady →
    ∃ (bytes : List Byte) (t : Machine.State), Machine.exec (.bbSerialize f) s = .next t ∧
      t.phase = .idle ∧ t.errCode = s.errCode ∧
      t.outLog = s.outLog ++ bytes.map dataBeat ++ (if f then [endBeat] else []) ∧
      ∀ (u : Machine.State) (q rest : List Beat), u.Fresh → u.wireBe = s.wireBe → u.inQ = q ++ rest →
        Carries q bytes → ∃ v, Machine.exec .bbDeserialize u = .next v ∧ v.phase = .idle ∧
          v.errCode = u.errCode ∧ v.tbLen = s.tbLen ∧ v.tb = s.tb ∧ v.inQ = rest

/-! ### The priority queue -/

/-- 40_control.md R135, 42_pqueue.md R184, 43_tree.md R203, R208, 44_codec.md R233: NOP, and the commands that
only clear. -/
def Obligations.ClearingCommandsClearOnlyTheirOwn : Prop :=
  (Sys2Proof.decode 0x00000000#32 = .ok .nop ∧ Sys2Proof.decode 0x00000020#32 = .ok .pqClear ∧
    Sys2Proof.decode 0x00000031#32 = .ok .treeDestroy ∧ Sys2Proof.decode 0x00000040#32 = .ok .freqClear) ∧
  ∀ (s : Machine.State), s.Fresh →
    Machine.exec .nop s = .next s.ended ∧
    Machine.exec .pqClear s = .next (State.ended { s with pqSize := 0 }) ∧
    Machine.exec .treeDestroy s = .next (State.ended { s with
      nodeCount := 0, root := 0, pqSize := 0, treeValid := false, codeValid := false }) ∧
    ∃ t, Machine.exec .freqClear s = .next t ∧
      t = State.ended { s with freq := t.freq, freqTotal := 0 } ∧ ∀ x, freqAt t.freq x = 0

/-- 42_pqueue.md R182, R185: PQ_INSERT sifts the node up to where its parent does not rank lower. -/
def Obligations.PqInsertSiftsTheNodeUp : Prop :=
  ∀ (s : Machine.State) (arg : Nat), s.Fresh → arg < 65536 →
    Memory.wf 0 Config.heapCap s.heap = true → s.nodeCount.toNat ≤ 512 → s.pqSize.toNat ≤ 256 →
    Sys2Proof.decode (BitVec.ofNat 32 (arg * 65536 + 0x0021)) = .ok (.pqInsert arg) ∧
    (arg < s.nodeCount.toNat → s.pqSize.toNat < 256 →
      ∃ t m, Machine.exec (.pqInsert arg) s = .next t ∧
        t = State.ended { s with heap := t.heap, pqSize := BitVec.ofNat 9 (s.pqSize.toNat + 1) } ∧
        SiftedUp s.node s.heap t.heap (BitVec.ofNat 9 arg) s.pqSize.toNat m) ∧
    (s.nodeCount.toNat ≤ arg →
      Machine.exec (.pqInsert arg) s = .next (s.aborted 2 (BitVec.ofNat 32 arg))) ∧
    (arg < s.nodeCount.toNat → s.pqSize.toNat = 256 →
      Machine.exec (.pqInsert arg) s = .next (s.aborted 1 257))

/-- 42_pqueue.md R183, R186: PQ_EXTRACT returns the root and sifts the last item down, along the left child
unless the right one strictly outranks it. -/
def Obligations.PqExtractSiftsTheLastDown : Prop :=
  Sys2Proof.decode 0x00000022#32 = .ok .pqExtract ∧
  ∀ (s : Machine.State) (n : Nat), s.Fresh → Memory.wf 0 Config.heapCap s.heap = true → n < 256 →
    (s.pqSize.toNat = n + 1 →
      ∃ t, Machine.exec .pqExtract s = .next t ∧
        t = State.ended { s with
          heap := t.heap, pqSize := BitVec.ofNat 9 n, result := BitVec.ofNat 32 (heapAt s.heap 0).toNat } ∧
        (n = 0 → t.heap = s.heap) ∧
        (0 < n → ∃ m, SiftedDown s.node s.heap t.heap (heapAt s.heap n) n m)) ∧
    (s.pqSize = 0 → Machine.exec .pqExtract s = .next (s.aborted 3 0))

/-- 42_pqueue.md R187: the heap property holds after every step, and extraction returns an item that no
remaining item outranks. -/
def Obligations.QueueReturnsALowestFrequency : Prop :=
  ∀ (s t : Machine.State), s.Inv → s.HeapInv →
    (Machine.step s = .next t → t.HeapInv) ∧
    (s.Fresh → s.pqSize ≠ 0 → Machine.exec .pqExtract s = .next t →
      ∃ x : NodeIx, t.result = x.setWidth 32 ∧
        (heapItems s.heap s.pqSize.toNat).Perm (x :: heapItems t.heap t.pqSize.toNat) ∧
        ∀ y ∈ heapItems t.heap t.pqSize.toNat, outranks s.node y x = false)

/-! ### The tree -/

/-- 43_tree.md R204, R206: TREE_BUILD on a table with no symbol, and on one with a single symbol. -/
def Obligations.TreeBuildOfOneSymbolPairsItsLeaf : Prop :=
  ∀ (s : Machine.State), s.Fresh → Memory.wf Node.zero Config.nodeCap s.node = true →
    Memory.wf 0 Config.heapCap s.heap = true →
    ((∀ x, freqAt s.freq x = 0) → ∃ t, Machine.exec .treeBuild s = .next t ∧
      t = State.aborted { s with
        node := t.node, heap := t.heap, nodeCount := 0, root := 0, pqSize := 0
        treeValid := false, codeValid := false } 4 0) ∧
    (∀ x, freqAt s.freq x ≠ 0 → (∀ y, y ≠ x → freqAt s.freq y = 0) → ∃ t, Machine.exec .treeBuild s = .next t ∧
      t = State.ended { s with
        node := t.node, heap := t.heap, nodeCount := 3, root := 2, pqSize := 0
        treeValid := true, codeValid := false } ∧
      nodeAt t.node 0 = ⟨true, false, x, 0, 0, freqAt s.freq x⟩ ∧
      nodeAt t.node 1 = ⟨true, true, x ^^^ 0x01#8, 0, 0, 0⟩ ∧
      nodeAt t.node 2 = ⟨false, false, 0, 0, 1, freqAt s.freq x⟩)

/-- 43_tree.md R201, R204, R205, R207, 42_pqueue.md R182, R183, 60_exceptions.md R287: TREE_BUILD on two symbols or
more. `L` is their number. Every merge joins a lowest item of the queue, on the left, with a lowest one of what is
left; which of several lowest ones, the trace of the heap says, from the leaves' insertions on, by the tie rules of
R182 and R183. The frequency of the root is the exact sum of all counts, unless a merge overflows: then the first
that does is reported. -/
def Obligations.TreeBuildMakesAFullTreeOfTheSymbols : Prop :=
  ∀ (s : Machine.State) (L : Nat), s.Fresh → Memory.wf Node.zero Config.nodeCap s.node = true →
    Memory.wf 0 Config.heapCap s.heap = true → (usedSymbols s.freq).length = L → 2 ≤ L →
    (totalOf s.freq (usedSymbols s.freq) < 2 ^ 32 → ∃ t T, Machine.exec .treeBuild s = .next t ∧
      t = State.ended { s with
        node := t.node, heap := t.heap, nodeCount := BitVec.ofNat 10 (2 * L - 1)
        root := BitVec.ofNat 9 (2 * L - 2), pqSize := 0, treeValid := true, codeValid := false } ∧
      BuiltFrom s.freq (usedSymbols s.freq) t.node s.heap t.heap ∧ Holds t.node (2 * L - 1) t.root T ∧
      Weighs s.freq t.node t.root T ∧ T.syms.Perm (usedSymbols s.freq) ∧ T.leaves = L ∧
      (nodeAt t.node t.root).freq.toNat = totalOf s.freq (usedSymbols s.freq)) ∧
    (2 ^ 32 ≤ totalOf s.freq (usedSymbols s.freq) → ∃ t j, Machine.exec .treeBuild s = .next t ∧
      j < L - 1 ∧ LeavesAt s.freq (usedSymbols s.freq) t.node ∧ OverflowsAt t.node L j ∧
      OverflowHeap t.node L j s.heap t.heap ∧
      t = State.aborted { s with
        node := t.node, heap := t.heap, nodeCount := 0, root := 0, pqSize := 0
        treeValid := false, codeValid := false } 7 (BitVec.ofNat 32 (L + j)))

/-- 43_tree.md R209, R210, R211, R212: TREE_SERIALIZE writes the tree's bits, 10L - 1 of them, and zeros after
them. The traversal stack is left undefined (R222, log 5); that r_pos keeps its last value is log 6. -/
def Obligations.TreeSerializeWritesTheTreeBits : Prop :=
  ∀ (s : Machine.State), s.Fresh →
    (s.treeValid = false → Machine.exec .treeSerialize s = .next (s.aborted 8 0)) ∧
    (∀ n T, s.treeValid = true → Holds s.node n s.root T → T.leaves ≤ 256 →
      ∃ t, Machine.exec .treeSerialize s = .next t ∧
        t = State.ended { s with
          tb := t.tb, tbLen := BitVec.ofNat 12 (10 * T.leaves - 1), pos := BitVec.ofNat 12 (10 * T.leaves - 1)
          stack := t.stack, draws := t.draws } ∧
        ∀ i, tbGet t.tb i = (T.toBits s.symLsb).getD i false)

/-- 43_tree.md R201, R213, R215: TREE_DESERIALIZE accepts every buffer that begins with the bits of a tree of at
most 512 nodes; the bits after it are ignored. The stack: log 5; r_pos after the command: log 6. -/
def Obligations.TreeDeserializeRebuildsTheTree : Prop :=
  ∀ (s : Machine.State) (T : HTree), s.Fresh → Memory.wf Node.zero Config.nodeCap s.node = true →
    s.tbLen.toNat ≤ 2560 → (T.toBits s.symLsb).length ≤ s.tbLen.toNat →
    BitsAt s.tb s.tbLen.toNat 0 (T.toBits s.symLsb) →
    ∃ t, Machine.exec .treeDeserialize s = .next t ∧
      t = State.ended { s with
        node := t.node, nodeCount := BitVec.ofNat 10 T.size, root := 0, pqSize := 0
        treeValid := true, codeValid := false, pos := BitVec.ofNat 12 (T.toBits s.symLsb).length
        stack := t.stack, draws := t.draws } ∧
      ParsedAt t.node 0 T

/-- 43_tree.md R213, R214, 60_exceptions.md R287: TREE_DESERIALIZE stops at the first node, in pre-order, that
the buffer or the RAM has no room for, and its detail is the position of that node's tag. Every buffer
begins like the bits of some tree, as far as it reaches. -/
def Obligations.TreeDeserializeReportsTheFirstFailure : Prop :=
  ∀ (s : Machine.State), s.Fresh → Memory.wf Node.zero Config.nodeCap s.node = true → s.tbLen.toNat ≤ 2560 →
    (∃ T : HTree, BitsAt s.tb s.tbLen.toNat 0 (T.toBits s.symLsb)) ∧
    ∀ T : HTree, BitsAt s.tb s.tbLen.toNat 0 (T.toBits s.symLsb) → s.tbLen.toNat < (T.toBits s.symLsb).length →
      ∃ t k, Machine.exec .treeDeserialize s = .next t ∧ k < T.size ∧ k ≤ 512 ∧
        (T.widths.take k).sum ≤ s.tbLen.toNat ∧
        (k = 512 ∨ s.tbLen.toNat < (T.widths.take (k + 1)).sum) ∧
        t = State.aborted { s with
          node := t.node, nodeCount := 0, root := 0, pqSize := 0, treeValid := false, codeValid := false
          pos := t.pos, stack := t.stack, draws := t.draws }
          6 (BitVec.ofNat 32 (T.widths.take k).sum)

/-- 43_tree.md R216: the serialization round trip. -/
def Obligations.TreeRoundTripKeepsShapeAndSymbols : Prop :=
  ∀ (s : Machine.State) (n : Nat) (T : HTree), s.Fresh → s.treeValid = true → Holds s.node n s.root T →
    T.leaves ≤ 256 →
    ∃ t1, Machine.exec .treeSerialize s = .next t1 ∧ t1.phase = .idle ∧ t1.errCode = s.errCode ∧
      ∀ u : Machine.State, u.Fresh → Memory.wf Node.zero Config.nodeCap u.node = true → u.tb = t1.tb →
        u.tbLen = t1.tbLen → u.symLsb = s.symLsb →
        ∃ t2, Machine.exec .treeDeserialize u = .next t2 ∧ t2.phase = .idle ∧ t2.errCode = u.errCode ∧
          t2.treeValid = true ∧ t2.root = 0 ∧ t2.nodeCount.toNat = T.size ∧ ParsedAt t2.node 0 T ∧
          Holds t2.node T.size 0 T.plain ∧
          ∀ v : Machine.State, v.Fresh → v.node = t2.node → v.root = t2.root → v.treeValid = true →
            v.symLsb = s.symLsb →
            ∃ t3, Machine.exec .treeSerialize v = .next t3 ∧ t3.tb = t1.tb ∧ t3.tbLen = t1.tbLen

/-! ### The codec -/

/-- 44_codec.md R234: FREQ_ACCUM counts every byte of one message, or stops at the byte whose count would pass
2^32 - 1, which is not counted. -/
def Obligations.FreqAccumCountsTheMessage : Prop :=
  ∀ (s : Machine.State) (q rest : List Beat), s.Fresh → Memory.wf 0 Config.symbols s.freq = true →
    (IsMessage q → s.inQ = q ++ rest → s.freqTotal.toNat + (payload q).length < 2 ^ 32 →
      (∀ x, (freqAt s.freq x).toNat + (payload q).count x < 2 ^ 32) →
      ∃ t, Machine.exec .freqAccum s = .next t ∧
        t = State.ended { s with
          freq := t.freq, freqTotal := BitVec.ofNat 32 (s.freqTotal.toNat + (payload q).length)
          inQ := rest, inEom := true, inCount := countUp s.inCount (payload q).length } ∧
        ∀ x, (freqAt t.freq x).toNat = (freqAt s.freq x).toNat + (payload q).count x) ∧
    (∀ b, (∀ c ∈ q, c.last = false) → b.empty = false → s.inQ = q ++ b :: rest →
      s.freqTotal.toNat + (payload q).length < 2 ^ 32 →
      (∀ x, (freqAt s.freq x).toNat + (payload q).count x < 2 ^ 32) →
      (s.freqTotal.toNat + (payload q).length = 2 ^ 32 - 1 ∨
        (freqAt s.freq b.data).toNat + (payload q).count b.data = 2 ^ 32 - 1) →
      ∃ t, Machine.exec .freqAccum s = .next t ∧
        t = State.aborted { s with
          freq := t.freq, freqTotal := BitVec.ofNat 32 (s.freqTotal.toNat + (payload q).length)
          inQ := rest, inEom := b.last, inCount := countUp s.inCount ((payload q).length + 1) }
          7 (BitVec.ofNat 32 b.data.toNat) ∧
        ∀ x, (freqAt t.freq x).toNat = (freqAt s.freq x).toNat + (payload q).count x)

/-- 44_codec.md R236, 41_bitbuffer.md R161: CODE_GEN stores, for every symbol, the path of its last leaf in
pre-order, and nothing for a symbol without one; on an error it clears the table. -/
def Obligations.CodeGenStoresThePaths : Prop :=
  ∀ (s : Machine.State), s.Fresh →
    (s.treeValid = false → ∃ t, Machine.exec .codeGen s = .next t ∧
      t = State.aborted { s with code := t.code, codeValid := false } 8 0 ∧ ∀ x, codeAt t.code x = ⟨0, 0⟩) ∧
    (s.treeValid = true → (nodeAt s.node s.root).isLeaf = true → ∃ t, Machine.exec .codeGen s = .next t ∧
      t = State.aborted { s with code := t.code, codeValid := false } 6 0 ∧ ∀ x, codeAt t.code x = ⟨0, 0⟩) ∧
    (∀ n l r, s.treeValid = true → Holds s.node n s.root (.node l r) → (HTree.node l r).leaves ≤ 256 →
      ∃ t, Machine.exec .codeGen s = .next t ∧
        t = State.ended { s with
          code := t.code, codeValid := true, path := t.path, depth := t.depth
          stack := t.stack, draws := t.draws } ∧
        ∀ x, match (HTree.node l r).codeOf x with
          | some bits => (codeAt t.code x).Says bits ∧ bits ≠ []
          | none => codeAt t.code x = ⟨0, 0⟩)

/-- 44_codec.md R238: after CODE_GEN on a tree without duplicate symbols no mapped code is a prefix of another
one, and a code followed from ROOT ends at a leaf of its symbol. -/
def Obligations.CodesArePrefixFreeAndWalkBack : Prop :=
  ∀ (s t : Machine.State) (n : Nat) (T : HTree), s.Fresh → s.treeValid = true → Holds s.node n s.root T →
    T.leaves ≤ 256 → T.syms.Nodup → Machine.exec .codeGen s = .next t → t.codeValid = true →
    (∀ x y, x ≠ y → (codeAt t.code x).len ≠ 0 → (codeAt t.code y).len ≠ 0 →
      ¬ (codeAt t.code x).toBits <+: (codeAt t.code y).toBits) ∧
    ∀ x, (codeAt t.code x).len ≠ 0 →
      (nodeAt t.node (followBits t.node t.root (codeAt t.code x).toBits)).isLeaf = true ∧
      (nodeAt t.node (followBits t.node t.root (codeAt t.code x).toBits)).sym = x

/-- 44_codec.md R231, R232, R237: PACK emits the codes of one message, most significant bit first, padded with
zeros; a byte without a code aborts it, and then only whole bytes have been emitted. That r_acc and r_acc_n are 0
after a success is log 6: between commands the spec lets them be any value. -/
def Obligations.PackEmitsTheCodes : Prop :=
  ∀ (s : Machine.State) (f : Bool) (q rest : List Beat), s.Fresh →
    (s.codeValid = false → Machine.exec (.pack f) s = .next (s.aborted 8 0)) ∧
    (∀ bytes, s.codeValid = true → IsMessage q → s.inQ = q ++ rest →
      (∀ d ∈ payload q, (codeAt s.code d).len ≠ 0) →
      BytesOfBits ((payload q).flatMap (fun d => (codeAt s.code d).toBits)) bytes →
      bytes.length + f.toNat ≤ s.outReady →
      Machine.exec (.pack f) s = .next (State.ended { s with
        inQ := rest, inEom := true, inCount := countUp s.inCount (payload q).length
        outReady := s.outReady - bytes.length - f.toNat
        outLog := s.outLog ++ bytes.map dataBeat ++ (if f then [endBeat] else [])
        outCount := countUp s.outCount bytes.length, acc := 0, accN := 0 })) ∧
    (∀ (b : Beat) (bytes : List Byte) (tail : List Bool), s.codeValid = true → (∀ c ∈ q, c.last = false) → b.empty = false →
      s.inQ = q ++ b :: rest → (∀ d ∈ payload q, (codeAt s.code d).len ≠ 0) → (codeAt s.code b.data).len = 0 →
      (payload q).flatMap (fun d => (codeAt s.code d).toBits) = bytes.flatMap byteBits ++ tail →
      tail.length < 8 → bytes.length ≤ s.outReady →
      ∃ t, Machine.exec (.pack f) s = .next t ∧
        t = State.aborted { s with
          inQ := rest, inEom := b.last, inCount := countUp s.inCount ((payload q).length + 1)
          outReady := s.outReady - bytes.length
          outLog := s.outLog ++ bytes.map dataBeat
          outCount := countUp s.outCount bytes.length, acc := t.acc, accN := t.accN }
          5 (BitVec.ofNat 32 b.data.toNat))

/-- 44_codec.md R239: UNPACK emits the symbols that the descent of the tree meets, up to the limit, takes the
message to its end, and emits the end marker. -/
def Obligations.UnpackEmitsTheSymbolsOfTheWalk : Prop :=
  ∀ (s : Machine.State) (f : Bool) (n : Nat) (l r : HTree) (q rest : List Beat) (out : List Byte) (stand : HTree),
    s.Fresh → s.treeValid = true → Holds s.node n s.root (.node l r) →
    (f = true ∨ s.inEom = false) → IsMessage q → s.inQ = q ++ rest →
    HTree.descend (.node l r) (.node l r) ((payload q).flatMap byteBits) = (out, stand) →
    ((s.limitEn = true → out.length < s.symLimitL.toNat) → out.length + 1 ≤ s.outReady →
      ∃ t, Machine.exec (.unpack f) s = .next t ∧
        t = State.ended { s with
          inQ := rest, inEom := true, inCount := countUp s.inCount (payload q).length
          outReady := s.outReady - out.length - 1
          outLog := s.outLog ++ out.map dataBeat ++ [endBeat]
          outCount := countUp s.outCount out.length
          tailPartial := decide (stand ≠ .node l r), limitHit := false, walk := t.walk }) ∧
    (s.limitEn = true → s.symLimitL.toNat ≤ out.length → s.symLimitL.toNat + 1 ≤ s.outReady →
      ∃ t, Machine.exec (.unpack f) s = .next t ∧
        t = State.ended { s with
          inQ := rest, inEom := true, inCount := countUp s.inCount (payload q).length
          outReady := s.outReady - s.symLimitL.toNat - 1
          outLog := s.outLog ++ (out.take s.symLimitL.toNat).map dataBeat ++ [endBeat]
          outCount := countUp s.outCount s.symLimitL.toNat
          tailPartial := false, limitHit := true, walk := t.walk })

/-- 44_codec.md R239: UNPACK refuses before it takes a beat, and with no message open it emits only the end
marker. That r_walk then stays at ROOT is log 6: between commands the spec lets it be any value. -/
def Obligations.UnpackTakesNoBeatWithoutNeed : Prop :=
  ∀ (s : Machine.State) (f : Bool), s.Fresh →
    (s.treeValid = false → Machine.exec (.unpack f) s = .next (s.aborted 8 0)) ∧
    (s.treeValid = true → (nodeAt s.node s.root).isLeaf = true →
      Machine.exec (.unpack f) s = .next (s.aborted 6 0)) ∧
    (s.treeValid = true → (nodeAt s.node s.root).isLeaf = false → f = false → s.inEom = true → 1 ≤ s.outReady →
      Machine.exec (.unpack f) s = .next (State.ended { s with
        outReady := s.outReady - 1, outLog := s.outLog ++ [endBeat], walk := s.root
        tailPartial := false, limitHit := s.limitEn && decide (s.symLimitL = 0) }))

/-- 44_codec.md R241, 20_memory.md R96: ENCODE emits one message: the header of the tree that TREE_BUILD makes of the
first message's counts (`State.EncodesFor`), the codes of the second message's bytes, the end marker. The second
message need not be the first again: each of its bytes must occur in the first. A code has at most 255 bits, so the
host is ready for all of it with 327 + 32 times the second message's length. That r_acc and r_acc_n are 0
afterwards is log 6. -/
def Obligations.EncodeEmitsHeaderBodyAndMarker : Prop :=
  ∀ (s : Machine.State) (q1 q2 rest : List Beat) (S S2 : List Byte), s.Fresh →
    Memory.wf Node.zero Config.nodeCap s.node = true → Memory.wf 0 Config.heapCap s.heap = true →
    IsMessage q1 → IsMessage q2 → payload q1 = S → payload q2 = S2 → s.inQ = q1 ++ q2 ++ rest →
    S ≠ [] → S.length < 2 ^ 32 → (∀ x ∈ S2, x ∈ S) → 327 + 32 * S2.length ≤ s.outReady →
    ∃ t T body, Machine.exec .encode s = .next t ∧ t.EncodesFor s S T ∧
      BytesOfBits (S2.flatMap (fun x => (T.codeOf x).getD [])) body ∧
      t = State.ended { s with
        freq := t.freq, freqTotal := BitVec.ofNat 32 S.length, node := t.node, nodeCount := t.nodeCount
        heap := t.heap, pqSize := 0, root := t.root, treeValid := true, codeValid := true
        tb := t.tb, tbLen := t.tbLen, pos := t.pos, code := t.code, path := t.path, depth := t.depth
        stack := t.stack, draws := t.draws, acc := 0, accN := 0
        inQ := rest, inEom := true, inCount := countUp s.inCount (S.length + S2.length)
        outReady := s.outReady - (headerOf s.wireBe t.tbLen.toNat t.tb ++ body).length - 1
        outLog := s.outLog ++ (headerOf s.wireBe t.tbLen.toNat t.tb ++ body).map dataBeat ++
          [endBeat]
        outCount := countUp s.outCount (headerOf s.wireBe t.tbLen.toNat t.tb ++ body).length }

/-- 44_codec.md R241, 60_exceptions.md R283, R287: the errors of ENCODE. The empty message: TREE_EMPTY, no output byte,
and the second message is not taken. A first message of 2^32 bytes: OVERFLOW at the last of them. A byte of the
second message that the first did not have: UNMAPPED_BYTE, after the header and the whole bytes of the codes
before it, without an end marker. And in every case ENCODE ends as its seven steps end, run one by one. -/
def Obligations.EncodeReportsItsFirstError : Prop :=
  ∀ (s : Machine.State), s.Fresh →
    Memory.wf Node.zero Config.nodeCap s.node = true → Memory.wf 0 Config.heapCap s.heap = true →
    (∀ q rest, IsMessage q → payload q = [] → s.inQ = q ++ rest →
      ∃ t, Machine.exec .encode s = .next t ∧ (∀ x, freqAt t.freq x = 0) ∧
        t = State.aborted { s with
          freq := t.freq, freqTotal := 0, node := t.node, heap := t.heap, nodeCount := 0, root := 0, pqSize := 0
          treeValid := false, codeValid := false, inQ := rest, inEom := true } 4 0) ∧
    (∀ q b rest, (∀ c ∈ q, c.last = false) → b.empty = false → s.inQ = q ++ b :: rest →
      (payload q).length = 2 ^ 32 - 1 →
      ∃ t, Machine.exec .encode s = .next t ∧ (∀ x, (freqAt t.freq x).toNat = (payload q).count x) ∧
        t = State.aborted { s with
          freq := t.freq, freqTotal := 0xFFFFFFFF, inQ := rest, inEom := b.last, inCount := countUp s.inCount (2 ^ 32) }
          7 (BitVec.ofNat 32 b.data.toNat)) ∧
    (∀ q1 q2 b rest S, IsMessage q1 → payload q1 = S → S ≠ [] → S.length < 2 ^ 32 → (∀ c ∈ q2, c.last = false) →
      b.empty = false → s.inQ = q1 ++ (q2 ++ b :: rest) → (∀ x ∈ payload q2, x ∈ S) → b.data ∉ S →
      326 + 32 * (payload q2).length ≤ s.outReady →
      ∃ t T bytes tail, Machine.exec .encode s = .next t ∧ t.EncodesFor s S T ∧
        (payload q2).flatMap (fun x => (T.codeOf x).getD []) = bytes.flatMap byteBits ++ tail ∧ tail.length < 8 ∧
        t = State.aborted { s with
          freq := t.freq, freqTotal := BitVec.ofNat 32 S.length, node := t.node, nodeCount := t.nodeCount
          heap := t.heap, pqSize := 0, root := t.root, treeValid := true, codeValid := true
          tb := t.tb, tbLen := t.tbLen, pos := t.pos, code := t.code, path := t.path, depth := t.depth
          stack := t.stack, draws := t.draws, acc := t.acc, accN := t.accN
          inQ := rest, inEom := b.last, inCount := countUp s.inCount (S.length + (payload q2).length + 1)
          outReady := s.outReady - (headerOf s.wireBe t.tbLen.toNat t.tb ++ bytes).length
          outLog := s.outLog ++ (headerOf s.wireBe t.tbLen.toNat t.tb ++ bytes).map dataBeat
          outCount := countUp s.outCount (headerOf s.wireBe t.tbLen.toNat t.tb ++ bytes).length }
          5 (BitVec.ofNat 32 b.data.toNat)) ∧
    (∀ t, s.phase = .exec → s.errCode = 0 →
      runSteps [.freqClear, .freqAccum, .treeBuild, .treeSerialize, .bbSerialize false, .codeGen, .pack true] s =
        .next t → t.phase = .idle → Machine.exec .encode s = .next t)

/-- 44_codec.md R239, R242, 20_memory.md R96, 60_exceptions.md R287: DECODE of a message that is the header of a tree and
a body, which may be empty, emits the symbols of the body's walk, up to the limit, and the end marker. A header of
a single leaf: ENCODING, with the tree in place and the rest of the message still to be taken. And in every case
DECODE ends as its three steps end, run one by one: so with the errors of the header and of the tree. -/
def Obligations.DecodeEmitsTheSymbolsOfTheBody : Prop :=
  ∀ (s : Machine.State), s.Fresh → Memory.wf Node.zero Config.nodeCap s.node = true →
    (∀ (q rest : List Beat) (tb : BitVec 2576) (len : Nat), s.inQ = q ++ rest → len ≤ 2560 →
      (∀ i, len ≤ i → tbGet tb i = false) →
      (∀ (l r stand : HTree) (body out : List Byte), IsMessage q → payload q = headerOf s.wireBe len tb ++ body →
        BitsAt tb len 0 ((HTree.node l r).toBits s.symLsb) → ((HTree.node l r).toBits s.symLsb).length ≤ len →
        HTree.descend (.node l r) (.node l r) (body.flatMap byteBits) = (out, stand) →
        ((s.limitEn = true → out.length < s.symLimitL.toNat) → out.length + 1 ≤ s.outReady →
          ∃ t, Machine.exec .decode s = .next t ∧ ParsedAt t.node 0 (.node l r) ∧
            t = State.ended { s with
              tb := tb, tbLen := BitVec.ofNat 12 len, node := t.node
              nodeCount := BitVec.ofNat 10 (HTree.node l r).size, root := 0, pqSize := 0
              treeValid := true, codeValid := false, pos := t.pos, stack := t.stack, draws := t.draws, walk := t.walk
              inQ := rest, inEom := true, inCount := countUp s.inCount (payload q).length
              outReady := s.outReady - out.length - 1
              outLog := s.outLog ++ out.map dataBeat ++ [endBeat]
              outCount := countUp s.outCount out.length
              tailPartial := decide (stand ≠ .node l r), limitHit := false }) ∧
        (s.limitEn = true → s.symLimitL.toNat ≤ out.length → s.symLimitL.toNat + 1 ≤ s.outReady →
          ∃ t, Machine.exec .decode s = .next t ∧ ParsedAt t.node 0 (.node l r) ∧
            t = State.ended { s with
              tb := tb, tbLen := BitVec.ofNat 12 len, node := t.node
              nodeCount := BitVec.ofNat 10 (HTree.node l r).size, root := 0, pqSize := 0
              treeValid := true, codeValid := false, pos := t.pos, stack := t.stack, draws := t.draws, walk := t.walk
              inQ := rest, inEom := true, inCount := countUp s.inCount (payload q).length
              outReady := s.outReady - s.symLimitL.toNat - 1
              outLog := s.outLog ++ (out.take s.symLimitL.toNat).map dataBeat ++ [endBeat]
              outCount := countUp s.outCount s.symLimitL.toNat
              tailPartial := false, limitHit := true })) ∧
      (∀ (sym : Byte) (y : Bool), Carries q (headerOf s.wireBe len tb) →
        BitsAt tb len 0 ((HTree.leaf sym y).toBits s.symLsb) → 9 ≤ len →
        ∃ t, Machine.exec .decode s = .next t ∧ ParsedAt t.node 0 (.leaf sym y) ∧
          t = State.aborted { s with
            tb := tb, tbLen := BitVec.ofNat 12 len, node := t.node, nodeCount := 1, root := 0, pqSize := 0
            treeValid := true, codeValid := false, pos := t.pos, stack := t.stack, draws := t.draws
            inQ := rest, inEom := lastFlag false q
            inCount := countUp s.inCount (headerOf s.wireBe len tb).length } 6 0)) ∧
    (∀ t, s.phase = .exec → s.errCode = 0 →
      runSteps [.bbDeserialize, .treeDeserialize, .unpack false] s = .next t → t.phase = .idle →
        Machine.exec .decode s = .next t)

/-- 44_codec.md R240, R243: DECODE of what ENCODE emitted gives the message back: exactly with SYM_LIMIT at its
length, and otherwise followed by floor(p / d0) copies of the leftmost leaf's symbol, where p < 8 is the number
of padding bits and d0 that leaf's depth. -/
def Obligations.RoundTripGivesTheMessageBack : Prop :=
  ∀ (s : Machine.State) (q1 q2 rest : List Beat) (S : List Byte), s.Fresh →
    Memory.wf Node.zero Config.nodeCap s.node = true → Memory.wf 0 Config.heapCap s.heap = true →
    IsMessage q1 → IsMessage q2 → payload q1 = S → payload q2 = S → s.inQ = q1 ++ q2 ++ rest →
    S ≠ [] → S.length < 2 ^ 32 → 327 + 32 * S.length ≤ s.outReady →
    ∃ (t : Machine.State) (T : HTree) (bytes : List Byte) (pad : Nat), Machine.exec .encode s = .next t ∧ t.phase = .idle ∧ t.errCode = s.errCode ∧
      t.outLog = s.outLog ++ bytes.map dataBeat ++ [endBeat] ∧
      Holds t.node t.nodeCount.toNat t.root T ∧ pad < 8 ∧
      ((S.map (fun x => (codeAt t.code x).len.toNat)).sum + pad) % 8 = 0 ∧
      ∀ (u : Machine.State) (q rest' : List Beat), u.Fresh →
        Memory.wf Node.zero Config.nodeCap u.node = true → u.wireBe = s.wireBe → u.symLsb = s.symLsb →
        IsMessage q → payload q = bytes → u.inQ = q ++ rest' → S.length + 8 ≤ u.outReady →
        (u.limitEn = true → u.symLimitL.toNat = S.length → ∃ v, Machine.exec .decode u = .next v ∧
          v.phase = .idle ∧ v.errCode = u.errCode ∧ v.limitHit = true ∧ v.inQ = rest' ∧
          v.outLog = u.outLog ++ S.map dataBeat ++ [endBeat]) ∧
        (u.limitEn = false → ∃ v, Machine.exec .decode u = .next v ∧
          v.phase = .idle ∧ v.errCode = u.errCode ∧ v.inQ = rest' ∧
          v.tailPartial = decide (pad % T.leftmost.1 ≠ 0) ∧
          v.outLog = u.outLog ++
            (S ++ List.replicate (pad / T.leftmost.1) T.leftmost.2).map dataBeat ++ [endBeat])

/-! ### Whole-machine rules -/

/-- What reset leaves meets the invariant. -/
def Obligations.ResetMeetsTheInvariant : Prop :=
  Machine.State.reset.Inv ∧ Machine.State.reset.HeapInv

/-- 41_bitbuffer.md R153, 10_state.md R34, R42 to R44, R52: every step of the machine, the host's and the core's,
keeps the invariant. -/
def Obligations.EveryStepKeepsTheInvariant : Prop :=
  ∀ (s t : Machine.State), s.Inv → Machine.step s = .next t → t.Inv

/-- 60_exceptions.md R295: "A model need refuse nothing". -/
def Obligations.NothingFaultsOrIsRefused : Prop :=
  ∀ (s : Machine.State), s.Inv → ∃ t, Machine.step s = .next t

/-- 10_state.md R30, R31, R45, R46, 40_control.md R131, R136, 60_exceptions.md R283: a command's turn leaves every
host-side register and the latched configuration alone, sets no interrupt bit but DONE or ERR, and only BB_GET,
PQ_EXTRACT and SOFT_RESET write RESULT. -/
def Obligations.CommandsLeaveTheHostsRegistersAlone : Prop :=
  ∀ (i : Instr) (s t : Machine.State), Machine.exec i s = .next t →
    (t.ctrl = s.ctrl ∧ t.symLimit = s.symLimit ∧ t.irqEnable = s.irqEnable ∧ t.cmd = s.cmd ∧
      t.wireBe = s.wireBe ∧ t.symLsb = s.symLsb ∧ t.limitEn = s.limitEn ∧ t.symLimitL = s.symLimitL ∧
      t.rstN = s.rstN ∧ t.busRsp = s.busRsp ∧ t.rspLog = s.rspLog ∧ t.sched = s.sched) ∧
    (t.irqStatus = s.irqStatus ∨ t.irqStatus = s.irqStatus ||| 0b0001#4 ∨ t.irqStatus = s.irqStatus ||| 0b0010#4) ∧
    (s.prog = none → t.result = s.result ∨ (∃ arg, i = .bbGet arg) ∨ i = .pqExtract ∨ i = .softReset)

/-- 10_state.md R36, 20_memory.md R87, R88, R92, R93: the beats a turn takes and gives are accounted for, none is
lost or repeated, the core emits only data beats and end markers, and a turn that emits a marker is the command's last
and ends it without error, so that an aborted command has emitted none, in whichever turn it aborts. That the marker
stands last among the pending operations is `State.Inv.markerLast`, which every step keeps. -/
def Obligations.StreamsAreAccountedFor : Prop :=
  ∀ (i : Instr) (s t : Machine.State), Machine.exec i s = .next t →
    ∃ taken given : List Beat, s.inQ = taken ++ t.inQ ∧ t.inCount = countUp s.inCount (payload taken).length ∧
      t.outLog = s.outLog ++ given ∧ t.outCount = countUp s.outCount (payload given).length ∧
      s.outReady = t.outReady + given.length ∧
      (∀ b ∈ given, (b.empty = false ∧ b.last = false) ∨ b = endBeat) ∧
      ((∀ ops, s.prog = some ops → marksLast ops = true) → endBeat ∈ given →
        t.errCode = s.errCode ∧ t.errInfo = s.errInfo ∧ (t.phase = .idle ∨ t.prog = some []))

end Statements
end

