-- ==== Sys2Proof/Laws/Memory.lean ====
section
/-! SUPPORT. Laws/Memory.lean: reading after writing, and that writing keeps the canonical form. -/

namespace Sys2Proof.Machine

variable {α : Type} [DecidableEq α] {d : α} {bound : Nat}

theorem Memory.wfFrom_mono {lo lo' : Nat} (h : lo ≤ lo') :
    ∀ {m : Memory α}, Memory.wfFrom d bound lo' m = true → Memory.wfFrom d bound lo m = true
  | [], _ => rfl
  | (k, v) :: m, hm => by
    simp only [Memory.wfFrom, Bool.and_eq_true, decide_eq_true_eq] at hm ⊢
    exact ⟨⟨⟨by omega, hm.1.1.2⟩, hm.1.2⟩, hm.2⟩

/-- Below every listed index a RAM reads as its reset value. -/
theorem Memory.read_below {a lo : Nat} (h : a < lo) :
    ∀ {m : Memory α}, Memory.wfFrom d bound lo m = true → Memory.read d m a = d
  | [], _ => rfl
  | (k, v) :: m, hm => by
    simp only [Memory.wfFrom, Bool.and_eq_true, decide_eq_true_eq] at hm
    simp only [Memory.read]
    rw [if_pos (by omega)]

theorem Memory.read_write_same_from {a : Nat} {v : α} :
    ∀ {lo : Nat} {m : Memory α}, Memory.wfFrom d bound lo m = true →
      Memory.read d (Memory.write d m a v) a = v
  | _, [], _ => by
    by_cases hv : v = d <;> simp [Memory.write, Memory.read, hv]
  | lo, (k, w) :: m, hm => by
    simp only [Memory.wfFrom, Bool.and_eq_true, decide_eq_true_eq] at hm
    unfold Memory.write
    split
    · next hak =>
      split
      · next hv => simp [Memory.read, hak, hv]
      · simp [Memory.read]
    · next hak =>
      split
      · next hk =>
        split
        · next hv => rw [hv]; exact Memory.read_below (by omega) hm.2
        · simp [Memory.read]
      · next hk =>
        simp only [Memory.read, if_neg hak, if_neg hk]
        exact Memory.read_write_same_from hm.2

theorem Memory.read_write_ne_from {a b : Nat} {v : α} (hab : b ≠ a) :
    ∀ {lo : Nat} {m : Memory α}, Memory.wfFrom d bound lo m = true →
      Memory.read d (Memory.write d m a v) b = Memory.read d m b
  | _, [], _ => by
    by_cases hv : v = d <;> simp [Memory.write, Memory.read, hv, hab]
  | lo, (k, w) :: m, hm => by
    simp only [Memory.wfFrom, Bool.and_eq_true, decide_eq_true_eq] at hm
    unfold Memory.write
    split
    · next hak =>
      split
      · rfl
      · simp only [Memory.read, if_neg hab]
        split
        · rw [if_pos (by omega)]
        · rfl
    · next hak =>
      split
      · next hk =>
        subst hk
        split
        · simp only [Memory.read, if_neg hab]
          split
          · exact Memory.read_below (by omega) hm.2
          · rfl
        · simp only [Memory.read, if_neg hab]
      · next hk =>
        simp only [Memory.read]
        split
        · rfl
        · split
          · rfl
          · exact Memory.read_write_ne_from hab hm.2

theorem Memory.write_wfFrom {a : Nat} {v : α} (ha : a < bound) :
    ∀ {lo : Nat} {m : Memory α}, lo ≤ a → Memory.wfFrom d bound lo m = true →
      Memory.wfFrom d bound lo (Memory.write d m a v) = true
  | lo, [], hlo, _ => by
    by_cases hv : v = d <;> simp [Memory.write, Memory.wfFrom, hv, hlo, ha]
  | lo, (k, w) :: m, hlo, hm => by
    have hm' := hm
    simp only [Memory.wfFrom, Bool.and_eq_true, decide_eq_true_eq] at hm
    unfold Memory.write
    split
    · next hak =>
      split
      · exact hm'
      · next hv =>
        simp only [Memory.wfFrom, Bool.and_eq_true, decide_eq_true_eq]
        exact ⟨⟨⟨hlo, ha⟩, hv⟩, ⟨⟨by omega, hm.1.1.2⟩, hm.1.2⟩, hm.2⟩
    · next hak =>
      split
      · next hk =>
        subst hk
        split
        · exact Memory.wfFrom_mono (by omega) hm.2
        · next hv =>
          simp only [Memory.wfFrom, Bool.and_eq_true, decide_eq_true_eq]
          exact ⟨⟨hm.1.1, hv⟩, hm.2⟩
      · next hk =>
        simp only [Memory.wfFrom, Bool.and_eq_true, decide_eq_true_eq]
        exact ⟨hm.1, Memory.write_wfFrom ha (by omega) hm.2⟩

/-- A read of the stored index gives the stored entry. -/
theorem Memory.read_write_same {m : Memory α} (h : Memory.wf d bound m = true) (a : Nat) (v : α) :
    Memory.read d (Memory.write d m a v) a = v := Memory.read_write_same_from h

/-- A store leaves every other index alone. -/
theorem Memory.read_write_ne {m : Memory α} (h : Memory.wf d bound m = true) {a b : Nat} (v : α)
    (hab : b ≠ a) : Memory.read d (Memory.write d m a v) b = Memory.read d m b :=
  Memory.read_write_ne_from hab h

/-- A store inside the RAM keeps the canonical form. -/
theorem Memory.write_wf {m : Memory α} (h : Memory.wf d bound m = true) {a : Nat} (v : α)
    (ha : a < bound) : Memory.wf d bound (Memory.write d m a v) = true :=
  Memory.write_wfFrom ha (Nat.zero_le _) h

/-- An empty list is canonical: the RAM after reset. -/
@[simp] theorem Memory.wf_nil : Memory.wf d bound ([] : Memory α) = true := rfl

omit [DecidableEq α] in
@[simp] theorem Memory.read_nil (d : α) (a : Nat) : Memory.read d ([] : Memory α) a = d := rfl

end Sys2Proof.Machine
end

