-- ==== Sys2Proof/Laws/TreeBuffer.lean ====
section
/-! SUPPORT. Laws/TreeBuffer.lean: what the operations on the tree bit buffer do, position by position
(41_bitbuffer.md R151, R152, R153). -/

namespace Sys2Proof.Machine

theorem tbBit_getMsbD (i j : Nat) : (tbBit i).getMsbD j = decide (j = i ∧ i < Config.tbBits) := by
  unfold tbBit Config.tbBits
  split
  · next h =>
    rw [BitVec.getMsbD_eq_getLsbD, BitVec.getLsbD_twoPow]
    by_cases hj : j = i
    · subst hj; simp [h]; omega
    · by_cases hj2 : j < 2576
      · simp only [hj2, hj, decide_true, Bool.true_and, false_and, decide_false]
        simp; omega
      · simp [hj, hj2]
  · next h => simp [h]

@[simp] theorem tbGet_zero (i : Nat) : tbGet 0#2576 i = false := by simp [tbGet]

/-- Beyond the RAM every position reads 0. -/
theorem tbGet_out {tb : BitVec 2576} {i : Nat} (h : Config.tbBits ≤ i) : tbGet tb i = false := by
  simp only [tbGet, BitVec.getMsbD_eq_getLsbD]
  simp [Config.tbBits] at h
  simp; omega

/-- `tb_put` changes the addressed position only (41_bitbuffer.md R152). -/
theorem tbGet_tbPut (tb : BitVec 2576) (i j : Nat) (b : Bool) (h : i < Config.tbBits) :
    tbGet (tbPut tb i b) j = if j = i then b else tbGet tb j := by
  unfold tbGet tbPut
  cases b
  · simp only [Bool.false_eq_true, if_false, BitVec.getMsbD_and, BitVec.getMsbD_not, tbBit_getMsbD, h,
      and_true]
    by_cases hj : j = i
    · simp [hj]
    · simp only [hj, decide_false, Bool.not_false, Bool.and_true, if_false]
      by_cases hj2 : j < 2576
      · simp [hj2]
      · have := tbGet_out (tb := tb) (i := j) (by simp [Config.tbBits]; omega)
        simp only [tbGet] at this
        simp [this]
  · simp only [if_true, BitVec.getMsbD_or, tbBit_getMsbD, h, and_true]
    by_cases hj : j = i <;> simp [hj]

/-- The kept positions are those below the bound (41_bitbuffer.md R153). -/
theorem tbGet_tbKeep (tb : BitVec 2576) (n j : Nat) (hn : n ≤ Config.tbBits) :
    tbGet (tbKeep tb n) j = (decide (j < n) && tbGet tb j) := by
  simp only [Config.tbBits] at hn
  unfold tbGet tbKeep Config.tbBits
  simp only [BitVec.getMsbD_and, BitVec.getMsbD_shiftLeft]
  by_cases hj : j < n
  · have h1 : j + (2576 - n) < 2576 := by omega
    have h2 : (BitVec.allOnes 2576).getMsbD (j + (2576 - n)) = true := by
      rw [BitVec.getMsbD_eq_getLsbD, BitVec.getLsbD_allOnes]
      simp only [h1, decide_true, Bool.true_and, decide_eq_true_eq]; omega
    rw [h2]
    simp [hj]
  · have h2 : (BitVec.allOnes 2576).getMsbD (j + (2576 - n)) = false := by
      rw [BitVec.getMsbD_eq_getLsbD]
      have h1 : ¬ j + (2576 - n) < 2576 := by omega
      simp only [h1, decide_false, Bool.false_and]
    rw [h2]
    simp [hj]

/-- Bucket bit `15 - t` of bucket `k` is position `16k + t` (41_bitbuffer.md R151). -/
theorem tbBucket_getMsbD (tb : BitVec 2576) (k t : Nat) (hk : k < Config.tbBuckets) (ht : t < 16) :
    (tbBucket tb k).getMsbD t = tbGet tb (16 * k + t) := by
  simp only [Config.tbBuckets] at hk
  unfold tbBucket tbGet Config.tbBuckets
  simp only [BitVec.getMsbD_eq_getLsbD, BitVec.getLsbD_extractLsb']
  have h1 : 15 - t < 16 := by omega
  have h2 : 16 * k + t < 2576 := by omega
  have h3 : 16 * (160 - k) + (15 - t) = 2575 - (16 * k + t) := by omega
  simp [ht, h1, h2, h3]

/-- The position `i` of a buffer made of buckets (41_bitbuffer.md R151). -/
theorem tbGet_tbOfBuckets : ∀ (vs : List (BitVec 16)) (k i : Nat), k + vs.length ≤ Config.tbBuckets →
    tbGet (tbOfBuckets k vs) i =
      (decide (16 * k ≤ i) && (vs.getD ((i - 16 * k) / 16) 0).getMsbD (i % 16))
  | [], k, i, _ => by simp [tbOfBuckets]
  | v :: vs, k, i, h => by
    simp only [List.length_cons, Config.tbBuckets] at h
    have ih := tbGet_tbOfBuckets vs (k + 1) i (by simp only [Config.tbBuckets]; omega)
    unfold tbOfBuckets
    simp only [tbGet, Config.tbBuckets] at ih ⊢
    simp only [BitVec.getMsbD_or, ih]
    have hm : i % 16 < 16 := Nat.mod_lt _ (by omega)
    simp only [BitVec.getMsbD_eq_getLsbD, BitVec.getLsbD_shiftLeft, BitVec.getLsbD_setWidth, hm,
      decide_true, Bool.true_and]
    by_cases h1 : 16 * k ≤ i
    · by_cases h2 : 16 * (k + 1) ≤ i
      · have h3 : (i - 16 * k) / 16 = (i - 16 * (k + 1)) / 16 + 1 := by omega
        rw [h3, List.getD_cons_succ]
        simp only [h1, h2, decide_true, Bool.true_and]
        by_cases h5 : i < 2576
        · have h6 : 2576 - 1 - i < 16 * (161 - 1 - k) := by omega
          simp [h5, h6]
        · simp [h5]
      · have h3 : (i - 16 * k) / 16 = 0 := by omega
        rw [h3, List.getD_cons_zero]
        have h5 : i < 2576 := by omega
        have h6 : ¬ 2576 - 1 - i < 16 * (161 - 1 - k) := by omega
        have h7 : 2576 - 1 - i - 16 * (161 - 1 - k) = 16 - 1 - i % 16 := by omega
        have h8 : 2576 - 1 - i < 2576 := by omega
        have h9 : 16 - 1 - i % 16 < 2576 := by omega
        simp only [h1, h2, h5, h6, h8, decide_true, decide_false, Bool.true_and, Bool.false_and,
          Bool.not_false, Bool.or_false, h7, h9]
    · have h2 : ¬ 16 * (k + 1) ≤ i := by omega
      simp only [h1, h2, decide_false, Bool.false_and, Bool.or_false]
      by_cases h5 : i < 2576
      · have h7 : 16 ≤ 2576 - 1 - i - 16 * (161 - 1 - k) := by omega
        simp [BitVec.getLsbD_of_ge _ _ h7]
      · simp [h5]

/-- Two buffers with the same positions are the same. -/
theorem tb_ext {a b : BitVec 2576} (h : ∀ i, i < Config.tbBits → tbGet a i = tbGet b i) : a = b := by
  apply BitVec.eq_of_getMsbD_eq
  intro i hi
  exact h i hi

/-- A buffer is what its buckets say. -/
theorem tbOfBuckets_tbBucket (tb : BitVec 2576) (n : Nat) (hn : n ≤ Config.tbBuckets)
    (ht : ∀ i, 16 * n ≤ i → tbGet tb i = false) :
    tbOfBuckets 0 ((List.range n).map (tbBucket tb)) = tb := by
  apply tb_ext
  intro i hi
  rw [tbGet_tbOfBuckets _ _ _ (by simpa using hn)]
  simp only [Nat.mul_zero, Nat.zero_le, decide_true, Bool.true_and, Nat.sub_zero]
  by_cases h : i / 16 < n
  · rw [List.getD_eq_getElem?_getD]
    simp only [List.getElem?_map, List.getElem?_range h, Option.map_some, Option.getD_some]
    rw [tbBucket_getMsbD _ _ _ (by omega) (Nat.mod_lt _ (by omega))]
    congr 1; omega
  · rw [List.getD_eq_getElem?_getD]
    have : ((List.range n).map (tbBucket tb))[i / 16]? = none := by
      rw [List.getElem?_eq_none]; simpa using h
    rw [this, ht i (by omega)]
    simp

end Sys2Proof.Machine
end

