-- ==== Sys2Proof/Laws/Sequencer.lean ====
section
/-! SUPPORT. Laws/Sequencer.lean: what one sequencer operation can do to the host-visible side and to
the streams, said once; that a turn has enough fuel; and from it the equations of a turn that later
proofs cite, in which no fuel appears. -/

namespace Sys2Proof.Machine

/-! ### What an operation cannot touch -/

/-- Everything that only the host, acceptance, completion and aborts write. -/
structure HostPart where
  ctrl : BitVec 3
  symLimit : Word
  cmd : Word
  errCode : BitVec 4
  errInfo : Word
  irqStatus : BitVec 4
  irqEnable : BitVec 4
  phase : Phase
  prog : Option (List Op)
  wireBe : Bool
  symLsb : Bool
  limitEn : Bool
  symLimitL : Word
  rstN : Bool
  busRsp : Option BusRsp
  rspLog : List BusRsp
  sched : List Turn
  hold : Bool

/-- The host-side part of a state. -/
def State.hostPart (s : State) : HostPart :=
  ⟨s.ctrl, s.symLimit, s.cmd, s.errCode, s.errInfo, s.irqStatus, s.irqEnable, s.phase, s.prog, s.wireBe,
   s.symLsb, s.limitEn, s.symLimitL, s.rstN, s.busRsp, s.rspLog, s.sched, s.hold⟩

/-- The streams as the core has left them. -/
structure StreamPart where
  inQ : List Beat
  outReady : Nat
  outLog : List Beat
  inCount : Word
  outCount : Word

/-- The stream part of a state. -/
def State.streamPart (s : State) : StreamPart :=
  ⟨s.inQ, s.outReady, s.outLog, s.inCount, s.outCount⟩

/-! ### One operation -/

theorem takeBeat_some {s s' : State} {b : Beat} (h : s.takeBeat = some (b, s')) :
    ∃ q, s.inQ = b :: q ∧
      s' = { s with inQ := q, inEom := b.last,
                    inCount := if b.empty then s.inCount else s.inCount + 1 } := by
  unfold State.takeBeat at h
  split at h
  · simp at h
  · next c q hq =>
    simp only [Option.some.injEq, Prod.mk.injEq] at h
    obtain ⟨rfl, rfl⟩ := h
    exact ⟨q, hq, rfl⟩

theorem takeBeat_none {s : State} (h : s.takeBeat = none) : s.inQ = [] := by
  unfold State.takeBeat at h
  split at h
  · assumption
  · simp at h

theorem putByte_some {s s' : State} {b : Byte} (h : s.putByte b = some s') :
    ∃ n, s.outReady = n + 1 ∧
      s' = { s with outReady := n, outLog := s.outLog ++ [dataBeat b], outCount := s.outCount + 1 } := by
  unfold State.putByte at h
  split at h
  · simp at h
  · next n hn => exact ⟨n, hn, by simpa using h.symm⟩

theorem putMarker_some {s s' : State} (h : s.putMarker = some s') :
    ∃ n, s.outReady = n + 1 ∧ s' = { s with outReady := n, outLog := s.outLog ++ [endBeat] } := by
  unfold State.putMarker at h
  split at h
  · simp at h
  · next n hn => exact ⟨n, hn, by simpa using h.symm⟩

/-- How many operations an operation can still cause that transfer no beat. -/
def Op.weight : Op → Nat
  | .put _ | .putEnd => 0
  | .discard | .accum | .rdLen .. | .rdBucket .. | .pack _ | .unpack .. | .fail _ => 1
  | .run .encode => 15
  | .run .decode => 7
  | .run _ => 2

/-- The weight of pending operations. -/
def opsWeight (ops : List Op) : Nat := (ops.map Op.weight).sum

@[simp] theorem opsWeight_nil : opsWeight [] = 0 := rfl
@[simp] theorem opsWeight_cons (op : Op) (ops : List Op) :
    opsWeight (op :: ops) = op.weight + opsWeight ops := by simp [opsWeight]
@[simp] theorem opsWeight_append (a b : List Op) : opsWeight (a ++ b) = opsWeight a + opsWeight b := by
  simp [opsWeight]
@[simp] theorem opsWeight_puts (bs : List Byte) : opsWeight (bs.map .put) = 0 := by
  induction bs with
  | nil => rfl
  | cons b bs ih => simp [ih, Op.weight]
@[simp] theorem opsWeight_putEnd_if (f : Bool) : opsWeight (if f then [.putEnd] else []) = 0 := by
  cases f <;> rfl

theorem Op.weight_le (op : Op) : op.weight ≤ 15 := by
  cases op with
  | run i => cases i <;> simp [Op.weight]
  | _ => simp [Op.weight]

theorem opsWeight_le (ops : List Op) : opsWeight ops ≤ 15 * ops.length := by
  induction ops with
  | nil => simp
  | cons op ops ih => have := op.weight_le; simp; omega

/-- What a procedure does at once: the host's part and the streams stay. -/
theorem procOf_ok {i : Instr} {s s' : State} {more : List Op} (h : procOf i s = .ok s' more) :
    s'.hostPart = s.hostPart ∧ s'.streamPart = s.streamPart ∧ opsWeight more < (Op.run i).weight := by
  cases i <;> simp only [procOf] at h
  case nop => simp only [doNop, Res.ok.injEq] at h; obtain ⟨rfl, rfl⟩ := h; exact ⟨rfl, rfl, by simp [Op.weight]⟩
  case softReset =>
    simp only [doSoftReset, Res.ok.injEq] at h; obtain ⟨rfl, rfl⟩ := h; exact ⟨rfl, rfl, by simp [Op.weight]⟩
  case inDiscard =>
    simp only [doInDiscard, Res.ok.injEq] at h; obtain ⟨rfl, rfl⟩ := h; exact ⟨rfl, rfl, by simp [Op.weight]⟩
  case bbCreate arg =>
    simp only [doBbCreate] at h
    split at h <;> simp only [Res.ok.injEq, reduceCtorEq] at h
    obtain ⟨rfl, rfl⟩ := h; exact ⟨rfl, rfl, by simp [Op.weight]⟩
  case bbSet arg =>
    simp only [doBbSet] at h
    split at h <;> simp only [Res.ok.injEq, reduceCtorEq] at h
    obtain ⟨rfl, rfl⟩ := h; exact ⟨rfl, rfl, by simp [Op.weight]⟩
  case bbClear arg =>
    simp only [doBbClear] at h
    split at h <;> simp only [Res.ok.injEq, reduceCtorEq] at h
    obtain ⟨rfl, rfl⟩ := h; exact ⟨rfl, rfl, by simp [Op.weight]⟩
  case bbGet arg =>
    simp only [doBbGet] at h
    split at h <;> simp only [Res.ok.injEq, reduceCtorEq] at h
    obtain ⟨rfl, rfl⟩ := h; exact ⟨rfl, rfl, by simp [Op.weight]⟩
  case bbResize arg =>
    simp only [doBbResize] at h
    split at h <;> simp only [Res.ok.injEq, reduceCtorEq] at h
    obtain ⟨rfl, rfl⟩ := h; exact ⟨rfl, rfl, by simp [Op.weight]⟩
  case bbSerialize f =>
    simp only [doBbSerialize, Res.ok.injEq] at h; obtain ⟨rfl, rfl⟩ := h
    exact ⟨rfl, rfl, by simp [Op.weight]⟩
  case bbDeserialize =>
    simp only [doBbDeserialize, Res.ok.injEq] at h; obtain ⟨rfl, rfl⟩ := h
    exact ⟨rfl, rfl, by simp [Op.weight]⟩
  case pqClear =>
    simp only [doPqClear, Res.ok.injEq] at h; obtain ⟨rfl, rfl⟩ := h; exact ⟨rfl, rfl, by simp [Op.weight]⟩
  case pqInsert arg =>
    simp only [doPqInsert] at h
    split at h
    · simp at h
    · split at h <;> simp only [Res.ok.injEq, reduceCtorEq] at h
      obtain ⟨rfl, rfl⟩ := h; exact ⟨rfl, rfl, by simp [Op.weight]⟩
  case pqExtract =>
    simp only [doPqExtract] at h
    split at h <;> simp only [Res.ok.injEq, reduceCtorEq] at h
    obtain ⟨rfl, rfl⟩ := h; exact ⟨rfl, rfl, by simp [Op.weight]⟩
  case treeBuild =>
    simp only [doTreeBuild] at h
    split at h <;> simp only [Res.ok.injEq, reduceCtorEq] at h
    obtain ⟨rfl, rfl⟩ := h; exact ⟨rfl, rfl, by simp [Op.weight]⟩
  case treeDestroy =>
    simp only [doTreeDestroy, Res.ok.injEq] at h; obtain ⟨rfl, rfl⟩ := h; exact ⟨rfl, rfl, by simp [Op.weight]⟩
  case treeSerialize =>
    simp only [doTreeSerialize] at h
    split at h
    · split at h <;> simp only [Res.ok.injEq, reduceCtorEq] at h
      obtain ⟨rfl, rfl⟩ := h; exact ⟨rfl, rfl, by simp [Op.weight]⟩
    · simp at h
  case treeDeserialize =>
    simp only [doTreeDeserialize] at h
    split at h <;> simp only [Res.ok.injEq, reduceCtorEq] at h
    obtain ⟨rfl, rfl⟩ := h; exact ⟨rfl, rfl, by simp [Op.weight]⟩
  case freqClear =>
    simp only [doFreqClear, Res.ok.injEq] at h; obtain ⟨rfl, rfl⟩ := h; exact ⟨rfl, rfl, by simp [Op.weight]⟩
  case freqAccum =>
    simp only [doFreqAccum, Res.ok.injEq] at h; obtain ⟨rfl, rfl⟩ := h
    exact ⟨rfl, rfl, by simp [Op.weight]⟩
  case codeGen =>
    simp only [doCodeGen] at h
    split at h
    · simp at h
    · split at h
      · simp at h
      · split at h <;> simp only [Res.ok.injEq, reduceCtorEq] at h
        obtain ⟨rfl, rfl⟩ := h; exact ⟨rfl, rfl, by simp [Op.weight]⟩
  case pack f =>
    simp only [doPack] at h
    split at h <;> simp only [Res.ok.injEq, reduceCtorEq] at h
    obtain ⟨rfl, rfl⟩ := h; exact ⟨rfl, rfl, by simp [Op.weight]⟩
  case unpack f =>
    simp only [doUnpack] at h
    split at h
    · simp at h
    · split at h <;> simp only [Res.ok.injEq, reduceCtorEq] at h
      obtain ⟨rfl, rfl⟩ := h; exact ⟨rfl, rfl, by simp [Op.weight]⟩
  case encode =>
    simp only [doEncode, Res.ok.injEq] at h; obtain ⟨rfl, rfl⟩ := h
    exact ⟨rfl, rfl, by simp [Op.weight]⟩
  case decode =>
    simp only [doDecode, Res.ok.injEq] at h; obtain ⟨rfl, rfl⟩ := h
    exact ⟨rfl, rfl, by simp [Op.weight]⟩

/-- A procedure does not wait before its first operation. -/
theorem procOf_ne_wait (i : Instr) (s : State) : procOf i s ≠ .wait := by
  cases i <;> simp only [procOf, doNop, doSoftReset, doInDiscard, doBbCreate, doBbSet, doBbClear, doBbGet,
    doBbResize, doBbSerialize, doBbDeserialize, doPqClear, doPqInsert, doPqExtract, doTreeBuild,
    doTreeDestroy, doTreeSerialize, doTreeDeserialize, doFreqClear, doFreqAccum, doCodeGen, doPack,
    doUnpack, doEncode, doDecode] <;> repeat' (first | (intro hw; cases hw) | split)

/-- What a loop operation does in one pass: it leaves without a transfer, or after taking a beat. -/
theorem runOp_ok {op : Op} {s s' : State} {more : List Op} (h : runOp op s = .ok s' more) :
    s'.hostPart = s.hostPart ∧
    ((s'.streamPart = s.streamPart ∧ opsWeight more < op.weight) ∨
     (∃ b s1, s.takeBeat = some (b, s1) ∧ s'.streamPart = s1.streamPart ∧
        opsWeight more ≤ op.weight) ∨
     (∃ b n, op = .put b ∧ s.outReady = n + 1 ∧ more = [] ∧
        s' = { s with outReady := n, outLog := s.outLog ++ [dataBeat b], outCount := s.outCount + 1 }) ∨
     (∃ n, op = .putEnd ∧ s.outReady = n + 1 ∧ more = [] ∧
        s' = { s with outReady := n, outLog := s.outLog ++ [endBeat] })) := by
  have take : ∀ {b : Beat} {s1 : State}, s.takeBeat = some (b, s1) → s1.hostPart = s.hostPart := by
    intro b s1 hb
    obtain ⟨q, -, rfl⟩ := takeBeat_some hb
    rfl
  cases op <;> simp only [runOp] at h
  case run i =>
    obtain ⟨h1, h2, h3⟩ := procOf_ok h
    exact ⟨h1, .inl ⟨h2, h3⟩⟩
  case put b =>
    simp only [putOp] at h
    split at h <;> simp only [Res.ok.injEq, reduceCtorEq] at h
    next hb =>
      obtain ⟨rfl, rfl⟩ := h
      obtain ⟨n, hn, rfl⟩ := putByte_some hb
      exact ⟨rfl, .inr (.inr (.inl ⟨b, n, rfl, hn, rfl, rfl⟩))⟩
  case putEnd =>
    simp only [putEndOp] at h
    split at h <;> simp only [Res.ok.injEq, reduceCtorEq] at h
    next hb =>
      obtain ⟨rfl, rfl⟩ := h
      obtain ⟨n, hn, rfl⟩ := putMarker_some hb
      exact ⟨rfl, .inr (.inr (.inr ⟨n, rfl, hn, rfl, rfl⟩))⟩
  case discard =>
    simp only [discardLoop] at h
    split at h
    · simp only [Res.ok.injEq] at h; obtain ⟨rfl, rfl⟩ := h
      exact ⟨rfl, .inl ⟨rfl, by simp [Op.weight]⟩⟩
    · split at h <;> simp only [Res.ok.injEq, reduceCtorEq] at h
      next b s1 hb =>
        obtain ⟨rfl, rfl⟩ := h
        exact ⟨take hb, .inr (.inl ⟨b, s1, hb, rfl, by simp⟩)⟩
  case accum =>
    simp only [accumLoop] at h
    split at h
    · simp only [Res.ok.injEq] at h; obtain ⟨rfl, rfl⟩ := h
      exact ⟨rfl, .inl ⟨rfl, by simp [Op.weight]⟩⟩
    · split at h
      · simp at h
      · next b s1 hb =>
        split at h
        · simp only [Res.ok.injEq] at h; obtain ⟨rfl, rfl⟩ := h
          exact ⟨take hb, .inr (.inl ⟨b, s1, hb, rfl, by simp⟩)⟩
        · split at h <;> simp only [Res.ok.injEq, reduceCtorEq] at h
          obtain ⟨rfl, rfl⟩ := h
          exact ⟨(take hb ▸ rfl : (s1.countByte b.data).hostPart = s.hostPart),
            .inr (.inl ⟨b, s1, hb, rfl, by simp⟩)⟩
  case rdLen k v =>
    simp only [rdLenLoop] at h
    split at h
    · simp at h
    · next b s1 hb =>
      generalize (if b.empty = true then k else k + 1) = k' at h
      generalize (if b.empty = true then v else intByteIn s.wireBe 4 k v b.data) = v' at h
      split at h
      · split at h <;> simp only [Res.ok.injEq, reduceCtorEq] at h
        obtain ⟨rfl, rfl⟩ := h
        exact ⟨take hb, .inr (.inl ⟨b, s1, hb, rfl, by simp [Op.weight]⟩)⟩
      · split at h <;> simp only [Res.ok.injEq, reduceCtorEq] at h
        obtain ⟨rfl, rfl⟩ := h
        exact ⟨take hb, .inr (.inl ⟨b, s1, hb, rfl, by simp [Op.weight]⟩)⟩
  case rdBucket n got k v =>
    simp only [rdBucketLoop] at h
    split at h
    · simp at h
    · split at h
      · simp at h
      · next b s1 hb =>
        generalize (if b.empty = true then k else k + 1) = k' at h
        generalize (if b.empty = true then v else intByteIn s.wireBe 2 k v b.data) = v' at h
        split at h
        · split at h <;> simp only [Res.ok.injEq, reduceCtorEq] at h
          obtain ⟨rfl, rfl⟩ := h
          exact ⟨take hb, .inr (.inl ⟨b, s1, hb, rfl, by simp [Op.weight]⟩)⟩
        · split at h <;> simp only [Res.ok.injEq] at h
          · obtain ⟨rfl, rfl⟩ := h
            exact ⟨take hb, .inr (.inl ⟨b, s1, hb, rfl, by simp [Op.weight]⟩)⟩
          · obtain ⟨rfl, rfl⟩ := h
            exact ⟨(take hb ▸ rfl), .inr (.inl ⟨b, s1, hb, rfl, by simp⟩)⟩
  case pack f =>
    simp only [packLoop] at h
    split at h
    · simp only [Res.ok.injEq] at h; obtain ⟨rfl, rfl⟩ := h
      exact ⟨rfl, .inl ⟨rfl, by simp [Op.weight]⟩⟩
    · split at h
      · simp at h
      · next b s1 hb =>
        split at h
        · simp only [Res.ok.injEq] at h; obtain ⟨rfl, rfl⟩ := h
          exact ⟨take hb, .inr (.inl ⟨b, s1, hb, rfl, by simp⟩)⟩
        · split at h <;> simp only [Res.ok.injEq, reduceCtorEq] at h
          obtain ⟨rfl, rfl⟩ := h
          exact ⟨(take hb ▸ rfl), .inr (.inl ⟨b, s1, hb, rfl, by simp⟩)⟩
  case unpack n stop =>
    simp only [unpackLoop] at h
    split at h
    · simp only [Res.ok.injEq] at h; obtain ⟨rfl, rfl⟩ := h
      exact ⟨rfl, .inl ⟨rfl, by simp [Op.weight]⟩⟩
    · split at h
      · simp at h
      · next b s1 hb =>
        split at h
        · simp only [Res.ok.injEq] at h; obtain ⟨rfl, rfl⟩ := h
          exact ⟨take hb, .inr (.inl ⟨b, s1, hb, rfl, by simp⟩)⟩
        · simp only [Res.ok.injEq] at h; obtain ⟨rfl, rfl⟩ := h
          exact ⟨(take hb ▸ rfl), .inr (.inl ⟨b, s1, hb, rfl, by simp [Op.weight]⟩)⟩
  case fail r => simp at h

/-! ### Fuel -/

/-- How many operations a turn can still perform: every one of them takes an offered beat, gives one
to a ready host, or lowers the weight of what is pending. -/
def need (ops : List Op) (s : State) : Nat := s.inQ.length + s.outReady + opsWeight ops

/-- An operation that succeeds lowers what is still needed. -/
theorem need_lt {op : Op} {s s' : State} {more ops : List Op} (h : runOp op s = .ok s' more) :
    need (more ++ ops) s' < need (op :: ops) s := by
  obtain ⟨-, h | ⟨b, s1, hb, hs, hw⟩ | ⟨b, n, rfl, hn, rfl, rfl⟩ | ⟨n, rfl, hn, rfl, rfl⟩⟩ := runOp_ok h
  · obtain ⟨hs, hw⟩ := h
    have h1 : s'.inQ = s.inQ := congrArg StreamPart.inQ hs
    have h2 : s'.outReady = s.outReady := congrArg StreamPart.outReady hs
    simp only [need, h1, h2, opsWeight_append, opsWeight_cons]; omega
  · obtain ⟨q, hq, rfl⟩ := takeBeat_some hb
    have h1 : s'.inQ = q := congrArg StreamPart.inQ hs
    have h2 : s'.outReady = s.outReady := congrArg StreamPart.outReady hs
    simp only [need, h1, h2, hq, opsWeight_append, opsWeight_cons, List.length_cons]; omega
  · simp only [need, hn, List.nil_append, opsWeight_cons]; omega
  · simp only [need, hn, List.nil_append, opsWeight_cons]; omega

/-- Only a transfer has weight 0, and it can only succeed or wait. -/
theorem runOp_weight_zero {op : Op} {s : State} (h : op.weight = 0) :
    runOp op s = .wait ∨ ∃ s' more, runOp op s = .ok s' more := by
  cases op <;> simp only [Op.weight, Nat.succ_ne_zero] at h
  case run i => cases i <;> simp at h
  case put b =>
    simp only [runOp, putOp]
    split
    · exact .inr ⟨_, _, rfl⟩
    · exact .inl rfl
  case putEnd =>
    simp only [runOp, putEndOp]
    split
    · exact .inr ⟨_, _, rfl⟩
    · exact .inl rfl

/-- More fuel than needed changes nothing. -/
theorem runOps_fuel : ∀ (n m : Nat) (ops : List Op) (s : State), need ops s ≤ n → need ops s ≤ m →
    runOps n ops s = runOps m ops s
  | n, m, [], s, _, _ => by cases n <;> cases m <;> rfl
  | n, m, op :: ops, s, hn, hm => by
    cases hr : runOp op s with
    | ok s' more =>
      have hlt := need_lt (ops := ops) hr
      match n, m with
      | 0, _ => omega
      | _ + 1, 0 => omega
      | n + 1, m + 1 =>
        simp only [runOps, hr]
        exact runOps_fuel n m _ _ (by omega) (by omega)
    | wait => cases n <;> cases m <;> simp only [runOps, hr]
    | raise r s' =>
      have hw : op.weight ≠ 0 := fun h0 => by
        obtain h | ⟨_, _, h⟩ := runOp_weight_zero (s := s) h0 <;> rw [hr] at h <;> cases h
      simp only [need, opsWeight_cons] at hn hm
      obtain ⟨n, rfl⟩ : ∃ k, n = k + 1 := ⟨n - 1, by omega⟩
      obtain ⟨m, rfl⟩ : ∃ k, m = k + 1 := ⟨m - 1, by omega⟩
      simp only [runOps, hr]
    | fault f =>
      have hw : op.weight ≠ 0 := fun h0 => by
        obtain h | ⟨_, _, h⟩ := runOp_weight_zero (s := s) h0 <;> rw [hr] at h <;> cases h
      simp only [need, opsWeight_cons] at hn hm
      obtain ⟨n, rfl⟩ : ∃ k, n = k + 1 := ⟨n - 1, by omega⟩
      obtain ⟨m, rfl⟩ : ∃ k, m = k + 1 := ⟨m - 1, by omega⟩
      simp only [runOps, hr]

theorem need_le_turnFuel (ops : List Op) (s : State) : need ops s ≤ turnFuel ops s := by
  have := opsWeight_le ops
  simp only [need, turnFuel]; omega

/-! ### A turn without fuel -/

/-- The pending operations, run as far as the streams allow. -/
def runAll (ops : List Op) (s : State) : Host.Outcome State Fault Refusal := runOps (need ops s) ops s

theorem runOps_turnFuel (ops : List Op) (s : State) : runOps (turnFuel ops s) ops s = runAll ops s :=
  runOps_fuel _ _ _ _ (need_le_turnFuel ops s) (Nat.le_refl _)

@[simp] theorem runAll_nil (s : State) : runAll [] s = finish s := by
  unfold runAll
  cases need [] s <;> rfl

theorem runAll_ok {op : Op} {ops more : List Op} {s s' : State} (h : runOp op s = .ok s' more) :
    runAll (op :: ops) s = runAll (more ++ ops) s' := by
  have hlt := need_lt (ops := ops) h
  unfold runAll
  obtain ⟨n, hn⟩ : ∃ k, need (op :: ops) s = k + 1 := ⟨need (op :: ops) s - 1, by omega⟩
  rw [hn]
  simp only [runOps, h]
  exact runOps_fuel _ _ _ _ (by omega) (Nat.le_refl _)

theorem runAll_raise {op : Op} {ops : List Op} {r : Raise} {s s' : State}
    (h : runOp op s = .raise r s') : runAll (op :: ops) s = failWith r s' := by
  have e : runAll (op :: ops) s = runOps (need (op :: ops) s + 1) (op :: ops) s :=
    runOps_fuel _ _ _ _ (Nat.le_refl _) (by omega)
  rw [e]; simp only [runOps, h]

theorem runAll_wait {op : Op} {ops : List Op} {s : State} (h : runOp op s = .wait) :
    runAll (op :: ops) s = .next { s with prog := some (op :: ops) } := by
  have e : runAll (op :: ops) s = runOps (need (op :: ops) s + 1) (op :: ops) s :=
    runOps_fuel _ _ _ _ (Nat.le_refl _) (by omega)
  rw [e]; simp only [runOps, h]

theorem runAll_fault {op : Op} {ops : List Op} {f : Fault} {s : State} (h : runOp op s = .fault f) :
    runAll (op :: ops) s = .fault f := by
  have e : runAll (op :: ops) s = runOps (need (op :: ops) s + 1) (op :: ops) s :=
    runOps_fuel _ _ _ _ (Nat.le_refl _) (by omega)
  rw [e]; simp only [runOps, h]

/-- An internal step (40_control.md R133). -/
theorem runAll_run_ok {i : Instr} {ops more : List Op} {s s' : State} (h : procOf i s = .ok s' more) :
    runAll (.run i :: ops) s = runAll (more ++ ops) s' := runAll_ok h

/-- A turn of a command that has begun goes on with what is pending. -/
theorem command_some {body : State → Res} {s : State} {ops : List Op} (h : s.prog = some ops) :
    command body s = runAll ops s := by simp only [command, h, runOps_turnFuel]

theorem command_ok {body : State → Res} {s s' : State} {more : List Op} (h : s.prog = none)
    (hb : body s = .ok s' more) : command body s = runAll more s' := by
  simp only [command, h, hb, runOps_turnFuel]

theorem command_raise {body : State → Res} {s s' : State} {r : Raise} (h : s.prog = none)
    (hb : body s = .raise r s') : command body s = failWith r s' := by
  simp only [command, h, hb]

theorem command_fault {body : State → Res} {s : State} {f : Fault} (h : s.prog = none)
    (hb : body s = .fault f) : command body s = .fault f := by
  simp only [command, h, hb]

/-- A command that needs no stream completes in its first turn. -/
theorem command_done {body : State → Res} {s s' : State} (h : s.Fresh) (hh : s'.hold = s.hold)
    (hb : body s = .ok s' []) : command body s = .next s'.complete := by
  rw [command_ok h.1 hb, runAll_nil, finish, hh, h.2]
  rfl

/-- A command that raises at once aborts in its first turn. -/
theorem command_abort {body : State → Res} {s s' : State} {r : Raise} (h : s.Fresh)
    (hh : s'.hold = s.hold) (hb : body s = .raise r s') : command body s = .next (s'.abort r) := by
  rw [command_raise h.1 hb, failWith, hh, h.2]
  rfl

/-! ### Runs of beats -/

@[simp] theorem countUp_zero (c : Word) : countUp c 0 = c := by simp [countUp]

theorem countUp_add (c : Word) (m n : Nat) : countUp (countUp c m) n = countUp c (m + n) := by
  simp only [countUp, BitVec.ofNat_add, BitVec.add_assoc]

theorem countUp_succ (c : Word) (n : Nat) : countUp (c + 1) n = countUp c (n + 1) := by
  have := countUp_add c 1 n
  rwa [Nat.add_comm] at this

@[simp] theorem State.gave_nil (s : State) : s.gave [] = s := by simp [State.gave]

theorem State.gave_append (s : State) (a b : List Byte) : (s.gave a).gave b = s.gave (a ++ b) := by
  simp only [State.gave, List.length_append, List.map_append, List.append_assoc, countUp_add,
    Nat.sub_sub]

/-- A host that is ready for all of them takes the bytes, one beat each. -/
theorem runAll_puts : ∀ (bs : List Byte) (ops : List Op) (s : State), bs.length ≤ s.outReady →
    runAll (bs.map .put ++ ops) s = runAll ops (s.gave bs)
  | [], ops, s, _ => by simp
  | b :: bs, ops, s, h => by
    obtain ⟨n, hn⟩ : ∃ k, s.outReady = k + 1 := ⟨s.outReady - 1, by simp at h; omega⟩
    have hp : runOp (.put b) s =
        .ok { s with outReady := n, outLog := s.outLog ++ [dataBeat b], outCount := s.outCount + 1 } [] := by
      simp only [runOp, putOp, State.putByte, hn]
    rw [List.map_cons, List.cons_append, runAll_ok hp, List.nil_append,
      runAll_puts bs ops _ (by simp [hn] at h ⊢; omega)]
    congr 1
    simp only [State.gave, hn, List.length_cons, List.map_cons, List.append_assoc, List.singleton_append,
      countUp_succ, Nat.add_sub_add_right]

theorem runAll_putEnd (f : Bool) (ops : List Op) (s : State) (h : f = true → 1 ≤ s.outReady) :
    runAll ((if f then [.putEnd] else []) ++ ops) s = runAll ops (s.gaveEnd f) := by
  cases f
  · simp [State.gaveEnd]
  · obtain ⟨n, hn⟩ : ∃ k, s.outReady = k + 1 := ⟨s.outReady - 1, by have := h rfl; omega⟩
    have hp : runOp .putEnd s = .ok (s.gaveEnd true) [] := by
      simp [runOp, putEndOp, State.putMarker, State.gaveEnd, hn]
    simp only [if_true, List.singleton_append]
    rw [runAll_ok hp, List.nil_append]

/-- What is left of a command that has only bytes and its marker to emit. -/
theorem runAll_output {bs : List Byte} {f : Bool} {s : State} (hh : s.hold = false)
    (h : bs.length + f.toNat ≤ s.outReady) :
    runAll (bs.map .put ++ if f then [.putEnd] else []) s =
      .next ((s.gave bs).gaveEnd f).complete := by
  rw [runAll_puts _ _ _ (by omega)]
  have := runAll_putEnd f [] (s.gave bs) (fun hf => by subst hf; simp [State.gave] at h ⊢; omega)
  rw [List.append_nil] at this
  rw [this, runAll_nil]
  cases f <;> simp [finish, State.gave, State.gaveEnd, hh]

theorem takeBeat_cons {s : State} {b : Beat} {q : List Beat} (h : s.inQ = b :: q) :
    s.takeBeat = some (b, s.took [b] q) := by
  unfold State.takeBeat
  rw [h]
  cases hb : b.empty <;> simp [State.took, payload, hb, countUp, lastFlag]

theorem State.took_nil (s : State) : s.took [] s.inQ = s := by
  simp [State.took, payload, lastFlag]

theorem lastFlag_append (d : Bool) (a b : List Beat) :
    lastFlag (lastFlag d a) b = lastFlag d (a ++ b) := by
  simp only [lastFlag, List.getLast?_append]
  cases b.getLast? <;> simp

@[simp] theorem payload_append (a b : List Beat) : payload (a ++ b) = payload a ++ payload b := by
  simp [payload]

theorem payload_cons (b : Beat) (q : List Beat) :
    payload (b :: q) = (if b.empty then [] else [b.data]) ++ payload q := by
  cases h : b.empty <;> simp [payload, h]

theorem State.took_took (s : State) (a b r r' : List Beat) :
    (s.took a r).took b r' = s.took (a ++ b) r' := by
  simp [State.took, countUp_add, lastFlag_append]

theorem lastFlag_message {q : List Beat} (d : Bool) (h : IsMessage q) : lastFlag d q = true := by
  induction q generalizing d with
  | nil => exact h.elim
  | cons b q ih =>
    cases q with
    | nil => simpa [lastFlag, IsMessage] using h
    | cons c q => rw [show b :: c :: q = [b] ++ c :: q from rfl, ← lastFlag_append]; exact ih _ h.2

theorem lastFlag_cons (d : Bool) (b : Beat) (q : List Beat) : lastFlag d (b :: q) = lastFlag b.last q := by
  rw [show b :: q = [b] ++ q from rfl, ← lastFlag_append]; rfl

theorem State.took_cons (s : State) (b : Beat) (q r r' : List Beat) :
    (s.took [b] r).took q r' = s.took (b :: q) r' := by rw [State.took_took]; rfl

@[simp] theorem State.took_wireBe (s : State) (q r : List Beat) : (s.took q r).wireBe = s.wireBe := rfl
@[simp] theorem State.took_inQ (s : State) (q r : List Beat) : (s.took q r).inQ = r := rfl
@[simp] theorem State.took_hold (s : State) (q r : List Beat) : (s.took q r).hold = s.hold := rfl
@[simp] theorem State.took_inEom (s : State) (q r : List Beat) :
    (s.took q r).inEom = lastFlag s.inEom q := rfl
@[simp] theorem State.took_outReady (s : State) (q r : List Beat) : (s.took q r).outReady = s.outReady := rfl

end Sys2Proof.Machine
end

