-- ==== Sys2Proof/Laws/Frame.lean ====
section
/-! SUPPORT. Laws/Frame.lean: what a command's procedure does not read: the registers of the host's
side, the schedule, and how much more the host will offer and take. -/

namespace Sys2Proof.Machine

/-- The result of an operation with its state changed. -/
def Res.map (f : State → State) : Res → Res
  | .ok s more => .ok (f s) more
  | .raise r s => .raise r (f s)
  | .wait => .wait
  | .fault e => .fault e

/-- The parts of the state that no procedure reads. -/
structure Outside where
  ctrl : BitVec 3
  symLimit : Word
  cmd : Word
  errCode : BitVec 4
  errInfo : Word
  irqStatus : BitVec 4
  irqEnable : BitVec 4
  phase : Phase
  prog : Option (List Op)
  rstN : Bool
  busRsp : Option BusRsp
  rspLog : List BusRsp
  sched : List Turn
  hold : Bool

/-- A state with other outside parts, and with more beats offered and taken by the host. -/
def State.around (s : State) (h : Outside) (q : List Beat) (k : Nat) : State :=
  { s with
    ctrl := h.ctrl, symLimit := h.symLimit, cmd := h.cmd, errCode := h.errCode, errInfo := h.errInfo
    irqStatus := h.irqStatus, irqEnable := h.irqEnable, phase := h.phase, prog := h.prog, rstN := h.rstN
    busRsp := h.busRsp, rspLog := h.rspLog, sched := h.sched, hold := h.hold
    inQ := s.inQ ++ q, outReady := s.outReady + k }

variable (h : Outside) (q : List Beat) (k : Nat)

theorem procOf_around (i : Instr) (s : State) :
    procOf i (s.around h q k) = (procOf i s).map (State.around · h q k) := by
  cases i <;> simp only [procOf]
  case nop => rfl
  case softReset => rfl
  case inDiscard => rfl
  case bbCreate arg => unfold doBbCreate; split <;> rfl
  case bbSet arg =>
    unfold doBbSet
    change (if s.tbLen.toNat ≤ arg then _ else _) = _
    split <;> rfl
  case bbClear arg =>
    unfold doBbClear
    change (if s.tbLen.toNat ≤ arg then _ else _) = _
    split <;> rfl
  case bbGet arg =>
    unfold doBbGet
    change (if s.tbLen.toNat ≤ arg then _ else _) = _
    split <;> rfl
  case bbResize arg => unfold doBbResize; split <;> rfl
  case bbSerialize f => rfl
  case bbDeserialize => rfl
  case pqClear => rfl
  case pqInsert arg =>
    unfold doPqInsert
    change (if s.nodeCount.toNat ≤ arg then _ else match pqInsert (BitVec.ofNat 9 arg) s.arena with
      | .ok _ a => _ | .raise r a => _) = _
    split
    · rfl
    · cases pqInsert (BitVec.ofNat 9 arg) s.arena <;> rfl
  case pqExtract =>
    unfold doPqExtract
    change (match pqExtract s.arena with | .ok x a => _ | .raise r a => _) = _
    cases pqExtract s.arena <;> rfl
  case treeBuild =>
    unfold doTreeBuild
    change (match buildTree s.freq s.treeRelease.arena with | .ok r a => _ | .raise e a => _) =
      Res.map _ (match buildTree s.freq s.treeRelease.arena with | .ok r a => _ | .raise e a => _)
    cases buildTree s.freq s.treeRelease.arena <;> rfl
  case treeDestroy => rfl
  case treeSerialize =>
    unfold doTreeSerialize
    change (if s.treeValid = true then (match ser s.node s.symLsb Config.nodeCap s.root (0, 0) with
      | none => _ | some (tb, pos) => _) else _) = _
    split
    · cases ser s.node s.symLsb Config.nodeCap s.root (0, 0) <;> rfl
    · rfl
  case treeDeserialize =>
    unfold doTreeDeserialize
    change (match des s.tb s.tbLen.toNat s.symLsb Config.nodeCap ⟨s.node, 0, 0⟩ with
      | .ok r a => _ | .raise e a => _) =
      Res.map _ (match des s.tb s.tbLen.toNat s.symLsb Config.nodeCap ⟨s.node, 0, 0⟩ with
      | .ok r a => _ | .raise e a => _)
    cases des s.tb s.tbLen.toNat s.symLsb Config.nodeCap ⟨s.node, 0, 0⟩ <;> rfl
  case freqClear => rfl
  case freqAccum => rfl
  case codeGen =>
    unfold doCodeGen
    change (if (!s.treeValid) = true then _ else if (nodeAt s.node s.root).isLeaf = true then _ else
      match walkCodes s.node Config.codeMaxBits s.root ⟨[], s.path, 0⟩ with
      | .ok _ g => _ | .raise e g => _) = _
    split
    · rfl
    · split
      · rfl
      · cases walkCodes s.node Config.codeMaxBits s.root ⟨[], s.path, 0⟩ <;> rfl
  case pack f =>
    unfold doPack
    change (if s.codeValid = true then _ else _) = _
    split <;> rfl
  case unpack f =>
    unfold doUnpack
    change (if (!s.treeValid) = true then _ else if (nodeAt s.node s.root).isLeaf = true then _ else _) = _
    split
    · rfl
    · split <;> rfl
  case encode => rfl
  case decode => rfl

theorem takeBeat_around {s s1 : State} {b : Beat} (hb : s.takeBeat = some (b, s1)) :
    (s.around h q k).takeBeat = some (b, s1.around h q k) := by
  obtain ⟨q', hq, rfl⟩ := takeBeat_some hb
  unfold State.takeBeat
  simp only [show (s.around h q k).inQ = b :: (q' ++ q) by simp [State.around, hq]]
  rfl

/-- An operation that does not wait does the same whatever is outside it. -/
theorem runOp_around (op : Op) (s : State) (hw : runOp op s ≠ .wait) :
    runOp op (s.around h q k) = (runOp op s).map (State.around · h q k) := by
  have inEom : (s.around h q k).inEom = s.inEom := rfl
  have wire : (s.around h q k).wireBe = s.wireBe := rfl
  cases op <;> simp only [runOp] at hw ⊢
  case run i => exact procOf_around h q k i s
  case put b =>
    simp only [putOp, State.putByte] at hw ⊢
    cases hr : s.outReady with
    | zero => simp [hr] at hw
    | succ n =>
      simp only [show (s.around h q k).outReady = (n + k) + 1 by simp [State.around, hr]; omega]
      rfl
  case putEnd =>
    simp only [putEndOp, State.putMarker] at hw ⊢
    cases hr : s.outReady with
    | zero => simp [hr] at hw
    | succ n =>
      simp only [show (s.around h q k).outReady = (n + k) + 1 by simp [State.around, hr]; omega]
      rfl
  case discard =>
    simp only [discardLoop, inEom] at hw ⊢
    split
    · rfl
    · next he =>
      cases hb : s.takeBeat with
      | none => simp [he, hb] at hw
      | some p => rw [takeBeat_around h q k hb]; rfl
  case accum =>
    simp only [accumLoop, inEom] at hw ⊢
    split
    · rfl
    · next he =>
      cases hb : s.takeBeat with
      | none => simp [he, hb] at hw
      | some p =>
        obtain ⟨b, s1⟩ := p
        rw [takeBeat_around h q k hb]
        change (if b.empty = true then _ else if s1.freqTotal.toNat = maxWord ∨
          (freqAt s1.freq b.data).toNat = maxWord then _ else _) = _
        dsimp only
        split
        · rfl
        · split <;> rfl
  case rdLen i v =>
    simp only [rdLenLoop, wire] at hw ⊢
    cases hb : s.takeBeat with
    | none => simp [hb] at hw
    | some p =>
      obtain ⟨b, s1⟩ := p
      rw [takeBeat_around h q k hb]
      dsimp only
      generalize (if b.empty = true then i else i + 1) = i'
      generalize (if b.empty = true then v else intByteIn s.wireBe 4 i v b.data) = v'
      split
      · split <;> rfl
      · split <;> rfl
  case rdBucket n got i v =>
    simp only [rdBucketLoop, wire, inEom] at hw ⊢
    split
    · rfl
    · next he =>
      cases hb : s.takeBeat with
      | none => simp [he, hb] at hw
      | some p =>
        obtain ⟨b, s1⟩ := p
        rw [takeBeat_around h q k hb]
        dsimp only
        generalize (if b.empty = true then i else i + 1) = i'
        generalize (if b.empty = true then v else intByteIn s.wireBe 2 i v b.data) = v'
        split
        · split <;> rfl
        · split <;> rfl
  case pack f =>
    simp only [packLoop, inEom] at hw ⊢
    split
    · rfl
    · next he =>
      cases hb : s.takeBeat with
      | none => simp [he, hb] at hw
      | some p =>
        obtain ⟨b, s1⟩ := p
        rw [takeBeat_around h q k hb]
        change (if b.empty = true then _ else if (codeAt s1.code b.data).len = 0 then _ else _) = _
        dsimp only
        split
        · rfl
        · split <;> rfl
  case unpack n stop =>
    simp only [unpackLoop, inEom] at hw ⊢
    split
    · rfl
    · next he =>
      cases hb : s.takeBeat with
      | none => simp [he, hb] at hw
      | some p =>
        obtain ⟨b, s1⟩ := p
        rw [takeBeat_around h q k hb]
        change (if (b.empty || stop) = true then _ else _) = _
        dsimp only
        split <;> rfl
  case fail r => rfl

/-- Only the streams decide whether an operation waits. -/
theorem runOp_wait_around {op : Op} {s : State} (hw : runOp op s = .wait) :
    runOp op (s.around h [] 0) = .wait := by
  have none : s.takeBeat = none → (s.around h [] 0).takeBeat = none := by
    intro hb
    have := takeBeat_none hb
    simp [State.takeBeat, State.around, this]
  have inEom : (s.around h [] 0).inEom = s.inEom := rfl
  have out : (s.around h [] 0).outReady = s.outReady := rfl
  cases op <;> simp only [runOp] at hw ⊢
  case run i =>
    exact absurd hw (procOf_ne_wait i s)
  case put b =>
    simp only [putOp, State.putByte, out] at hw ⊢
    cases hr : s.outReady with
    | zero => rfl
    | succ n => simp [hr] at hw
  case putEnd =>
    simp only [putEndOp, State.putMarker, out] at hw ⊢
    cases hr : s.outReady with
    | zero => rfl
    | succ n => simp [hr] at hw
  case discard =>
    simp only [discardLoop, inEom] at hw ⊢
    split at hw
    · cases hw
    · next he =>
      rw [if_neg he]
      split at hw
      · next hb => rw [none hb]
      · cases hw
  case accum =>
    simp only [accumLoop, inEom] at hw ⊢
    split at hw
    · cases hw
    · next he =>
      rw [if_neg he]
      split at hw
      · next hb => rw [none hb]
      · split at hw
        · cases hw
        · split at hw <;> cases hw
  case rdLen i v =>
    simp only [rdLenLoop] at hw ⊢
    split at hw
    · next hb => rw [none hb]
    · next b s1 hb =>
      generalize (if b.empty = true then i else i + 1) = i' at hw
      generalize (if b.empty = true then v else intByteIn s.wireBe 4 i v b.data) = v' at hw
      split at hw <;> split at hw <;> cases hw
  case rdBucket n got i v =>
    simp only [rdBucketLoop, inEom] at hw ⊢
    split at hw
    · cases hw
    · next he =>
      rw [if_neg he]
      split at hw
      · next hb => rw [none hb]
      · next b s1 hb =>
        generalize (if b.empty = true then i else i + 1) = i' at hw
        generalize (if b.empty = true then v else intByteIn s.wireBe 2 i v b.data) = v' at hw
        split at hw <;> split at hw <;> cases hw
  case pack f =>
    simp only [packLoop, inEom] at hw ⊢
    split at hw
    · cases hw
    · next he =>
      rw [if_neg he]
      split at hw
      · next hb => rw [none hb]
      · split at hw
        · cases hw
        · split at hw <;> cases hw
  case unpack n stop =>
    simp only [unpackLoop, inEom] at hw ⊢
    split at hw
    · cases hw
    · next he =>
      rw [if_neg he]
      split at hw
      · next hb => rw [none hb]
      · split at hw <;> cases hw
  case fail r => cases hw

end Sys2Proof.Machine
end

