-- ==== Sys2Proof/Laws/Turn.lean ====
section
/-! SUPPORT. Laws/Turn.lean: everything a turn can do, said once: it performs operations that succeed,
and then it ends in one of three ways. Later proofs cite `runAll_cases` and never unfold a turn. -/

namespace Sys2Proof.Machine

/-- Where a turn stops: the operations still pending, the state, and the state it leaves. -/
inductive TurnEnd : List Op → State → State → Prop where
  /-- the command ends (40_control.md R132), or its turn is held before that -/
  | finish {s t : State} (h : finish s = .next t) : TurnEnd [] s t
  /-- the command aborts (60_exceptions.md R283), or its turn is held before that -/
  | raise {op : Op} {ops : List Op} {s s' t : State} {r : Raise} (h : runOp op s = .raise r s')
      (ht : failWith r s' = .next t) : TurnEnd (op :: ops) s t
  /-- the command waits for the host (20_memory.md R90, R92, R93) -/
  | wait {op : Op} {ops : List Op} {s : State} (h : runOp op s = .wait) :
      TurnEnd (op :: ops) s { s with prog := some (op :: ops) }

/-- What every successful operation keeps holds where the turn stops. -/
theorem runAll_cases {P : List Op → State → Prop}
    (step : ∀ {op ops s s' more}, P (op :: ops) s → runOp op s = .ok s' more → P (more ++ ops) s') :
    ∀ (ops : List Op) (s : State) {t : State}, P ops s → runAll ops s = .next t →
      ∃ ops' s', P ops' s' ∧ TurnEnd ops' s' t := by
  intro ops s
  induction hn : need ops s using Nat.strongRecOn generalizing ops s with
  | ind n ih =>
    subst hn
    intro t hp ht
    cases ops with
    | nil => exact ⟨[], s, hp, .finish (by rwa [runAll_nil] at ht)⟩
    | cons op ops =>
      cases hr : runOp op s with
      | ok s' more =>
        rw [runAll_ok hr] at ht
        exact ih _ (need_lt hr) _ _ rfl (step hp hr) ht
      | raise r s' => rw [runAll_raise hr] at ht; exact ⟨_, _, hp, .raise hr ht⟩
      | wait =>
        rw [runAll_wait hr] at ht
        cases ht
        exact ⟨_, _, hp, .wait hr⟩
      | fault f => rw [runAll_fault hr] at ht; cases ht

/-- A turn that answers no next state has met a fault. -/
theorem runAll_not_next {P : List Op → State → Prop}
    (step : ∀ {op ops s s' more}, P (op :: ops) s → runOp op s = .ok s' more → P (more ++ ops) s') :
    ∀ (ops : List Op) (s : State), P ops s → (∀ t, runAll ops s ≠ .next t) →
      ∃ op ops' s' f, P (op :: ops') s' ∧ runOp op s' = .fault f := by
  intro ops s
  induction hn : need ops s using Nat.strongRecOn generalizing ops s with
  | ind n ih =>
    subst hn
    intro hp ht
    cases ops with
    | nil =>
      rw [runAll_nil] at ht
      unfold finish at ht
      split at ht
      · exact (ht _ rfl).elim
      · exact (ht _ rfl).elim
    | cons op ops =>
      cases hr : runOp op s with
      | ok s' more =>
        rw [runAll_ok hr] at ht
        exact ih _ (need_lt hr) _ _ rfl (step hp hr) ht
      | raise r s' =>
        rw [runAll_raise hr] at ht
        unfold failWith at ht
        split at ht
        · exact (ht _ rfl).elim
        · exact (ht _ rfl).elim
      | wait => rw [runAll_wait hr] at ht; exact (ht _ rfl).elim
      | fault f => exact ⟨_, _, _, _, hp, hr⟩

/-- How a turn of command `i` begins. -/
def startOps (i : Instr) (s : State) : List Op :=
  match s.prog with
  | some ops => ops
  | none => [.run i]

/-- A turn of a command that has not begun is a turn of its one operation. -/
theorem command_run {i : Instr} {s : State} : command (procOf i) s = runAll (startOps i s) s := by
  unfold startOps
  cases hp : s.prog with
  | some ops => exact command_some hp
  | none =>
    cases hb : procOf i s with
    | ok s' more => rw [command_ok hp hb, runAll_run_ok hb, List.append_nil]
    | raise r s' => rw [command_raise hp hb, runAll_raise (show runOp (.run i) s = _ from hb)]
    | wait => exact absurd hb (procOf_ne_wait i s)
    | fault f => rw [command_fault hp hb, runAll_fault (show runOp (.run i) s = _ from hb)]

/-- The meaning of every command is a turn of its procedure. -/
theorem exec_eq_command (i : Instr) (s : State) : exec i s = command (procOf i) s := by
  cases i <;> rfl

/-- The meaning of every command as a run of operations. -/
theorem exec_eq_runAll (i : Instr) (s : State) : exec i s = runAll (startOps i s) s := by
  rw [exec_eq_command, command_run]

end Sys2Proof.Machine
end

