-- ==== Sys2Proof/Laws/Accum.lean ====
section
/-! SUPPORT. Laws/Accum.lean: the loops of IN_DISCARD and FREQ_ACCUM over the beats of a message
(40_control.md R137, 44_codec.md R234). -/

namespace Sys2Proof.Machine

theorem IsMessage.snoc : ∀ {q : List Beat}, IsMessage q →
    ∃ q1 b, q = q1 ++ [b] ∧ (∀ x ∈ q1, x.last = false) ∧ b.last = true
  | [], h => h.elim
  | [b], h => ⟨[], b, rfl, by simp, h⟩
  | b :: b2 :: q, h => by
    obtain ⟨q1, c, e, h1, h2⟩ := IsMessage.snoc (q := b2 :: q) h.2
    refine ⟨b :: q1, c, by rw [e]; rfl, ?_, h2⟩
    intro x hx
    rcases List.mem_cons.1 hx with rfl | hx
    · exact h.1
    · exact h1 x hx

/-- The rest of an open message is taken and nothing else happens (40_control.md R137). -/
theorem discard_spec : ∀ (q rest : List Beat) (ops : List Op) (s : State), IsMessage q → s.inQ = q ++ rest →
    s.inEom = false → runAll (.discard :: ops) s = runAll ops (s.took q rest)
  | [], _, _, _, h, _, _ => h.elim
  | b :: q, rest, ops, s, hm, hq, hin => by
    have ht := takeBeat_cons (b := b) (q := q ++ rest) hq
    have hop : runOp .discard s = .ok (s.took [b] (q ++ rest)) [.discard] := by
      simp only [runOp, discardLoop, hin, Bool.false_eq_true, if_false, ht]
    rw [runAll_ok hop, List.singleton_append]
    cases q with
    | nil =>
      have hlast : b.last = true := hm
      have hop2 : runOp .discard (s.took [b] ([] ++ rest)) = .ok (s.took [b] ([] ++ rest)) [] := by
        simp only [runOp, discardLoop, show (s.took [b] ([] ++ rest)).inEom = true from hlast, if_true]
      rw [runAll_ok hop2]; rfl
    | cons b2 q => rw [discard_spec (b2 :: q) rest ops _ hm.2 rfl hm.1, State.took_cons]

/-- The canonical form of the frequency RAM. -/
abbrev FreqWf (m : Memory Word) : Prop := Memory.wf 0 Config.symbols m = true

theorem freqAt_freqPut {m : Memory Word} (hw : FreqWf m) (i j : Byte) (v : Word) :
    freqAt (freqPut m i v) j = if j = i then v else freqAt m j := by
  unfold freqAt freqPut
  split
  · next e => rw [e]; exact Memory.read_write_same hw _ v
  · next e => exact Memory.read_write_ne hw v (fun h => e (BitVec.eq_of_toNat_eq h))

theorem freqPut_wf {m : Memory Word} (hw : FreqWf m) (i : Byte) (v : Word) : FreqWf (freqPut m i v) :=
  Memory.write_wf hw v (by have := i.isLt; simp only [Config.symbols]; omega)

/-- The table with some bytes counted in. -/
structure Counted (before after : Memory Word) (ds : List Byte) : Prop where
  wf : FreqWf after
  count : ∀ x, (freqAt after x).toNat = (freqAt before x).toNat + ds.count x

theorem Counted.trans {a b c : Memory Word} {ds es : List Byte} (h1 : Counted a b ds) (h2 : Counted b c es) :
    Counted a c (ds ++ es) :=
  ⟨h2.wf, fun x => by rw [h2.count, h1.count, List.count_append, Nat.add_assoc]⟩

/-- No count passes 2^32 - 1 while these bytes are counted. -/
structure Fits (total : Word) (m : Memory Word) (ds : List Byte) : Prop where
  total : total.toNat + ds.length ≤ maxWord
  each : ∀ x, (freqAt m x).toNat + ds.count x ≤ maxWord

theorem countUp_toNat {c : Word} {n : Nat} (h : c.toNat + n ≤ maxWord) : (countUp c n).toNat = c.toNat + n := by
  simp only [maxWord] at h
  simp only [countUp, BitVec.toNat_add, BitVec.toNat_ofNat]
  omega

/-- One beat counted (44_codec.md R234). -/
theorem accum_beat {s : State} {b : Beat} {q : List Beat} (hw : FreqWf s.freq) (hq : s.inQ = b :: q)
    (hin : s.inEom = false) (hf : Fits s.freqTotal s.freq (payload [b])) :
    ∃ m, Counted s.freq m (payload [b]) ∧ runOp .accum s =
      .ok { s.took [b] q with freq := m, freqTotal := countUp s.freqTotal (payload [b]).length } [.accum] := by
  have ht := takeBeat_cons hq
  by_cases he : b.empty = true
  · have hp : payload [b] = [] := by simp [payload, he]
    refine ⟨s.freq, ⟨hw, by simp [hp]⟩, ?_⟩
    simp only [runOp, accumLoop, hin, Bool.false_eq_true, if_false, ht, he, if_true, hp, List.length_nil,
      countUp_zero]
    rfl
  · have hp : payload [b] = [b.data] := by simp [payload, he]
    rw [hp] at hf
    have h1 := hf.total
    have h2 := hf.each b.data
    simp only [List.length_singleton, List.count_singleton_self] at h1 h2
    have hn : ¬ ((s.took [b] q).freqTotal.toNat = maxWord ∨ (freqAt (s.took [b] q).freq b.data).toNat = maxWord) := by
      show ¬ (s.freqTotal.toNat = maxWord ∨ (freqAt s.freq b.data).toNat = maxWord)
      omega
    refine ⟨freqPut s.freq b.data (freqAt s.freq b.data + 1), ⟨freqPut_wf hw _ _, fun x => ?_⟩, ?_⟩
    · rw [freqAt_freqPut hw, hp]
      split
      · next e =>
        subst e
        simp only [maxWord] at h2
        rw [List.count_singleton_self, BitVec.toNat_add]
        simp; omega
      · next e => rw [List.count_singleton, if_neg (by simpa using Ne.symm e), Nat.add_zero]
    · simp only [runOp, accumLoop, hin, Bool.false_eq_true, if_false, ht, he, hn, hp, List.length_singleton]
      rfl

/-- Beats that do not end the message, counted (44_codec.md R234). -/
theorem accum_prefix : ∀ (q rest : List Beat) (ops : List Op) (s : State), (∀ x ∈ q, x.last = false) →
    s.inQ = q ++ rest → s.inEom = false → FreqWf s.freq → Fits s.freqTotal s.freq (payload q) →
    ∃ m, Counted s.freq m (payload q) ∧ runAll (.accum :: ops) s =
      runAll (.accum :: ops)
        { s.took q rest with freq := m, freqTotal := countUp s.freqTotal (payload q).length }
  | [], rest, ops, s, _, hq, _, hw, _ => by
    refine ⟨s.freq, ⟨hw, by simp [payload]⟩, ?_⟩
    simp only [List.nil_append] at hq
    subst hq
    simp only [payload, List.filter_nil, List.map_nil, List.length_nil, countUp_zero]
    congr 1
    exact (State.took_nil s).symm
  | b :: q, rest, ops, s, hl, hq, hin, hw, hf => by
    have hp : payload (b :: q) = payload [b] ++ payload q := by
      rw [show b :: q = [b] ++ q from rfl, payload_append]
    rw [hp] at hf
    have ht := hf.total
    rw [List.length_append] at ht
    obtain ⟨m, hm, hop⟩ := accum_beat (q := q ++ rest) hw hq hin
      ⟨by omega, fun x => by have := hf.each x; rw [List.count_append] at this; omega⟩
    obtain ⟨m2, hm2, hrun⟩ := accum_prefix q rest ops
      { s.took [b] (q ++ rest) with freq := m, freqTotal := countUp s.freqTotal (payload [b]).length }
      (fun x hx => hl x (by simp [hx])) rfl (hl b (by simp)) hm.wf
      ⟨by
        show (countUp s.freqTotal (payload [b]).length).toNat + _ ≤ _
        rw [countUp_toNat (by omega)]; omega,
       fun x => by
        show (freqAt m x).toNat + _ ≤ _
        have := hf.each x
        rw [List.count_append] at this
        rw [hm.count]; omega⟩
    refine ⟨m2, hp ▸ hm.trans hm2, ?_⟩
    rw [runAll_ok hop, List.singleton_append, hrun]
    congr 1
    simp only [State.took, countUp_add, lastFlag_append, hp, List.length_append]
    rfl

/-- A whole message counted (44_codec.md R234). -/
theorem accum_spec (q rest : List Beat) (ops : List Op) (s : State) (hm : IsMessage q) (hq : s.inQ = q ++ rest)
    (hin : s.inEom = false) (hw : FreqWf s.freq) (hf : Fits s.freqTotal s.freq (payload q)) :
    ∃ m, Counted s.freq m (payload q) ∧ runAll (.accum :: ops) s =
      runAll ops { s.took q rest with freq := m, freqTotal := countUp s.freqTotal (payload q).length } := by
  obtain ⟨q1, b, rfl, hl, hb⟩ := hm.snoc
  rw [payload_append] at hf
  have ht := hf.total
  rw [List.length_append] at ht
  obtain ⟨m, hm1, hrun⟩ := accum_prefix q1 ([b] ++ rest) ops s hl (by rw [hq, List.append_assoc]) hin hw
    ⟨by omega, fun x => by have := hf.each x; rw [List.count_append] at this; omega⟩
  have hin1 : lastFlag s.inEom q1 = false := by
    cases hg : q1.getLast? with
    | none => rw [List.getLast?_eq_none_iff] at hg; subst hg; simpa [lastFlag] using hin
    | some x => simp [lastFlag, hg, hl x (List.mem_of_getLast? hg)]
  obtain ⟨m2, hm2, hop⟩ := accum_beat (b := b) (q := rest)
    (s := { s.took q1 ([b] ++ rest) with freq := m, freqTotal := countUp s.freqTotal (payload q1).length })
    hm1.wf rfl hin1
    ⟨by
      show (countUp s.freqTotal (payload q1).length).toNat + _ ≤ _
      rw [countUp_toNat (by omega)]; omega,
     fun x => by
      show (freqAt m x).toNat + _ ≤ _
      have := hf.each x
      rw [List.count_append] at this
      rw [hm1.count]; omega⟩
  refine ⟨m2, by rw [payload_append]; exact hm1.trans hm2, ?_⟩
  rw [hrun, runAll_ok hop, List.singleton_append]
  have hop2 : ∀ t : State, t.inEom = true → runOp .accum t = .ok t [] := by
    intro t h; simp only [runOp, accumLoop, h, if_true]
  rw [runAll_ok (hop2 _ hb), List.nil_append]
  congr 1
  simp only [State.took, countUp_add, lastFlag_append, payload_append, List.length_append]

/-- Counting stops at the byte that would pass 2^32 - 1 (44_codec.md R234, 60_exceptions.md R287). -/
theorem accum_overflow (q : List Beat) (b : Beat) (rest : List Beat) (ops : List Op) (s : State)
    (hl : ∀ x ∈ q, x.last = false) (hq : s.inQ = q ++ b :: rest) (hin : s.inEom = false) (hw : FreqWf s.freq)
    (hf : Fits s.freqTotal s.freq (payload q)) (hb : b.empty = false)
    (hov : s.freqTotal.toNat + (payload q).length = maxWord ∨
      (freqAt s.freq b.data).toNat + (payload q).count b.data = maxWord) :
    ∃ m, Counted s.freq m (payload q) ∧ runAll (.accum :: ops) s =
      failWith (raiseNat .overflow b.data.toNat)
        { s.took (q ++ [b]) rest with freq := m, freqTotal := countUp s.freqTotal (payload q).length } := by
  obtain ⟨m, hm1, hrun⟩ := accum_prefix q (b :: rest) ops s hl hq hin hw hf
  refine ⟨m, hm1, ?_⟩
  have hin1 : lastFlag s.inEom q = false := by
    cases hg : q.getLast? with
    | none => rw [List.getLast?_eq_none_iff] at hg; subst hg; simpa [lastFlag] using hin
    | some x => simp [lastFlag, hg, hl x (List.mem_of_getLast? hg)]
  generalize hs1 : ({ s.took q (b :: rest) with
    freq := m, freqTotal := countUp s.freqTotal (payload q).length } : State) = s1 at hrun
  have hq1 : s1.inQ = b :: rest := by rw [← hs1]; rfl
  have hin2 : s1.inEom = false := by rw [← hs1]; exact hin1
  have ht := takeBeat_cons hq1
  have hov' : (s1.took [b] rest).freqTotal.toNat = maxWord ∨ (freqAt (s1.took [b] rest).freq b.data).toNat = maxWord := by
    rw [← hs1]
    show (countUp s.freqTotal (payload q).length).toNat = maxWord ∨ (freqAt m b.data).toNat = maxWord
    rw [countUp_toNat hf.total, hm1.count]
    exact hov
  have hop : runOp .accum s1 = .raise (raiseNat .overflow b.data.toNat) (s1.took [b] rest) := by
    simp only [runOp, accumLoop, hin2, Bool.false_eq_true, if_false, ht, hb, hov', if_true]
  rw [hrun, runAll_raise hop, ← hs1]
  congr 1
  simp only [State.took, countUp_add, lastFlag_append, payload_append, List.length_append]

end Sys2Proof.Machine
end

