-- ==== Sys2Proof/Laws/Pqueue.lean ====
section
/-! SUPPORT. Laws/Pqueue.lean: the priority queue keeps its items and its order (42_pqueue.md R182,
R183, R187). -/

namespace Sys2Proof.Machine

/-- The canonical form of the heap RAM. -/
abbrev HeapWf (h : Memory NodeIx) : Prop := Memory.wf 0 Config.heapCap h = true

theorem heapAt_heapPut {h : Memory NodeIx} (hw : HeapWf h) (i j : Nat) (v : NodeIx) :
    heapAt (heapPut h i v) j = if j = i then v else heapAt h j := by
  unfold heapAt heapPut
  split
  · next e => rw [e]; exact Memory.read_write_same hw i v
  · next e => exact Memory.read_write_ne hw v e

theorem heapPut_wf {h : Memory NodeIx} (hw : HeapWf h) {i : Nat} (hi : i < Config.heapCap) (v : NodeIx) :
    HeapWf (heapPut h i v) := Memory.write_wf hw v hi

theorem heapSwap_wf {h : Memory NodeIx} (hw : HeapWf h) {i j : Nat} (hi : i < Config.heapCap)
    (hj : j < Config.heapCap) : HeapWf (heapSwap h i j) := heapPut_wf (heapPut_wf hw hi _) hj _

theorem heapAt_heapSwap {h : Memory NodeIx} (hw : HeapWf h) {i j : Nat} (hi : i < Config.heapCap)
    (k : Nat) : heapAt (heapSwap h i j) k = heapAt h (Equiv.swap i j k) := by
  unfold heapSwap
  rw [heapAt_heapPut (heapPut_wf hw hi _), heapAt_heapPut hw, Equiv.swap_apply_def]
  by_cases h1 : k = j
  · subst h1
    by_cases h2 : k = i
    · subst h2; simp
    · simp [h2]
  · by_cases h2 : k = i
    · subst h2; simp [h1]
    · simp [h1, h2]

theorem heapItems_heapSwap {h : Memory NodeIx} (hw : HeapWf h) {i j n : Nat} (hi : i < Config.heapCap)
    (hin : i < n) (hjn : j < n) : (heapItems (heapSwap h i j) n).Perm (heapItems h n) := by
  unfold heapItems
  have e : (List.range n).map (heapAt (heapSwap h i j)) =
      ((List.range n).map (Equiv.swap i j)).map (heapAt h) := by
    rw [List.map_map]
    exact List.map_congr_left (fun k _ => heapAt_heapSwap hw hi k)
  rw [e]
  refine List.Perm.map _ ?_
  refine (List.perm_ext_iff_of_nodup ?_ List.nodup_range).2 ?_
  · exact List.Nodup.map (Equiv.injective _) List.nodup_range
  · intro a
    simp only [List.mem_map, List.mem_range]
    constructor
    · rintro ⟨k, hk, rfl⟩
      rw [Equiv.swap_apply_def]
      split
      · exact hjn
      · split
        · exact hin
        · exact hk
    · intro ha
      refine ⟨Equiv.swap i j a, ?_, Equiv.swap_apply_self i j a⟩
      rw [Equiv.swap_apply_def]
      split
      · exact hjn
      · split
        · exact hin
        · exact ha

/-! ### Sifting up -/

theorem siftUp_wf (node : Memory Node) : ∀ (fuel k : Nat) {h : Memory NodeIx}, HeapWf h →
    k < Config.heapCap → HeapWf (siftUp node fuel k h)
  | 0, _, _, hw, _ => hw
  | fuel + 1, k, h, hw, hk => by
    unfold siftUp
    split
    · exact hw
    · dsimp only
      split
      · exact siftUp_wf node fuel _ (heapSwap_wf hw hk (by omega)) (by omega)
      · exact hw

theorem siftUp_items (node : Memory Node) (n : Nat) : ∀ (fuel k : Nat) {h : Memory NodeIx}, HeapWf h →
    k < n → n ≤ Config.heapCap → (heapItems (siftUp node fuel k h) n).Perm (heapItems h n)
  | 0, _, _, _, _, _ => List.Perm.refl _
  | fuel + 1, k, h, hw, hk, hn => by
    unfold siftUp
    split
    · exact List.Perm.refl _
    · dsimp only
      split
      · exact (siftUp_items node n fuel _ (heapSwap_wf hw (by omega) (by omega)) (by omega) hn).trans
          (heapItems_heapSwap hw (by omega) hk (by omega))
      · exact List.Perm.refl _

/-- The frequency of the item at a heap position. -/
def heapKey (node : Memory Node) (h : Memory NodeIx) (k : Nat) : Nat := (nodeAt node (heapAt h k)).freq.toNat

theorem heapKey_heapSwap {node : Memory Node} {h : Memory NodeIx} (hw : HeapWf h) {i j : Nat}
    (hi : i < Config.heapCap) (k : Nat) :
    heapKey node (heapSwap h i j) k =
      if k = i then heapKey node h j else if k = j then heapKey node h i else heapKey node h k := by
  unfold heapKey
  rw [heapAt_heapSwap hw hi, Equiv.swap_apply_def]
  split
  · rfl
  · split <;> rfl

theorem heapOrdered_iff {node : Memory Node} {h : Memory NodeIx} {n : Nat} :
    HeapOrdered node h n ↔ ∀ k, 0 < k → k < n → heapKey node h ((k - 1) / 2) ≤ heapKey node h k := by
  simp [HeapOrdered, outranks, heapKey]

/-- Sifting up repairs a heap that is out of order at one position only. -/
theorem siftUp_ordered (node : Memory Node) (n : Nat) (hn : n ≤ Config.heapCap) :
    ∀ (fuel k : Nat) {h : Memory NodeIx}, HeapWf h → k < n → k ≤ fuel →
      (∀ j, 0 < j → j < n → j ≠ k → heapKey node h ((j - 1) / 2) ≤ heapKey node h j) →
      (∀ j, 0 < j → j < n → 0 < k → (j - 1) / 2 = k → heapKey node h ((k - 1) / 2) ≤ heapKey node h j) →
      HeapOrdered node (siftUp node fuel k h) n
  | fuel, k, h, hw, hk, hf, h1, h2 => by
    rw [heapOrdered_iff]
    cases fuel with
    | zero =>
      intro j hj hjn
      exact h1 j hj hjn (by omega)
    | succ fuel =>
      unfold siftUp
      by_cases hk0 : k = 0
      · rw [if_pos hk0]
        intro j hj hjn
        exact h1 j hj hjn (by omega)
      · rw [if_neg hk0]
        dsimp only
        by_cases ho : outranks node (heapAt h k) (heapAt h ((k - 1) / 2)) = true
        · rw [if_pos ho, ← heapOrdered_iff]
          have hlt : heapKey node h k < heapKey node h ((k - 1) / 2) := by
            simpa [outranks, heapKey] using ho
          have hp : (k - 1) / 2 < k := by omega
          refine siftUp_ordered node n hn fuel _ (heapSwap_wf hw (by omega) (by omega)) (by omega) (by omega)
            ?_ ?_
          · intro j hj hjn hjp
            rw [heapKey_heapSwap hw (by omega), heapKey_heapSwap hw (by omega)]
            by_cases e1 : j = k
            · subst e1
              simp only [if_true, if_neg (show (j - 1) / 2 ≠ j by omega)]
              omega
            · by_cases e2 : (j - 1) / 2 = k
              · have := h2 j hj hjn (by omega) e2
                simp only [if_pos e2, if_neg e1, if_neg hjp]
                exact this
              · by_cases e3 : (j - 1) / 2 = (k - 1) / 2
                · have := h1 j hj hjn e1
                  rw [e3] at this
                  simp only [if_neg e1, if_neg e2, if_pos e3, if_neg hjp]
                  omega
                · simp only [if_neg e1, if_neg e2, if_neg e3, if_neg hjp]
                  exact h1 j hj hjn e1
          · intro j hj hjn hk' hjk
            rw [heapKey_heapSwap hw (by omega), heapKey_heapSwap hw (by omega)]
            have e1 : ((k - 1) / 2 - 1) / 2 ≠ k := by omega
            have e2 : ((k - 1) / 2 - 1) / 2 ≠ (k - 1) / 2 := by omega
            have hpp := h1 ((k - 1) / 2) hk' (by omega) (by omega)
            simp only [if_neg e1, if_neg e2]
            by_cases e3 : j = k
            · simp only [if_pos e3]; exact hpp
            · have := h1 j hj hjn e3
              rw [hjk] at this
              simp only [if_neg e3, if_neg (show j ≠ (k - 1) / 2 by omega)]
              omega
        · rw [if_neg ho]
          have hge : heapKey node h ((k - 1) / 2) ≤ heapKey node h k := by
            simpa [outranks, heapKey] using ho
          intro j hj hjn
          by_cases e : j = k
          · subst e; exact hge
          · exact h1 j hj hjn e

/-! ### Sifting down -/

theorem heapChild_lt {node : Memory Node} {n k : Nat} {h : Memory NodeIx} (hk : 2 * k + 1 < n) :
    heapChild node n k h < n ∧ (heapChild node n k h - 1) / 2 = k ∧ k < heapChild node n k h := by
  unfold heapChild
  split
  · next hc => simp at hc; omega
  · omega

theorem siftDown_wf (node : Memory Node) (n : Nat) (hn : n ≤ Config.heapCap) :
    ∀ (fuel k : Nat) {h : Memory NodeIx}, HeapWf h → HeapWf (siftDown node n fuel k h)
  | 0, _, _, hw => hw
  | fuel + 1, k, h, hw => by
    unfold siftDown
    split
    · exact hw
    · next hk =>
      dsimp only
      have := heapChild_lt (node := node) (h := h) (show 2 * k + 1 < n by omega)
      split
      · exact siftDown_wf node n hn fuel _ (heapSwap_wf hw (by omega) (by omega))
      · exact hw

theorem siftDown_items (node : Memory Node) (n : Nat) (hn : n ≤ Config.heapCap) :
    ∀ (fuel k : Nat) {h : Memory NodeIx}, HeapWf h →
      (heapItems (siftDown node n fuel k h) n).Perm (heapItems h n)
  | 0, _, _, _ => List.Perm.refl _
  | fuel + 1, k, h, hw => by
    unfold siftDown
    split
    · exact List.Perm.refl _
    · next hk =>
      dsimp only
      have := heapChild_lt (node := node) (h := h) (show 2 * k + 1 < n by omega)
      split
      · exact (siftDown_items node n hn fuel _ (heapSwap_wf hw (by omega) (by omega))).trans
          (heapItems_heapSwap hw (by omega) (by omega) (by omega))
      · exact List.Perm.refl _

theorem heapChild_min {node : Memory Node} {n k : Nat} {h : Memory NodeIx} {j : Nat} (hj : j < n)
    (hj0 : 0 < j) (hp : (j - 1) / 2 = k) :
    heapKey node h (heapChild node n k h) ≤ heapKey node h j := by
  unfold heapChild
  split
  · next hc =>
    simp only [Bool.and_eq_true, decide_eq_true_eq, outranks] at hc
    rcases (show j = 2 * k + 1 ∨ j = 2 * k + 2 by omega) with rfl | rfl
    · exact Nat.le_of_lt hc.2
    · exact Nat.le_refl _
  · next hc =>
    simp only [Bool.and_eq_true, decide_eq_true_eq, outranks, not_and, Nat.not_lt] at hc
    rcases (show j = 2 * k + 1 ∨ j = 2 * k + 2 by omega) with rfl | rfl
    · exact Nat.le_refl _
    · exact hc hj

/-- Sifting down repairs a heap that is out of order below one position only. -/
theorem siftDown_ordered (node : Memory Node) (n : Nat) (hn : n ≤ Config.heapCap) :
    ∀ (fuel k : Nat) {h : Memory NodeIx}, HeapWf h → n ≤ fuel + k →
      (∀ j, 0 < j → j < n → (j - 1) / 2 ≠ k → heapKey node h ((j - 1) / 2) ≤ heapKey node h j) →
      (∀ j, 0 < j → j < n → 0 < k → (j - 1) / 2 = k → heapKey node h ((k - 1) / 2) ≤ heapKey node h j) →
      HeapOrdered node (siftDown node n fuel k h) n
  | fuel, k, h, hw, hf, h1, h2 => by
    rw [heapOrdered_iff]
    cases fuel with
    | zero =>
      intro j hj hjn
      exact h1 j hj hjn (by omega)
    | succ fuel =>
      unfold siftDown
      by_cases hk0 : n ≤ 2 * k + 1
      · rw [if_pos hk0]
        intro j hj hjn
        exact h1 j hj hjn (by omega)
      · rw [if_neg hk0]
        dsimp only
        obtain ⟨c1, c2, c3⟩ := heapChild_lt (node := node) (h := h) (show 2 * k + 1 < n by omega)
        have cmin := fun {j : Nat} a b c => heapChild_min (node := node) (n := n) (k := k) (h := h) (j := j) a b c
        generalize heapChild node n k h = c at c1 c2 c3 cmin ⊢
        by_cases ho : outranks node (heapAt h c) (heapAt h k) = true
        · rw [if_pos ho, ← heapOrdered_iff]
          have hlt : heapKey node h c < heapKey node h k := by simpa [outranks, heapKey] using ho
          refine siftDown_ordered node n hn fuel _ (heapSwap_wf hw (by omega) (by omega)) (by omega) ?_ ?_
          · intro j hj hjn hjp
            rw [heapKey_heapSwap hw (by omega), heapKey_heapSwap hw (by omega)]
            by_cases e1 : (j - 1) / 2 = k
            · have := cmin hjn hj e1
              simp only [if_pos e1, if_neg (show j ≠ k by omega)]
              split
              · omega
              · exact this
            · by_cases e2 : j = k
              · subst e2
                have hc := h2 c (by omega) c1 hj c2
                simp only [if_neg e1, if_true, if_neg (show (j - 1) / 2 ≠ c by omega)]
                exact hc
              · have := h1 j hj hjn e1
                simp only [if_neg e1, if_neg hjp, if_neg e2, if_neg (show j ≠ c by intro e; subst e; omega)]
                exact this
          · intro j hj hjn hc0 hjc
            rw [heapKey_heapSwap hw (by omega), heapKey_heapSwap hw (by omega)]
            have := h1 j hj hjn (by omega)
            rw [hjc] at this
            simp only [c2, if_true, if_neg (show j ≠ k by omega), if_neg (show j ≠ c by omega)]
            exact this
        · rw [if_neg ho]
          have hge : heapKey node h k ≤ heapKey node h c := by simpa [outranks, heapKey] using ho
          intro j hj hjn
          by_cases e : (j - 1) / 2 = k
          · rw [e]; exact hge.trans (cmin hjn hj e)
          · exact h1 j hj hjn e

/-! ### The queue's operations -/

theorem heapItems_succ (h : Memory NodeIx) (n : Nat) :
    heapItems h (n + 1) = heapItems h n ++ [heapAt h n] := by
  simp [heapItems, List.range_succ]

theorem heapItems_put_above {h : Memory NodeIx} (hw : HeapWf h) {i n : Nat} (v : NodeIx) (hi : n ≤ i) :
    heapItems (heapPut h i v) n = heapItems h n := by
  unfold heapItems
  refine List.map_congr_left fun k hk => ?_
  rw [heapAt_heapPut hw, if_neg (by simp at hk; omega)]

/-- The arena's queue is sound: its RAM is canonical, its size in range, its order kept. -/
structure Arena.Heap (a : Arena) : Prop where
  wf : HeapWf a.heap
  size : a.pqSize.toNat ≤ Config.heapCap
  ordered : HeapOrdered a.node a.heap a.pqSize.toNat

/-- The items of an arena's queue. -/
def Arena.items (a : Arena) : List NodeIx := heapItems a.heap a.pqSize.toNat

/-- All `pq_insert` can do (42_pqueue.md R182). -/
theorem pqInsert_spec (x : NodeIx) (a : Arena) (ha : a.Heap) :
    (a.pqSize.toNat = Config.heapCap ∧ pqInsert x a = .raise (raiseNat .alloc (Config.heapCap + 1)) a) ∨
    (a.pqSize.toNat < Config.heapCap ∧ ∃ a', pqInsert x a = .ok () a' ∧ a'.node = a.node ∧
      a'.nodeCount = a.nodeCount ∧ a'.pqSize.toNat = a.pqSize.toNat + 1 ∧ a'.Heap ∧
      a'.items.Perm (x :: a.items)) := by
  obtain ⟨hw, hs, ho⟩ := ha
  unfold pqInsert
  by_cases hfull : Config.heapCap ≤ a.pqSize.toNat
  · exact .inl ⟨Nat.le_antisymm hs hfull, by rw [if_pos hfull]⟩
  · refine .inr ⟨by omega, ?_⟩
    rw [if_neg hfull]
    simp only [Config.heapCap] at hfull hs
    have hsz : (a.pqSize + 1).toNat = a.pqSize.toNat + 1 := by
      rw [BitVec.toNat_add]; simp; omega
    have hk : a.pqSize.toNat < Config.heapCap := by simp only [Config.heapCap]; omega
    have hw' := heapPut_wf hw hk x
    refine ⟨_, rfl, rfl, rfl, hsz, ⟨siftUp_wf _ _ _ hw' hk, by simp only [hsz]; omega, ?_⟩, ?_⟩
    · simp only [hsz]
      rw [heapOrdered_iff] at ho
      have key : ∀ j, j ≠ a.pqSize.toNat →
          heapKey a.node (heapPut a.heap a.pqSize.toNat x) j = heapKey a.node a.heap j := fun j hj => by
        unfold heapKey; rw [heapAt_heapPut hw, if_neg hj]
      refine siftUp_ordered _ _ (by omega) _ _ hw' (by omega) (Nat.le_refl _) ?_ ?_
      · intro j hj hjn hjk
        rw [key j hjk, key _ (by omega)]
        exact ho j hj (by omega)
      · intro j hj hjn _ hjk; omega
    · simp only [Arena.items, hsz]
      refine (siftUp_items _ _ _ _ hw' (by omega) (by omega)).trans ?_
      rw [heapItems_succ, heapItems_put_above hw x (Nat.le_refl _), heapAt_heapPut hw, if_pos rfl]
      exact List.perm_append_singleton _ _

/-- All `pq_extract` can do (42_pqueue.md R183, R187). -/
theorem pqExtract_spec (a : Arena) (ha : a.Heap) :
    (a.pqSize = 0 ∧ pqExtract a = .raise (raiseNat .empty 0) a) ∨
    (a.pqSize ≠ 0 ∧ ∃ x a', pqExtract a = .ok x a' ∧ a'.node = a.node ∧ a'.nodeCount = a.nodeCount ∧
      a'.pqSize.toNat + 1 = a.pqSize.toNat ∧ a'.Heap ∧ a.items.Perm (x :: a'.items) ∧
      ∀ y ∈ a'.items, outranks a.node y x = false) := by
  obtain ⟨hw, hs, ho⟩ := ha
  have hroot : ∀ k, k < a.pqSize.toNat → heapKey a.node a.heap 0 ≤ heapKey a.node a.heap k := by
    rw [heapOrdered_iff] at ho
    intro k
    induction k using Nat.strongRecOn with
    | ind k ih =>
      intro hk
      by_cases h0 : k = 0
      · rw [h0]
      · exact (ih ((k - 1) / 2) (by omega) (by omega)).trans (ho k (by omega) hk)
  have hmem : ∀ y ∈ a.items, outranks a.node y (heapAt a.heap 0) = false := by
    intro y hy
    simp only [Arena.items, heapItems, List.mem_map, List.mem_range] at hy
    obtain ⟨k, hk, rfl⟩ := hy
    have := hroot k hk
    simpa [outranks, heapKey] using this
  unfold pqExtract
  by_cases h0 : a.pqSize = 0
  · exact .inl ⟨h0, by rw [if_pos h0]⟩
  · refine .inr ⟨h0, ?_⟩
    rw [if_neg h0]
    have hpos : 0 < a.pqSize.toNat := by
      rcases Nat.eq_zero_or_pos a.pqSize.toNat with h | h
      · exact absurd (BitVec.eq_of_toNat_eq (by simpa using h)) h0
      · exact h
    dsimp only
    by_cases h1 : a.pqSize.toNat - 1 = 0
    · rw [if_pos h1]
      have e : a.pqSize.toNat = 1 := by omega
      refine ⟨_, _, rfl, rfl, rfl, by simp [e], ⟨hw, by simp, by intro k _ hk; simp at hk⟩, ?_, ?_⟩
      · simp [Arena.items, e, heapItems]
      · simp [Arena.items, heapItems]
    · rw [if_neg h1]
      simp only [Config.heapCap] at hs
      have hsz : (BitVec.ofNat 9 (a.pqSize.toNat - 1)).toNat = a.pqSize.toNat - 1 := by
        simp; omega
      generalize hn : a.pqSize.toNat - 1 = n at h1 hsz
      have en : a.pqSize.toNat = n + 1 := by omega
      have hw' : HeapWf (heapPut a.heap 0 (heapAt a.heap n)) := heapPut_wf hw (by decide) _
      have hperm : a.items.Perm (heapAt a.heap 0 :: heapItems (heapPut a.heap 0 (heapAt a.heap n)) n) := by
        obtain ⟨m, rfl⟩ : ∃ m, n = m + 1 := ⟨n - 1, by omega⟩
        simp only [Arena.items, en]
        rw [heapItems_succ]
        have e1 : heapItems a.heap (m + 1) = heapAt a.heap 0 :: (List.range m).map (fun k => heapAt a.heap (k + 1)) := by
          simp [heapItems, List.range_succ_eq_map]
        have e2 : heapItems (heapPut a.heap 0 (heapAt a.heap (m + 1))) (m + 1) =
            heapAt a.heap (m + 1) :: (List.range m).map (fun k => heapAt a.heap (k + 1)) := by
          simp [heapItems, List.range_succ_eq_map, heapAt_heapPut hw]
        rw [e1, e2, List.cons_append]
        exact List.Perm.cons _ (List.perm_append_singleton _ _)
      have hitems := siftDown_items a.node n (by simp only [Config.heapCap]; omega) n 0 hw'
      refine ⟨_, _, rfl, rfl, rfl, by simp only [hsz]; omega,
        ⟨siftDown_wf _ _ (by simp only [Config.heapCap]; omega) _ _ hw', by simp only [hsz, Config.heapCap]; omega, ?_⟩, ?_, ?_⟩
      · simp only [hsz]
        rw [heapOrdered_iff] at ho
        have key : ∀ j, j ≠ 0 →
            heapKey a.node (heapPut a.heap 0 (heapAt a.heap n)) j = heapKey a.node a.heap j := fun j hj => by
          unfold heapKey; rw [heapAt_heapPut hw, if_neg hj]
        refine siftDown_ordered _ _ (by simp only [Config.heapCap]; omega) _ _ hw' (by omega) ?_ ?_
        · intro j hj hjn hjk
          rw [key j (by omega), key _ hjk]
          exact ho j hj (by omega)
        · intro j _ _ h; omega
      · simp only [Arena.items, hsz] at hperm ⊢
        exact hperm.trans (List.Perm.cons _ hitems.symm)
      · intro y hy
        simp only [Arena.items, hsz] at hy
        refine hmem y (hperm.symm.subset ?_)
        exact List.mem_cons_of_mem _ (hitems.subset hy)

end Sys2Proof.Machine
end

