-- ==== Sys2Proof/Laws/Merge.lean ====
section
/-! SUPPORT. Laws/Merge.lean: the queue of TREE_BUILD as a collection (43_tree.md R204): which two items a
merge takes out, and that later merges leave the record of the earlier ones alone. -/

namespace Sys2Proof.Machine

/-- The two items that a merge takes out: the first is a lowest one, the second a lowest one of the others. -/
structure Drawn (m : Memory Node) (q : List NodeIx) (l r : NodeIx) (rest : List NodeIx) : Prop where
  perm : q.Perm (l :: r :: rest)
  first : ∀ y ∈ r :: rest, (nodeAt m l).freq.toNat ≤ (nodeAt m y).freq.toNat
  second : ∀ y ∈ rest, (nodeAt m r).freq.toNat ≤ (nodeAt m y).freq.toNat

theorem Drawn.lowest {m : Memory Node} {q p rest : List NodeIx} {l r : NodeIx} (h : Drawn m q l r rest)
    (hp : q.Perm p) :
    IsLowest m l p ∧ IsLowest m r (p.erase l) ∧ ((p.erase l).erase r).Perm rest := by
  have hp1 : p.Perm (l :: r :: rest) := hp.symm.trans h.perm
  have hp2 : (p.erase l).Perm (r :: rest) := by simpa using hp1.erase l
  refine ⟨⟨hp1.mem_iff.2 (by simp), fun y hy => ?_⟩, ⟨hp2.mem_iff.2 (by simp), fun y hy => ?_⟩, by simpa using hp2.erase r⟩
  · rcases List.mem_cons.1 (hp1.mem_iff.1 hy) with rfl | hy
    · exact Nat.le_refl _
    · exact h.first y hy
  · rcases List.mem_cons.1 (hp2.mem_iff.1 hy) with rfl | hy
    · exact Nat.le_refl _
    · exact h.second y hy

theorem toNat_ofNat9 {i : Nat} (h : i < 512) : (BitVec.ofNat 9 i).toNat = i := by simp; omega

/-- The queue before merge `j` holds nodes made before it. -/
theorem mergeQueue_lt {m : Memory Node} {L : Nat} : ∀ {j : Nat}, L + j ≤ 512 →
    ∀ x ∈ mergeQueue m L j, x.toNat < L + j
  | 0, h, x, hx => by
    obtain ⟨i, hi, rfl⟩ := List.mem_map.1 hx
    rw [List.mem_range] at hi
    rw [toNat_ofNat9 (by omega)]
    omega
  | j + 1, h, x, hx => by
    rcases List.mem_cons.1 hx with rfl | hx
    · rw [toNat_ofNat9 (by omega)]; omega
    · have := mergeQueue_lt (by omega) x (List.mem_of_mem_erase (List.mem_of_mem_erase hx))
      omega

theorem mergeQueue_congr {m m' : Memory Node} {L : Nat} : ∀ {j : Nat}, L + j ≤ 512 →
    (∀ x : NodeIx, x.toNat < L + j → nodeAt m' x = nodeAt m x) → mergeQueue m' L j = mergeQueue m L j
  | 0, _, _ => rfl
  | j + 1, h, hn => by
    have hx := hn (BitVec.ofNat 9 (L + j)) (by rw [toNat_ofNat9 (by omega)]; omega)
    have hq := mergeQueue_congr (m := m) (m' := m') (L := L) (j := j) (by omega) (fun x hx => hn x (by omega))
    simp only [mergeQueue, hq, hx]

theorem IsLowest.congr {m m' : Memory Node} {x : NodeIx} {q : List NodeIx}
    (hn : ∀ y ∈ q, nodeAt m' y = nodeAt m y) (h : IsLowest m x q) : IsLowest m' x q :=
  ⟨h.1, fun y hy => by rw [hn x h.1, hn y hy]; exact h.2 y hy⟩

/-- What the nodes above hold does not change the record of the merges below. -/
theorem MergesTo.congr {m m' : Memory Node} {L n : Nat} (hL : L + n ≤ 512)
    (hn : ∀ x : NodeIx, x.toNat < L + n → nodeAt m' x = nodeAt m x) (h : MergesTo m L n) : MergesTo m' L n := by
  intro j hj
  have hq := mergeQueue_congr (m := m) (m' := m') (L := L) (j := j) (by omega) (fun x hx => hn x (by omega))
  have hlt : ∀ x ∈ mergeQueue m L j, nodeAt m' x = nodeAt m x := fun x hx =>
    hn x (by have := mergeQueue_lt (by omega) x hx; omega)
  have hv := hn (BitVec.ofNat 9 (L + j)) (by rw [toNat_ofNat9 (by omega)]; omega)
  obtain ⟨h1, h2, h3, h4, h5, h6⟩ := h j hj
  dsimp only
  rw [hv, hq]
  refine ⟨h1, h2, h3, h4.congr hlt, h5.congr (fun y hy => hlt y (List.mem_of_mem_erase hy)), ?_⟩
  rw [h6, hlt _ h4.1, hlt _ (List.mem_of_mem_erase h5.1)]

end Sys2Proof.Machine
end

