-- ==== Sys2Proof/Laws/Sift.lean ====
section
/-! SUPPORT. Laws/Sift.lean: exactly where sifting leaves every item (42_pqueue.md R182, R183). -/

namespace Sys2Proof.Machine

/-! ### Up -/

theorem heapUp_zero (n : Nat) : heapUp n 0 = n := rfl

theorem heapUp_succ (n j : Nat) : heapUp n (j + 1) = heapUp ((n - 1) / 2) j := rfl

theorem heapUp_le : ∀ (j n : Nat), heapUp n j ≤ n
  | 0, n => Nat.le_refl n
  | j + 1, n => by
    rw [heapUp_succ]
    have := heapUp_le j ((n - 1) / 2)
    omega

theorem siftUp_exact (node : Memory Node) : ∀ (fuel k : Nat) {h : Memory NodeIx}, HeapWf h → k < Config.heapCap →
    k ≤ fuel → ∃ m, SiftedUp node h (siftUp node fuel k h) (heapAt h k) k m
  | fuel, k, h, hw, hk, hf => by
    by_cases hk0 : k = 0
    · refine ⟨0, ?_⟩
      have e : siftUp node fuel k h = h := by
        cases fuel with
        | zero => rfl
        | succ n => rw [siftUp, if_pos hk0]
      rw [e]
      exact ⟨rfl, by intro j hj; omega, .inl hk0, fun _ _ => rfl⟩
    · cases fuel with
      | zero => omega
      | succ fuel =>
        rw [siftUp, if_neg hk0]
        dsimp only
        by_cases ho : outranks node (heapAt h k) (heapAt h ((k - 1) / 2)) = true
        · rw [if_pos ho]
          have hp : (k - 1) / 2 < k := by omega
          have hw2 := heapSwap_wf hw hk (show (k - 1) / 2 < Config.heapCap by omega)
          have hat : ∀ q, heapAt (heapSwap h k ((k - 1) / 2)) q = heapAt h (Equiv.swap k ((k - 1) / 2) q) :=
            heapAt_heapSwap hw hk
          have hx : heapAt (heapSwap h k ((k - 1) / 2)) ((k - 1) / 2) = heapAt h k := by
            rw [hat, Equiv.swap_apply_right]
          have hother : ∀ q, q ≠ k → q ≠ (k - 1) / 2 → heapAt (heapSwap h k ((k - 1) / 2)) q = heapAt h q := by
            intro q h1 h2
            rw [hat, Equiv.swap_apply_of_ne_of_ne h1 h2]
          obtain ⟨m, ih⟩ := siftUp_exact node fuel ((k - 1) / 2) hw2 (by omega) (by omega)
          rw [hx] at ih
          -- a proper ancestor of the parent has not moved
          have hanc : ∀ j, 0 < heapUp ((k - 1) / 2) j →
              heapAt (heapSwap h k ((k - 1) / 2)) (heapUp ((k - 1) / 2) (j + 1)) =
                heapAt h (heapUp ((k - 1) / 2) (j + 1)) := by
            intro j hj
            have h1 := heapUp_le j ((k - 1) / 2)
            have h2 := heapUp_le j (((k - 1) / 2 - 1) / 2)
            rw [heapUp_succ]
            exact hother _ (by omega) (by omega)
          refine ⟨m + 1, ih.here, ?_, ?_, ?_⟩
          · intro j hj
            cases j with
            | zero =>
              refine ⟨by rw [heapUp_zero]; omega, ?_, ho⟩
              rw [heapUp_zero, ih.rest k (fun j _ => by have := heapUp_le j ((k - 1) / 2); omega), hat,
                Equiv.swap_apply_left]
              rfl
            | succ j =>
              obtain ⟨h1, h2, h3⟩ := ih.moved j (by omega)
              rw [hanc j h1] at h2 h3
              exact ⟨h1, h2, h3⟩
          · rcases Nat.eq_zero_or_pos (heapUp ((k - 1) / 2) m) with h0 | h0
            · exact .inl h0
            · rcases ih.stops with h | h
              · exact .inl h
              · rw [hanc m h0] at h; exact .inr h
          · intro q hq
            have hqk : q ≠ k := hq 0 (by omega)
            have hqp : q ≠ (k - 1) / 2 := hq 1 (by omega)
            rw [ih.rest q (fun j hj => hq (j + 1) (by omega)), hother q hqk hqp]
        · rw [if_neg ho]
          exact ⟨0, rfl, by intro j hj; omega,
            .inr (show outranks node (heapAt h k) (heapAt h ((k - 1) / 2)) = false by simpa using ho), fun _ _ => rfl⟩

/-- `pq_insert` on a queue that is not full, item by item (42_pqueue.md R182). -/
theorem pqInsert_exact (x : NodeIx) (a : Arena) (hw : HeapWf a.heap) (hs : a.pqSize.toNat < Config.heapCap) :
    ∃ h m, pqInsert x a = .ok () { a with heap := h, pqSize := a.pqSize + 1 } ∧
      SiftedUp a.node a.heap h x a.pqSize.toNat m := by
  generalize hk : a.pqSize.toNat = k at hs
  have hat := heapAt_heapPut hw k
  obtain ⟨m, hm⟩ := siftUp_exact a.node k k (heapPut_wf hw hs x) hs (Nat.le_refl _)
  have hx : heapAt (heapPut a.heap k x) k = x := by rw [hat, if_pos rfl]
  rw [hx] at hm
  have hanc : ∀ j, 0 < heapUp k j →
      heapAt (heapPut a.heap k x) (heapUp k (j + 1)) = heapAt a.heap (heapUp k (j + 1)) := by
    intro j hj
    have h1 := heapUp_le j k
    have h2 := heapUp_le j ((k - 1) / 2)
    rw [heapUp_succ, hat, if_neg (by omega)]
  refine ⟨siftUp a.node k k (heapPut a.heap k x), m, ?_, hm.here, ?_, ?_, ?_⟩
  · unfold pqInsert; rw [if_neg (by omega), hk]
  · intro j hj
    obtain ⟨h1, h2, h3⟩ := hm.moved j hj
    rw [hanc j h1] at h2 h3
    exact ⟨h1, h2, h3⟩
  · rcases Nat.eq_zero_or_pos (heapUp k m) with h0 | h0
    · exact .inl h0
    · rcases hm.stops with h | h
      · exact .inl h
      · rw [hanc m h0] at h; exact .inr h
  · intro p hp
    rw [hm.rest p hp, hat, if_neg (show p ≠ k from hp 0 (by omega))]

/-! ### Down -/

/-- The sift-down path from a position. -/
def heapPath (node : Memory Node) (n : Nat) (h : Memory NodeIx) (k j : Nat) : Nat :=
  (fun k => heapChild node n k h)^[j] k

theorem heapDown_eq (node : Memory Node) (h : Memory NodeIx) (n : Nat) : ∀ j,
    heapDown node h n j = heapPath node n h 0 j
  | 0 => rfl
  | j + 1 => by
    have := heapDown_eq node h n j
    unfold heapPath at this ⊢
    rw [Function.iterate_succ_apply', ← this]
    simp only [heapDown, heapChild, Bool.and_eq_true, decide_eq_true_eq]

theorem heapPath_succ (node : Memory Node) (n : Nat) (h : Memory NodeIx) (k j : Nat) :
    heapPath node n h k (j + 1) = heapPath node n h (heapChild node n k h) j := rfl

theorem heapChild_gt (node : Memory Node) (n k : Nat) (h : Memory NodeIx) : 2 * k + 1 ≤ heapChild node n k h := by
  unfold heapChild; split <;> omega

theorem heapPath_ge (node : Memory Node) (n : Nat) (h : Memory NodeIx) : ∀ (j k : Nat), k ≤ heapPath node n h k j
  | 0, k => Nat.le_refl k
  | j + 1, k => by
    rw [heapPath_succ]
    have h1 := heapPath_ge node n h j (heapChild node n k h)
    have h2 := heapChild_gt node n k h
    omega

/-- The path reads only items below its start. -/
theorem heapPath_congr {node : Memory Node} {n : Nat} {h h' : Memory NodeIx} : ∀ (j k : Nat),
    (∀ q, k < q → heapAt h' q = heapAt h q) → heapPath node n h' k j = heapPath node n h k j
  | 0, _, _ => rfl
  | j + 1, k, hq => by
    have e : heapChild node n k h' = heapChild node n k h := by
      unfold heapChild; rw [hq _ (by omega), hq _ (by omega)]
    rw [heapPath_succ, heapPath_succ, e]
    exact heapPath_congr j _ (fun q h1 => hq q (by have := heapChild_gt node n k h; omega))

/-- Where sifting down from a position leaves every item. -/
structure SiftedFrom (node : Memory Node) (n : Nat) (old new : Memory NodeIx) (k m : Nat) : Prop where
  here : heapAt new (heapPath node n old k m) = heapAt old k
  moved : ∀ j, j < m → heapPath node n old k (j + 1) < n ∧
    heapAt new (heapPath node n old k j) = heapAt old (heapPath node n old k (j + 1)) ∧
    outranks node (heapAt old (heapPath node n old k (j + 1))) (heapAt old k) = true
  stops : n ≤ heapPath node n old k (m + 1) ∨
    outranks node (heapAt old (heapPath node n old k (m + 1))) (heapAt old k) = false
  rest : ∀ p, (∀ j, j ≤ m → p ≠ heapPath node n old k j) → heapAt new p = heapAt old p

theorem siftDown_exact (node : Memory Node) (n : Nat) (hn : n ≤ Config.heapCap) :
    ∀ (fuel k : Nat) {h : Memory NodeIx}, HeapWf h → n ≤ fuel + k →
      ∃ m, SiftedFrom node n h (siftDown node n fuel k h) k m
  | fuel, k, h, hw, hf => by
    have stay : siftDown node n fuel k h = h → (n ≤ heapPath node n h k 1 ∨
        outranks node (heapAt h (heapPath node n h k 1)) (heapAt h k) = false) →
        ∃ m, SiftedFrom node n h (siftDown node n fuel k h) k m := by
      intro e hs
      rw [e]
      exact ⟨0, rfl, by intro j hj; omega, hs, fun _ _ => rfl⟩
    have hgt := heapChild_gt node n k h
    by_cases hk : n ≤ 2 * k + 1
    · refine stay ?_ (.inl (by rw [heapPath_succ]; exact Nat.le_trans hk hgt))
      cases fuel with
      | zero => rfl
      | succ fuel => rw [siftDown, if_pos hk]
    · cases fuel with
      | zero => omega
      | succ fuel =>
        by_cases ho : outranks node (heapAt h (heapChild node n k h)) (heapAt h k) = true
        · have hc : heapChild node n k h < n := (heapChild_lt (by omega : 2 * k + 1 < n)).1
          have e : siftDown node n (fuel + 1) k h = siftDown node n fuel (heapChild node n k h)
              (heapSwap h k (heapChild node n k h)) := by
            rw [siftDown, if_neg hk]; dsimp only; rw [if_pos ho]
          rw [e]
          clear stay
          generalize hcd : heapChild node n k h = c at *
          have hat : ∀ q, heapAt (heapSwap h k c) q = heapAt h (Equiv.swap k c q) := heapAt_heapSwap hw (by omega)
          have hx : heapAt (heapSwap h k c) c = heapAt h k := by rw [hat, Equiv.swap_apply_right]
          have hbelow : ∀ q, c < q → heapAt (heapSwap h k c) q = heapAt h q := by
            intro q hq
            rw [hat, Equiv.swap_apply_of_ne_of_ne (by omega) (by omega)]
          have hpath : ∀ j, heapPath node n (heapSwap h k c) c j = heapPath node n h c j :=
            fun j => heapPath_congr j c hbelow
          have hnext : ∀ j, heapPath node n h k (j + 1) = heapPath node n h c j := by
            intro j; rw [heapPath_succ, hcd]
          have hdeep : ∀ j, c < heapPath node n h c (j + 1) := by
            intro j
            have h1 := heapPath_ge node n h j (heapChild node n c h)
            have h2 := heapChild_gt node n c h
            rw [heapPath_succ]; omega
          obtain ⟨m, ih⟩ := siftDown_exact node n hn fuel c (heapSwap_wf hw (show k < Config.heapCap by omega)
            (show c < Config.heapCap by omega)) (by omega)
          refine ⟨m + 1, ?_, ?_, ?_, ?_⟩
          · rw [hnext, ← hpath, ih.here, hx]
          · intro j hj
            cases j with
            | zero =>
              have h0 : heapPath node n h k (0 + 1) = c := by rw [hnext]; rfl
              rw [h0]
              refine ⟨hc, ?_, ho⟩
              rw [show heapPath node n h k 0 = k from rfl, ih.rest k (fun j _ => by
                have := heapPath_ge node n (heapSwap h k c) j c; omega), hat, Equiv.swap_apply_left]
            | succ j =>
              obtain ⟨h1, h2, h3⟩ := ih.moved j (by omega)
              rw [hpath, hpath, hbelow _ (hdeep j)] at h2
              rw [hpath, hbelow _ (hdeep j), hx] at h3
              rw [hpath] at h1
              rw [hnext, hnext]
              exact ⟨h1, h2, h3⟩
          · rw [hnext]
            rcases ih.stops with h1 | h1
            · rw [hpath] at h1; exact .inl h1
            · rw [hpath, hbelow _ (hdeep m), hx] at h1; exact .inr h1
          · intro p hp
            have hpk : p ≠ k := hp 0 (by omega)
            have hpc : p ≠ c := by have := hp 1 (by omega); rw [hnext] at this; exact this
            rw [ih.rest p (fun j hj => by rw [hpath, ← hnext]; exact hp (j + 1) (by omega)), hat,
              Equiv.swap_apply_of_ne_of_ne hpk hpc]
        · refine stay ?_ (.inr (by rw [heapPath_succ]; simpa [heapPath] using ho))
          rw [siftDown, if_neg hk]; dsimp only; rw [if_neg ho]

/-- `pq_extract` on a queue of `n + 1` items, item by item (42_pqueue.md R183). -/
theorem pqExtract_exact (a : Arena) (n : Nat) (hw : HeapWf a.heap) (hs : a.pqSize.toNat = n + 1)
    (hn : n < Config.heapCap) :
    ∃ h, pqExtract a = .ok (heapAt a.heap 0) { a with heap := h, pqSize := BitVec.ofNat 9 n } ∧
      (n = 0 → h = a.heap) ∧ (0 < n → ∃ m, SiftedDown a.node a.heap h (heapAt a.heap n) n m) := by
  have hne : ¬ a.pqSize = 0 := by intro h; rw [h] at hs; simp at hs
  by_cases h0 : n = 0
  · refine ⟨a.heap, ?_, fun _ => rfl, fun h => absurd h (by omega)⟩
    unfold pqExtract
    rw [if_neg hne]
    dsimp only
    rw [if_pos (by omega), h0]
    rfl
  · refine ⟨siftDown a.node n n 0 (heapPut a.heap 0 (heapAt a.heap n)), ?_, fun h => absurd h h0, fun _ => ?_⟩
    · unfold pqExtract
      rw [if_neg hne]
      dsimp only
      rw [if_neg (by omega), show a.pqSize.toNat - 1 = n by omega]
    · have hat := heapAt_heapPut hw 0
      obtain ⟨m, hm⟩ := siftDown_exact a.node n (by omega) n 0
        (heapPut_wf hw (show 0 < Config.heapCap by decide) (heapAt a.heap n)) (by omega)
      have hx : heapAt (heapPut a.heap 0 (heapAt a.heap n)) 0 = heapAt a.heap n := by rw [hat, if_pos rfl]
      have hbelow : ∀ q, 0 < q → heapAt (heapPut a.heap 0 (heapAt a.heap n)) q = heapAt a.heap q := by
        intro q hq; rw [hat, if_neg (by omega)]
      have hpath : ∀ j, heapPath a.node n (heapPut a.heap 0 (heapAt a.heap n)) 0 j = heapDown a.node a.heap n j :=
        fun j => by rw [heapDown_eq]; exact heapPath_congr j 0 hbelow
      have hdeep : ∀ j, 0 < heapDown a.node a.heap n (j + 1) := by
        intro j
        rw [heapDown_eq, heapPath_succ]
        have h1 := heapPath_ge a.node n a.heap j (heapChild a.node n 0 a.heap)
        have h2 := heapChild_gt a.node n 0 a.heap
        omega
      obtain ⟨h1, h2, h3, h4⟩ := hm
      simp only [hpath, hx, hbelow _ (hdeep _)] at h1 h2 h3 h4
      exact ⟨m, h1, h2, h3, fun p hp => by rw [h4 p hp, hat, if_neg (show p ≠ 0 from hp 0 (by omega))]⟩

end Sys2Proof.Machine
end

