-- ==== Sys2Proof/Laws/Trace.lean ====
section
/-! SUPPORT. Laws/Trace.lean: the heaps that TREE_BUILD goes through (43_tree.md R204, 42_pqueue.md R182, R183):
one insertion or extraction as a relation of two heaps, and that nodes made later do not change the record. -/

namespace Sys2Proof.Machine

theorem outranks_congr {m m' : Memory Node} {a b : NodeIx} (ha : nodeAt m' a = nodeAt m a)
    (hb : nodeAt m' b = nodeAt m b) : outranks m' a b = outranks m a b := by
  unfold outranks; rw [ha, hb]

/-! ### One insertion -/

theorem heapUp_succ_lt {n j : Nat} (h : 0 < heapUp n j) : heapUp n (j + 1) < n := by
  have h1 := heapUp_le j n
  have h2 := heapUp_le j ((n - 1) / 2)
  rw [heapUp_succ]
  omega

theorem pqInsert_sifted {x : NodeIx} {u : Unit} {a a' : Arena} (he : pqInsert x a = .ok u a') (hw : HeapWf a.heap)
    (hs : a.pqSize.toNat < Config.heapCap) : ∃ k, SiftedUp a.node a.heap a'.heap x a.pqSize.toNat k := by
  obtain ⟨h, k, e, hk⟩ := pqInsert_exact x a hw hs
  rw [he] at e
  injection e with _ e
  exact ⟨k, by rw [e]; exact hk⟩

theorem SiftedUp.below {m : Memory Node} {old new : Memory NodeIx} {x : NodeIx} {n k b : Nat}
    (h : SiftedUp m old new x n k) (hx : x.toNat < b) (ho : ∀ p, p < n → (heapAt old p).toNat < b) :
    ∀ p, p ≤ n → (heapAt new p).toNat < b := by
  intro p hp
  by_cases hj : ∃ j, j ≤ k ∧ p = heapUp n j
  · obtain ⟨j, hj, rfl⟩ := hj
    rcases Nat.lt_or_eq_of_le hj with hj | rfl
    · obtain ⟨h0, e, -⟩ := h.moved j hj
      rw [e]
      exact ho _ (heapUp_succ_lt h0)
    · rw [h.here]; exact hx
  · have hne : ∀ j, j ≤ k → p ≠ heapUp n j := fun j hj' e => hj ⟨j, hj', e⟩
    have : p ≠ n := hne 0 (Nat.zero_le _)
    rw [h.rest p hne]
    exact ho p (by omega)

theorem SiftedUp.congr {m m' : Memory Node} {old new : Memory NodeIx} {x : NodeIx} {n k : Nat}
    (h : SiftedUp m old new x n k) (hx : nodeAt m' x = nodeAt m x)
    (ho : ∀ p, p < n → nodeAt m' (heapAt old p) = nodeAt m (heapAt old p)) : SiftedUp m' old new x n k := by
  refine ⟨h.here, fun j hj => ?_, ?_, h.rest⟩
  · obtain ⟨h0, e, hr⟩ := h.moved j hj
    exact ⟨h0, e, by rw [outranks_congr hx (ho _ (heapUp_succ_lt h0))]; exact hr⟩
  · rcases Nat.eq_zero_or_pos (heapUp n k) with h0 | h0
    · exact .inl h0
    · exact h.stops.imp_right fun hr => by rw [outranks_congr hx (ho _ (heapUp_succ_lt h0))]; exact hr

/-! ### One extraction -/

theorem pqExtract_drained {x : NodeIx} {a a' : Arena} {n : Nat} (he : pqExtract a = .ok x a') (hw : HeapWf a.heap)
    (hs : a.pqSize.toNat = n + 1) (hn : n < Config.heapCap) :
    x = heapAt a.heap 0 ∧ Drained a.node a.heap a'.heap n := by
  obtain ⟨h, e, h0, h1⟩ := pqExtract_exact a n hw hs hn
  rw [he] at e
  injection e with e1 e2
  exact ⟨e1, by rw [e2]; exact ⟨h0, h1⟩⟩

theorem Drained.below {m : Memory Node} {old new : Memory NodeIx} {n b : Nat} (h : Drained m old new n)
    (ho : ∀ p, p ≤ n → (heapAt old p).toNat < b) : ∀ p, p < n → (heapAt new p).toNat < b := by
  intro p hp
  obtain ⟨k, h⟩ := h.2 (by omega)
  by_cases hj : ∃ j, j ≤ k ∧ p = heapDown m old n j
  · obtain ⟨j, hj, rfl⟩ := hj
    rcases Nat.lt_or_eq_of_le hj with hj | rfl
    · obtain ⟨h0, e, -⟩ := h.moved j hj
      rw [e]
      exact ho _ (by omega)
    · rw [h.here]; exact ho _ (Nat.le_refl _)
  · rw [h.rest p fun j hj' e => hj ⟨j, hj', e⟩]
    exact ho p (by omega)

theorem heapDown_congr {m m' : Memory Node} {old : Memory NodeIx} {n : Nat}
    (ho : ∀ p, p < n → nodeAt m' (heapAt old p) = nodeAt m (heapAt old p)) :
    ∀ j, heapDown m' old n j = heapDown m old n j
  | 0 => rfl
  | j + 1 => by
    simp only [heapDown, heapDown_congr ho j]
    generalize heapDown m old n j = k
    refine if_congr (and_congr_right fun h => ?_) rfl rfl
    rw [outranks_congr (ho _ h) (ho _ (by omega))]

theorem Drained.congr {m m' : Memory Node} {old new : Memory NodeIx} {n : Nat} (h : Drained m old new n)
    (ho : ∀ p, p ≤ n → nodeAt m' (heapAt old p) = nodeAt m (heapAt old p)) : Drained m' old new n := by
  refine ⟨h.1, fun hn => ?_⟩
  obtain ⟨k, h⟩ := h.2 hn
  have hd := heapDown_congr (m := m) (m' := m') (old := old) (n := n) fun p hp => ho p (by omega)
  have hlast := ho n (Nat.le_refl _)
  refine ⟨k, by rw [hd]; exact h.here, fun j hj => ?_, ?_, fun p hp => h.rest p (by simpa only [hd] using hp)⟩
  · obtain ⟨h0, e, hr⟩ := h.moved j hj
    rw [hd, hd, outranks_congr (ho _ (by omega)) hlast]
    exact ⟨h0, e, hr⟩
  · rw [hd]
    rcases Nat.lt_or_ge (heapDown m old n (k + 1)) n with h0 | h0
    · rw [outranks_congr (ho _ (by omega)) hlast]; exact h.stops
    · exact .inl h0

theorem DrawsTwo.below {m : Memory Node} {old new : Memory NodeIx} {n b : Nat} {x y : NodeIx}
    (h : DrawsTwo m old new n x y) (ho : ∀ p, p < n + 2 → (heapAt old p).toNat < b) :
    ∀ p, p < n → (heapAt new p).toNat < b := by
  obtain ⟨mid, -, h1, -, h2⟩ := h
  exact h2.below fun p hp => h1.below (fun p hp => ho p (by omega)) p (by omega)

theorem DrawsTwo.congr {m m' : Memory Node} {old new : Memory NodeIx} {n b : Nat} {x y : NodeIx}
    (h : DrawsTwo m old new n x y) (ho : ∀ p, p < n + 2 → (heapAt old p).toNat < b)
    (hm : ∀ z : NodeIx, z.toNat < b → nodeAt m' z = nodeAt m z) : DrawsTwo m' old new n x y := by
  obtain ⟨mid, e1, h1, e2, h2⟩ := h
  exact ⟨mid, e1, h1.congr fun p hp => hm _ (ho p (by omega)), e2,
    h2.congr fun p hp => hm _ (h1.below (fun p hp => ho p (by omega)) p (by omega))⟩

/-! ### The whole trace -/

/-- How many items the queue has when `i` nodes have been inserted. -/
def queueSize (L i : Nat) : Nat := if i ≤ L then i else 2 * L - i

theorem HeapTrace.items_below {m : Memory Node} {L i : Nat} {h0 h : Memory NodeIx} (ht : HeapTrace m L h0 i h) :
    i ≤ 512 → ∀ p, p < queueSize L i → (heapAt h p).toNat < i := by
  induction ht with
  | start => intro _ p hp; simp [queueSize] at hp
  | @leaf i k h h' hi _ hs ih =>
    intro hb p hp
    rw [queueSize, if_pos (show i + 1 ≤ L by omega)] at hp
    refine hs.below (by rw [toNat_ofNat9 (by omega)]; omega) (fun q hq => ?_) p (by omega)
    have := ih (by omega) q (by simpa [queueSize, hi.le] using hq)
    omega
  | @merge j n k h h2 h' hn _ hd hs ih =>
    intro hb p hp
    have hq : queueSize L (L + j) = n + 2 := by unfold queueSize; split <;> omega
    rw [queueSize, if_neg (by omega)] at hp
    rw [hq] at ih
    refine hs.below (by rw [toNat_ofNat9 (by omega)]; omega) (fun q hq => ?_) p (by omega)
    have := hd.below (ih (by omega)) q hq
    omega

/-- What the nodes above hold does not change the trace. -/
theorem HeapTrace.congr {m m' : Memory Node} {L i : Nat} {h0 h : Memory NodeIx} (ht : HeapTrace m L h0 i h) :
    i ≤ 512 → (∀ z : NodeIx, z.toNat < i → nodeAt m' z = nodeAt m z) → HeapTrace m' L h0 i h := by
  induction ht with
  | start => intro _ _; exact .start
  | @leaf i k h h' hi ht hs ih =>
    intro hb hm
    refine .leaf hi (ih (by omega) fun z hz => hm z (by omega)) (hs.congr (hm _ ?_) fun p hp => hm _ ?_)
    · rw [toNat_ofNat9 (by omega)]; omega
    · have := ht.items_below (by omega) p (by simpa [queueSize, hi.le] using hp)
      omega
  | @merge j n k h h2 h' hn ht hd hs ih =>
    intro hb hm
    have hq : queueSize L (L + j) = n + 2 := by unfold queueSize; split <;> omega
    have hlow := ht.items_below (by omega)
    rw [hq] at hlow
    have htop := hm (BitVec.ofNat 9 (L + j)) (by rw [toNat_ofNat9 (by omega)]; omega)
    refine .merge hn (ih (by omega) fun z hz => hm z (by omega)) ?_ (hs.congr htop fun p hp => hm _ ?_)
    · rw [htop]; exact hd.congr hlow fun z hz => hm z (by omega)
    · have := hd.below hlow p hp
      omega

/-! ### Where the builder stands -/

/-- What holds after `j` merges of `L` leaves. -/
structure Merging (L : Nat) (h0 : Memory NodeIx) (j : Nat) (a : Arena) : Prop where
  count : a.nodeCount.toNat = L + j
  items : a.items.Perm (mergeQueue a.node L j)
  made : MergesTo a.node L j
  size : a.pqSize.toNat + j = L
  trace : HeapTrace a.node L h0 (L + j) a.heap

/-- One merge more. -/
theorem Merging.next {L j n k : Nat} {h0 h2 : Memory NodeIx} {a a' : Arena} {l r : NodeIx} {rest : List NodeIx}
    {f : Word} (h : Merging L h0 j a) (hL : L + j < 512) (hd : Drawn a.node a.items l r rest)
    (hc : a'.nodeCount.toNat = L + j + 1) (hi : a'.items.Perm (BitVec.ofNat 9 (L + j) :: rest))
    (hv : nodeAt a'.node (BitVec.ofNat 9 (L + j)) = ⟨false, false, 0, l, r, f⟩)
    (hf : f.toNat = (nodeAt a.node l).freq.toNat + (nodeAt a.node r).freq.toNat)
    (hold : ∀ x : NodeIx, x.toNat < L + j → nodeAt a'.node x = nodeAt a.node x)
    (hn : a.pqSize.toNat = n + 2) (hs : a'.pqSize.toNat + 1 = a.pqSize.toNat) (hd2 : DrawsTwo a.node a.heap h2 n l r)
    (hup : SiftedUp a'.node h2 a'.heap (BitVec.ofNat 9 (L + j)) n k) : Merging L h0 (j + 1) a' := by
  have hq := mergeQueue_congr (j := j) (by omega) hold
  have hlt : ∀ x ∈ mergeQueue a.node L j, nodeAt a'.node x = nodeAt a.node x := fun x hx =>
    hold x (mergeQueue_lt (by omega) x hx)
  obtain ⟨h1, h2, h3⟩ := hd.lowest h.items
  have hsize := h.size
  refine ⟨by rw [hc, Nat.add_assoc], ?_, fun i hij => ?_, by omega, ?_⟩
  · simp only [mergeQueue, hv, hq]
    exact hi.trans (List.Perm.cons _ h3.symm)
  · by_cases e : i = j
    · subst e
      dsimp only
      rw [hv, hq]
      refine ⟨rfl, rfl, rfl, h1.congr hlt, h2.congr (fun y hy => hlt y (List.mem_of_mem_erase hy)), ?_⟩
      rw [hf, hlt _ h1.1, hlt _ (List.mem_of_mem_erase h2.1)]
    · exact h.made.congr (by omega) hold i (by omega)
  · have hlow := h.trace.items_below (by omega)
    rw [show queueSize L (L + j) = n + 2 by unfold queueSize; split <;> omega] at hlow
    refine .merge (by omega) (h.trace.congr (by omega) hold) ?_ hup
    rw [hv]
    exact hd2.congr hlow hold

end Sys2Proof.Machine
end

