-- ==== Sys2Proof/Laws/Build.lean ====
section
/-! SUPPORT. Laws/Build.lean: the tree builder (43_tree.md R204 to R207): it makes one tree of all the
symbols that occur, or overflows, or finds no symbol. -/

namespace Sys2Proof.Machine

/-- The canonical form of the node RAM. -/
abbrev NodeWf (m : Memory Node) : Prop := Memory.wf Node.zero Config.nodeCap m = true

theorem nodeAt_nodePut {m : Memory Node} (hw : NodeWf m) (i j : NodeIx) (v : Node) :
    nodeAt (nodePut m i v) j = if j = i then v else nodeAt m j := by
  unfold nodeAt nodePut
  split
  · next e => rw [e]; exact Memory.read_write_same hw _ v
  · next e => exact Memory.read_write_ne hw v (fun h => e (BitVec.eq_of_toNat_eq h))

theorem nodePut_wf {m : Memory Node} (hw : NodeWf m) (i : NodeIx) (v : Node) : NodeWf (nodePut m i v) :=
  Memory.write_wf hw v (by have := i.isLt; simp only [Config.nodeCap]; omega)

/-! ### Trees in the node RAM -/

theorem Holds.mono {m : Memory Node} {n n' : Nat} (hn : n ≤ n') :
    ∀ {t : HTree} {x : NodeIx}, Holds m n x t → Holds m n' x t
  | .leaf _ _, _, h => ⟨Nat.lt_of_lt_of_le h.1 hn, h.2⟩
  | .node _ _, _, h => ⟨Nat.lt_of_lt_of_le h.1 hn, h.2.1, h.2.2.1.mono hn, h.2.2.2.mono hn⟩

/-- A node written above a tree leaves the tree alone. -/
theorem Holds.put {m : Memory Node} (hw : NodeWf m) {n : Nat} {i : NodeIx} (hi : n ≤ i.toNat) (v : Node) :
    ∀ {t : HTree} {x : NodeIx}, Holds m n x t → Holds (nodePut m i v) n x t := by
  have ne : ∀ x : NodeIx, x.toNat < n → nodeAt (nodePut m i v) x = nodeAt m x := fun x hx => by
    rw [nodeAt_nodePut hw, if_neg (by rintro rfl; omega)]
  intro t
  induction t with
  | leaf sym synth => intro x h; unfold Holds at h ⊢; rw [ne x h.1]; exact h
  | node l r ihl ihr =>
    intro x h
    unfold Holds at h ⊢
    rw [ne x h.1]
    exact ⟨h.1, h.2.1, ihl h.2.2.1, ihr h.2.2.2⟩

theorem Weighs.put {freq : Memory Word} {m : Memory Node} (hw : NodeWf m) {n : Nat} {i : NodeIx}
    (hi : n ≤ i.toNat) (v : Node) : ∀ {t : HTree} {x : NodeIx}, Holds m n x t → Weighs freq m x t →
      Weighs freq (nodePut m i v) x t := by
  have ne : ∀ x : NodeIx, x.toNat < n → nodeAt (nodePut m i v) x = nodeAt m x := fun x hx => by
    rw [nodeAt_nodePut hw, if_neg (by rintro rfl; omega)]
  have top : ∀ {t : HTree} {x : NodeIx}, Holds m n x t → x.toNat < n := fun {t x} h => by
    cases t with
    | leaf _ _ => exact h.1
    | node _ _ => exact h.1
  intro t
  induction t with
  | leaf sym synth => intro x h hx; unfold Weighs at hx ⊢; rw [ne x h.1]; exact hx
  | node l r ihl ihr =>
    intro x h hx
    unfold Weighs at hx ⊢
    rw [ne x h.1, ne _ (top h.2.2.1), ne _ (top h.2.2.2)]
    exact ⟨hx.1, ihl h.2.2.1 hx.2.1, ihr h.2.2.2 hx.2.2⟩

theorem Holds.index {m : Memory Node} {n : Nat} {t : HTree} {x : NodeIx} (h : Holds m n x t) :
    x.toNat < n := by
  cases t with
  | leaf _ _ => exact h.1
  | node _ _ => exact h.1

theorem HTree.leaves_pos (t : HTree) : 0 < t.leaves := by
  induction t with
  | leaf _ _ => exact Nat.one_pos
  | node _ _ _ _ => simp only [HTree.leaves]; omega

/-- A tree the builder is working on: in the RAM, weighed, without a synthetic leaf. -/
structure Planted (freq : Memory Word) (a : Arena) (p : NodeIx × HTree) : Prop where
  holds : Holds a.node a.nodeCount.toNat p.1 p.2
  weighs : Weighs freq a.node p.1 p.2
  full : p.2.syms.length = p.2.leaves

/-- What holds between two steps of the builder: the queue holds the roots of some trees, which share
out the symbols `xs`. -/
structure Forest (freq : Memory Word) (xs : List Byte) (a : Arena) (ps : List (NodeIx × HTree)) : Prop where
  nodeWf : NodeWf a.node
  heap : a.Heap
  roots : a.items.Perm (ps.map (·.1))
  planted : ∀ p ∈ ps, Planted freq a p
  symbols : (ps.flatMap (·.2.syms)).Perm xs
  weight : (ps.map (fun p => (nodeAt a.node p.1).freq.toNat)).sum = totalOf freq xs

theorem Forest.size {freq : Memory Word} {xs : List Byte} {a : Arena} {ps : List (NodeIx × HTree)}
    (h : Forest freq xs a ps) : a.pqSize.toNat = ps.length := by
  have := h.roots.length_eq
  simpa [Arena.items, heapItems] using this

/-- The index of the next node. -/
def Arena.next (a : Arena) : NodeIx := a.nodeCount.setWidth 9

/-- The arena with one node more. -/
def Arena.grow (a : Arena) (v : Node) : Arena :=
  { a with node := nodePut a.node a.next v, nodeCount := a.nodeCount + 1 }

theorem allocLeaf_eq (sym : Byte) (f : Word) (synth : Bool) (a : Arena) :
    allocLeaf sym f synth a = (a.next, a.grow ⟨true, synth, sym, 0, 0, f⟩) := rfl

theorem allocInternal_eq (l r : NodeIx) (f : Word) (a : Arena) :
    allocInternal l r f a = (a.next, a.grow ⟨false, false, 0, l, r, f⟩) := rfl

@[simp] theorem Arena.grow_pqSize (a : Arena) (v : Node) : (a.grow v).pqSize = a.pqSize := rfl
@[simp] theorem Arena.grow_items (a : Arena) (v : Node) : (a.grow v).items = a.items := rfl

/-- What an allocation does (43_tree.md R202). -/
theorem alloc_spec {a : Arena} (hw : NodeWf a.node) (hc : a.nodeCount.toNat < Config.nodeCap) (v : Node) :
    a.next.toNat = a.nodeCount.toNat ∧ NodeWf (a.grow v).node ∧
      (a.grow v).nodeCount.toNat = a.nodeCount.toNat + 1 ∧ nodeAt (a.grow v).node a.next = v ∧
      ∀ x : NodeIx, x.toNat < a.nodeCount.toNat → nodeAt (a.grow v).node x = nodeAt a.node x := by
  unfold Arena.next Arena.grow Arena.next
  simp only [Config.nodeCap] at hc
  have e : (a.nodeCount.setWidth 9).toNat = a.nodeCount.toNat := by simp; omega
  refine ⟨e, nodePut_wf hw _ v, by rw [BitVec.toNat_add]; simp; omega, ?_, ?_⟩
  · rw [nodeAt_nodePut hw, if_pos rfl]
  · intro x hx
    rw [nodeAt_nodePut hw, if_neg (by rintro rfl; omega)]

/-- Growing the arena by one node above keeps a planted tree and the queue. -/
theorem Planted.grow {freq : Memory Word} {a : Arena} {p : NodeIx × HTree} (h : Planted freq a p)
    (hw : NodeWf a.node) (hc : a.nodeCount.toNat < Config.nodeCap) (v : Node) :
    Planted freq (a.grow v) p := by
  obtain ⟨hi, -, hn, -, -⟩ := alloc_spec hw hc v
  exact ⟨((h.holds.put hw (by omega) v)).mono (by simp only [hn]; omega),
    h.weighs.put hw (by omega) v h.holds, h.full⟩

theorem Heap.of_node {a a' : Arena} (h : a.Heap) (hh : a'.heap = a.heap) (hs : a'.pqSize = a.pqSize)
    (hn : ∀ x ∈ a.items, nodeAt a'.node x = nodeAt a.node x) : a'.Heap := by
  obtain ⟨node, c, heap, size⟩ := a'
  simp only at hh hs hn
  subst hh hs
  refine ⟨h.wf, h.size, ?_⟩
  have ho := h.ordered
  rw [heapOrdered_iff] at ho ⊢
  have key : ∀ k, k < a.pqSize.toNat → heapKey node a.heap k = heapKey a.node a.heap k := fun k hk => by
    unfold heapKey
    rw [hn _ (by simp only [Arena.items, heapItems, List.mem_map, List.mem_range]; exact ⟨k, hk, rfl⟩)]
  intro k hk hkn
  rw [key k hkn, key _ (Nat.lt_of_le_of_lt (by omega : (k - 1) / 2 ≤ k) hkn)]
  exact ho k hk hkn

theorem Forest.items_below {freq : Memory Word} {xs : List Byte} {a : Arena} {ps : List (NodeIx × HTree)}
    (h : Forest freq xs a ps) : ∀ x ∈ a.items, x.toNat < a.nodeCount.toNat := by
  intro x hx
  obtain ⟨p, hp, rfl⟩ := List.mem_map.1 (h.roots.subset hx)
  exact (h.planted p hp).holds.index

/-! ### The leaves -/

theorem insertLeaves_spec (freq : Memory Word) (L : Nat) (h0 : Memory NodeIx) : ∀ (ss xs : List Byte) (a : Arena)
    (ps : List (NodeIx × HTree)), Forest freq xs a ps → LeavesAt freq xs a.node →
    a.nodeCount.toNat = xs.length → ps.length = xs.length → xs.length + ss.length ≤ Config.heapCap →
    a.items.Perm ((List.range xs.length).map (BitVec.ofNat 9)) →
    xs.length + (ss.filter (fun x => freqAt freq x ≠ 0)).length = L → HeapTrace a.node L h0 xs.length a.heap →
    ∃ a' ps', insertLeaves freq ss a = .ok () a' ∧
      Forest freq (xs ++ ss.filter (fun x => freqAt freq x ≠ 0)) a' ps' ∧
      LeavesAt freq (xs ++ ss.filter (fun x => freqAt freq x ≠ 0)) a'.node ∧
      a'.nodeCount.toNat = (xs ++ ss.filter (fun x => freqAt freq x ≠ 0)).length ∧
      ps'.length = (xs ++ ss.filter (fun x => freqAt freq x ≠ 0)).length ∧
      a'.items.Perm ((List.range (xs ++ ss.filter (fun x => freqAt freq x ≠ 0)).length).map (BitVec.ofNat 9)) ∧
      HeapTrace a'.node L h0 L a'.heap
  | [], xs, a, ps, hf, hl, hn, hp, _, hq, hL, ht => ⟨a, ps, rfl, by simpa using hf, by simpa using hl, by simpa using hn,
      by simpa using hp, by simpa using hq, by subst hL; exact ht⟩
  | s :: ss, xs, a, ps, hf, hl, hn, hp, hlen, hq, hL, ht => by
    unfold insertLeaves
    simp only [List.length_cons] at hlen
    by_cases h0' : freqAt freq s = 0
    · rw [if_pos h0']
      have := insertLeaves_spec freq L h0 ss xs a ps hf hl hn hp (by omega) hq (by simpa [List.filter_cons, h0'] using hL) ht
      simpa [List.filter_cons, h0'] using this
    · rw [if_neg h0']
      have h0' : ¬ freqAt freq s = 0#32 := h0'
      simp only [Config.heapCap] at hlen
      have hc : a.nodeCount.toNat < Config.nodeCap := by simp only [Config.nodeCap]; omega
      generalize hv : (⟨true, false, s, 0, 0, freqAt freq s⟩ : Node) = v
      obtain ⟨hi, hw1, hn1, hat, hne⟩ := alloc_spec hf.nodeWf hc v
      have hheap1 : (a.grow v).Heap := Heap.of_node hf.heap rfl rfl (fun x hx => hne x (hf.items_below x hx))
      simp only [allocLeaf_eq, hv]
      rcases pqInsert_spec a.next (a.grow v) hheap1 with ⟨hfull, -⟩ | ⟨-, a2, he, e1, e2, e3, hheap, hitems⟩
      · rw [Arena.grow_pqSize, hf.size] at hfull
        simp only [Config.heapCap] at hfull
        omega
      · rw [he]
        dsimp only [Ans.bind]
        have hgrow : ∀ p ∈ ps, Planted freq a2 p := fun p hp' => by
          have := (hf.planted p hp').grow hf.nodeWf hc v
          exact ⟨by rw [e1, e2]; exact this.holds, by rw [e1]; exact this.weighs, this.full⟩
        have hnode : nodeAt a2.node a.next = ⟨true, false, s, 0, 0, freqAt freq s⟩ := by
          rw [e1, hat, hv]
        have hforest : Forest freq (xs ++ [s]) a2 ((a.next, .leaf s false) :: ps) := by
          refine ⟨by rw [e1]; exact hw1, hheap, ?_, ?_, ?_, ?_⟩
          · refine hitems.trans ?_
            rw [List.map_cons, Arena.grow_items]
            exact List.Perm.cons _ hf.roots
          · intro p hp'
            rcases List.mem_cons.1 hp' with rfl | hp'
            · refine ⟨?_, ?_, rfl⟩
              · unfold Holds
                simp only [hnode]
                exact ⟨by rw [hi, e2, hn1]; omega, by simp⟩
              · unfold Weighs
                simp only [hnode]
                simp
            · exact hgrow p hp'
          · simp only [List.flatMap_cons, HTree.syms]
            exact (List.Perm.append_left _ hf.symbols).trans (List.perm_append_comm)
          · simp only [List.map_cons, List.sum_cons, hnode, totalOf, List.map_append, List.sum_append,
              List.map_nil, List.sum_nil, Nat.add_zero]
            rw [Nat.add_comm]
            congr 1
            rw [show (xs.map (fun x => (freqAt freq x).toNat)).sum = totalOf freq xs from rfl, ← hf.weight]
            congr 1
            refine List.map_congr_left fun p hp' => ?_
            rw [e1, hne _ (hf.planted p hp').holds.index]
        have hleaves : LeavesAt freq (xs ++ [s]) a2.node := by
          intro i h
          simp only [List.length_append, List.length_singleton] at h
          by_cases hi' : i < xs.length
          · have hb : (BitVec.ofNat 9 i).toNat = i := by simp; omega
            rw [e1, hne _ (by rw [hb]; omega), hl i hi']
            simp [List.getElem_append_left hi']
          · have e : i = xs.length := by omega
            subst e
            have : BitVec.ofNat 9 xs.length = a.next := by
              apply BitVec.eq_of_toNat_eq; rw [hi, hn]; simp; omega
            rw [this, hnode]
            simp
        have e : BitVec.ofNat 9 xs.length = a.next := by
          apply BitVec.eq_of_toNat_eq; rw [hi, hn]; simp; omega
        rw [List.filter_cons_of_pos (by simpa using h0'), List.length_cons] at hL
        obtain ⟨k, hk⟩ := pqInsert_sifted he hheap1.wf (by
          rw [Arena.grow_pqSize, hf.size]; simp only [Config.heapCap]; omega)
        rw [Arena.grow_pqSize, hf.size, hp, ← e, ← e1] at hk
        have ht2 : HeapTrace a2.node L h0 (xs ++ [s]).length a2.heap := by
          rw [List.length_append, List.length_singleton]
          exact .leaf (by omega) (ht.congr (by omega) fun x hx => by rw [e1, hne x (by omega)]) hk
        have := insertLeaves_spec freq L h0 ss (xs ++ [s]) a2 _ hforest hleaves (by simp [e2, hn1, hn])
          (by simp [hp]) (by simp [Config.heapCap]; omega) ?_ (by simpa [Nat.add_assoc, Nat.add_comm 1] using hL) ht2
        swap
        · refine hitems.trans ?_
          rw [List.length_append, List.length_singleton, List.range_succ, List.map_append, Arena.grow_items, ← e]
          exact (List.Perm.cons _ hq).trans (List.perm_append_singleton _ _).symm
        simpa [List.filter_cons, h0'] using this

/-! ### Merging -/

/-- Taking one root out of the queue. -/
theorem Forest.extract {freq : Memory Word} {xs : List Byte} {a : Arena} {ps : List (NodeIx × HTree)}
    (hf : Forest freq xs a ps) (hne : 0 < ps.length) :
    ∃ p ps' a', pqExtract a = .ok p.1 a' ∧ ps.Perm (p :: ps') ∧ a'.node = a.node ∧
      a'.nodeCount = a.nodeCount ∧ a'.Heap ∧ a'.items.Perm (ps'.map (·.1)) ∧ a.items.Perm (p.1 :: a'.items) ∧
      ∀ y ∈ a'.items, outranks a.node y p.1 = false := by
  rcases pqExtract_spec a hf.heap with ⟨h0, -⟩ | ⟨-, x, a', he, e1, e2, e3, hh, hitems, hlow⟩
  · have := hf.size
    have h0' : a.pqSize.toNat = 0 := by rw [h0]; rfl
    omega
  · have hperm : (ps.map (·.1)).Perm (x :: a'.items) := hf.roots.symm.trans hitems
    obtain ⟨p, hp, rfl⟩ := List.mem_map.1 (hperm.symm.subset List.mem_cons_self)
    refine ⟨p, ps.erase p, a', he, List.perm_cons_erase hp, e1, e2, hh, ?_, hitems, hlow⟩
    have := ((List.perm_cons_erase hp).map (·.1)).symm.trans hperm
    rw [List.map_cons] at this
    exact (List.Perm.cons_inv this).symm

/-- One merge (43_tree.md R204): the two trees it draws from the queue become one, or the sum of their
frequencies overflows. -/
theorem mergeOnce_spec {freq : Memory Word} {xs : List Byte} {a : Arena} {ps : List (NodeIx × HTree)}
    (hf : Forest freq xs a ps) (h2 : 2 ≤ ps.length) (hc : a.nodeCount.toNat < Config.nodeCap) :
    (∃ a' ps', mergeOnce a = .ok () a' ∧ Forest freq xs a' ps' ∧ ps'.length + 1 = ps.length ∧
      a'.nodeCount.toNat = a.nodeCount.toNat + 1 ∧ a.next ∈ a'.items ∧
      (∀ x : NodeIx, x.toNat < a.nodeCount.toNat → nodeAt a'.node x = nodeAt a.node x) ∧
      a'.pqSize.toNat + 1 = a.pqSize.toNat ∧
      ∃ l r rest f h2 n k, Drawn a.node a.items l r rest ∧ a'.items.Perm (a.next :: rest) ∧
        nodeAt a'.node a.next = ⟨false, false, 0, l, r, f⟩ ∧
        f.toNat = (nodeAt a.node l).freq.toNat + (nodeAt a.node r).freq.toNat ∧ a.pqSize.toNat = n + 2 ∧
        DrawsTwo a.node a.heap h2 n l r ∧ SiftedUp a'.node h2 a'.heap a.next n k) ∨
    (maxWord < totalOf freq xs ∧ ∃ a' l r rest n, mergeOnce a = .raise (raiseNat .overflow a.nodeCount.toNat) a' ∧
      a'.node = a.node ∧ HeapWf a'.heap ∧ Drawn a.node a.items l r rest ∧
      maxWord < (nodeAt a.node l).freq.toNat + (nodeAt a.node r).freq.toNat ∧ a.pqSize.toNat = n + 2 ∧
      DrawsTwo a.node a.heap a'.heap n l r) := by
  obtain ⟨p, ps1, a1, he1, hp1, n1, c1, hh1, hi1, hd1, hlow1⟩ := hf.extract (by omega)
  have hl1 := hp1.length_eq
  simp only [List.length_cons] at hl1
  have hpl1 : ∀ r ∈ ps, Planted freq a1 r := fun r hr => by
    have := hf.planted r hr
    exact ⟨by rw [n1, c1]; exact this.holds, by rw [n1]; exact this.weighs, this.full⟩
  rcases pqExtract_spec a1 hh1 with ⟨h0, -⟩ | ⟨-, x, a2, he2, n2, c2, e3, hh2, hitems2, hlow2⟩
  · have := hi1.length_eq
    have h0' : a1.pqSize.toNat = 0 := by rw [h0]; rfl
    simp only [Arena.items, heapItems, List.length_map, List.length_range, h0'] at this
    omega
  · have hperm : (ps1.map (·.1)).Perm (x :: a2.items) := hi1.symm.trans hitems2
    obtain ⟨q, hq, rfl⟩ := List.mem_map.1 (hperm.symm.subset List.mem_cons_self)
    have hp2 := List.perm_cons_erase hq
    have hi2 : a2.items.Perm ((ps1.erase q).map (·.1)) := by
      have := (hp2.map (·.1)).symm.trans hperm
      rw [List.map_cons] at this
      exact (List.Perm.cons_inv this).symm
    generalize ps1.erase q = ps2 at hp2 hi2
    have hpq : ps.Perm (p :: q :: ps2) := hp1.trans (List.Perm.cons _ hp2)
    have hl2 := hp2.length_eq
    simp only [List.length_cons] at hl2
    have hsum : (nodeAt a.node p.1).freq.toNat + ((nodeAt a.node q.1).freq.toNat +
        (ps2.map (fun r => (nodeAt a.node r.1).freq.toNat)).sum) = totalOf freq xs := by
      rw [← hf.weight, (hpq.map (fun r => (nodeAt a.node r.1).freq.toNat)).sum_nat]
      simp
    have hn2 : a2.node = a.node := n2.trans n1
    have hc2 : a2.nodeCount = a.nodeCount := c2.trans c1
    have hdrawn : Drawn a.node a.items p.1 q.1 a2.items := by
      refine ⟨hd1.trans (List.Perm.cons _ hitems2), fun y hy => ?_, fun y hy => ?_⟩
      · simpa [outranks] using hlow1 y (hitems2.mem_iff.2 hy)
      · simpa [outranks, n1] using hlow2 y hy
    obtain ⟨n, hsz⟩ : ∃ n, a.pqSize.toNat = n + 2 := ⟨ps.length - 2, by rw [hf.size]; omega⟩
    have hcap := hf.heap.size
    have hsz1 : a1.pqSize.toNat = n + 1 := by
      have := hi1.length_eq
      simp only [Arena.items, heapItems, List.length_map, List.length_range] at this
      have := hf.size
      omega
    have hsz2 : a2.pqSize.toNat = n := by omega
    have hdraws : DrawsTwo a.node a.heap a2.heap n p.1 q.1 := by
      obtain ⟨x1, d1⟩ := pqExtract_drained he1 hf.heap.wf hsz (by omega)
      obtain ⟨x2, d2⟩ := pqExtract_drained he2 hh1.wf hsz1 (by omega)
      exact ⟨a1.heap, x1, d1, x2, by rw [← n1]; exact d2⟩
    unfold mergeOnce
    rw [he1]
    dsimp only [Ans.bind]
    rw [he2]
    dsimp only
    by_cases hov : maxWord < (nodeAt a2.node p.1).freq.toNat + (nodeAt a2.node q.1).freq.toNat
    · refine .inr ⟨by rw [hn2] at hov; omega, a2, _, _, _, n, ?_, hn2, hh2.wf, hdrawn,
        by rw [← hn2]; exact hov, hsz, hdraws⟩
      rw [if_pos hov, hc2]
    · left
      rw [if_neg hov]
      simp only [allocInternal_eq]
      generalize hv : (⟨false, false, 0, p.1, q.1, BitVec.ofNat 32 ((nodeAt a2.node p.1).freq.toNat +
        (nodeAt a2.node q.1).freq.toNat)⟩ : Node) = v
      obtain ⟨hi, hw3, hn3, hat, hne⟩ := alloc_spec (a := a2) (by rw [hn2]; exact hf.nodeWf)
        (by rw [hc2]; exact hc) v
      have hbelow : ∀ y ∈ a2.items, y.toNat < a2.nodeCount.toNat := fun y hy => by
        obtain ⟨r, hr, rfl⟩ := List.mem_map.1 (hi2.subset hy)
        rw [hc2]
        exact (hf.planted r (hpq.symm.subset (by simp [hr]))).holds.index
      have hheap3 : (a2.grow v).Heap := Heap.of_node hh2 rfl rfl (fun y hy => hne y (hbelow y hy))
      rcases pqInsert_spec a2.next (a2.grow v) hheap3 with
        ⟨hfull, -⟩ | ⟨hroom, a4, he4, n4, c4, p4, hh4, hitems4⟩
      · have h := hf.size
        have h' := hf.heap.size
        have h'' := hi2.length_eq
        simp only [Arena.items, heapItems, List.length_map, List.length_range] at h''
        rw [Arena.grow_pqSize] at hfull
        omega
      · have hnode : nodeAt a4.node a2.next = v := by rw [n4, hat]
        have hold : ∀ r ∈ ps, Planted freq a4 r := fun r hr => by
          have h0 := hf.planted r hr
          have h2' : Planted freq a2 r :=
            ⟨by rw [hn2, hc2]; exact h0.holds, by rw [hn2]; exact h0.weighs, h0.full⟩
          have := h2'.grow (by rw [hn2]; exact hf.nodeWf) (by rw [hc2]; exact hc) v
          exact ⟨by rw [n4, c4]; exact this.holds, by rw [n4]; exact this.weighs, this.full⟩
        have hfreq : ∀ r ∈ ps, (nodeAt a4.node r.1).freq = (nodeAt a.node r.1).freq := fun r hr => by
          rw [n4, hne _ (by rw [hc2]; exact (hf.planted r hr).holds.index), hn2]
        have hpp : p ∈ ps := hpq.symm.subset (by simp)
        have hqq : q ∈ ps := hpq.symm.subset (by simp)
        have hvf : v.freq.toNat = (nodeAt a.node p.1).freq.toNat + (nodeAt a.node q.1).freq.toNat := by
          rw [← hv, hn2]
          rw [hn2] at hov
          simp only [maxWord] at hov
          simp only [BitVec.toNat_ofNat]
          omega
        have hnext : a.next = a2.next := by unfold Arena.next; rw [hc2]
        obtain ⟨k, hk⟩ := pqInsert_sifted he4 hheap3.wf hroom
        rw [Arena.grow_pqSize, hsz2, ← n4] at hk
        rw [Arena.grow_pqSize] at p4
        refine ⟨a4, (a2.next, .node p.2 q.2) :: ps2, he4, ?_, by simp; omega, ?_, ?_, ?_, by omega,
          p.1, q.1, a2.items, v.freq, a2.heap, n, k, hdrawn, by rw [hnext]; exact hitems4, ?_, hvf, hsz, hdraws,
          by rw [hnext]; exact hk⟩
        · refine ⟨by rw [n4]; exact hw3, hh4, ?_, ?_, ?_, ?_⟩
          · refine hitems4.trans ?_
            rw [List.map_cons, Arena.grow_items]
            exact List.Perm.cons _ hi2
          · intro r hr
            rcases List.mem_cons.1 hr with rfl | hr
            · refine ⟨?_, ?_, ?_⟩
              · unfold Holds
                simp only [hnode, ← hv]
                exact ⟨by rw [hi, c4, hn3]; omega, by simp, (hold p hpp).holds, (hold q hqq).holds⟩
              · unfold Weighs
                have e : v.left = p.1 ∧ v.right = q.1 := by rw [← hv]; exact ⟨rfl, rfl⟩
                simp only [hnode, e.1, e.2, hvf, hfreq p hpp, hfreq q hqq]
                exact ⟨trivial, (hold p hpp).weighs, (hold q hqq).weighs⟩
              · simp [HTree.syms, HTree.leaves, (hold p hpp).full, (hold q hqq).full]
            · exact hold r (hpq.symm.subset (by simp [hr]))
          · refine List.Perm.trans ?_ hf.symbols
            have := hpq.flatMap_right (fun r : NodeIx × HTree => r.2.syms)
            refine List.Perm.trans ?_ this.symm
            simp only [List.flatMap_cons, HTree.syms, List.append_assoc]
            exact List.Perm.refl _
          · rw [List.map_cons, List.sum_cons, hnode, hvf, ← hsum, Nat.add_assoc]
            congr 2
            refine congrArg List.sum (List.map_congr_left fun r hr => ?_)
            rw [hfreq r (hpq.symm.subset (by simp [hr]))]
        · rw [c4, hn3, hc2]
        · rw [hnext]
          exact hitems4.symm.subset (by simp)
        · intro y hy
          rw [n4, hne _ (by rw [hc2]; exact hy), hn2]
        · rw [hnext, hnode, ← hv]

/-- All the merges (43_tree.md R204, R205), after `j` of them have been made. -/
theorem mergeLoop_spec {freq : Memory Word} {xs : List Byte} {L : Nat} {h0 : Memory NodeIx} : ∀ (n j : Nat)
    (a : Arena) (ps : List (NodeIx × HTree)), Forest freq xs a ps → ps.length = n + 1 → Merging L h0 j a →
    L + j + n ≤ Config.nodeCap →
    (∃ a' p, mergeLoop n a = .ok () a' ∧ Forest freq xs a' [p] ∧ Merging L h0 (j + n) a' ∧
      (n ≠ 0 → p.1.toNat + 1 = a'.nodeCount.toNat) ∧
      ∀ x : NodeIx, x.toNat < L + j → nodeAt a'.node x = nodeAt a.node x) ∨
    (maxWord < totalOf freq xs ∧ ∃ a' i, mergeLoop n a = .raise (raiseNat .overflow (L + i)) a' ∧
      i < j + n ∧ OverflowsAt a'.node L i ∧ OverflowHeap a'.node L i h0 a'.heap ∧ NodeWf a'.node ∧ HeapWf a'.heap ∧
      ∀ x : NodeIx, x.toNat < L + j → nodeAt a'.node x = nodeAt a.node x)
  | 0, j, a, ps, hf, hl, hm, _ => by
    obtain ⟨p, rfl⟩ := List.length_eq_one_iff.1 hl
    exact .inl ⟨a, p, rfl, hf, hm, fun h => absurd rfl h, fun _ _ => rfl⟩
  | n + 1, j, a, ps, hf, hl, hm, hc => by
    unfold mergeLoop
    simp only [Config.nodeCap] at hc
    have hcount := hm.count
    have hnext : a.next = BitVec.ofNat 9 (L + j) := by
      apply BitVec.eq_of_toNat_eq
      rw [toNat_ofNat9 (by omega), Arena.next, BitVec.toNat_setWidth, hcount]
      omega
    rcases mergeOnce_spec hf (by omega) (by simp only [Config.nodeCap]; omega) with
      ⟨a1, ps1, he, hf1, hl1, hn1, hmem, hold, hs1, l, r, rest, f, h2, m, k, hd, hi, hv, hsum, hsz, hd2, hup⟩ |
      ⟨hov, a1, l, r, rest, m, he, hn, hh, hd, hgt, hsz, hd2⟩
    · rw [he]
      dsimp only [Ans.bind]
      rw [hcount] at hold
      have hm1 := hm.next (by omega) hd (by omega) (by rw [← hnext]; exact hi) (by rw [← hnext]; exact hv) hsum hold
        hsz hs1 hd2 (by rw [← hnext]; exact hup)
      rcases mergeLoop_spec n (j + 1) a1 ps1 hf1 (by omega) hm1 (by simp only [Config.nodeCap]; omega) with
        ⟨a2, p, he2, hf2, hm2, hlast, hold2⟩ | ⟨hov, a2, i, he2, hi2, ho, hq, hw, hh, hold2⟩
      · refine .inl ⟨a2, p, he2, hf2, by rw [show j + (n + 1) = j + 1 + n by omega]; exact hm2, fun _ => ?_,
          fun x hx => ?_⟩
        · by_cases h0 : n = 0
          · subst h0
            have e : a2 = a1 := by simpa [mergeLoop] using he2.symm
            subst e
            have : a.next ∈ [p].map (·.1) := hf2.roots.subset hmem
            simp only [List.map_cons, List.map_nil, List.mem_singleton] at this
            rw [← this, hnext, toNat_ofNat9 (by omega), hn1, hcount]
          · exact hlast h0
        · rw [hold2 x (by omega), hold x hx]
      · exact .inr ⟨hov, a2, i, he2, by omega, ho, hq, hw, hh, fun x hx => by rw [hold2 x (by omega), hold x hx]⟩
    · obtain ⟨h1, h2, -⟩ := hd.lowest hm.items
      have hsize := hm.size
      refine .inr ⟨hov, a1, j, ?_, by omega, ?_, ?_, by rw [hn]; exact hf.nodeWf, hh, fun x _ => by rw [hn]⟩
      · rw [he, hcount]; rfl
      · rw [hn]
        exact ⟨hm.made, l, r, h1, h2, by simp only [maxWord] at hgt; omega⟩
      · rw [hn]
        exact ⟨m, a.heap, l, r, by omega, hm.trace, hd2, by simp only [maxWord] at hgt; omega⟩

/-! ### The builder -/

/-- A released arena (43_tree.md R203). -/
structure Arena.Released (a : Arena) : Prop where
  nodeWf : NodeWf a.node
  heapWf : HeapWf a.heap
  count : a.nodeCount = 0
  size : a.pqSize = 0

theorem usedSymbols_length (freq : Memory Word) : (usedSymbols freq).length ≤ Config.symbols := by
  refine (List.length_filter_le _ _).trans ?_
  simp [allSymbols]

theorem leaves_spec (freq : Memory Word) {a : Arena} (ha : a.Released) :
    ∃ a' ps, insertLeaves freq allSymbols a = .ok () a' ∧ Forest freq (usedSymbols freq) a' ps ∧
      LeavesAt freq (usedSymbols freq) a'.node ∧ a'.nodeCount.toNat = (usedSymbols freq).length ∧
      ps.length = (usedSymbols freq).length ∧ Merging (usedSymbols freq).length a.heap 0 a' := by
  have h0 : a.pqSize.toNat = 0 := by rw [ha.size]; rfl
  have hn : a.nodeCount.toNat = 0 := by rw [ha.count]; rfl
  have hf : Forest freq [] a [] := by
    refine ⟨ha.nodeWf, ⟨ha.heapWf, by rw [h0]; exact Nat.zero_le _, ?_⟩, ?_, by simp, by simp, by simp [totalOf]⟩
    · rw [h0]; intro k _ hk; omega
    · simp [Arena.items, heapItems, h0]
  have := insertLeaves_spec freq (usedSymbols freq).length a.heap allSymbols [] a [] hf (by intro i h; simp at h)
    (by simpa using hn) rfl (by simp [allSymbols, Config.symbols, Config.heapCap]) (by simp [Arena.items, heapItems, h0])
    (Nat.zero_add _) .start
  obtain ⟨a', ps, h1, h2, h3, h4, h5, h6, h7⟩ := this
  rw [List.nil_append] at h2 h3 h4 h5 h6
  exact ⟨a', ps, h1, h2, h3, h4, h5, h4, h6, fun j hj => absurd hj (Nat.not_lt_zero j), by rw [h2.size, h5]; rfl, h7⟩

theorem HTree.leaves_of_full {t : HTree} {xs : List Byte} (h : t.syms.length = t.leaves)
    (hp : t.syms.Perm xs) : t.leaves = xs.length := by rw [← h, hp.length_eq]

/-- The builder on a table with no symbol (43_tree.md R204). -/
theorem buildTree_none {freq : Memory Word} {a : Arena} (ha : a.Released) (hx : usedSymbols freq = []) :
    ∃ a', buildTree freq a = .raise (raiseNat .treeEmpty 0) a' ∧ NodeWf a'.node ∧ HeapWf a'.heap := by
  obtain ⟨a1, ps, he, hf, -, hn, -, -⟩ := leaves_spec freq ha
  refine ⟨a1, ?_, hf.nodeWf, hf.heap.wf⟩
  unfold buildTree
  rw [he]
  simp [Ans.bind, hn, hx]

/-- The single-symbol tree (43_tree.md R206). -/
theorem buildTree_single {freq : Memory Word} {a : Arena} {x : Byte} (ha : a.Released)
    (hx : usedSymbols freq = [x]) :
    ∃ a', buildTree freq a = .ok 2 a' ∧ NodeWf a'.node ∧ HeapWf a'.heap ∧ a'.nodeCount = 3 ∧ a'.pqSize = 0 ∧
      nodeAt a'.node 0 = ⟨true, false, x, 0, 0, freqAt freq x⟩ ∧
      nodeAt a'.node 1 = ⟨true, true, x ^^^ 0x01#8, 0, 0, 0⟩ ∧
      nodeAt a'.node 2 = ⟨false, false, 0, 0, 1, freqAt freq x⟩ := by
  obtain ⟨a1, ps, he, hf, hl, hn, hp, -⟩ := leaves_spec freq ha
  rw [hx] at hf hl hn hp
  obtain ⟨p, ps1, a2, hx1, hp1, n1, c1, hh1, hi1, -⟩ := hf.extract (by simp [hp])
  have hps1 : ps1 = [] := by
    have := hp1.length_eq
    simp only [hp, List.length_cons, List.length_nil] at this
    exact List.eq_nil_of_length_eq_zero (by omega)
  subst hps1
  have hidx : p.1 = 0 := by
    have := (hf.planted p (hp1.symm.subset (by simp))).holds.index
    rw [hn] at this
    exact BitVec.eq_of_toNat_eq (by simp at this ⊢; omega)
  have hleaf : nodeAt a1.node 0 = ⟨true, false, x, 0, 0, freqAt freq x⟩ := hl 0 (by simp)
  have hcount : a2.nodeCount = 1 := by
    rw [c1]; exact BitVec.eq_of_toNat_eq (by simpa using hn)
  have hsize : a2.pqSize = 0 := by
    have := hi1.length_eq
    simp only [Arena.items, heapItems, List.length_map, List.length_range, List.map_nil, List.length_nil] at this
    exact BitVec.eq_of_toNat_eq (by simpa using this)
  have hn2 : nodeAt a2.node 0 = ⟨true, false, x, 0, 0, freqAt freq x⟩ := by rw [n1, hleaf]
  generalize hy : (⟨true, true, x ^^^ 0x01#8, 0, 0, 0⟩ : Node) = y
  generalize hr : (⟨false, false, 0, 0, 1, freqAt freq x⟩ : Node) = r
  have hw2 : NodeWf a2.node := by rw [n1]; exact hf.nodeWf
  obtain ⟨i3, w3, c3, at3, ne3⟩ := alloc_spec hw2 (by simp [hcount, Config.nodeCap]) y
  obtain ⟨i4, w4, c4, at4, ne4⟩ := alloc_spec (a := a2.grow y) w3 (by simp [c3, hcount, Config.nodeCap]) r
  have e3 : a2.next = 1 := by simp [Arena.next, hcount]
  have e4 : (a2.grow y).next = 2 := by simp [Arena.next, Arena.grow, hcount]
  refine ⟨(a2.grow y).grow r, ?_, w4, hh1.wf, by simp [Arena.grow, hcount], by simp [hsize], ?_, ?_, ?_⟩
  · unfold buildTree
    rw [he]
    simp only [Ans.bind, hn, List.length_singleton, Nat.one_ne_zero, if_false, if_true, pairSingle, hx1,
      allocLeaf_eq, allocInternal_eq, hidx, hn2, hy, e3]
    have : nodeAt (a2.grow y).node 0 = ⟨true, false, x, 0, 0, freqAt freq x⟩ := by
      rw [ne3 0 (by simp [hcount]), hn2]
    simp only [this, hr, e4]
  · rw [ne4 0 (by simp [c3, hcount]), ne3 0 (by simp [hcount]), hn2]
  · rw [ne4 1 (by simp [c3, hcount]), ← e3, at3]
  · rw [← e4, at4]

/-- The builder on a table with two symbols or more (43_tree.md R204, R205, R207). -/
theorem buildTree_many {freq : Memory Word} {a : Arena} (ha : a.Released)
    (hx : 2 ≤ (usedSymbols freq).length) :
    (totalOf freq (usedSymbols freq) ≤ maxWord ∧ ∃ r a' t, buildTree freq a = .ok r a' ∧ NodeWf a'.node ∧
      HeapWf a'.heap ∧ a'.nodeCount.toNat = 2 * (usedSymbols freq).length - 1 ∧ a'.pqSize = 0 ∧
      r.toNat = 2 * (usedSymbols freq).length - 2 ∧ BuiltFrom freq (usedSymbols freq) a'.node a.heap a'.heap ∧
      Holds a'.node a'.nodeCount.toNat r t ∧ Weighs freq a'.node r t ∧
      t.syms.Perm (usedSymbols freq) ∧ t.leaves = (usedSymbols freq).length ∧
      (nodeAt a'.node r).freq.toNat = totalOf freq (usedSymbols freq)) ∨
    (maxWord < totalOf freq (usedSymbols freq) ∧ ∃ i a',
      buildTree freq a = .raise (raiseNat .overflow ((usedSymbols freq).length + i)) a' ∧
      i < (usedSymbols freq).length - 1 ∧ LeavesAt freq (usedSymbols freq) a'.node ∧
      OverflowsAt a'.node (usedSymbols freq).length i ∧
      OverflowHeap a'.node (usedSymbols freq).length i a.heap a'.heap ∧ NodeWf a'.node ∧ HeapWf a'.heap) := by
  obtain ⟨a1, ps, he, hf, hl, hn, hp, hmg⟩ := leaves_spec freq ha
  have hmax := usedSymbols_length freq
  generalize usedSymbols freq = xs at *
  simp only [Config.symbols] at hmax
  have hb : buildTree freq a = (mergeLoop (xs.length - 1) a1).bind fun _ a2 => pqExtract a2 := by
    unfold buildTree
    rw [he]
    simp only [Ans.bind, hn]
    rw [if_neg (by omega), if_neg (by omega)]
  rw [hb]
  have keep : ∀ a2 : Arena, (∀ x : NodeIx, x.toNat < xs.length + 0 → nodeAt a2.node x = nodeAt a1.node x) →
      LeavesAt freq xs a2.node := by
    intro a2 hold i h
    rw [hold _ (by rw [toNat_ofNat9 (by omega)]; exact h), hl i h]
  rcases mergeLoop_spec (xs.length - 1) 0 a1 ps hf (by omega) hmg (by simp only [Config.nodeCap]; omega) with
    ⟨a2, p, he2, hf2, hm2, hlast, hold⟩ | ⟨hov, a2, i, he2, hi, ho, hq, hw, hh, hold⟩
  · left
    obtain ⟨q, ps3, a3, he3, hp3, n3, c3, hh3, hi3, -⟩ := hf2.extract (by simp)
    have hq := List.singleton_perm.1 hp3
    simp only [List.cons.injEq] at hq
    obtain ⟨rfl, rfl⟩ := hq
    have hn2 := hm2.count
    have hpl := hf2.planted p (by simp)
    have hw8 : totalOf freq xs = (nodeAt a2.node p.1).freq.toNat := by rw [← hf2.weight]; simp
    have hsyms : p.2.syms.Perm xs := by simpa using hf2.symbols
    refine ⟨?_, p.1, a3, p.2, ?_, by rw [n3]; exact hf2.nodeWf, hh3.wf, by rw [c3]; omega, ?_, ?_, ?_,
      by rw [n3, c3]; exact hpl.holds, by rw [n3]; exact hpl.weighs, hsyms,
      HTree.leaves_of_full hpl.full hsyms, by rw [n3]; exact hw8.symm⟩
    · rw [hw8]; have := (nodeAt a2.node p.1).freq.isLt; simp only [maxWord]; omega
    · rw [he2]; exact he3
    · have := hi3.length_eq
      simp only [Arena.items, heapItems, List.length_map, List.length_range, List.map_nil, List.length_nil] at this
      exact BitVec.eq_of_toNat_eq (by simpa using this)
    · have := hlast (by omega); omega
    · have hsz : a2.pqSize.toNat = 0 + 1 := by have := hm2.size; omega
      rw [n3, (pqExtract_drained he3 hf2.heap.wf hsz (by decide)).2.1 rfl]
      exact ⟨keep a2 hold, by rw [← Nat.zero_add (xs.length - 1)]; exact hm2.made,
        by rw [show 2 * xs.length - 1 = xs.length + (0 + (xs.length - 1)) by omega]; exact hm2.trace⟩
  · right
    refine ⟨hov, i, a2, ?_, by omega, keep a2 hold, ho, hq, hw, hh⟩
    rw [he2]; rfl

end Sys2Proof.Machine
end

