-- ==== Sys2Proof/Laws/Code.lean ====
section
/-! SUPPORT. Laws/Code.lean: the code table is the paths of the tree (44_codec.md R236, R238), and the
packer lays codes into bytes (44_codec.md R231, R232, R237). -/

namespace Sys2Proof.Machine

/-! ### Paths -/

theorem getMsbD_pathPut (p : BitVec 255) (j i : Nat) (b : Bool) (hj : j < 255) :
    (pathPut p j b).getMsbD i = if i = j then b else p.getMsbD i := by
  have hbit : ∀ k, (BitVec.twoPow 255 (255 - 1 - j)).getMsbD k = decide (k = j) := by
    intro k
    rw [BitVec.getMsbD_eq_getLsbD, BitVec.getLsbD_twoPow]
    by_cases hk : k < 255
    · by_cases e : k = j
      · subst e; simp; omega
      · simp [hk, e]; omega
    · have : k ≠ j := by omega
      simp [hk, this]
  unfold pathPut
  simp only [Config.codeMaxBits, hj, if_true]
  cases b
  · simp only [Bool.false_eq_true, if_false, BitVec.getMsbD_and, BitVec.getMsbD_not, hbit]
    by_cases e : i = j
    · simp [e]
    · by_cases hi : i < 255
      · simp [e, hi]
      · have : p.getMsbD i = false := by simp [BitVec.getMsbD_eq_getLsbD, hi]
        simp [e, this]
  · simp only [if_true, BitVec.getMsbD_or, hbit]
    by_cases e : i = j <;> simp [e]

theorem getMsbD_pathPrefix (p : BitVec 255) (n i : Nat) (hn : n ≤ 255) :
    (pathPrefix p n).getMsbD i = (decide (i < n) && p.getMsbD i) := by
  unfold pathPrefix
  simp only [Config.codeMaxBits, BitVec.getMsbD_and, BitVec.getMsbD_shiftLeft]
  by_cases hi : i < n
  · have h1 : i + (255 - n) < 255 := by omega
    have h2 : (BitVec.allOnes 255).getMsbD (i + (255 - n)) = true := by
      rw [BitVec.getMsbD_eq_getLsbD, BitVec.getLsbD_allOnes]
      simp only [h1, decide_true, Bool.true_and, decide_eq_true_eq]; omega
    rw [h2]; simp [hi]
  · have h2 : (BitVec.allOnes 255).getMsbD (i + (255 - n)) = false := by
      rw [BitVec.getMsbD_eq_getLsbD]
      have h1 : ¬ i + (255 - n) < 255 := by omega
      simp only [h1, decide_false, Bool.false_and]
    rw [h2]; simp [hi]

/-- The path register holds these bits. -/
structure PathIs (g : Gen) (path : List Bool) : Prop where
  len : g.depth.toNat = path.length
  bits : ∀ j, j < path.length → g.path.getMsbD j = path.getD j false

theorem PathIs.push {g : Gen} {path : List Bool} (h : PathIs g path) (hl : path.length < 255) (b : Bool) :
    PathIs (g.push b) (path ++ [b]) := by
  refine ⟨?_, fun j hj => ?_⟩
  · have := h.len
    simp only [Gen.push, BitVec.toNat_add, List.length_append, List.length_singleton, this]
    simp; omega
  · simp only [List.length_append, List.length_singleton] at hj
    simp only [Gen.push]
    rw [getMsbD_pathPut _ _ _ _ (by rw [h.len]; exact hl), h.len]
    by_cases e : j = path.length
    · subst e; simp
    · rw [if_neg e, h.bits j (by omega), List.getD_append _ _ _ _ (by omega)]

theorem PathIs.pop {g : Gen} {path : List Bool} {b : Bool} (h : PathIs g (path ++ [b])) :
    PathIs g.pop path := by
  have hl := h.len
  simp only [List.length_append, List.length_singleton] at hl
  refine ⟨?_, fun j hj => ?_⟩
  · simp only [Gen.pop]
    rw [BitVec.toNat_sub]
    simp
    omega
  · have := h.bits j (by simp; omega)
    rw [List.getD_append _ _ _ _ hj] at this
    exact this

/-! ### The code table -/

/-- The canonical form of the code RAM. -/
abbrev CodeWf (m : Memory CodeEntry) : Prop := Memory.wf CodeEntry.zero Config.symbols m = true

theorem codeAt_codePut {m : Memory CodeEntry} (hw : CodeWf m) (i j : Byte) (v : CodeEntry) :
    codeAt (codePut m i v) j = if j = i then v else codeAt m j := by
  unfold codeAt codePut
  split
  · next e => rw [e]; exact Memory.read_write_same hw _ v
  · next e => exact Memory.read_write_ne hw v (fun h => e (BitVec.eq_of_toNat_eq h))

theorem codePut_wf {m : Memory CodeEntry} (hw : CodeWf m) (i : Byte) (v : CodeEntry) : CodeWf (codePut m i v) :=
  Memory.write_wf hw v (by have := i.isLt; simp only [Config.symbols]; omega)

/-- The last code listed for a symbol. -/
def lastCode (s : Byte) (cs : List (Byte × List Bool)) : Option (List Bool) :=
  (cs.reverse.find? (fun c => c.1 = s)).map (·.2)

theorem HTree.codeOf_eq (t : HTree) (s : Byte) : t.codeOf s = lastCode s (t.codes []) := rfl

theorem lastCode_append (s : Byte) (a b : List (Byte × List Bool)) :
    lastCode s (a ++ b) = (lastCode s b).or (lastCode s a) := by
  unfold lastCode
  rw [List.reverse_append, List.find?_append]
  cases List.find? (fun c => decide (c.1 = s)) b.reverse <;> rfl

/-- What a code table says of a symbol after some codes have been stored over another table. -/
def Stored (before after : Memory CodeEntry) (cs : List (Byte × List Bool)) : Prop :=
  ∀ s, match lastCode s cs with
    | none => codeAt after s = codeAt before s
    | some c => (codeAt after s).Says c

theorem Stored.trans {m1 m2 m3 : Memory CodeEntry} {a b : List (Byte × List Bool)} (h1 : Stored m1 m2 a)
    (h2 : Stored m2 m3 b) : Stored m1 m3 (a ++ b) := by
  intro s
  have h1 := h1 s
  have h2 := h2 s
  rw [lastCode_append]
  cases hb : lastCode s b with
  | some c => rw [hb] at h2; exact h2
  | none =>
    rw [hb] at h2
    simp only [Option.none_or]
    cases ha : lastCode s a with
    | some c => rw [ha] at h1; rw [h2]; exact h1
    | none => rw [ha] at h1; exact h2.trans h1

/-- Storing the path gives exactly the path's bits (44_codec.md R236, 41_bitbuffer.md R161). -/
theorem PathIs.says {g : Gen} {path : List Bool} (h : PathIs g path) (hl : path.length ≤ 255) :
    CodeEntry.Says ⟨g.depth, pathPrefix g.path g.depth.toNat⟩ path := by
  refine ⟨h.len, fun j => ?_⟩
  simp only
  rw [getMsbD_pathPrefix _ _ _ (by rw [h.len]; exact hl), h.len]
  by_cases hj : j < path.length
  · simp [hj, h.bits j hj]
  · simp only [hj, decide_false, Bool.false_and]
    rw [List.getD_eq_default _ _ (by omega)]

/-- The walk stores the codes of the tree (44_codec.md R236). -/
theorem walkCodes_spec {node : Memory Node} {n : Nat} : ∀ (t : HTree) (room : Nat) (x : NodeIx) (g : Gen)
    (path : List Bool), Holds node n x t → t.leaves ≤ room + 1 → room + path.length = 255 → PathIs g path →
    CodeWf g.code →
    ∃ g', walkCodes node room x g = .ok () g' ∧ CodeWf g'.code ∧ PathIs g' path ∧
      Stored g.code g'.code (t.codes path)
  | .leaf sym synth, room, x, g, path, h, _, hl, hp, hw => by
    unfold Holds at h
    unfold walkCodes
    rw [if_pos h.2.1, h.2.2.1, h.2.2.2]
    cases synth with
    | true =>
      exact ⟨g, rfl, hw, hp, fun s => rfl⟩
    | false =>
      refine ⟨g.store sym, rfl, codePut_wf hw _ _, ⟨hp.len, hp.bits⟩, fun s => ?_⟩
      simp only [HTree.codes, Bool.false_eq_true, if_false, lastCode, List.reverse_singleton, Gen.store]
      by_cases e : sym = s
      · simp only [e, List.find?_singleton, decide_true, if_true, Option.map_some]
        rw [codeAt_codePut hw, if_pos rfl]
        exact hp.says (by omega)
      · simp only [List.find?_singleton, e, decide_false, Bool.false_eq_true, if_false, Option.map_none]
        rw [codeAt_codePut hw, if_neg (Ne.symm e)]
  | .node l r, room, x, g, path, h, hr, hl, hp, hw => by
    unfold Holds at h
    unfold walkCodes
    rw [if_neg (by simp [h.2.1])]
    have hll := l.leaves_pos
    have hlr := r.leaves_pos
    simp only [HTree.leaves] at hr
    obtain ⟨room, rfl⟩ : ∃ k, room = k + 1 := ⟨room - 1, by omega⟩
    have hlen : ∀ b : Bool, room + (path ++ [b]).length = 255 := fun b => by simp; omega
    obtain ⟨g1, e1, w1, p1, s1⟩ := walkCodes_spec l room _ (g.push false) (path ++ [false]) h.2.2.1 (by omega)
      (hlen _) (hp.push (by omega) _) hw
    obtain ⟨g2, e2, w2, p2, s2⟩ := walkCodes_spec r room _ (g1.pop.push true) (path ++ [true]) h.2.2.2 (by omega)
      (hlen _) (p1.pop.push (by omega) _) w1
    refine ⟨g2.pop, ?_, w2, p2.pop, ?_⟩
    · dsimp only
      rw [e1]; dsimp only [Ans.bind]; rw [e2]
    · exact Stored.trans s1 s2

/-! ### Prefixes -/

theorem HTree.codes_path : ∀ (t : HTree) (path : List Bool), ∀ c ∈ t.codes path, ∃ c', c.2 = path ++ c'
  | .leaf sym synth, path, c, h => by
    cases synth <;> simp [HTree.codes] at h
    exact ⟨[], by simp [h]⟩
  | .node l r, path, c, h => by
    simp only [HTree.codes, List.mem_append] at h
    rcases h with h | h
    · obtain ⟨c', e⟩ := l.codes_path _ c h; exact ⟨false :: c', by simp [e]⟩
    · obtain ⟨c', e⟩ := r.codes_path _ c h; exact ⟨true :: c', by simp [e]⟩

theorem HTree.codes_syms (t : HTree) (path : List Bool) : (t.codes path).map (·.1) = t.syms := by
  induction t generalizing path with
  | leaf sym synth => cases synth <;> rfl
  | node l r ihl ihr => simp [HTree.codes, HTree.syms, ihl, ihr]

theorem lastCode_mem {s : Byte} {cs : List (Byte × List Bool)} {c : List Bool} (h : lastCode s cs = some c) :
    (s, c) ∈ cs := by
  unfold lastCode at h
  simp only [Option.map_eq_some_iff] at h
  obtain ⟨a, ha, rfl⟩ := h
  have h1 := List.mem_of_find?_eq_some ha
  have h2 := List.find?_some ha
  simp only [decide_eq_true_eq] at h2
  rw [← h2]; simpa using h1

theorem lastCode_none {s : Byte} {cs : List (Byte × List Bool)} :
    lastCode s cs = none ↔ ∀ c ∈ cs, c.1 ≠ s := by
  unfold lastCode
  simp

theorem lastCode_isSome {s : Byte} {cs : List (Byte × List Bool)} (h : s ∈ cs.map (·.1)) :
    ∃ c, lastCode s cs = some c := by
  cases hc : lastCode s cs with
  | some c => exact ⟨c, rfl⟩
  | none =>
    obtain ⟨c, hm, e⟩ := List.mem_map.1 h
    exact absurd e (lastCode_none.1 hc c hm)

/-! ### Packing -/

/-- The accumulator holds these bits, the oldest first (44_codec.md R232). -/
structure Pend (acc : Byte) (n : BitVec 3) (bits : List Bool) : Prop where
  len : n.toNat = bits.length
  bits : ∀ j, j < bits.length → acc.getLsbD j = bits.getD (bits.length - 1 - j) false

theorem Pend.zero : Pend 0 0 [] := ⟨rfl, fun j hj => by simp at hj⟩

theorem Pend.lt {acc : Byte} {n : BitVec 3} {bits : List Bool} (h : Pend acc n bits) : bits.length < 8 := by
  have := h.len; have := n.isLt; omega

theorem shiftIn_getLsbD (acc : Byte) (b : Bool) (j : Nat) (hj : j < 8) :
    ((acc <<< 1) ||| (BitVec.ofBool b).setWidth 8).getLsbD j = if j = 0 then b else acc.getLsbD (j - 1) := by
  cases j with
  | zero => simp
  | succ j =>
    rw [BitVec.getLsbD_or, BitVec.getLsbD_shiftLeft]
    simp [hj]

theorem Pend.shift {acc : Byte} {n : BitVec 3} {bits : List Bool} (h : Pend acc n bits) (b : Bool) (j : Nat)
    (hj : j < bits.length + 1) :
    ((acc <<< 1) ||| (BitVec.ofBool b).setWidth 8).getLsbD j =
      (bits ++ [b]).getD ((bits ++ [b]).length - 1 - j) false := by
  have hlt := h.lt
  rw [shiftIn_getLsbD _ _ _ (by omega)]
  simp only [List.length_append, List.length_singleton]
  cases j with
  | zero => simp
  | succ j =>
    rw [if_neg (by omega), Nat.add_sub_cancel, h.bits j (by omega), List.getD_append _ _ _ _ (by omega)]
    congr 1; omega

theorem byteBits_of {d : Byte} {bits : List Bool} (hl : bits.length = 8)
    (h : ∀ j, j < 8 → d.getLsbD j = bits.getD (7 - j) false) : byteBits d = bits := by
  apply List.ext_getElem
  · simp [byteBits, hl]
  · intro i h1 h2
    have hi : i < 8 := by simpa [byteBits] using h1
    simp only [byteBits, List.getElem_map, List.getElem_range]
    rw [BitVec.getMsbD_eq_getLsbD]
    simp only [hi, decide_true, Bool.true_and]
    rw [h _ (by omega), show 7 - (8 - 1 - i) = i by omega, List.getD_eq_getElem?_getD,
      List.getElem?_eq_getElem h2]
    rfl

/-- The bits that went in are the bytes that came out and what is pending (44_codec.md R232). -/
theorem emitBits_spec : ∀ (bs : List Bool) (acc : Byte) (n : BitVec 3) (pend : List Bool), Pend acc n pend →
    ∃ pend', Pend (emitBits bs acc n).1 (emitBits bs acc n).2.1 pend' ∧
      pend ++ bs = (emitBits bs acc n).2.2.flatMap byteBits ++ pend'
  | [], acc, n, pend, h => ⟨pend, h, by simp [emitBits]⟩
  | b :: bs, acc, n, pend, h => by
    simp only [emitBits]
    have hlen := h.len
    by_cases h7 : n = 7
    · have e : emitBit acc n b = ((0 : Byte), (0 : BitVec 3), [(acc <<< 1) ||| (BitVec.ofBool b).setWidth 8]) := by
        unfold emitBit; rw [if_pos h7]
      rw [e]
      have h7' : pend.length = 7 := by rw [← hlen, h7]; rfl
      obtain ⟨pend', hp, heq⟩ := emitBits_spec bs 0 0 [] Pend.zero
      refine ⟨pend', hp, ?_⟩
      simp only [List.cons_append, List.nil_append, List.flatMap_cons, List.append_assoc, ← heq]
      rw [byteBits_of (bits := pend ++ [b]) (by simp [h7'])
        (fun j hj => by rw [h.shift b j (by omega)]; simp [h7'])]
      simp
    · have e : emitBit acc n b = ((acc <<< 1) ||| (BitVec.ofBool b).setWidth 8, n + 1, []) := by
        unfold emitBit; rw [if_neg h7]
      rw [e]
      have hlt : pend.length < 7 := by
        have := h.lt
        have : pend.length ≠ 7 := fun h' => h7 (BitVec.eq_of_toNat_eq (by rw [hlen, h']; rfl))
        omega
      have hp : Pend ((acc <<< 1) ||| (BitVec.ofBool b).setWidth 8) (n + 1) (pend ++ [b]) := by
        refine ⟨?_, fun j hj => h.shift b j (by simpa using hj)⟩
        rw [BitVec.toNat_add, hlen]
        simp; omega
      obtain ⟨pend', hp, heq⟩ := emitBits_spec bs _ _ _ hp
      refine ⟨pend', hp, ?_⟩
      simp only [List.nil_append, ← heq]
      simp

/-- The flush pads what is pending with zeros (44_codec.md R232). -/
theorem flushByte_spec {acc : Byte} {n : BitVec 3} {pend : List Bool} (h : Pend acc n pend) :
    BytesOfBits pend (flushByte acc n) := by
  have hlen := h.len
  have hlt := h.lt
  unfold flushByte
  split
  · next h0 =>
    have : pend = [] := List.eq_nil_of_length_eq_zero (by rw [← hlen, h0]; rfl)
    exact ⟨0, by omega, by simp [this]⟩
  · next h0 =>
    have hpos : 0 < pend.length := by
      rcases Nat.eq_zero_or_pos pend.length with h' | h'
      · exact absurd (BitVec.eq_of_toNat_eq (by rw [hlen, h']; rfl)) h0
      · exact h'
    refine ⟨8 - pend.length, by omega, ?_⟩
    rw [List.flatMap_singleton, hlen]
    refine byteBits_of (by simp; omega) fun j hj => ?_
    rw [BitVec.getLsbD_shiftLeft]
    by_cases hj2 : j < 8 - pend.length
    · rw [List.getD_append_right _ _ _ _ (by omega)]
      simp [hj2]
    · have : j - (8 - pend.length) < pend.length := by omega
      rw [h.bits _ this, List.getD_append _ _ _ _ (by omega)]
      simp only [hj, hj2, decide_true, decide_false, Bool.true_and, Bool.not_false]
      congr 1; omega

theorem toBits_of_says {e : CodeEntry} {c : List Bool} (h : e.Says c) : e.toBits = c := by
  apply List.ext_getElem
  · simp [CodeEntry.toBits, h.1]
  · intro i h1 h2
    simp only [CodeEntry.toBits, List.getElem_map, List.getElem_range]
    rw [h.2, List.getD_eq_getElem?_getD, List.getElem?_eq_getElem h2]
    rfl

/-- The bits a code table gives to bytes, one code after the other (44_codec.md R231). -/
def codeBits (code : Memory CodeEntry) (ds : List Byte) : List Bool := ds.flatMap (fun d => (codeAt code d).toBits)

theorem BytesOfBits.length {bits : List Bool} {bytes : List Byte} (h : BytesOfBits bits bytes) :
    bytes.length = (bits.length + 7) / 8 := by
  obtain ⟨pad, hp, e⟩ := h
  have := congrArg List.length e
  simp only [List.length_flatMap, byteBits, List.length_map, List.length_range, List.map_const', List.sum_replicate,
    smul_eq_mul, List.length_append, List.length_replicate] at this
  omega

theorem flatMap_byteBits_length (l : List Byte) : (l.flatMap byteBits).length = 8 * l.length := by
  simp [List.length_flatMap, byteBits, Nat.mul_comm]

theorem codeBits_cons (code : Memory CodeEntry) (b : Beat) (q : List Beat) :
    codeBits code (payload (b :: q)) =
      (if b.empty then [] else (codeAt code b.data).toBits) ++ codeBits code (payload q) := by
  rw [payload_cons]; split <;> simp [codeBits]

/-- One beat of PACK (44_codec.md R237). -/
theorem pack_beat (f : Bool) {b : Beat} {q : List Beat} {ops : List Op} {s : State} {pend : List Bool}
    (hq : s.inQ = b :: q) (hin : s.inEom = false) (hp : Pend s.acc s.accN pend)
    (hmap : b.empty = false → (codeAt s.code b.data).len ≠ 0)
    (hcred : (pend.length + (if b.empty then [] else (codeAt s.code b.data).toBits).length) / 8 ≤ s.outReady) :
    ∃ bytes pend' s1, runAll (.pack f :: ops) s = runAll (.pack f :: ops) s1 ∧
      s1 = State.gave { s.took [b] q with acc := s1.acc, accN := s1.accN } bytes ∧
      Pend s1.acc s1.accN pend' ∧
      pend ++ (if b.empty then [] else (codeAt s.code b.data).toBits) = bytes.flatMap byteBits ++ pend' := by
  have ht := takeBeat_cons hq
  cases he : b.empty with
  | true =>
    have hop : runOp (.pack f) s = .ok (s.took [b] q) [.pack f] := by
      simp only [runOp, packLoop, hin, Bool.false_eq_true, if_false, ht, he, if_true]
    exact ⟨[], pend, s.took [b] q, by rw [runAll_ok hop]; rfl, (State.gave_nil _).symm, hp, by simp⟩
  | false =>
    have hd := hmap he
    obtain ⟨pend', hp', heq⟩ := emitBits_spec (codeAt s.code b.data).toBits s.acc s.accN pend hp
    generalize hr : emitBits (codeAt s.code b.data).toBits s.acc s.accN = r at hp' heq
    have hop : runOp (.pack f) s = .ok { s.took [b] q with acc := r.1, accN := r.2.1 }
        (r.2.2.map .put ++ [.pack f]) := by
      simp only [runOp, packLoop, hin, Bool.false_eq_true, if_false, ht, he,
        show (s.took [b] q).code = s.code from rfl, hd, show (s.took [b] q).acc = s.acc from rfl,
        show (s.took [b] q).accN = s.accN from rfl, hr]
    have hlen := congrArg List.length heq
    refine ⟨r.2.2, pend', State.gave { s.took [b] q with acc := r.1, accN := r.2.1 } r.2.2, ?_, rfl, hp',
      by simpa using heq⟩
    rw [runAll_ok hop, List.append_assoc, runAll_puts]
    · rfl
    · rw [he] at hcred
      simp only [List.length_append, flatMap_byteBits_length] at hlen
      simp only [Bool.false_eq_true, if_false] at hcred
      simp only [State.took_outReady]
      omega

/-- Some beats of PACK, up to the last of a message (44_codec.md R237). -/
theorem pack_beats (f : Bool) : ∀ (q rest : List Beat) (ops : List Op) (s : State) (pend : List Bool),
    (∀ b ∈ q.dropLast, b.last = false) → s.inQ = q ++ rest → s.inEom = false → Pend s.acc s.accN pend →
    (∀ d ∈ payload q, (codeAt s.code d).len ≠ 0) →
    (pend.length + (codeBits s.code (payload q)).length) / 8 ≤ s.outReady →
    ∃ bytes pend' s1, runAll (.pack f :: ops) s = runAll (.pack f :: ops) s1 ∧
      s1 = State.gave { s.took q rest with acc := s1.acc, accN := s1.accN } bytes ∧
      Pend s1.acc s1.accN pend' ∧ pend ++ codeBits s.code (payload q) = bytes.flatMap byteBits ++ pend'
  | [], rest, ops, s, pend, _, hq, _, hp, _, _ => by
    refine ⟨[], pend, s, rfl, ?_, hp, by simp [codeBits, payload]⟩
    rw [State.gave_nil]
    have h := State.took_nil s
    rw [hq] at h
    conv_lhs => rw [← h]
    rfl
  | b :: q, rest, ops, s, pend, hl, hq, hin, hp, hmap, hcred => by
    rw [codeBits_cons] at hcred ⊢
    rw [List.length_append] at hcred
    obtain ⟨bytes, pend', s1, hrun, hs1, hp1, heq⟩ := pack_beat (ops := ops) f hq hin hp
      (fun he => hmap b.data (by rw [payload_cons, he]; simp)) (by omega)
    have hlen := congrArg List.length heq
    simp only [List.length_append, flatMap_byteBits_length] at hlen
    have hcode : s1.code = s.code := by rw [hs1]; rfl
    have hready : s1.outReady = s.outReady - bytes.length := by rw [hs1]; rfl
    have hq1 : s1.inQ = q ++ rest := by rw [hs1]; rfl
    have hin1 : s1.inEom = b.last := by rw [hs1]; rfl
    cases q with
    | nil => exact ⟨bytes, pend', s1, hrun, hs1, hp1, by simpa [codeBits, payload] using heq⟩
    | cons c q =>
      obtain ⟨bytes2, pend2, s2, hrun2, hs2, hp2, heq2⟩ := pack_beats f (c :: q) rest ops s1 pend'
        (fun x hx => hl x (by rw [List.dropLast_cons_cons]; exact List.mem_cons_of_mem _ hx)) hq1
        (by rw [hin1]; exact hl b (by rw [List.dropLast_cons_cons]; exact List.mem_cons_self)) hp1
        (fun d hd => by rw [hcode]; exact hmap d (by rw [payload_cons]; exact List.mem_append_right _ hd))
        (by rw [hcode, hready]; omega)
      refine ⟨bytes ++ bytes2, pend2, s2, by rw [hrun, hrun2], ?_, hp2, ?_⟩
      · rw [hs2, hs1]
        simp only [State.gave, State.took, List.map_append, List.append_assoc, List.length_append, countUp_add,
          Nat.sub_sub, lastFlag_append]
        rw [show b :: c :: q = [b] ++ c :: q from rfl, payload_append, List.length_append]
      · rw [hcode] at heq2
        rw [← List.append_assoc, heq, List.append_assoc, heq2, List.flatMap_append, List.append_assoc]

theorem IsMessage.dropLast : ∀ {q : List Beat}, IsMessage q → ∀ b ∈ q.dropLast, b.last = false
  | [], h => h.elim
  | [_], _ => by simp
  | b :: c :: q, h => by
    intro x hx
    rw [List.dropLast_cons_cons] at hx
    rcases List.mem_cons.1 hx with rfl | hx
    · exact h.1
    · exact IsMessage.dropLast h.2 x hx

/-- PACK of one whole message (44_codec.md R237). -/
theorem pack_spec (f : Bool) (q rest : List Beat) (ops : List Op) (s : State) (pend : List Bool)
    (hm : IsMessage q) (hq : s.inQ = q ++ rest) (hin : s.inEom = false) (hp : Pend s.acc s.accN pend)
    (hmap : ∀ d ∈ payload q, (codeAt s.code d).len ≠ 0)
    (hcred : (pend.length + (codeBits s.code (payload q)).length + 7) / 8 + f.toNat ≤ s.outReady) :
    ∃ bytes, BytesOfBits (pend ++ codeBits s.code (payload q)) bytes ∧
      runAll (.pack f :: ops) s =
        runAll ops ((State.gave { s.took q rest with acc := 0, accN := 0 } bytes).gaveEnd f) := by
  obtain ⟨bytes, pend', s1, hrun, hs1, hp1, heq⟩ := pack_beats f q rest ops s pend hm.dropLast hq hin hp hmap
    (by omega)
  have hlen := congrArg List.length heq
  simp only [List.length_append, flatMap_byteBits_length] at hlen
  have hin1 : s1.inEom = true := by rw [hs1]; exact lastFlag_message _ hm
  have hready : s1.outReady = s.outReady - bytes.length := by rw [hs1]; rfl
  have hfl := flushByte_spec hp1
  have hop : runOp (.pack f) s1 = .ok { s1 with acc := 0, accN := 0 }
      ((flushByte s1.acc s1.accN).map .put ++ if f then [.putEnd] else []) := by
    simp only [runOp, packLoop, hin1, if_true]
  have hflen := hfl.length
  refine ⟨bytes ++ flushByte s1.acc s1.accN, ?_, ?_⟩
  · obtain ⟨pad, hpad, e⟩ := hfl
    exact ⟨pad, hpad, by rw [List.flatMap_append, e, heq, List.append_assoc]⟩
  · rw [hrun, runAll_ok hop, List.append_assoc, runAll_puts _ _ _ (by
      show (flushByte s1.acc s1.accN).length ≤ s1.outReady
      omega), runAll_putEnd]
    · congr 2
      rw [hs1]
      simp only [State.gave, List.map_append, List.append_assoc, List.length_append, countUp_add, Nat.sub_sub]
    · intro hf
      subst hf
      simp only [Bool.toNat_true] at hcred
      show 1 ≤ s1.outReady - (flushByte s1.acc s1.accN).length
      omega

/-- PACK stops at a byte without a code; the partial byte is not emitted (44_codec.md R237). -/
theorem pack_unmapped (f : Bool) {q : List Beat} {b : Beat} {rest : List Beat} {ops : List Op} {s : State}
    {pend : List Bool} (hl : ∀ x ∈ q, x.last = false) (hq : s.inQ = q ++ b :: rest) (hin : s.inEom = false)
    (hp : Pend s.acc s.accN pend) (hmap : ∀ d ∈ payload q, (codeAt s.code d).len ≠ 0)
    (hb : b.empty = false) (hun : (codeAt s.code b.data).len = 0)
    (hcred : (pend.length + (codeBits s.code (payload q)).length) / 8 ≤ s.outReady) :
    ∃ bytes tail acc n, tail.length < 8 ∧
      pend ++ codeBits s.code (payload q) = bytes.flatMap byteBits ++ tail ∧
      runAll (.pack f :: ops) s = failWith (raiseNat .unmappedByte b.data.toNat)
        (State.gave { s.took (q ++ [b]) rest with acc := acc, accN := n } bytes) := by
  obtain ⟨bytes, pend', s1, hrun, hs1, hp1, heq⟩ := pack_beats f q (b :: rest) ops s pend
    (fun x hx => hl x (List.dropLast_subset _ hx)) hq hin hp hmap hcred
  refine ⟨bytes, pend', s1.acc, s1.accN, hp1.lt, heq, ?_⟩
  have hin1 : s1.inEom = false := by
    rw [hs1]
    show lastFlag s.inEom q = false
    cases hg : q.getLast? with
    | none => rw [List.getLast?_eq_none_iff] at hg; subst hg; simpa [lastFlag] using hin
    | some x => simp [lastFlag, hg, hl x (List.mem_of_getLast? hg)]
  have hq1 : s1.inQ = b :: rest := by rw [hs1]; rfl
  have hcode : (s1.took [b] rest).code = s.code := by rw [hs1]; rfl
  have hop : runOp (.pack f) s1 = .raise (raiseNat .unmappedByte b.data.toNat) (s1.took [b] rest) := by
    simp only [runOp, packLoop, hin1, Bool.false_eq_true, if_false, takeBeat_cons hq1, hb, hcode, hun, if_true]
  rw [hrun, runAll_raise hop]
  congr 1
  conv_lhs => rw [hs1]
  simp only [State.gave, State.took, countUp_add, lastFlag_append, payload_append, List.length_append]

end Sys2Proof.Machine
end

