-- ==== Sys2Proof/Laws/Serial.lean ====
section
/-! SUPPORT. Laws/Serial.lean: the serializer writes the bits of the tree grammar, and the deserializer
reads exactly them (43_tree.md R209 to R216). -/

namespace Sys2Proof.Machine

/-! ### Sizes -/

theorem symBits_length (lsb : Bool) (v : Byte) : (symBits lsb v).length = 8 := by simp [symBits]

theorem HTree.size_eq (t : HTree) : t.size + 1 = 2 * t.leaves := by
  induction t with
  | leaf _ _ => rfl
  | node l r ihl ihr => simp only [HTree.size, HTree.leaves]; omega

/-- The serialized length (43_tree.md R211). -/
theorem HTree.toBits_length (lsb : Bool) (t : HTree) : (t.toBits lsb).length + 1 = 10 * t.leaves := by
  induction t with
  | leaf _ _ => simp [HTree.toBits, HTree.leaves, symBits_length]
  | node l r ihl ihr =>
    simp only [HTree.toBits, HTree.leaves, List.length_cons, List.length_append]; omega

theorem HTree.widths_length (t : HTree) : t.widths.length = t.size := by
  induction t with
  | leaf _ _ => rfl
  | node l r ihl ihr => simp only [HTree.widths, HTree.size, List.length_cons, List.length_append]; omega

theorem HTree.widths_sum (lsb : Bool) (t : HTree) : t.widths.sum = (t.toBits lsb).length := by
  induction t with
  | leaf _ _ => simp [HTree.widths, HTree.toBits, symBits_length]
  | node l r ihl ihr =>
    simp only [HTree.widths, HTree.toBits, List.sum_cons, List.sum_append, List.length_cons,
      List.length_append]; omega

theorem HTree.size_pos (t : HTree) : 0 < t.size := by
  cases t with
  | leaf _ _ => exact Nat.one_pos
  | node _ _ => simp only [HTree.size]; omega

@[simp] theorem HTree.plain_leaves (t : HTree) : t.plain.leaves = t.leaves := by
  induction t with
  | leaf _ _ => rfl
  | node l r ihl ihr => simp only [HTree.plain, HTree.leaves, ihl, ihr]

@[simp] theorem HTree.plain_toBits (lsb : Bool) (t : HTree) : t.plain.toBits lsb = t.toBits lsb := by
  induction t with
  | leaf _ _ => rfl
  | node l r ihl ihr => simp only [HTree.plain, HTree.toBits, ihl, ihr]

/-! ### Serializing -/

/-- The buffer after bits have been written from a position on. -/
def putBits : List Bool → BitVec 2576 → Nat → BitVec 2576
  | [], tb, _ => tb
  | b :: bs, tb, pos => putBits bs (tbPut tb pos b) (pos + 1)

theorem putBits_append (a b : List Bool) (tb : BitVec 2576) (pos : Nat) :
    putBits (a ++ b) tb pos = putBits b (putBits a tb pos) (pos + a.length) := by
  induction a generalizing tb pos with
  | nil => rfl
  | cons x a ih =>
    simp only [List.cons_append, putBits, ih, List.length_cons]
    congr 1; omega

theorem tbGet_putBits (bits : List Bool) (tb : BitVec 2576) (pos i : Nat)
    (h : pos + bits.length ≤ Config.tbBits) :
    tbGet (putBits bits tb pos) i =
      if pos ≤ i ∧ i < pos + bits.length then bits.getD (i - pos) false else tbGet tb i := by
  induction bits generalizing tb pos with
  | nil =>
    simp only [putBits, List.length_nil]
    rw [if_neg (by omega)]
  | cons b bits ih =>
    simp only [List.length_cons] at h
    simp only [putBits]
    rw [ih _ _ (by omega), tbGet_tbPut _ _ _ _ (by omega)]
    by_cases h1 : i = pos
    · subst h1
      simp
    · by_cases h2 : pos + 1 ≤ i ∧ i < pos + 1 + bits.length
      · rw [if_pos h2, if_pos (by simp only [List.length_cons]; omega)]
        rw [show i - pos = (i - (pos + 1)) + 1 by omega, List.getD_cons_succ]
      · rw [if_neg h2, if_neg h1, if_neg (by simp only [List.length_cons]; omega)]

theorem serBits_spec : ∀ (bits : List Bool) (tb : BitVec 2576) (pos : Nat),
    pos + bits.length ≤ Config.tbMaxBits →
    serBits bits (tb, pos) = some (putBits bits tb pos, pos + bits.length)
  | [], _, _, _ => rfl
  | b :: bits, tb, pos, h => by
    simp only [List.length_cons] at h
    simp only [serBits, serBit, putBits]
    rw [if_pos (by omega), Option.bind_some, serBits_spec bits _ _ (by omega)]
    simp only [List.length_cons]
    congr 2; omega

/-- The serializer writes the tree's bits (43_tree.md R210). -/
theorem ser_spec {node : Memory Node} {n : Nat} (lsb : Bool) : ∀ (t : HTree) (room : Nat) (x : NodeIx)
    (tb : BitVec 2576) (pos : Nat), Holds node n x t → t.leaves ≤ room + 1 →
    pos + (t.toBits lsb).length ≤ Config.tbMaxBits →
    ser node lsb room x (tb, pos) = some (putBits (t.toBits lsb) tb pos, pos + (t.toBits lsb).length)
  | .leaf sym synth, room, x, tb, pos, h, _, hl => by
    unfold Holds at h
    unfold ser
    rw [if_pos h.2.1, h.2.2.1]
    exact serBits_spec _ _ _ hl
  | .node l r, room, x, tb, pos, h, hr, hl => by
    unfold Holds at h
    unfold ser
    rw [if_neg (by simp [h.2.1])]
    have hll := l.leaves_pos
    have hlr := r.leaves_pos
    simp only [HTree.leaves] at hr
    simp only [HTree.toBits, List.length_cons, List.length_append] at hl
    obtain ⟨room, rfl⟩ : ∃ k, room = k + 1 := ⟨room - 1, by omega⟩
    simp only [serBit]
    rw [if_pos (by omega), Option.bind_some, ser_spec lsb l room _ _ _ h.2.2.1 (by omega) (by omega),
      Option.bind_some, ser_spec lsb r room _ _ _ h.2.2.2 (by omega) (by omega)]
    simp only [HTree.toBits, putBits, putBits_append, List.length_cons, List.length_append]
    congr 2; omega

/-! ### Deserializing -/

theorem symBits_getD (lsb : Bool) (v : Byte) (j : Nat) (hj : j < 8) :
    (symBits lsb v).getD j false = symbit lsb v j := by
  simp [symBits, List.getD_eq_getElem?_getD, List.getElem?_map, List.getElem?_range hj]

/-- The byte read from eight bits has those bits as its symbol bits (43_tree.md R212, R213). -/
theorem symbit_symOfBits (lsb : Bool) (bit : Nat → Bool) (j : Nat) (hj : j < 8) :
    symbit lsb (symOfBits lsb bit) j = bit j := by
  unfold symbit symOfBits
  simp only [List.range, List.range.loop, List.foldl]
  rcases (show j = 0 ∨ j = 1 ∨ j = 2 ∨ j = 3 ∨ j = 4 ∨ j = 5 ∨ j = 6 ∨ j = 7 by omega) with
    rfl | rfl | rfl | rfl | rfl | rfl | rfl | rfl <;> cases lsb <;>
    simp [BitVec.getMsbD_eq_getLsbD]

theorem symbit_ext {lsb : Bool} {v w : Byte} (h : ∀ j, j < 8 → symbit lsb v j = symbit lsb w j) : v = w := by
  cases lsb
  · apply BitVec.eq_of_getMsbD_eq
    intro i hi
    simpa [symbit] using h i hi
  · apply BitVec.eq_of_getLsbD_eq
    intro i hi
    simpa [symbit] using h i hi

theorem symOfBits_symbit (lsb : Bool) (v : Byte) (bit : Nat → Bool)
    (h : ∀ j, j < 8 → bit j = symbit lsb v j) : symOfBits lsb bit = v :=
  symbit_ext (lsb := lsb) (fun j hj => by rw [symbit_symOfBits lsb bit j hj, h j hj])

theorem ParsedAt.congr {m m' : Memory Node} : ∀ {t : HTree} {i : Nat},
    (∀ j, i ≤ j → j < i + t.size → nodeAt m' (BitVec.ofNat 9 j) = nodeAt m (BitVec.ofNat 9 j)) →
    ParsedAt m i t → ParsedAt m' i t
  | .leaf sym _, i, h, hp => by
    unfold ParsedAt at hp ⊢
    rw [h i (Nat.le_refl _) (by simp [HTree.size]), hp]
  | .node l r, i, h, hp => by
    unfold ParsedAt at hp ⊢
    simp only [HTree.size] at h
    exact ⟨by rw [h i (Nat.le_refl _) (by omega), hp.1],
      hp.2.1.congr (fun j h1 h2 => h j (by omega) (by omega)),
      hp.2.2.congr (fun j h1 h2 => h j (by omega) (by omega))⟩

/-- What was parsed is a tree in the RAM (43_tree.md R200). -/
theorem ParsedAt.holds {m : Memory Node} {n : Nat} : ∀ {t : HTree} {i : Nat}, i + t.size ≤ n →
    n ≤ Config.nodeCap → ParsedAt m i t → Holds m n (BitVec.ofNat 9 i) t.plain
  | .leaf sym _, i, hi, hn, hp => by
    unfold ParsedAt at hp
    simp only [HTree.size, Config.nodeCap] at hi hn
    simp only [HTree.plain]
    unfold Holds
    rw [hp]
    exact ⟨by simp; omega, by simp⟩
  | .node l r, i, hi, hn, hp => by
    unfold ParsedAt at hp
    simp only [HTree.size, Config.nodeCap] at hi hn
    simp only [HTree.plain]
    unfold Holds
    rw [hp.1]
    exact ⟨by simp; omega, rfl, hp.2.1.holds (by omega) hn, hp.2.2.holds (by omega) hn⟩

/-- What an allocation of the parse does. -/
theorem Parse.alloc_spec (p : Parse) (v : Node) (hw : NodeWf p.node) (hc : p.nodeCount.toNat < Config.nodeCap) :
    ∃ p', Parse.alloc v p = (BitVec.ofNat 9 p.nodeCount.toNat, p') ∧ NodeWf p'.node ∧
      p'.nodeCount.toNat = p.nodeCount.toNat + 1 ∧ p'.pos = p.pos ∧
      nodeAt p'.node (BitVec.ofNat 9 p.nodeCount.toNat) = v ∧
      ∀ j, j < p.nodeCount.toNat → nodeAt p'.node (BitVec.ofNat 9 j) = nodeAt p.node (BitVec.ofNat 9 j) := by
  simp only [Config.nodeCap] at hc
  have e : p.nodeCount.setWidth 9 = BitVec.ofNat 9 p.nodeCount.toNat := by
    apply BitVec.eq_of_toNat_eq; simp
  refine ⟨{ p with node := nodePut p.node (BitVec.ofNat 9 p.nodeCount.toNat) v, nodeCount := p.nodeCount + 1 },
    by simp only [Parse.alloc, e], nodePut_wf hw _ v, ?_, rfl, ?_, ?_⟩
  · rw [BitVec.toNat_add]; simp; omega
  · rw [nodeAt_nodePut hw, if_pos rfl]
  · intro j hj
    rw [nodeAt_nodePut hw, if_neg]
    intro h
    have := congrArg BitVec.toNat h
    simp at this
    omega

/-- Everything the deserializer does on the bits of a tree (43_tree.md R213, R214, R222): it makes the
tree, or it stops at the first node that the buffer or the RAM has no room for. -/
theorem des_spec (tb : BitVec 2576) (len : Nat) (lsb : Bool) : ∀ (t : HTree) (room : Nat) (p : Parse),
    NodeWf p.node → p.nodeCount.toNat ≤ Config.nodeCap → Config.nodeCap ≤ room + p.nodeCount.toNat →
    p.pos ≤ len → BitsAt tb len p.pos (t.toBits lsb) →
    (p.nodeCount.toNat + t.size ≤ Config.nodeCap → p.pos + (t.toBits lsb).length ≤ len →
      ∃ p', des tb len lsb room p = .ok (BitVec.ofNat 9 p.nodeCount.toNat) p' ∧ NodeWf p'.node ∧
        p'.nodeCount.toNat = p.nodeCount.toNat + t.size ∧ p'.pos = p.pos + (t.toBits lsb).length ∧
        ParsedAt p'.node p.nodeCount.toNat t ∧
        ∀ j, j < p.nodeCount.toNat → nodeAt p'.node (BitVec.ofNat 9 j) = nodeAt p.node (BitVec.ofNat 9 j)) ∧
    ((Config.nodeCap < p.nodeCount.toNat + t.size ∨ len < p.pos + (t.toBits lsb).length) →
      ∃ k p', des tb len lsb room p = .raise (raiseNat .encoding (p.pos + (t.widths.take k).sum)) p' ∧
        NodeWf p'.node ∧ p'.nodeCount.toNat ≤ Config.nodeCap ∧ k < t.size ∧
        p.nodeCount.toNat + k ≤ Config.nodeCap ∧ p.pos + (t.widths.take k).sum ≤ len ∧
        (p.nodeCount.toNat + k = Config.nodeCap ∨ len < p.pos + (t.widths.take (k + 1)).sum))
  | t, room, p, hw, hc, hroom, hpos, hbits => by
    have first : len ≤ p.pos ∨ Config.nodeCap ≤ p.nodeCount.toNat →
        des tb len lsb room p = .raise (raiseNat .encoding p.pos) p := by
      intro h
      unfold des
      by_cases h1 : len ≤ p.pos
      · rw [if_pos h1]
      · rw [if_neg h1, if_pos (by omega)]
    have wpos : 0 < (t.widths.take 1).sum := by cases t <;> simp [HTree.widths]
    have blen : 0 < (t.toBits lsb).length := by have := t.toBits_length lsb; have := t.leaves_pos; omega
    have hsz := t.size_pos
    by_cases hfirst : len ≤ p.pos ∨ Config.nodeCap ≤ p.nodeCount.toNat
    · refine ⟨fun h1 h2 => by omega, fun _ => ⟨0, p, ?_, hw, hc, hsz, hc, by simpa using hpos, ?_⟩⟩
      · rw [first hfirst]; simp
      · rcases hfirst with h | h
        · right; rw [Nat.zero_add]; omega
        · left; omega
    · have hlt : p.pos < len := by omega
      have hcap : p.nodeCount.toNat < Config.nodeCap := by omega
      cases t with
      | leaf sym synth =>
        have htag : tbGet tb p.pos = true := by
          have := hbits 0 (by simp [HTree.toBits]) (by omega)
          simpa [HTree.toBits] using this
        have hun : des tb len lsb room p =
            if len < p.pos + 1 + 8 then .raise (raiseNat .encoding p.pos) { p with pos := p.pos + 1 }
            else
              let v := symOfBits lsb (fun j => tbGet tb (p.pos + 1 + j))
              let (i, p') := Parse.alloc ⟨true, false, v, 0, 0, 0⟩ { p with pos := p.pos + 9 }
              .ok i p' := by
          unfold des
          rw [if_neg (by omega), if_neg (by omega), if_pos htag]
        simp only [HTree.toBits, List.length_cons, symBits_length, HTree.size, HTree.widths] at hbits ⊢
        constructor
        · intro _ h2
          have hv : symOfBits lsb (fun j => tbGet tb (p.pos + 1 + j)) = sym := by
            refine symOfBits_symbit lsb sym _ fun j hj => ?_
            have := hbits (j + 1) (by simp only [List.length_cons, symBits_length]; omega) (by omega)
            rw [List.getD_cons_succ, symBits_getD _ _ _ hj] at this
            rw [← this]; congr 1; omega
          obtain ⟨p', e, w', c', q', at', ne'⟩ :=
            Parse.alloc_spec { p with pos := p.pos + 9 } ⟨true, false, sym, 0, 0, 0⟩ hw hcap
          refine ⟨p', ?_, w', c', by rw [q'], ?_, ne'⟩
          · rw [hun, if_neg (by omega)]
            simp only [hv, e]
          · unfold ParsedAt; exact at'
        · intro h
          refine ⟨0, { p with pos := p.pos + 1 }, ?_, hw, hc, by omega, hc, by simpa using hpos, .inr (by simp; omega)⟩
          rw [hun, if_pos (by omega)]; simp
      | node l r =>
        have htag : tbGet tb p.pos = false := by
          have := hbits 0 (by simp [HTree.toBits]) (by omega)
          simpa [HTree.toBits] using this
        obtain ⟨room, rfl⟩ : ∃ k, room = k + 1 := ⟨room - 1, by omega⟩
        obtain ⟨p1, e1, w1, c1, q1, at1, ne1⟩ :=
          Parse.alloc_spec { p with pos := p.pos + 1 } ⟨false, false, 0, 0, 0, 0⟩ hw hcap
        have hun : des tb len lsb (room + 1) p =
            (des tb len lsb room p1).bind fun a p2 =>
            (des tb len lsb room p2).bind fun b p3 =>
              .ok (BitVec.ofNat 9 p.nodeCount.toNat) (p3.link (BitVec.ofNat 9 p.nodeCount.toNat) a b) := by
          conv_lhs => unfold des
          rw [if_neg (by omega), if_neg (by omega), if_neg (by simp [htag])]
          simp only [e1]
        simp only [HTree.toBits, List.length_cons, List.length_append] at hbits ⊢
        have hbl : BitsAt tb len p1.pos (l.toBits lsb) := by
          intro i hi hi2
          have := hbits (i + 1) (by simp only [List.length_cons, List.length_append]; omega)
            (by rw [q1] at hi2; simp only at hi2; omega)
          rw [List.getD_cons_succ, List.getD_append _ _ _ _ hi] at this
          rw [q1, ← this]; congr 1; simp only; omega
        have hsl := l.size_pos
        have hsr := r.size_pos
        simp only at c1 q1 ne1 at1
        obtain ⟨hok, hno⟩ := des_spec tb len lsb l room p1 w1 (by omega) (by omega) (by omega) hbl
        simp only [HTree.size]
        have wl := l.widths_sum lsb
        have wll := l.widths_length
        by_cases hl : p1.nodeCount.toNat + l.size ≤ Config.nodeCap ∧ p1.pos + (l.toBits lsb).length ≤ len
        · obtain ⟨p2, e2, w2, c2, q2, pa2, ne2⟩ := hok hl.1 hl.2
          have hbr : BitsAt tb len p2.pos (r.toBits lsb) := by
            intro i hi hi2
            have := hbits (i + (l.toBits lsb).length + 1)
              (by simp only [List.length_cons, List.length_append]; omega) (by omega)
            rw [List.getD_cons_succ, List.getD_append_right _ _ _ _ (by omega)] at this
            rw [q2, q1]
            rw [show i + (l.toBits lsb).length - (l.toBits lsb).length = i by omega] at this
            rw [← this]; congr 1; omega
          obtain ⟨hok2, hno2⟩ := des_spec tb len lsb r room p2 w2 (by omega) (by omega) (by omega) hbr
          constructor
          · intro h1 h2
            obtain ⟨p3, e3, w3, c3, q3, pa3, ne3⟩ := hok2 (by omega) (by omega)
            have hx : nodeAt p3.node (BitVec.ofNat 9 p.nodeCount.toNat) = ⟨false, false, 0, 0, 0, 0⟩ := by
              rw [ne3 _ (by omega), ne2 _ (by omega), at1]
            have hcap' := hcap
            simp only [Config.nodeCap] at hcap' h1 hc
            have ne : ∀ j, j ≠ p.nodeCount.toNat → j < 512 →
                BitVec.ofNat 9 j ≠ BitVec.ofNat 9 p.nodeCount.toNat := by
              intro j hj hj2 h
              have := congrArg BitVec.toNat h
              simp at this
              omega
            refine ⟨p3.link (BitVec.ofNat 9 p.nodeCount.toNat) (BitVec.ofNat 9 p1.nodeCount.toNat)
              (BitVec.ofNat 9 p2.nodeCount.toNat), ?_, nodePut_wf w3 _ _, ?_, ?_, ?_, ?_⟩
            · rw [hun, e2]; dsimp only [Ans.bind]; rw [e3]
            · simp only [Parse.link]; omega
            · simp only [Parse.link]; omega
            · unfold ParsedAt
              simp only [Parse.link, hx]
              refine ⟨?_, ?_, ?_⟩
              · rw [nodeAt_nodePut w3, if_pos rfl]
                congr 2
                omega
              · refine ParsedAt.congr ?_ (c1 ▸ pa2)
                intro j h3 h4
                rw [nodeAt_nodePut w3, if_neg (ne j (by omega) (by omega)), ne3 _ (by omega)]
              · rw [show p.nodeCount.toNat + 1 + l.size = p2.nodeCount.toNat by omega]
                refine ParsedAt.congr ?_ pa3
                intro j h3 h4
                rw [nodeAt_nodePut w3, if_neg (ne j (by omega) (by omega))]
            · intro j hj
              simp only [Parse.link]
              rw [nodeAt_nodePut w3, if_neg (ne j (by omega) (by omega)), ne3 _ (by omega), ne2 _ (by omega),
                ne1 _ hj]
          · intro h
            obtain ⟨k, p3, e3, w3, c3, hk1, hk2, hk3, hk4⟩ := hno2 (by omega)
            have sum1 : ∀ j, ((HTree.node l r).widths.take (1 + l.size + j)).sum =
                1 + (l.toBits lsb).length + (r.widths.take j).sum := by
              intro j
              rw [show 1 + l.size + j = (l.size + j) + 1 by omega]
              simp only [HTree.widths, List.take_succ_cons, List.sum_cons]
              rw [List.take_append, List.take_of_length_le (by omega), List.sum_append, wl, wll,
                show l.size + j - l.size = j by omega]
              omega
            refine ⟨1 + l.size + k, p3, ?_, w3, c3, by omega, by omega, ?_, ?_⟩
            · rw [hun, e2]; dsimp only [Ans.bind]; rw [e3]
              dsimp only
              rw [sum1]
              congr 2; omega
            · rw [sum1]; omega
            · rcases hk4 with h4 | h4
              · left; omega
              · right
                rw [show 1 + l.size + k + 1 = 1 + l.size + (k + 1) by omega, sum1]
                omega
        · constructor
          · intro h1 h2; omega
          · intro _
            obtain ⟨k, p2, e2, w2, c2, hk1, hk2, hk3, hk4⟩ := hno (by omega)
            have sum1 : ∀ j, j ≤ l.size → ((HTree.node l r).widths.take (j + 1)).sum =
                1 + (l.widths.take j).sum := by
              intro j hj
              simp only [HTree.widths, List.take_succ_cons, List.sum_cons]
              rw [List.take_append_of_le_length (by omega)]
            refine ⟨k + 1, p2, ?_, w2, c2, by omega, by omega, ?_, ?_⟩
            · rw [hun, e2]; dsimp only [Ans.bind]
              rw [sum1 k (by omega)]
              congr 2; omega
            · rw [sum1 k (by omega)]; omega
            · rcases hk4 with h4 | h4
              · left; omega
              · right; rw [sum1 (k + 1) (by omega)]; omega

/-- Every buffer begins like the bits of some tree. -/
theorem exists_tree (lsb : Bool) (tb : BitVec 2576) (len : Nat) : ∀ (d pos : Nat), len ≤ pos + d →
    ∃ t : HTree, BitsAt tb len pos (t.toBits lsb)
  | 0, pos, h => ⟨.leaf 0 false, fun i _ h2 => by omega⟩
  | d + 1, pos, h => by
    cases hb : tbGet tb pos with
    | true =>
      refine ⟨.leaf (symOfBits lsb (fun j => tbGet tb (pos + 1 + j))) false, fun i hi _ => ?_⟩
      simp only [HTree.toBits, List.length_cons, symBits_length] at hi ⊢
      cases i with
      | zero => simpa using hb
      | succ j =>
        rw [List.getD_cons_succ, symBits_getD _ _ _ (by omega), symbit_symOfBits _ _ _ (by omega)]
        congr 1; omega
    | false =>
      obtain ⟨l, hl⟩ := exists_tree lsb tb len d (pos + 1) (by omega)
      obtain ⟨r, hr⟩ := exists_tree lsb tb len d (pos + 1 + (l.toBits lsb).length) (by omega)
      refine ⟨.node l r, fun i hi h2 => ?_⟩
      simp only [HTree.toBits, List.length_cons, List.length_append] at hi ⊢
      cases i with
      | zero => simpa using hb
      | succ j =>
        rw [List.getD_cons_succ]
        by_cases hj : j < (l.toBits lsb).length
        · rw [List.getD_append _ _ _ _ hj, ← hl j hj (by omega)]
          congr 1; omega
        · rw [List.getD_append_right _ _ _ _ (by omega), ← hr _ (by omega) (by omega)]
          congr 1; omega

end Sys2Proof.Machine
end

