-- ==== Sys2Proof/Laws/Unpack.lean ====
section
/-! SUPPORT. Laws/Unpack.lean: the unpacker emits the symbols of the descent through the tree (44_codec.md
R239, R240), and the descent of codes gives their symbols (44_codec.md R238). -/

namespace Sys2Proof.Machine

/-- The tree has a root with two children. -/
def HTree.inner : HTree → Bool
  | .leaf _ _ => false
  | .node _ _ => true

/-- A subtree of `T` where the walk may stand: an internal node, at the root index exactly when it is
the whole tree. -/
structure Stands (node : Memory Node) (n : Nat) (root : NodeIx) (T : HTree) (x : NodeIx) (cur : HTree) : Prop where
  holds : Holds node n x cur
  inner : cur.inner = true
  place : (cur = T ∧ x = root) ∨ cur.size < T.size

theorem Holds.unique {m : Memory Node} {n : Nat} : ∀ {t t' : HTree} {x : NodeIx}, Holds m n x t →
    Holds m n x t' → t = t'
  | .leaf _ _, .leaf _ _, _, h, h' => by
    unfold Holds at h h'
    rw [← h.2.2.1, ← h.2.2.2, h'.2.2.1, h'.2.2.2]
  | .leaf _ _, .node _ _, _, h, h' => by
    unfold Holds at h h'; rw [h.2.1] at h'; simp at h'
  | .node _ _, .leaf _ _, _, h, h' => by
    unfold Holds at h h'; rw [h.2.1] at h'; simp at h'
  | .node _ _, .node _ _, _, h, h' => by
    unfold Holds at h h'
    rw [h.2.2.1.unique h'.2.2.1, h.2.2.2.unique h'.2.2.2]

/-- TAIL_PARTIAL compares indices; the trees say the same. -/
theorem Stands.ne_root {node : Memory Node} {n : Nat} {root x : NodeIx} {T cur : HTree}
    (hT : Holds node n root T) (h : Stands node n root T x cur) : decide (x ≠ root) = decide (cur ≠ T) := by
  have : x = root ↔ cur = T := by
    constructor
    · rintro rfl; exact h.holds.unique hT
    · intro e
      rcases h.place with ⟨-, e'⟩ | hlt
      · exact e'
      · rw [e] at hlt; exact absurd hlt (Nat.lt_irrefl _)
  simp [this]

theorem descend_nil (T cur : HTree) : HTree.descend T cur [] = ([], cur) := by
  cases cur <;> rfl

/-- One bit of the descent. -/
theorem descend_cons (T l r : HTree) (b : Bool) (bs : List Bool) :
    HTree.descend T (.node l r) (b :: bs) =
      match (if b then r else l) with
      | .leaf sym _ => (sym :: (HTree.descend T T bs).1, (HTree.descend T T bs).2)
      | .node l' r' => HTree.descend T (.node l' r') bs := rfl

theorem descend_inner {T : HTree} (hT : T.inner = true) : ∀ (bs : List Bool) {cur : HTree}, cur.inner = true →
    (HTree.descend T cur bs).2.inner = true
  | [], cur, h => by rw [descend_nil]; exact h
  | b :: bs, .node l r, _ => by
    rw [descend_cons]
    cases (if b = true then r else l) with
    | leaf sym _ => exact descend_inner hT bs hT
    | node l' r' => exact descend_inner hT bs rfl

/-- Bits walked in two parts. -/
theorem descend_append {T : HTree} (hT : T.inner = true) : ∀ (a b : List Bool) {cur : HTree}, cur.inner = true →
    HTree.descend T cur (a ++ b) =
      ((HTree.descend T cur a).1 ++ (HTree.descend T (HTree.descend T cur a).2 b).1,
       (HTree.descend T (HTree.descend T cur a).2 b).2)
  | [], b, cur, _ => by simp [descend_nil]
  | x :: a, b, .node l r, _ => by
    rw [List.cons_append, descend_cons, descend_cons]
    cases (if x = true then r else l) with
    | leaf sym _ => simp only [descend_append hT a b hT, List.cons_append]
    | node l' r' => exact descend_append hT a b rfl

/-- Where the walk goes on a bit. -/
theorem Stands.child {node : Memory Node} {n : Nat} {root x : NodeIx} {T l r : HTree} (b : Bool)
    (h : Stands node n root T x (.node l r)) :
    Holds node n (if b then (nodeAt node x).right else (nodeAt node x).left) (if b then r else l) ∧
      (if b then r else l).size < T.size := by
  have hh := h.holds
  unfold Holds at hh
  have hs : (HTree.node l r).size ≤ T.size := by
    rcases h.place with ⟨rfl, -⟩ | h'
    · exact Nat.le_refl _
    · exact Nat.le_of_lt h'
  simp only [HTree.size] at hs
  cases b
  · exact ⟨hh.2.2.1, by simp; omega⟩
  · exact ⟨hh.2.2.2, by simp; omega⟩

/-- The walk over bits is the descent, cut where the limit is reached (44_codec.md R239). -/
theorem walkBits_spec {node : Memory Node} {n : Nat} {root : NodeIx} {T : HTree} (hT : Holds node n root T)
    (hin : T.inner = true) (limit : Option Nat) : ∀ (bs : List Bool) (w : Walker) (cur : HTree),
    Stands node n root T w.walk cur → w.hit = false → (∀ L, limit = some L → w.n < L) →
    ((∀ L, limit = some L → w.n + (HTree.descend T cur bs).1.length < L) →
      ∃ x, walkBits node root limit bs w = (⟨x, w.n + (HTree.descend T cur bs).1.length, false⟩,
        (HTree.descend T cur bs).1) ∧ Stands node n root T x (HTree.descend T cur bs).2) ∧
    (∀ L, limit = some L → L ≤ w.n + (HTree.descend T cur bs).1.length →
      walkBits node root limit bs w = (⟨root, L, true⟩, (HTree.descend T cur bs).1.take (L - w.n)))
  | [], w, cur, hs, hh, hlim => by
    rw [descend_nil]
    refine ⟨fun _ => ⟨w.walk, ?_, hs⟩, fun L hL h => ?_⟩
    · simp only [walkBits, List.length_nil, Nat.add_zero, ← hh]
    · have := hlim L hL; simp at h; omega
  | b :: bs, w, .leaf _ _, hs, hh, hlim => by have := hs.inner; simp [HTree.inner] at this
  | b :: bs, w, .node l r, hs, hh, hlim => by
    obtain ⟨hc, hsz⟩ := hs.child b
    rw [descend_cons]
    unfold walkBits
    generalize (if b = true then (nodeAt node w.walk).right else (nodeAt node w.walk).left) = x at hc
    generalize (if b = true then r else l) = c at hc hsz
    dsimp only
    have hroot : Stands node n root T root T := ⟨hT, hin, .inl ⟨rfl, rfl⟩⟩
    cases c with
    | leaf sym synth =>
      unfold Holds at hc
      rw [if_pos hc.2.1, hc.2.2.1]
      simp only [List.length_cons]
      by_cases hl : limit = some (w.n + 1)
      · rw [if_pos hl]
        refine ⟨fun h => ?_, fun L hL _ => ?_⟩
        · have := h _ hl; omega
        · rw [hl, Option.some.injEq] at hL
          subst hL
          rw [Nat.add_sub_cancel_left]; rfl
      · rw [if_neg hl]
        have hlim' : ∀ L, limit = some L → w.n + 1 < L := by
          intro L hL
          have h1 := hlim L hL
          have h2 : L ≠ w.n + 1 := fun e => hl (e ▸ hL)
          omega
        obtain ⟨i1, i2⟩ := walkBits_spec hT hin limit bs ⟨root, w.n + 1, false⟩ T hroot rfl hlim'
        refine ⟨fun h => ?_, fun L hL h => ?_⟩
        · obtain ⟨x', e, hx'⟩ := i1 (fun L hL => by have := h L hL; simp only; omega)
          refine ⟨x', ?_, hx'⟩
          rw [e]
          simp only [Prod.mk.injEq, Walker.mk.injEq, true_and, and_true]
          omega
        · rw [i2 L hL (by simp only; omega)]
          have := hlim' L hL
          simp only [Prod.mk.injEq, true_and]
          rw [show L - w.n = (L - (w.n + 1)) + 1 by omega, List.take_succ_cons]
    | node l' r' =>
      have hc' := hc
      unfold Holds at hc'
      rw [if_neg (by simp [hc'.2.1])]
      exact walkBits_spec hT hin limit bs { w with walk := x } (.node l' r') ⟨hc, rfl, .inr hsz⟩ hh hlim

/-! ### The body of one message -/

/-- The bits of some bytes, most significant first (44_codec.md R231). -/
def bitsOf (ds : List Byte) : List Bool := ds.flatMap byteBits

/-- After the limit the rest of the message is taken and discarded (44_codec.md R239). -/
theorem unpack_stopped (n : Nat) : ∀ (q rest : List Beat) (ops : List Op) (s : State), IsMessage q →
    s.inQ = q ++ rest → s.inEom = false →
    runAll (.unpack n true :: ops) s =
      runAll (.putEnd :: ops) { s.took q rest with tailPartial := false }
  | [], _, _, _, h, _, _ => h.elim
  | b :: q, rest, ops, s, hm, hq, hin => by
    have ht := takeBeat_cons (b := b) (q := q ++ rest) hq
    have hop : runOp (.unpack n true) s = .ok (s.took [b] (q ++ rest)) [.unpack n true] := by
      simp only [runOp, unpackLoop, hin, Bool.false_eq_true, if_false, ht, Bool.or_true, if_true]
    rw [runAll_ok hop, List.singleton_append]
    cases q with
    | nil =>
      have hlast : b.last = true := hm
      have hop2 : runOp (.unpack n true) (s.took [b] ([] ++ rest)) =
          .ok { s.took [b] ([] ++ rest) with tailPartial := false } [.putEnd] := by
        simp only [runOp, unpackLoop, show (s.took [b] ([] ++ rest)).inEom = true from hlast, if_true,
          Bool.not_true, Bool.false_and]
      rw [runAll_ok hop2]; rfl
    | cons b2 q =>
      rw [unpack_stopped n (b2 :: q) rest ops _ hm.2 rfl hm.1, State.took_cons]

/-- The unpacker over one message (44_codec.md R239), from a place where the walk may stand. -/
theorem unpack_spec {m : Nat} {T : HTree} (hin : T.inner = true) : ∀ (q rest : List Beat) (ops : List Op) (s : State)
    (n : Nat) (cur : HTree), Holds s.node m s.root T → IsMessage q → s.inQ = q ++ rest → s.inEom = false →
    Stands s.node m s.root T s.walk cur → s.limitHit = false → (∀ L, s.limit = some L → n < L) →
    ((∀ L, s.limit = some L → n + (HTree.descend T cur (bitsOf (payload q))).1.length < L) →
      (HTree.descend T cur (bitsOf (payload q))).1.length ≤ s.outReady →
      ∃ x, runAll (.unpack n false :: ops) s =
        runAll (.putEnd :: ops) (State.gave { s.took q rest with
          walk := x, limitHit := false, tailPartial := decide ((HTree.descend T cur (bitsOf (payload q))).2 ≠ T) }
          (HTree.descend T cur (bitsOf (payload q))).1)) ∧
    (∀ L, s.limit = some L → L ≤ n + (HTree.descend T cur (bitsOf (payload q))).1.length →
      L - n ≤ s.outReady →
      runAll (.unpack n false :: ops) s =
        runAll (.putEnd :: ops) (State.gave { s.took q rest with
          walk := s.root, limitHit := true, tailPartial := false }
          ((HTree.descend T cur (bitsOf (payload q))).1.take (L - n))))
  | [], _, _, _, _, _, _, h, _, _, _, _, _ => h.elim
  | b :: q, rest, ops, s, n, cur, hT, hm, hq, hie, hs, hhit, hlim => by
    have ht := takeBeat_cons (b := b) (q := q ++ rest) hq
    -- the bits of this beat and of the rest
    have hbits : bitsOf (payload (b :: q)) = (if b.empty then [] else byteBits b.data) ++ bitsOf (payload q) := by
      rw [payload_cons]; split <;> simp [bitsOf]
    rw [hbits, descend_append hin _ _ hs.inner]
    generalize hD : HTree.descend T cur (if b.empty then [] else byteBits b.data) = D
    have hDin : D.2.inner = true := by rw [← hD]; exact descend_inner hin _ hs.inner
    simp only [List.length_append]
    -- this beat alone
    have beat1 : (∀ L, s.limit = some L → n + D.1.length < L) → D.1.length ≤ s.outReady →
        ∃ x, runAll (.unpack n false :: ops) s = runAll (.unpack (n + D.1.length) false :: ops)
          (State.gave { s.took [b] (q ++ rest) with walk := x, limitHit := false } D.1) ∧
          Stands s.node m s.root T x D.2 := by
      intro h1 h2
      by_cases he : b.empty = true
      · rw [if_pos he, descend_nil] at hD
        subst hD
        have hop : runOp (.unpack n false) s = .ok (s.took [b] (q ++ rest)) [.unpack n false] := by
          simp only [runOp, unpackLoop, hie, Bool.false_eq_true, if_false, ht, he, Bool.true_or, if_true]
        refine ⟨s.walk, ?_, hs⟩
        rw [runAll_ok hop, State.gave_nil, ← hhit]; rfl
      · rw [if_neg he] at hD
        obtain ⟨i1, -⟩ := walkBits_spec hT hin s.limit (byteBits b.data) ⟨s.walk, n, false⟩ cur hs rfl hlim
        rw [hD] at i1
        obtain ⟨x, e, hx⟩ := i1 h1
        have hop : runOp (.unpack n false) s = .ok { s.took [b] (q ++ rest) with walk := x, limitHit := false }
            (D.1.map .put ++ [.unpack (n + D.1.length) false]) := by
          simp only [runOp, unpackLoop, hie, Bool.false_eq_true, if_false, ht, he, Bool.or_false,
            show (s.took [b] (q ++ rest)).node = s.node from rfl, show (s.took [b] (q ++ rest)).root = s.root from rfl,
            show (s.took [b] (q ++ rest)).limit = s.limit from rfl,
            show (s.took [b] (q ++ rest)).walk = s.walk from rfl, e]
        exact ⟨x, by rw [runAll_ok hop, List.append_assoc, runAll_puts _ _ _ (by exact h2)]; rfl, hx⟩
    have beat2 : ∀ L, s.limit = some L → L ≤ n + D.1.length → L - n ≤ s.outReady →
        runAll (.unpack n false :: ops) s = runAll (.unpack L true :: ops)
          (State.gave { s.took [b] (q ++ rest) with walk := s.root, limitHit := true } (D.1.take (L - n))) := by
      intro L hL h1 h2
      have hlt := hlim L hL
      have he : ¬ b.empty = true := by
        intro he
        rw [if_pos he, descend_nil] at hD
        subst hD
        simp at h1; omega
      rw [if_neg he] at hD
      obtain ⟨-, i2⟩ := walkBits_spec hT hin s.limit (byteBits b.data) ⟨s.walk, n, false⟩ cur hs rfl hlim
      rw [hD] at i2
      have hop : runOp (.unpack n false) s = .ok { s.took [b] (q ++ rest) with walk := s.root, limitHit := true }
          ((D.1.take (L - n)).map .put ++ [.unpack L true]) := by
        simp only [runOp, unpackLoop, hie, Bool.false_eq_true, if_false, ht, he, Bool.or_false,
          show (s.took [b] (q ++ rest)).node = s.node from rfl, show (s.took [b] (q ++ rest)).root = s.root from rfl,
          show (s.took [b] (q ++ rest)).limit = s.limit from rfl,
          show (s.took [b] (q ++ rest)).walk = s.walk from rfl, i2 L hL h1]
      rw [runAll_ok hop, List.append_assoc, runAll_puts _ _ _ (by simp; omega)]; rfl
    cases q with
    | nil =>
      have hlast : b.last = true := hm
      have e0 : HTree.descend T D.2 (bitsOf (payload [])) = ([], D.2) := descend_nil _ _
      simp only [e0, List.length_nil, Nat.add_zero, List.append_nil]
      constructor
      · intro h1 h2
        obtain ⟨x, e, hx⟩ := beat1 h1 h2
        refine ⟨x, ?_⟩
        rw [e]
        have hop : runOp (.unpack (n + D.1.length) false)
            (State.gave { s.took [b] ([] ++ rest) with walk := x, limitHit := false } D.1) =
            .ok { State.gave { s.took [b] ([] ++ rest) with walk := x, limitHit := false } D.1 with
              tailPartial := decide (D.2 ≠ T) } [.putEnd] := by
          simp only [runOp, unpackLoop, State.gave, State.took, lastFlag, List.getLast?_singleton, Option.map_some,
            Option.getD_some, hlast, if_true, Bool.not_false, Bool.true_and]
          rw [hx.ne_root hT]
        rw [runAll_ok hop]; rfl
      · intro L hL h1 h2
        rw [beat2 L hL h1 h2]
        have hop : runOp (.unpack L true)
            (State.gave { s.took [b] ([] ++ rest) with walk := s.root, limitHit := true } (D.1.take (L - n))) =
            .ok { State.gave { s.took [b] ([] ++ rest) with walk := s.root, limitHit := true } (D.1.take (L - n)) with
              tailPartial := false } [.putEnd] := by
          simp only [runOp, unpackLoop, State.gave, State.took, lastFlag, List.getLast?_singleton, Option.map_some,
            Option.getD_some, hlast, if_true, Bool.not_true, Bool.false_and]
        rw [runAll_ok hop]; rfl
    | cons b2 q =>
      have hm' : IsMessage (b2 :: q) := hm.2
      have hlast : b.last = false := hm.1
      generalize hE : HTree.descend T D.2 (bitsOf (payload (b2 :: q))) = E
      constructor
      · intro h1 h2
        obtain ⟨x, e, hx⟩ := beat1 (fun L hL => by have := h1 L hL; omega) (by omega)
        rw [e]
        obtain ⟨j1, -⟩ := unpack_spec (m := m) hin (b2 :: q) rest ops
          (State.gave { s.took [b] (b2 :: q ++ rest) with walk := x, limitHit := false } D.1) (n + D.1.length) D.2
          hT hm' rfl hlast hx rfl (fun L hL => by have := h1 L hL; omega)
        rw [hE] at j1
        obtain ⟨y, ey⟩ := j1 (fun L hL => by have := h1 L hL; omega) (by show E.1.length ≤ s.outReady - _; omega)
        refine ⟨y, ?_⟩
        rw [ey]
        congr 1
        simp only [State.gave, State.took, List.map_append, List.append_assoc, List.length_append, countUp_add,
          Nat.sub_sub, lastFlag_append]
        rw [show b :: b2 :: q = [b] ++ b2 :: q from rfl, payload_append, List.length_append]
      · intro L hL h1 h2
        by_cases hcut : L ≤ n + D.1.length
        · rw [beat2 L hL hcut h2, unpack_stopped L (b2 :: q) rest ops _ hm' rfl hlast,
            List.take_append_of_le_length (by omega)]
          congr 1
          simp only [State.gave, State.took, countUp_add, lastFlag_append]
          rw [show b :: b2 :: q = [b] ++ b2 :: q from rfl, payload_append, List.length_append]
        · obtain ⟨x, e, hx⟩ := beat1 (fun L' hL' => by
            rw [hL, Option.some.injEq] at hL'; omega) (by omega)
          rw [e]
          obtain ⟨-, j2⟩ := unpack_spec (m := m) hin (b2 :: q) rest ops
            (State.gave { s.took [b] (b2 :: q ++ rest) with walk := x, limitHit := false } D.1) (n + D.1.length) D.2
            hT hm' rfl hlast hx rfl (fun L' hL' => by
              have : some L = some L' := hL.symm.trans hL'
              rw [Option.some.injEq] at this; omega)
          rw [hE] at j2
          rw [j2 L hL (by omega) (by show _ ≤ s.outReady - _; omega)]
          congr 1
          have e2 : (D.1 ++ E.1).take (L - n) = D.1 ++ E.1.take (L - (n + D.1.length)) := by
            rw [List.take_append, List.take_of_length_le (by omega)]
            congr 2; omega
          rw [e2]
          simp only [State.gave, State.took, List.map_append, List.append_assoc, List.length_append, countUp_add,
            Nat.sub_sub, lastFlag_append]
          rw [show b :: b2 :: q = [b] ++ b2 :: q from rfl, payload_append, List.length_append]

/-! ### Descending codes -/

/-- Walking a code from a subtree ends at its leaf and emits its symbol (44_codec.md R238). -/
theorem descend_code {T : HTree} (t : HTree) (path rest : List Bool) (ht : t.inner = true) (c : Byte × List Bool)
    (hc : c ∈ t.codes path) : ∃ c', c.2 = path ++ c' ∧ c' ≠ [] ∧
      HTree.descend T t (c' ++ rest) = (c.1 :: (HTree.descend T T rest).1, (HTree.descend T T rest).2) := by
  induction t generalizing path with
  | leaf _ _ => simp [HTree.inner] at ht
  | node l r ihl ihr =>
    have child : ∀ (b : Bool) (k : HTree), (if b then r else l) = k → c ∈ k.codes (path ++ [b]) →
        (∀ path', k.inner = true → c ∈ k.codes path' → ∃ c', c.2 = path' ++ c' ∧ c' ≠ [] ∧
          HTree.descend T k (c' ++ rest) = (c.1 :: (HTree.descend T T rest).1, (HTree.descend T T rest).2)) →
        ∃ c', c.2 = path ++ c' ∧ c' ≠ [] ∧ HTree.descend T (.node l r) (c' ++ rest) =
          (c.1 :: (HTree.descend T T rest).1, (HTree.descend T T rest).2) := by
      intro b k hk hck ih
      cases k with
      | leaf sym synth =>
        cases synth <;> simp [HTree.codes] at hck
        refine ⟨[b], by simp [hck], by simp, ?_⟩
        rw [List.singleton_append, descend_cons, hk, hck]
      | node l' r' =>
        obtain ⟨c', e, -, hd⟩ := ih (path ++ [b]) rfl hck
        refine ⟨b :: c', by simp [e], by simp, ?_⟩
        rw [List.cons_append, descend_cons, hk]
        exact hd
    simp only [HTree.codes, List.mem_append] at hc
    rcases hc with hc | hc
    · exact child false l rfl hc (fun p h1 h2 => ihl p h1 h2)
    · exact child true r rfl hc (fun p h1 h2 => ihr p h1 h2)

/-- Walking the codes of some bytes gives the bytes (44_codec.md R243). -/
theorem descend_codes {T : HTree} (hin : T.inner = true) (code : Byte → List Bool) : ∀ (ds : List Byte) (rest : List Bool),
    (∀ d ∈ ds, (d, code d) ∈ T.codes []) →
    HTree.descend T T (ds.flatMap code ++ rest) =
      (ds ++ (HTree.descend T T rest).1, (HTree.descend T T rest).2)
  | [], rest, _ => by simp
  | d :: ds, rest, h => by
    obtain ⟨c', e, -, hd⟩ := descend_code (T := T) T [] (ds.flatMap code ++ rest) hin _ (h d (by simp))
    simp only [List.nil_append] at e
    subst e
    rw [List.flatMap_cons, List.append_assoc, hd, descend_codes hin code ds rest (fun x hx => h x (by simp [hx]))]
    rfl

end Sys2Proof.Machine
end

