-- ==== Sys2Proof/Laws/Commands.lean ====
section
/-! SUPPORT. Laws/Commands.lean: how a command that has just been accepted ends (40_control.md R132,
60_exceptions.md R283), and what the procedures of the tree commands and of CODE_GEN answer. -/

namespace Sys2Proof.Machine

/-! ### The end of a fresh command -/

theorem exec_done {i : Instr} {s s' : State} (h : s.Fresh) (hb : procOf i s = .ok s' [])
    (hh : s'.hold = s.hold) : exec i s = .next s'.ended := by
  rw [exec_eq_command, command_done h hh hb]; rfl

theorem exec_abort {i : Instr} {s s' : State} {r : Raise} (h : s.Fresh)
    (hb : procOf i s = .raise r s') (hh : s'.hold = s.hold) : exec i s = .next (s'.aborted r.kind.code r.info) := by
  rw [exec_eq_command, command_abort h hh hb]; rfl

theorem exec_ops {i : Instr} {s s' : State} {more : List Op} (h : s.Fresh) (hb : procOf i s = .ok s' more) :
    exec i s = runAll more s' := by
  rw [exec_eq_command, command_ok h.1 hb]

theorem finish_fresh {s : State} (h : s.hold = false) : runAll [] s = .next s.ended := by
  rw [runAll_nil, finish, h]; rfl

theorem fail_fresh {s : State} {r : Raise} (h : s.hold = false) :
    failWith r s = .next (s.aborted r.kind.code r.info) := by
  rw [failWith, h]; rfl

/-- A fresh command is a pipeline of one step (40_control.md R133). -/
theorem exec_fresh {i : Instr} {s : State} (h : s.Fresh) : exec i s = runAll [.run i] s := by
  rw [exec_eq_runAll, startOps, h.1]

/-! ### TREE_BUILD -/

theorem mem_allSymbols (x : Byte) : x ∈ allSymbols := by
  simp only [allSymbols, List.mem_map, List.mem_range]
  exact ⟨x.toNat, x.isLt, by simp⟩

theorem allSymbols_nodup : allSymbols.Nodup := by
  unfold allSymbols
  refine List.Nodup.map_on ?_ List.nodup_range
  intro a ha b hb e
  simp only [Config.symbols, List.mem_range] at ha hb
  have := congrArg BitVec.toNat e
  simp only [BitVec.toNat_ofNat] at this
  omega

theorem mem_usedSymbols {f : Memory Word} {x : Byte} : x ∈ usedSymbols f ↔ freqAt f x ≠ 0 := by
  simp [usedSymbols, mem_allSymbols]

theorem usedSymbols_nodup (f : Memory Word) : (usedSymbols f).Nodup := allSymbols_nodup.filter _

theorem usedSymbols_eq_nil {f : Memory Word} (h : ∀ x, freqAt f x = 0) : usedSymbols f = [] := by
  rw [List.eq_nil_iff_forall_not_mem]
  exact fun x hx => mem_usedSymbols.1 hx (h x)

theorem usedSymbols_eq_single {f : Memory Word} {x : Byte} (h : ∀ y, freqAt f y ≠ 0 ↔ y = x) :
    usedSymbols f = [x] :=
  List.perm_singleton.1 ((List.perm_ext_iff_of_nodup (usedSymbols_nodup f) (List.nodup_singleton x)).2
    (fun y => by rw [mem_usedSymbols, h]; simp))

theorem released {s : State} (hn : NodeWf s.node) (hh : HeapWf s.heap) : s.treeRelease.arena.Released :=
  ⟨hn, hh, rfl, rfl⟩

/-- TREE_BUILD where the builder succeeds (43_tree.md R204). -/
theorem treeBuild_ok {s : State} {r : NodeIx} {a : Arena}
    (h : buildTree s.freq s.treeRelease.arena = .ok r a) (hp : a.pqSize = 0) :
    procOf .treeBuild s = .ok { s with
      node := a.node, heap := a.heap, nodeCount := a.nodeCount, root := r, pqSize := 0
      treeValid := true, codeValid := false } [] := by
  show doTreeBuild s = _
  rw [doTreeBuild]
  dsimp only
  rw [show s.treeRelease.freq = s.freq from rfl, h, ← hp]
  rfl

/-- TREE_BUILD where the builder raises (43_tree.md R204). -/
theorem treeBuild_raise {s : State} {e : Raise} {a : Arena}
    (h : buildTree s.freq s.treeRelease.arena = .raise e a) :
    procOf .treeBuild s = .raise e { s with
      node := a.node, heap := a.heap, nodeCount := 0, root := 0, pqSize := 0
      treeValid := false, codeValid := false } := by
  show doTreeBuild s = _
  rw [doTreeBuild]
  dsimp only
  rw [show s.treeRelease.freq = s.freq from rfl, h]
  rfl

/-! ### TREE_SERIALIZE and TREE_DESERIALIZE -/

/-- All TREE_SERIALIZE does on a tree of at most 256 leaves (43_tree.md R210, R211). -/
theorem treeSerialize_ok {s : State} {n : Nat} {T : HTree} (hv : s.treeValid = true)
    (hT : Holds s.node n s.root T) (hl : T.leaves ≤ Config.symbols) :
    ∃ tb, (∀ i, tbGet tb i = (T.toBits s.symLsb).getD i false) ∧
      procOf .treeSerialize s = .ok { s with
        tb := tb, tbLen := BitVec.ofNat 12 (T.toBits s.symLsb).length
        pos := BitVec.ofNat 12 (T.toBits s.symLsb).length
        stack := Config.stackResidue s.draws, draws := s.draws + 1 } [] := by
  have hlen := T.toBits_length s.symLsb
  have hpos := T.leaves_pos
  simp only [Config.symbols] at hl
  refine ⟨putBits (T.toBits s.symLsb) 0 0, fun i => ?_, ?_⟩
  · rw [tbGet_putBits _ _ _ _ (by simp only [Config.tbBits]; omega)]
    by_cases h : i < (T.toBits s.symLsb).length
    · rw [if_pos (by omega), Nat.sub_zero]
    · rw [if_neg (by omega), show ((0 : BitVec 2576)) = 0#2576 from rfl, tbGet_zero]
      rw [List.getD_eq_getElem?_getD, List.getElem?_eq_none (by omega)]; rfl
  · show doTreeSerialize s = _
    rw [doTreeSerialize, if_pos hv,
      ser_spec s.symLsb T Config.nodeCap s.root 0 0 hT (by simp only [Config.nodeCap]; omega)
        (by simp only [Config.tbMaxBits]; omega), Nat.zero_add]
    rfl

/-- TREE_DESERIALIZE of a buffer that begins with the bits of a tree (43_tree.md R213). -/
theorem treeDeserialize_ok {s : State} {T : HTree} (hw : NodeWf s.node) (hr : T.size ≤ Config.nodeCap)
    (hb : BitsAt s.tb s.tbLen.toNat 0 (T.toBits s.symLsb)) (hl : (T.toBits s.symLsb).length ≤ s.tbLen.toNat) :
    ∃ m, NodeWf m ∧ ParsedAt m 0 T ∧ procOf .treeDeserialize s = .ok { s with
      node := m, nodeCount := BitVec.ofNat 10 T.size, root := 0, pqSize := 0
      treeValid := true, codeValid := false, pos := BitVec.ofNat 12 (T.toBits s.symLsb).length
      stack := Config.stackResidue s.draws, draws := s.draws + 1 } [] := by
  have hd := (des_spec s.tb s.tbLen.toNat s.symLsb T Config.nodeCap ⟨s.node, 0#10, 0⟩ hw (by simp) (by simp)
    (by simp) hb).1 (by simpa using hr) (by simpa using hl)
  obtain ⟨p, he, hpw, hc, hp, hpar, -⟩ := hd
  simp only [show (0#10).toNat = 0 from rfl, Nat.zero_add] at he hc hp hpar
  refine ⟨p.node, hpw, hpar, ?_⟩
  show doTreeDeserialize s = _
  rw [doTreeDeserialize]
  dsimp only
  rw [show s.treeRelease.tb = s.tb from rfl, show s.treeRelease.tbLen = s.tbLen from rfl,
    show s.treeRelease.symLsb = s.symLsb from rfl, show s.treeRelease.node = s.node from rfl,
    show s.treeRelease.nodeCount = 0#10 from rfl, he, ← hp,
    show BitVec.ofNat 10 T.size = p.nodeCount by rw [← hc]; simp]
  rfl

/-- TREE_DESERIALIZE of a buffer, or into a RAM, without room for the tree (43_tree.md R213, R214). -/
theorem treeDeserialize_raise {s : State} {T : HTree} (hw : NodeWf s.node)
    (hb : BitsAt s.tb s.tbLen.toNat 0 (T.toBits s.symLsb))
    (hl : Config.nodeCap < T.size ∨ s.tbLen.toNat < (T.toBits s.symLsb).length) :
    ∃ m pos k, NodeWf m ∧ k < T.size ∧ k ≤ Config.nodeCap ∧ (T.widths.take k).sum ≤ s.tbLen.toNat ∧
      (k = Config.nodeCap ∨ s.tbLen.toNat < (T.widths.take (k + 1)).sum) ∧
      procOf .treeDeserialize s = .raise (raiseNat .encoding (T.widths.take k).sum) { s with
        node := m, nodeCount := 0, root := 0, pqSize := 0, treeValid := false, codeValid := false
        pos := pos, stack := Config.stackResidue s.draws, draws := s.draws + 1 } := by
  have hd := (des_spec s.tb s.tbLen.toNat s.symLsb T Config.nodeCap ⟨s.node, 0#10, 0⟩ hw (by simp) (by simp)
    (by simp) hb).2 (by simpa using hl)
  obtain ⟨k, p, he, hpw, -, hk, hkc, hpos, hend⟩ := hd
  simp only [show (0#10).toNat = 0 from rfl, Nat.zero_add] at he hkc hpos hend
  refine ⟨p.node, BitVec.ofNat 12 p.pos, k, hpw, hk, hkc, hpos, hend, ?_⟩
  show doTreeDeserialize s = _
  rw [doTreeDeserialize]
  dsimp only
  rw [show s.treeRelease.tb = s.tb from rfl, show s.treeRelease.tbLen = s.tbLen from rfl,
    show s.treeRelease.symLsb = s.symLsb from rfl, show s.treeRelease.node = s.node from rfl,
    show s.treeRelease.nodeCount = 0#10 from rfl, he]
  rfl

/-- A tree whose bits fit in the buffer has at most 511 nodes (43_tree.md R211, R214). -/
theorem HTree.size_le_of_bits {T : HTree} {lsb : Bool} (h : (T.toBits lsb).length ≤ Config.tbMaxBits) :
    T.size < Config.nodeCap := by
  have h1 := T.toBits_length lsb
  have h2 := T.size_eq
  simp only [Config.tbMaxBits, Config.nodeCap] at h ⊢
  omega

/-! ### CODE_GEN -/

/-- All CODE_GEN does on a tree that is no single leaf (44_codec.md R236). -/
theorem codeGen_ok {s : State} {n : Nat} {l r : HTree} (hv : s.treeValid = true)
    (hT : Holds s.node n s.root (.node l r)) (hl : (HTree.node l r).leaves ≤ Config.symbols) :
    ∃ m path depth, CodeWf m ∧ Stored [] m ((HTree.node l r).codes []) ∧
      procOf .codeGen s = .ok { s with
        code := m, codeValid := true, path := path, depth := depth
        stack := Config.stackResidue s.draws, draws := s.draws + 1 } [] := by
  simp only [Config.symbols] at hl
  obtain ⟨g, he, hw, -, hs⟩ := walkCodes_spec (HTree.node l r) Config.codeMaxBits s.root ⟨[], s.path, 0⟩ []
    hT (by simp only [Config.codeMaxBits]; omega) (by simp [Config.codeMaxBits])
    ⟨rfl, by simp⟩ (by simp [CodeWf])
  refine ⟨g.code, g.path, g.depth, hw, hs, ?_⟩
  show doCodeGen s = _
  unfold Holds at hT
  rw [doCodeGen, hv, if_neg (by simp), if_neg (by simp [hT.2.1]), he]
  rfl

/-- Every path in the code list of a subtree starts with the subtree's own path. -/
theorem codes_path : ∀ {t : HTree} {path : List Bool} {c : Byte × List Bool}, c ∈ t.codes path →
    ∃ c', c.2 = path ++ c'
  | .leaf _ y, path, c, hc => by
    cases y <;> simp [HTree.codes] at hc
    subst hc
    exact ⟨[], by simp⟩
  | .node l r, path, c, hc => by
    simp only [HTree.codes, List.mem_append] at hc
    rcases hc with hc | hc
    · obtain ⟨c', e⟩ := codes_path hc; exact ⟨false :: c', by simp [e]⟩
    · obtain ⟨c', e⟩ := codes_path hc; exact ⟨true :: c', by simp [e]⟩

/-- A tree that is no single leaf gives no empty code. -/
theorem codes_ne_nil {l r : HTree} {c : Byte × List Bool} (hc : c ∈ (HTree.node l r).codes []) : c.2 ≠ [] := by
  simp only [HTree.codes, List.mem_append] at hc
  rcases hc with hc | hc <;> obtain ⟨c', e⟩ := codes_path hc <;> simp [e]

/-- A code is a prefix of another one only where both are of one symbol (44_codec.md R238). -/
theorem codes_prefix_free : ∀ {t : HTree} {path : List Bool} {c d : Byte × List Bool}, c ∈ t.codes path →
    d ∈ t.codes path → c.2 <+: d.2 → c.1 = d.1
  | .leaf _ y, path, c, d, hc, hd, _ => by
    cases y <;> simp [HTree.codes] at hc hd
    rw [hc, hd]
  | .node l r, path, c, d, hc, hd, h => by
    simp only [HTree.codes, List.mem_append] at hc hd
    have split : ∀ (b : Bool) (u v : List Bool), c.2 = path ++ [b] ++ u → d.2 = path ++ [!b] ++ v → False := by
      intro b u v e1 e2
      rw [e1, e2, List.append_assoc, List.append_assoc, List.prefix_append_right_inj] at h
      cases b <;> simp at h
    rcases hc with hc | hc <;> rcases hd with hd | hd
    · exact codes_prefix_free hc hd h
    · obtain ⟨u, e1⟩ := codes_path hc
      obtain ⟨v, e2⟩ := codes_path hd
      exact (split false u v e1 e2).elim
    · obtain ⟨u, e1⟩ := codes_path hc
      obtain ⟨v, e2⟩ := codes_path hd
      exact (split true u v e1 e2).elim
    · exact codes_prefix_free hc hd h

/-- A code followed from its root ends at the leaf of its symbol (44_codec.md R238). -/
theorem codes_follow {m : Memory Node} {n : Nat} : ∀ {t : HTree} {path : List Bool} {x : NodeIx}
    {c : Byte × List Bool}, Holds m n x t → c ∈ t.codes path → ∃ c', c.2 = path ++ c' ∧
      (nodeAt m (followBits m x c')).isLeaf = true ∧ (nodeAt m (followBits m x c')).sym = c.1
  | .leaf _ y, path, x, c, h, hc => by
    cases y <;> simp [HTree.codes] at hc
    subst hc
    exact ⟨[], by simp, h.2.1, h.2.2.1⟩
  | .node l r, path, x, c, h, hc => by
    simp only [HTree.codes, List.mem_append] at hc
    rcases hc with hc | hc
    · obtain ⟨c', e, h1⟩ := codes_follow h.2.2.1 hc
      exact ⟨false :: c', by simp [e], by simpa [followBits] using h1⟩
    · obtain ⟨c', e, h1⟩ := codes_follow h.2.2.2 hc
      exact ⟨true :: c', by simp [e], by simpa [followBits] using h1⟩

/-- What a table filled from nothing holds for a symbol with a code (10_state.md R44). -/
theorem Stored.mem {m : Memory CodeEntry} {cs : List (Byte × List Bool)} (h : Stored [] m cs) {x : Byte}
    (hx : (codeAt m x).len ≠ 0) : (x, (codeAt m x).toBits) ∈ cs := by
  have hx' := h x
  cases hc : lastCode x cs with
  | none => rw [hc] at hx'; exact absurd (congrArg CodeEntry.len hx') hx
  | some c => rw [hc] at hx'; rw [toBits_of_says hx']; exact lastCode_mem hc

/-! ### PACK and UNPACK -/

theorem byteBits_inj {d e : Byte} (h : byteBits d = byteBits e) : d = e := by
  refine BitVec.eq_of_getMsbD_eq fun j hj => ?_
  have := congrArg (fun l => l[j]?) h
  simpa [byteBits, hj] using this

theorem flatMap_byteBits_inj : ∀ {a b : List Byte}, a.flatMap byteBits = b.flatMap byteBits → a = b
  | [], [], _ => rfl
  | [], b :: bs, h => by have := congrArg List.length h; simp [byteBits] at this; omega
  | a :: as, [], h => by have := congrArg List.length h; simp [byteBits] at this
  | a :: as, b :: bs, h => by
    rw [List.flatMap_cons, List.flatMap_cons] at h
    obtain ⟨h1, h2⟩ := List.append_inj h (by simp [byteBits])
    rw [byteBits_inj h1, flatMap_byteBits_inj h2]

/-- The layout of bits in bytes is unique (44_codec.md R231). -/
theorem BytesOfBits.unique {bits : List Bool} {a b : List Byte} (ha : BytesOfBits bits a)
    (hb : BytesOfBits bits b) : a = b := by
  have hl := ha.length.trans hb.length.symm
  obtain ⟨p, -, h1⟩ := ha
  obtain ⟨q, -, h2⟩ := hb
  have e1 := congrArg List.length h1
  have e2 := congrArg List.length h2
  rw [flatMap_byteBits_length, List.length_append, List.length_replicate] at e1 e2
  have : p = q := by omega
  exact flatMap_byteBits_inj (by rw [h1, h2, this])

/-- PACK of a message whose bytes all have a code (44_codec.md R237). -/
theorem packStep {s : State} {f : Bool} {q rest : List Beat} {bytes : List Byte} {ops : List Op}
    (hv : s.codeValid = true) (hm : IsMessage q) (hq : s.inQ = q ++ rest)
    (hmap : ∀ d ∈ payload q, (codeAt s.code d).len ≠ 0)
    (hb : BytesOfBits ((payload q).flatMap (fun d => (codeAt s.code d).toBits)) bytes)
    (hr : bytes.length + f.toNat ≤ s.outReady) :
    runAll (.run (.pack f) :: ops) s = runAll ops { s with
      inQ := rest, inEom := true, inCount := countUp s.inCount (payload q).length
      outReady := s.outReady - bytes.length - f.toNat
      outLog := s.outLog ++ bytes.map dataBeat ++ (if f then [endBeat] else [])
      outCount := countUp s.outCount bytes.length, acc := 0, accN := 0 } := by
  have hp : procOf (.pack f) s = .ok { s with inEom := false, acc := 0, accN := 0 } [.pack f] := by
    show doPack f s = _
    rw [doPack, if_pos hv]
  have hlen := hb.length
  obtain ⟨bytes', hb', e⟩ := pack_spec f q rest ops { s with inEom := false, acc := 0, accN := 0 } [] hm hq rfl
    Pend.zero hmap (by
      simp only [List.length_nil, Nat.zero_add]
      exact Nat.le_trans (Nat.le_of_eq (congrArg (· + f.toNat) hlen.symm)) hr)
  rw [hb'.unique hb] at e
  rw [runAll_run_ok hp]
  refine e.trans (congrArg _ ?_)
  cases f <;> simp [State.gaveEnd, State.gave, State.took, lastFlag_message _ hm]

/-- UNPACK of an open or new message (44_codec.md R239). -/
theorem unpackStep {s : State} {f : Bool} {n : Nat} {l r stand : HTree} {q rest : List Beat} {out : List Byte}
    {ops : List Op} (hv : s.treeValid = true) (hT : Holds s.node n s.root (.node l r))
    (hin : f = true ∨ s.inEom = false) (hm : IsMessage q) (hq : s.inQ = q ++ rest)
    (hd : HTree.descend (.node l r) (.node l r) ((payload q).flatMap byteBits) = (out, stand)) :
    ((s.limitEn = true → out.length < s.symLimitL.toNat) → out.length + 1 ≤ s.outReady →
      ∃ x, runAll (.run (.unpack f) :: ops) s = runAll ops { s with
        inQ := rest, inEom := true, inCount := countUp s.inCount (payload q).length
        outReady := s.outReady - out.length - 1, outLog := s.outLog ++ out.map dataBeat ++ [endBeat]
        outCount := countUp s.outCount out.length
        tailPartial := decide (stand ≠ .node l r), limitHit := false, walk := x }) ∧
    (s.limitEn = true → s.symLimitL.toNat ≤ out.length → s.symLimitL.toNat + 1 ≤ s.outReady →
      ∃ x, runAll (.run (.unpack f) :: ops) s = runAll ops { s with
        inQ := rest, inEom := true, inCount := countUp s.inCount (payload q).length
        outReady := s.outReady - s.symLimitL.toNat - 1
        outLog := s.outLog ++ (out.take s.symLimitL.toNat).map dataBeat ++ [endBeat]
        outCount := countUp s.outCount s.symLimitL.toNat
        tailPartial := false, limitHit := true, walk := x }) := by
  have hroot : (nodeAt s.node s.root).isLeaf = false := hT.2.1
  have hp : ∀ stop, decide (s.limit = some 0) = stop → procOf (.unpack f) s =
      .ok { s with inEom := false, walk := s.root, tailPartial := false, limitHit := stop } [.unpack 0 stop] := by
    intro stop hstop
    show doUnpack f s = _
    have h0 : (if f then false else s.inEom) = false := by rcases hin with rfl | he <;> simp [*]
    rw [doUnpack, if_neg (by simp [hv]), if_neg (by simp [hroot])]
    simp only [h0, hstop]
  have hend : ∀ (t : State) (ops : List Op), 1 ≤ t.outReady →
      runAll (.putEnd :: ops) t = runAll ops (t.gaveEnd true) := fun t ops h => runAll_putEnd true ops t (fun _ => h)
  have hlim : ∀ L, s.limit = some L ↔ s.limitEn = true ∧ L = s.symLimitL.toNat := by
    intro L
    cases h : s.limitEn <;> simp [State.limit, h, eq_comm]
  by_cases h0 : s.limit = some 0
  · obtain ⟨hle, hz⟩ := (hlim 0).1 h0
    refine ⟨fun h => by have := h hle; omega, fun _ _ hr => ⟨s.root, ?_⟩⟩
    rw [runAll_run_ok (hp true (by simpa using h0)), List.singleton_append,
      unpack_stopped 0 q rest ops
        { s with inEom := false, walk := s.root, tailPartial := false, limitHit := true } hm hq rfl,
      hend _ _ (by simp only [State.took_outReady]; omega)]
    refine congrArg _ ?_
    simp [State.gaveEnd, State.took, lastFlag_message _ hm, ← hz]
  · have hsp := unpack_spec (m := n) (T := .node l r) rfl q rest ops
      { s with inEom := false, walk := s.root, tailPartial := false, limitHit := false } 0 (.node l r) hT hm hq rfl
      ⟨hT, rfl, .inl ⟨rfl, rfl⟩⟩ rfl (fun L hL => by
        rcases Nat.eq_zero_or_pos L with h | h
        · subst h; exact absurd hL h0
        · exact h)
    rw [show bitsOf (payload q) = (payload q).flatMap byteBits from rfl, hd] at hsp
    simp only [Nat.zero_add, Nat.sub_zero] at hsp
    have hrun := runAll_run_ok (ops := ops) (hp false (by simpa using h0))
    rw [List.singleton_append] at hrun
    refine ⟨fun hl hr => ?_, fun hle hl hr => ⟨s.root, ?_⟩⟩
    · obtain ⟨x, e⟩ := hsp.1 (fun L hL => by obtain ⟨h1, rfl⟩ := (hlim L).1 hL; exact hl h1)
        (Nat.le_trans (Nat.le_succ _) hr)
      refine ⟨x, ?_⟩
      rw [hrun, e, hend _ _ (by show 1 ≤ s.outReady - out.length; omega)]
      refine congrArg _ ?_
      simp [State.gaveEnd, State.gave, State.took, lastFlag_message _ hm]
    · have e := hsp.2 s.symLimitL.toNat ((hlim _).2 ⟨hle, rfl⟩) hl (Nat.le_trans (Nat.le_succ _) hr)
      have hlen : (out.take s.symLimitL.toNat).length = s.symLimitL.toNat := by rw [List.length_take]; omega
      rw [hrun, e, hend _ _ (by
        show 1 ≤ s.outReady - (out.take s.symLimitL.toNat).length
        omega)]
      refine congrArg _ ?_
      simp [State.gaveEnd, State.gave, State.took, lastFlag_message _ hm, hlen]

/-- UNPACK on a single leaf (44_codec.md R239). -/
theorem unpack_leaf {s : State} {f : Bool} (hv : s.treeValid = true) (hl : (nodeAt s.node s.root).isLeaf = true) :
    procOf (.unpack f) s = .raise (raiseNat .encoding 0) s := by
  show doUnpack f s = _
  rw [doUnpack, if_neg (by simp [hv]), if_pos hl]

/-- UNPACK with no message open (44_codec.md R239). -/
theorem unpackClosed {s : State} {ops : List Op} (hv : s.treeValid = true)
    (hl : (nodeAt s.node s.root).isLeaf = false) (hin : s.inEom = true) (hr : 1 ≤ s.outReady) :
    runAll (.run (.unpack false) :: ops) s = runAll ops { s with
      outReady := s.outReady - 1, outLog := s.outLog ++ [endBeat], walk := s.root
      tailPartial := false, limitHit := s.limitEn && decide (s.symLimitL = 0) } := by
  have hlim : decide (s.limit = some 0) = (s.limitEn && decide (s.symLimitL = 0)) := by
    have : s.symLimitL.toNat = 0 ↔ s.symLimitL = 0 := ⟨fun h => BitVec.eq_of_toNat_eq h, fun h => by rw [h]; rfl⟩
    cases hle : s.limitEn <;> simp [State.limit, hle, this]
  generalize hst : decide (s.limit = some 0) = stop at hlim
  have hp : procOf (.unpack false) s =
      .ok { s with walk := s.root, tailPartial := false, limitHit := stop } [.unpack 0 stop] := by
    show doUnpack false s = _
    rw [doUnpack, if_neg (by simp [hv]), if_neg (by simp [hl])]
    simp only [hst]; rfl
  have hop : runOp (.unpack 0 stop) { s with walk := s.root, tailPartial := false, limitHit := stop } =
      .ok { s with walk := s.root, tailPartial := false, limitHit := stop } [.putEnd] := by
    simp [runOp, unpackLoop, hin]
  rw [runAll_run_ok hp, List.singleton_append, runAll_ok hop]
  refine (runAll_putEnd true ops { s with walk := s.root, tailPartial := false, limitHit := stop } (fun _ => hr)).trans ?_
  rw [hlim]
  rfl

end Sys2Proof.Machine
end

