-- ==== Sys2Proof/Laws/Decode.lean ====
section
/-! SUPPORT. Laws/Decode.lean: the fields of a command word (30_encoding.md R111), read and laid out. -/

namespace Sys2Proof

theorem opField_commandWord {op : Nat} (f : Bool) (arg : Nat) (h : op < 256) :
    opField (commandWord op f arg) = op := by
  have e : (commandWord op f arg).extractLsb' 0 8 = BitVec.ofNat 8 op := by
    apply BitVec.eq_of_getLsbD_eq
    intro i hi
    simp only [commandWord, BitVec.getLsbD_extractLsb', BitVec.getLsbD_append, Nat.zero_add, hi, decide_true,
      Bool.true_and, if_true]
  rw [opField, e, BitVec.toNat_ofNat, Nat.mod_eq_of_lt h]

theorem flagField_commandWord (op : Nat) (f : Bool) (arg : Nat) : flagField (commandWord op f arg) = f := by
  simp only [flagField, commandWord, BitVec.getLsbD_append]
  rw [if_neg (by omega), if_pos (by omega)]
  cases f <;> rfl

theorem rsvField_commandWord (op : Nat) (f : Bool) (arg : Nat) : rsvField (commandWord op f arg) = 0 := by
  have e : (commandWord op f arg).extractLsb' 9 7 = 0 := by
    apply BitVec.eq_of_getLsbD_eq
    intro i hi
    simp only [commandWord, BitVec.getLsbD_extractLsb', BitVec.getLsbD_append]
    rw [if_neg (by omega), if_neg (by omega), if_pos (by omega)]
    simp
  rw [rsvField, e]; rfl

theorem argField_commandWord (op : Nat) (f : Bool) {arg : Nat} (h : arg < 65536) :
    argField (commandWord op f arg) = arg := by
  have e : (commandWord op f arg).extractLsb' 16 16 = BitVec.ofNat 16 arg := by
    apply BitVec.eq_of_getLsbD_eq
    intro i hi
    simp only [commandWord, BitVec.getLsbD_extractLsb', BitVec.getLsbD_append, hi, decide_true, Bool.true_and]
    rw [if_neg (by omega), if_neg (by omega), if_neg (by omega)]
    congr 1; omega
  rw [argField, e, BitVec.toNat_ofNat, Nat.mod_eq_of_lt h]

/-- A word with no reserved bit is the word of its fields. -/
theorem commandWord_fields {w : Word} (h : rsvField w = 0) :
    commandWord (opField w) (flagField w) (argField w) = w := by
  have hr : ∀ j, j < 7 → w.getLsbD (9 + j) = false := by
    intro j hj
    have e : w.extractLsb' 9 7 = 0 := BitVec.eq_of_toNat_eq h
    have := congrArg (fun v => BitVec.getLsbD v j) e
    simpa [BitVec.getLsbD_extractLsb', hj] using this
  apply BitVec.eq_of_getLsbD_eq
  intro i hi
  simp only [commandWord, opField, flagField, argField, BitVec.ofNat_toNat, BitVec.setWidth_eq,
    BitVec.getLsbD_append, BitVec.getLsbD_extractLsb']
  by_cases h1 : i < 8
  · simp [h1]
  · by_cases h2 : i = 8
    · subst h2; simp
    · by_cases h3 : i < 16
      · rw [if_neg h1, if_neg (by omega), if_pos (by omega)]
        have := hr (i - 9) (by omega)
        rw [show 9 + (i - 9) = i by omega] at this
        simp [this]
      · rw [if_neg h1, if_neg (by omega), if_neg (by omega)]
        have e : 16 + (i - 8 - 1 - 7) = i := by omega
        rw [e]
        simp; omega

/-- The fields as numbers (30_encoding.md R111). -/
theorem fields_toNat (w : Word) : opField w = w.toNat % 256 ∧ (flagField w = true ↔ w.toNat / 256 % 2 = 1) ∧
    rsvField w = w.toNat / 512 % 128 ∧ argField w = w.toNat / 65536 := by
  have hw := w.isLt
  refine ⟨?_, ?_, ?_, ?_⟩
  · simp [opField, BitVec.extractLsb'_toNat]
  · simp [flagField, BitVec.getLsbD, Nat.testBit, Nat.shiftRight_eq_div_pow]
  · simp [rsvField, BitVec.extractLsb'_toNat, Nat.shiftRight_eq_div_pow]
  · simp [argField, BitVec.extractLsb'_toNat, Nat.shiftRight_eq_div_pow]; omega

/-- The word of a format A command as the command rules write it, `{arg, op}` (30_encoding.md R114). -/
theorem ofNat_word {op arg : Nat} (h : op < 256) (ha : arg < 65536) :
    BitVec.ofNat 32 (arg * 65536 + op) = commandWord op false arg := by
  apply BitVec.eq_of_toNat_eq
  simp only [commandWord, BitVec.toNat_append, BitVec.toNat_ofNat, BitVec.toNat_ofBool]
  rw [Nat.mod_eq_of_lt (show op < 2 ^ 8 by omega), Nat.mod_eq_of_lt (show arg < 2 ^ 16 by omega),
    ← Nat.shiftLeft_add_eq_or_of_lt (show op < 2 ^ 8 by omega),
    ← Nat.shiftLeft_add_eq_or_of_lt (show false.toNat < 2 ^ 1 by decide),
    ← Nat.shiftLeft_add_eq_or_of_lt (show 0 % 2 ^ 7 < 2 ^ 7 by decide)]
  simp only [Nat.shiftLeft_eq, Bool.toNat_false]
  omega

end Sys2Proof
end

