-- ==== Sys2Proof/Laws/Effect.lean ====
section
/-! SUPPORT. Laws/Effect.lean: what a `raise` leaves as it was (60_exceptions.md R283), and which
operations write RESULT (10_state.md R30). -/

namespace Sys2Proof.Machine

/-- A procedure that raises has moved no beat and written no host-side register. -/
theorem procOf_raise {i : Instr} {s s' : State} {r : Raise} (h : procOf i s = .raise r s') :
    s'.hostPart = s.hostPart ∧ s'.streamPart = s.streamPart ∧ s'.result = s.result ∧ s'.inEom = s.inEom := by
  cases i <;> simp only [procOf] at h
  case bbCreate arg =>
    simp only [doBbCreate] at h
    split at h <;> simp only [Res.raise.injEq, reduceCtorEq] at h
    obtain ⟨rfl, rfl⟩ := h; exact ⟨rfl, rfl, rfl, rfl⟩
  case bbSet arg =>
    simp only [doBbSet] at h
    split at h <;> simp only [Res.raise.injEq, reduceCtorEq] at h
    obtain ⟨rfl, rfl⟩ := h; exact ⟨rfl, rfl, rfl, rfl⟩
  case bbClear arg =>
    simp only [doBbClear] at h
    split at h <;> simp only [Res.raise.injEq, reduceCtorEq] at h
    obtain ⟨rfl, rfl⟩ := h; exact ⟨rfl, rfl, rfl, rfl⟩
  case bbGet arg =>
    simp only [doBbGet] at h
    split at h <;> simp only [Res.raise.injEq, reduceCtorEq] at h
    obtain ⟨rfl, rfl⟩ := h; exact ⟨rfl, rfl, rfl, rfl⟩
  case bbResize arg =>
    simp only [doBbResize] at h
    split at h <;> simp only [Res.raise.injEq, reduceCtorEq] at h
    obtain ⟨rfl, rfl⟩ := h; exact ⟨rfl, rfl, rfl, rfl⟩
  case pqInsert arg =>
    simp only [doPqInsert] at h
    split at h
    · simp only [Res.raise.injEq] at h; obtain ⟨rfl, rfl⟩ := h; exact ⟨rfl, rfl, rfl, rfl⟩
    · split at h <;> simp only [Res.raise.injEq, reduceCtorEq] at h
      obtain ⟨rfl, rfl⟩ := h; exact ⟨rfl, rfl, rfl, rfl⟩
  case pqExtract =>
    simp only [doPqExtract] at h
    split at h <;> simp only [Res.raise.injEq, reduceCtorEq] at h
    obtain ⟨rfl, rfl⟩ := h; exact ⟨rfl, rfl, rfl, rfl⟩
  case treeBuild =>
    simp only [doTreeBuild] at h
    split at h <;> simp only [Res.raise.injEq, reduceCtorEq] at h
    obtain ⟨rfl, rfl⟩ := h; exact ⟨rfl, rfl, rfl, rfl⟩
  case treeSerialize =>
    simp only [doTreeSerialize] at h
    split at h
    · split at h <;> simp at h
    · simp only [Res.raise.injEq] at h; obtain ⟨rfl, rfl⟩ := h; exact ⟨rfl, rfl, rfl, rfl⟩
  case treeDeserialize =>
    simp only [doTreeDeserialize] at h
    split at h <;> simp only [Res.raise.injEq, reduceCtorEq] at h
    obtain ⟨-, rfl⟩ := h
    refine ⟨?_, ?_, ?_, ?_⟩ <;>
      simp only [State.hostPart, State.streamPart, State.spoilStack, State.treeRelease, State.withParse]
  case codeGen =>
    simp only [doCodeGen] at h
    split at h
    · simp only [Res.raise.injEq] at h; obtain ⟨rfl, rfl⟩ := h; exact ⟨rfl, rfl, rfl, rfl⟩
    · split at h
      · simp only [Res.raise.injEq] at h; obtain ⟨rfl, rfl⟩ := h; exact ⟨rfl, rfl, rfl, rfl⟩
      · split at h <;> simp only [Res.raise.injEq, reduceCtorEq] at h
        obtain ⟨rfl, rfl⟩ := h; exact ⟨rfl, rfl, rfl, rfl⟩
  case pack f =>
    simp only [doPack] at h
    split at h <;> simp only [Res.raise.injEq, reduceCtorEq] at h
    obtain ⟨rfl, rfl⟩ := h; exact ⟨rfl, rfl, rfl, rfl⟩
  case unpack f =>
    simp only [doUnpack] at h
    split at h
    · simp only [Res.raise.injEq] at h; obtain ⟨rfl, rfl⟩ := h; exact ⟨rfl, rfl, rfl, rfl⟩
    · split at h <;> simp only [Res.raise.injEq, reduceCtorEq] at h
      obtain ⟨rfl, rfl⟩ := h; exact ⟨rfl, rfl, rfl, rfl⟩
  all_goals
    simp only [doNop, doSoftReset, doInDiscard, doBbSerialize, doBbDeserialize, doPqClear, doTreeDestroy,
      doFreqClear, doFreqAccum, doEncode, doDecode, reduceCtorEq] at h

/-- An operation that raises has written no host-side register, and has moved no beat or taken one. -/
theorem runOp_raise {op : Op} {s s' : State} {r : Raise} (h : runOp op s = .raise r s') :
    s'.hostPart = s.hostPart ∧ s'.result = s.result ∧
      (s'.streamPart = s.streamPart ∨ ∃ b s1, s.takeBeat = some (b, s1) ∧ s'.streamPart = s1.streamPart) := by
  have take : ∀ {b : Beat} {s1 : State}, s.takeBeat = some (b, s1) →
      s1.hostPart = s.hostPart ∧ s1.result = s.result := by
    intro b s1 hb
    obtain ⟨q, -, rfl⟩ := takeBeat_some hb
    exact ⟨rfl, rfl⟩
  cases op <;> simp only [runOp] at h
  case run i => obtain ⟨h1, h2, h3, -⟩ := procOf_raise h; exact ⟨h1, h3, .inl h2⟩
  case put b => simp only [putOp] at h; split at h <;> simp at h
  case putEnd => simp only [putEndOp] at h; split at h <;> simp at h
  case discard =>
    simp only [discardLoop] at h
    split at h
    · simp at h
    · split at h <;> simp at h
  case accum =>
    simp only [accumLoop] at h
    split at h
    · simp at h
    · split at h
      · simp at h
      · next b s1 hb =>
        split at h
        · simp at h
        · split at h <;> simp only [Res.raise.injEq, reduceCtorEq] at h
          obtain ⟨rfl, rfl⟩ := h
          exact ⟨(take hb).1, (take hb).2, .inr ⟨b, _, hb, rfl⟩⟩
  case rdLen k v =>
    simp only [rdLenLoop] at h
    split at h
    · simp at h
    · next b s1 hb =>
      generalize (if b.empty = true then k else k + 1) = k' at h
      generalize (if b.empty = true then v else intByteIn s.wireBe 4 k v b.data) = v' at h
      split at h
      · split at h <;> simp only [Res.raise.injEq, reduceCtorEq] at h
        obtain ⟨rfl, rfl⟩ := h
        exact ⟨(take hb).1, (take hb).2, .inr ⟨b, s1, hb, rfl⟩⟩
      · split at h <;> simp only [Res.raise.injEq, reduceCtorEq] at h
        obtain ⟨rfl, rfl⟩ := h
        exact ⟨(take hb).1, (take hb).2, .inr ⟨b, s1, hb, rfl⟩⟩
  case rdBucket n got k v =>
    simp only [rdBucketLoop] at h
    split at h
    · simp only [Res.raise.injEq] at h; obtain ⟨rfl, rfl⟩ := h; exact ⟨rfl, rfl, .inl rfl⟩
    · split at h
      · simp at h
      · next b s1 hb =>
        generalize (if b.empty = true then k else k + 1) = k' at h
        generalize (if b.empty = true then v else intByteIn s.wireBe 2 k v b.data) = v' at h
        split at h
        · split at h <;> simp only [Res.raise.injEq, reduceCtorEq] at h
          obtain ⟨rfl, rfl⟩ := h
          exact ⟨(take hb).1, (take hb).2, .inr ⟨b, s1, hb, rfl⟩⟩
        · split at h <;> simp at h
  case pack f =>
    simp only [packLoop] at h
    split at h
    · simp at h
    · split at h
      · simp at h
      · next b s1 hb =>
        split at h
        · simp at h
        · split at h <;> simp only [Res.raise.injEq, reduceCtorEq] at h
          obtain ⟨rfl, rfl⟩ := h
          exact ⟨(take hb).1, (take hb).2, .inr ⟨b, _, hb, rfl⟩⟩
  case unpack n stop =>
    simp only [unpackLoop] at h
    split at h
    · simp at h
    · split at h
      · simp at h
      · split at h <;> simp at h
  case fail r' => simp only [Res.raise.injEq] at h; obtain ⟨rfl, rfl⟩ := h; exact ⟨rfl, rfl, .inl rfl⟩

/-! ### What is outside a turn -/

/-- The parts of a state that no procedure reads. -/
def State.outside (s : State) : Outside :=
  ⟨s.ctrl, s.symLimit, s.cmd, s.errCode, s.errInfo, s.irqStatus, s.irqEnable, s.phase, s.prog, s.rstN, s.busRsp,
   s.rspLog, s.sched, s.hold⟩

theorem outside_of_hostPart {s s' : State} (h : s'.hostPart = s.hostPart) : s'.outside = s.outside := by
  simp only [State.hostPart, HostPart.mk.injEq] at h
  simp only [State.outside, Outside.mk.injEq]
  tauto

/-- How far a command has come is not read by its turn, only written at its end. -/
theorem runAll_prog (p : Option (List Op)) : ∀ (ops : List Op) (s : State),
    runAll ops { s with prog := p } = runAll ops s := by
  intro ops s
  induction hn : need ops s using Nat.strongRecOn generalizing ops s with
  | ind n ih =>
    subst hn
    cases ops with
    | nil => rw [runAll_nil, runAll_nil, finish, finish]; rfl
    | cons op ops =>
      have e : ∀ u : State, u.outside = s.outside →
          u.around { s.outside with prog := p } [] 0 = { u with prog := p } := by
        intro u hu
        simp only [State.outside, Outside.mk.injEq] at hu
        simp only [State.around, State.outside, List.append_nil, Nat.add_zero, hu]
      cases hr : runOp op s with
      | ok s' more =>
        have := runOp_around { s.outside with prog := p } [] 0 op s (by rw [hr]; simp)
        rw [e s rfl, hr] at this
        simp only [Res.map] at this
        rw [e s' (outside_of_hostPart (runOp_ok hr).1)] at this
        rw [runAll_ok this, runAll_ok hr, ih _ (need_lt hr) _ _ rfl]
      | raise r s' =>
        have := runOp_around { s.outside with prog := p } [] 0 op s (by rw [hr]; simp)
        rw [e s rfl, hr] at this
        simp only [Res.map] at this
        rw [e s' (outside_of_hostPart (runOp_raise hr).1)] at this
        rw [runAll_raise this, runAll_raise hr, failWith, failWith]; rfl
      | wait =>
        have := runOp_wait_around { s.outside with prog := p } hr
        rw [e s rfl] at this
        rw [runAll_wait this, runAll_wait hr]
      | fault f =>
        have := runOp_around { s.outside with prog := p } [] 0 op s (by rw [hr]; simp)
        rw [e s rfl, hr] at this
        rw [runAll_fault this, runAll_fault hr]

/-- A turn runs until an operation does not succeed, or none is left; what runs the same before that with
something changed, runs on from there. -/
theorem runAll_stop (F : State → State)
    (hF : ∀ {op s s' more}, runOp op s = .ok s' more → runOp op (F s) = .ok (F s') more) :
    ∀ (ops : List Op) (s : State), ∃ ops' s', runAll ops s = runAll ops' s' ∧
      runAll ops (F s) = runAll ops' (F s') ∧ s'.hostPart = s.hostPart ∧
      ∀ op rest, ops' = op :: rest → ∀ s'' more, runOp op s' ≠ .ok s'' more := by
  intro ops s
  induction hn : need ops s using Nat.strongRecOn generalizing ops s with
  | ind n ih =>
    subst hn
    cases ops with
    | nil => exact ⟨[], s, rfl, rfl, rfl, by simp⟩
    | cons op ops =>
      cases hr : runOp op s with
      | ok s' more =>
        obtain ⟨o, u, h1, h2, h4, h3⟩ := ih _ (need_lt (ops := ops) hr) _ _ rfl
        exact ⟨o, u, by rw [runAll_ok hr, h1], by rw [runAll_ok (hF hr), h2], h4.trans (runOp_ok hr).1, h3⟩
      | raise r s' => exact ⟨_, s, rfl, rfl, rfl, by rintro _ _ ⟨⟩; simp [hr]⟩
      | wait => exact ⟨_, s, rfl, rfl, rfl, by rintro _ _ ⟨⟩; simp [hr]⟩
      | fault f => exact ⟨_, s, rfl, rfl, rfl, by rintro _ _ ⟨⟩; simp [hr]⟩

/-! ### RESULT -/

/-- The commands whose procedure writes RESULT (10_state.md R30; SOFT_RESET: 40_control.md R136). -/
def writesResult : Instr → Bool
  | .bbGet _ | .pqExtract | .softReset => true
  | _ => false

theorem procOf_result {i : Instr} {s s' : State} {more : List Op} (hw : writesResult i = false)
    (h : procOf i s = .ok s' more) : s'.result = s.result := by
  cases i <;> simp only [procOf] at h <;> simp only [writesResult, reduceCtorEq] at hw
  case bbCreate arg =>
    simp only [doBbCreate] at h
    split at h <;> simp only [Res.ok.injEq, reduceCtorEq] at h
    obtain ⟨rfl, rfl⟩ := h; rfl
  case bbSet arg =>
    simp only [doBbSet] at h
    split at h <;> simp only [Res.ok.injEq, reduceCtorEq] at h
    obtain ⟨rfl, rfl⟩ := h; rfl
  case bbClear arg =>
    simp only [doBbClear] at h
    split at h <;> simp only [Res.ok.injEq, reduceCtorEq] at h
    obtain ⟨rfl, rfl⟩ := h; rfl
  case bbResize arg =>
    simp only [doBbResize] at h
    split at h <;> simp only [Res.ok.injEq, reduceCtorEq] at h
    obtain ⟨rfl, rfl⟩ := h; rfl
  case pqInsert arg =>
    simp only [doPqInsert] at h
    split at h
    · simp at h
    · split at h <;> simp only [Res.ok.injEq, reduceCtorEq] at h
      obtain ⟨rfl, rfl⟩ := h; rfl
  case treeBuild =>
    simp only [doTreeBuild] at h
    split at h <;> simp only [Res.ok.injEq, reduceCtorEq] at h
    obtain ⟨rfl, rfl⟩ := h; rfl
  case treeSerialize =>
    simp only [doTreeSerialize] at h
    split at h
    · split at h <;> simp only [Res.ok.injEq, reduceCtorEq] at h
      obtain ⟨rfl, rfl⟩ := h; rfl
    · simp at h
  case treeDeserialize =>
    simp only [doTreeDeserialize] at h
    split at h <;> simp only [Res.ok.injEq, reduceCtorEq] at h
    obtain ⟨rfl, rfl⟩ := h; rfl
  case codeGen =>
    simp only [doCodeGen] at h
    split at h
    · simp at h
    · split at h
      · simp at h
      · split at h <;> simp only [Res.ok.injEq, reduceCtorEq] at h
        obtain ⟨rfl, rfl⟩ := h; rfl
  case pack f =>
    simp only [doPack] at h
    split at h <;> simp only [Res.ok.injEq, reduceCtorEq] at h
    obtain ⟨rfl, rfl⟩ := h; rfl
  case unpack f =>
    simp only [doUnpack] at h
    split at h
    · simp at h
    · split at h <;> simp only [Res.ok.injEq, reduceCtorEq] at h
      obtain ⟨rfl, rfl⟩ := h; rfl
  all_goals
    simp only [doNop, doInDiscard, doBbSerialize, doBbDeserialize, doPqClear, doTreeDestroy, doFreqClear,
      doFreqAccum, doEncode, doDecode, Res.ok.injEq] at h
    obtain ⟨rfl, -⟩ := h; rfl

/-- An operation that writes RESULT is one of three procedures. -/
theorem runOp_result {op : Op} {s s' : State} {more : List Op}
    (hw : ∀ i, op = .run i → writesResult i = false) (h : runOp op s = .ok s' more) : s'.result = s.result := by
  have take : ∀ {b : Beat} {s1 : State}, s.takeBeat = some (b, s1) → s1.result = s.result := by
    intro b s1 hb
    obtain ⟨q, -, rfl⟩ := takeBeat_some hb
    rfl
  cases op <;> simp only [runOp] at h
  case run i => exact procOf_result (hw i rfl) h
  case put b =>
    simp only [putOp] at h
    split at h <;> simp only [Res.ok.injEq, reduceCtorEq] at h
    next hb => obtain ⟨rfl, rfl⟩ := h; obtain ⟨n, hn, rfl⟩ := putByte_some hb; rfl
  case putEnd =>
    simp only [putEndOp] at h
    split at h <;> simp only [Res.ok.injEq, reduceCtorEq] at h
    next hb => obtain ⟨rfl, rfl⟩ := h; obtain ⟨n, hn, rfl⟩ := putMarker_some hb; rfl
  case discard =>
    simp only [discardLoop] at h
    split at h
    · simp only [Res.ok.injEq] at h; rw [← h.1]
    · split at h <;> simp only [Res.ok.injEq, reduceCtorEq] at h
      next hb => rw [← h.1]; (have e := take hb; exact e)
  case accum =>
    simp only [accumLoop] at h
    split at h
    · simp only [Res.ok.injEq] at h; rw [← h.1]
    · split at h
      · simp at h
      · next hb =>
        split at h
        · simp only [Res.ok.injEq] at h; rw [← h.1]; (have e := take hb; exact e)
        · split at h <;> simp only [Res.ok.injEq, reduceCtorEq] at h
          rw [← h.1]; (have e := take hb; exact e)
  case rdLen k v =>
    simp only [rdLenLoop] at h
    split at h
    · simp at h
    · next b s1 hb =>
      generalize (if b.empty = true then k else k + 1) = k' at h
      generalize (if b.empty = true then v else intByteIn s.wireBe 4 k v b.data) = v' at h
      split at h <;> split at h <;> simp only [Res.ok.injEq, reduceCtorEq] at h <;> rw [← h.1] <;> (have e := take hb; exact e)
  case rdBucket n got k v =>
    simp only [rdBucketLoop] at h
    split at h
    · simp at h
    · split at h
      · simp at h
      · next b s1 hb =>
        generalize (if b.empty = true then k else k + 1) = k' at h
        generalize (if b.empty = true then v else intByteIn s.wireBe 2 k v b.data) = v' at h
        split at h <;> split at h <;> simp only [Res.ok.injEq, reduceCtorEq] at h <;> rw [← h.1] <;> (have e := take hb; exact e)
  case pack f =>
    simp only [packLoop] at h
    split at h
    · simp only [Res.ok.injEq] at h; rw [← h.1]
    · split at h
      · simp at h
      · next hb =>
        split at h
        · simp only [Res.ok.injEq] at h; rw [← h.1]; (have e := take hb; exact e)
        · split at h <;> simp only [Res.ok.injEq, reduceCtorEq] at h
          rw [← h.1]; (have e := take hb; exact e)
  case unpack n stop =>
    simp only [unpackLoop] at h
    split at h
    · simp only [Res.ok.injEq] at h; rw [← h.1]
    · split at h
      · simp at h
      · next hb =>
        split at h <;> simp only [Res.ok.injEq] at h <;> rw [← h.1] <;> (have e := take hb; exact e)
  case fail r => simp at h

end Sys2Proof.Machine
end

