-- ==== Sys2Proof/Laws/Header.lean ====
section
/-! SUPPORT. Laws/Header.lean: the header's integers and buckets, written and read back (20_memory.md
R95, 41_bitbuffer.md R159, R160, R163). -/

namespace Sys2Proof.Machine

/-! ### Integers -/

/-- An integer read byte by byte, from byte `k` on. -/
def readInt {w : Nat} (be : Bool) (n : Nat) : Nat → BitVec w → List Byte → BitVec w
  | _, v, [] => v
  | k, v, d :: ds => readInt be n (k + 1) (intByteIn be n k v d) ds

theorem intBytes_length {w : Nat} (be : Bool) (n : Nat) (v : BitVec w) : (intBytes be n v).length = n := by
  cases be <;> simp [intBytes, intBytesLe]

theorem readInt_intBytes4 (be : Bool) (v : Word) : readInt be 4 0 0 (intBytes be 4 v) = v := by
  have e : List.range 4 = [0, 1, 2, 3] := rfl
  cases be <;>
    simp only [intBytes, intBytesLe, e, List.map, List.reverse_cons, List.reverse_nil, List.nil_append,
      List.cons_append, if_true, if_false, Bool.false_eq_true, readInt, intByteIn] <;>
    · apply BitVec.eq_of_getLsbD_eq
      intro i hi
      simp only [BitVec.getLsbD_or, BitVec.getLsbD_shiftLeft, BitVec.getLsbD_setWidth,
        BitVec.getLsbD_extractLsb']
      interval_cases i <;> simp

theorem readInt_intBytes2 (be : Bool) (v : BitVec 16) : readInt be 2 0 0 (intBytes be 2 v) = v := by
  have e : List.range 2 = [0, 1] := rfl
  cases be <;>
    simp only [intBytes, intBytesLe, e, List.map, List.reverse_cons, List.reverse_nil, List.nil_append,
      List.cons_append, if_true, if_false, Bool.false_eq_true, readInt, intByteIn] <;>
    · apply BitVec.eq_of_getLsbD_eq
      intro i hi
      simp only [BitVec.getLsbD_or, BitVec.getLsbD_shiftLeft, BitVec.getLsbD_setWidth,
        BitVec.getLsbD_extractLsb']
      interval_cases i <;> simp

/-! ### Beats that carry an integer -/

theorem not_carries_nil (q : List Beat) : ¬ Carries q [] := by
  rintro ⟨hp, -, b, hb, he⟩
  have hm : b ∈ q := List.mem_of_getLast? hb
  simp only [payload, List.map_eq_nil_iff, List.filter_eq_nil_iff] at hp
  have := hp b hm
  simp [he] at this

/-- The first beat of beats that carry bytes: an empty beat that ends nothing, or the first byte. -/
theorem Carries.cases {q : List Beat} {ds : List Byte} (h : Carries q ds) :
    (∃ b q', q = b :: q' ∧ b.empty = true ∧ b.last = false ∧ Carries q' ds) ∨
    (∃ b q' ds', q = b :: q' ∧ b.empty = false ∧ ds = b.data :: ds' ∧
      ((ds' = [] ∧ q' = []) ∨ (b.last = false ∧ Carries q' ds'))) := by
  obtain ⟨hp, hd, c, hc, he⟩ := h
  cases q with
  | nil => simp at hc
  | cons b q =>
    cases q with
    | nil =>
      simp only [List.getLast?_singleton, Option.some.injEq] at hc
      subst hc
      refine .inr ⟨b, [], [], rfl, he, ?_, .inl ⟨rfl, rfl⟩⟩
      rw [← hp]; simp [payload, he]
    | cons b2 q =>
      have hb : b.last = false := hd b (by simp)
      have hrest : Carries (b2 :: q) (payload (b2 :: q)) :=
        ⟨rfl, fun x hx => hd x (by rw [List.dropLast_cons_cons]; exact List.mem_cons_of_mem _ hx), c, by simpa using hc, he⟩
      by_cases hbe : b.empty = true
      · refine .inl ⟨b, _, rfl, hbe, hb, ?_⟩
        rw [← hp, payload_cons, if_pos hbe]
        simpa using hrest
      · refine .inr ⟨b, _, payload (b2 :: q), rfl, by simpa using hbe, ?_, .inr ⟨hb, hrest⟩⟩
        rw [← hp, payload_cons, if_neg hbe]
        rfl

/-- Beats that carry two runs of bytes, cut after the first run. -/
theorem Carries.split : ∀ {q : List Beat} {ds1 ds2 : List Byte}, Carries q (ds1 ++ ds2) → ds1 ≠ [] →
    ds2 ≠ [] → ∃ q1 q2, q = q1 ++ q2 ∧ Carries q1 ds1 ∧ (∀ d, lastFlag d q1 = false) ∧ Carries q2 ds2
  | [], ds1, ds2, h, _, _ => by
    obtain ⟨-, -, b, hb, -⟩ := h; simp at hb
  | b :: q, ds1, ds2, h, h1, h2 => by
    rcases h.cases with ⟨b', q', e, he, hl, hq⟩ | ⟨b', q', ds', e, he, hds, hq⟩
    · obtain ⟨rfl, rfl⟩ := List.cons.inj e
      obtain ⟨q1, q2, rfl, c1, f1, c2⟩ := hq.split h1 h2
      obtain ⟨p1, d1, x, hx, hxe⟩ := c1
      refine ⟨b :: q1, q2, rfl, ⟨by rw [payload_cons, if_pos he]; simpa using p1, ?_, x, ?_, hxe⟩, ?_, c2⟩
      · intro y hy
        cases q1 with
        | nil => simp at hy
        | cons z q1 =>
          rw [List.dropLast_cons_cons] at hy
          rcases List.mem_cons.1 hy with rfl | hy
          · exact hl
          · exact d1 y hy
      · cases q1 with
        | nil => simp at hx
        | cons z q1 => simpa using hx
      · intro d; rw [lastFlag_cons]; exact f1 _
    · obtain ⟨rfl, rfl⟩ := List.cons.inj e
      cases ds1 with
      | nil => exact absurd rfl h1
      | cons d1 ds1 =>
        simp only [List.cons_append, List.cons.injEq] at hds
        obtain ⟨rfl, rfl⟩ := hds
        rcases hq with ⟨h0, -⟩ | ⟨hl, hq⟩
        · simp at h0; exact absurd h0.2 h2
        · by_cases hn : ds1 = []
          · subst hn
            refine ⟨[b], q, rfl, ⟨by simp [payload, he], by simp, b, rfl, he⟩, ?_, by simpa using hq⟩
            intro d; simp [lastFlag, hl]
          · obtain ⟨q1, q2, rfl, c1, f1, c2⟩ := hq.split hn h2
            obtain ⟨p1, e1, x, hx, hxe⟩ := c1
            refine ⟨b :: q1, q2, rfl, ⟨by rw [payload_cons, if_neg (by simp [he])]; simp [p1], ?_, x, ?_, hxe⟩, ?_, c2⟩
            · intro y hy
              cases q1 with
              | nil => simp at hy
              | cons z q1 =>
                rw [List.dropLast_cons_cons] at hy
                rcases List.mem_cons.1 hy with rfl | hy
                · exact hl
                · exact e1 y hy
            · cases q1 with
              | nil => simp at hx
              | cons z q1 => simpa using hx
            · intro d; rw [lastFlag_cons]; exact f1 _

/-- Reading total_bits (41_bitbuffer.md R160). -/
theorem rdLen_spec : ∀ (ds : List Byte) (q rest : List Beat) (k : Nat) (v : Word) (ops : List Op) (s : State),
    Carries q ds → k + ds.length = 4 → s.inQ = q ++ rest →
    runAll (.rdLen k v :: ops) s =
      if Config.tbMaxBits < (readInt s.wireBe 4 k v ds).toNat then
        failWith ⟨.alloc, readInt s.wireBe 4 k v ds⟩ (s.took q rest).tbDiscard
      else runAll (.rdBucket (readInt s.wireBe 4 k v ds).toNat [] 0 0 :: ops) (s.took q rest) := by
  intro ds q
  induction q generalizing ds with
  | nil => intro rest k v ops s h _ _; obtain ⟨-, -, b, hb, -⟩ := h; simp at hb
  | cons b q ih =>
    intro rest k v ops s hc hk hq
    have ht := takeBeat_cons (b := b) (q := q ++ rest) hq
    rcases hc.cases with ⟨b', q', e, he, hl, hq'⟩ | ⟨b', q', ds', e, he, rfl, hq'⟩
    · obtain ⟨rfl, rfl⟩ := List.cons.inj e
      have hds : ds ≠ [] := by rintro rfl; exact not_carries_nil _ hq'
      have hk4 : k < 4 := by
        have := List.length_pos_iff.2 hds; omega
      have hop : runOp (.rdLen k v) s = .ok (s.took [b] (q ++ rest)) [.rdLen k v] := by
        simp only [runOp, rdLenLoop, ht, he, if_true, hk4, hl, Bool.false_eq_true, if_false]
      rw [runAll_ok hop, List.singleton_append, ih ds rest k v ops _ hq' hk rfl, State.took_cons]
      rfl
    · obtain ⟨rfl, rfl⟩ := List.cons.inj e
      simp only [List.length_cons] at hk
      rw [show readInt s.wireBe 4 k v (b.data :: ds') =
        readInt s.wireBe 4 (k + 1) (intByteIn s.wireBe 4 k v b.data) ds' from rfl]
      rcases hq' with ⟨rfl, rfl⟩ | ⟨hl, hq'⟩
      · simp only [List.length_nil] at hk
        obtain rfl : k = 3 := by omega
        rw [show readInt s.wireBe 4 (3 + 1) (intByteIn s.wireBe 4 3 v b.data) [] =
          intByteIn s.wireBe 4 3 v b.data from rfl]
        by_cases hbig : Config.tbMaxBits < (intByteIn s.wireBe 4 3 v b.data).toNat
        · have hop : runOp (.rdLen 3 v) s = .raise ⟨.alloc, intByteIn s.wireBe 4 3 v b.data⟩
              (s.took [b] ([] ++ rest)).tbDiscard := by
            simp only [runOp, rdLenLoop, ht, he, Bool.false_eq_true, if_false, Nat.lt_irrefl, hbig, if_true]
          rw [if_pos hbig, runAll_raise hop, List.nil_append]
        · have hop : runOp (.rdLen 3 v) s = .ok (s.took [b] ([] ++ rest))
              [.rdBucket (intByteIn s.wireBe 4 3 v b.data).toNat [] 0 0] := by
            simp only [runOp, rdLenLoop, ht, he, Bool.false_eq_true, if_false, Nat.lt_irrefl, hbig]
          rw [if_neg hbig, runAll_ok hop, List.nil_append, List.singleton_append]
      · have hds : ds' ≠ [] := by rintro rfl; exact not_carries_nil _ hq'
        have hk4 : k + 1 < 4 := by have := List.length_pos_iff.2 hds; omega
        have hop : runOp (.rdLen k v) s = .ok (s.took [b] (q ++ rest))
            [.rdLen (k + 1) (intByteIn s.wireBe 4 k v b.data)] := by
          simp only [runOp, rdLenLoop, ht, he, if_true, hk4, hl, Bool.false_eq_true, if_false]
        rw [runAll_ok hop, List.singleton_append, ih ds' rest _ _ ops _ hq' (by omega) rfl, State.took_cons]
        rfl

/-- Reading one bucket (41_bitbuffer.md R160). -/
theorem rdBucket_spec (n : Nat) (got : List (BitVec 16)) : ∀ (ds : List Byte) (q rest : List Beat) (k : Nat)
    (v : BitVec 16) (ops : List Op) (s : State), Carries q ds → k + ds.length = 2 → s.inQ = q ++ rest →
    s.inEom = false →
    runAll (.rdBucket n got k v :: ops) s =
      if got.length + 1 < bucketCount n then
        runAll (.rdBucket n (got ++ [readInt s.wireBe 2 k v ds]) 0 0 :: ops) (s.took q rest)
      else runAll ops ((s.took q rest).loadBuckets n (got ++ [readInt s.wireBe 2 k v ds])) := by
  intro ds q
  induction q generalizing ds with
  | nil => intro rest k v ops s h _ _; obtain ⟨-, -, b, hb, -⟩ := h; simp at hb
  | cons b q ih =>
    intro rest k v ops s hc hk hq hin
    have ht := takeBeat_cons (b := b) (q := q ++ rest) hq
    have hne : ¬ s.inEom = true := by simp [hin]
    rcases hc.cases with ⟨b', q', e, he, hl, hq'⟩ | ⟨b', q', ds', e, he, rfl, hq'⟩
    · obtain ⟨rfl, rfl⟩ := List.cons.inj e
      have hds : ds ≠ [] := by rintro rfl; exact not_carries_nil _ hq'
      have hk2 : k < 2 := by have := List.length_pos_iff.2 hds; omega
      have hop : runOp (.rdBucket n got k v) s = .ok (s.took [b] (q ++ rest)) [.rdBucket n got k v] := by
        simp only [runOp, rdBucketLoop, if_neg hne, ht, he, if_true, hk2, hl, Bool.false_eq_true, if_false]
      rw [runAll_ok hop, List.singleton_append, ih ds rest k v ops _ hq' hk rfl (by simp [lastFlag, hl]), State.took_cons]
      rfl
    · obtain ⟨rfl, rfl⟩ := List.cons.inj e
      simp only [List.length_cons] at hk
      simp only [readInt]
      rcases hq' with ⟨rfl, rfl⟩ | ⟨hl, hq'⟩
      · simp only [List.length_nil] at hk
        obtain rfl : k = 1 := by omega
        simp only [readInt]
        by_cases hbig : got.length + 1 < bucketCount n
        · have hop : runOp (.rdBucket n got 1 v) s = .ok (s.took [b] ([] ++ rest))
              [.rdBucket n (got ++ [intByteIn s.wireBe 2 1 v b.data]) 0 0] := by
            simp only [runOp, rdBucketLoop, if_neg hne, ht, he, Bool.false_eq_true, if_false, Nat.lt_irrefl,
              hbig, if_true]
          rw [if_pos hbig, runAll_ok hop, List.nil_append, List.singleton_append]
        · have hop : runOp (.rdBucket n got 1 v) s =
              .ok ((s.took [b] ([] ++ rest)).loadBuckets n (got ++ [intByteIn s.wireBe 2 1 v b.data])) [] := by
            simp only [runOp, rdBucketLoop, if_neg hne, ht, he, Bool.false_eq_true, if_false, Nat.lt_irrefl,
              hbig]
          rw [if_neg hbig, runAll_ok hop, List.nil_append, List.nil_append]
      · have hds : ds' ≠ [] := by rintro rfl; exact not_carries_nil _ hq'
        have hk2 : k + 1 < 2 := by have := List.length_pos_iff.2 hds; omega
        have hop : runOp (.rdBucket n got k v) s = .ok (s.took [b] (q ++ rest))
            [.rdBucket n got (k + 1) (intByteIn s.wireBe 2 k v b.data)] := by
          simp only [runOp, rdBucketLoop, if_neg hne, ht, he, if_true, hk2, hl, Bool.false_eq_true, if_false]
        rw [runAll_ok hop, List.singleton_append,
          ih ds' rest _ _ ops _ hq' (by omega) rfl (by simp [lastFlag, hl]), State.took_cons]
        rfl

/-- Reading the buckets that are left (41_bitbuffer.md R160). -/
theorem rdBuckets_spec (n : Nat) : ∀ (vs got : List (BitVec 16)) (q rest : List Beat) (ops : List Op) (s : State),
    Carries q (vs.flatMap (intBytes s.wireBe 2)) → got.length + vs.length = bucketCount n →
    s.inQ = q ++ rest → s.inEom = false →
    runAll (.rdBucket n got 0 0 :: ops) s = runAll ops ((s.took q rest).loadBuckets n (got ++ vs))
  | [], got, q, rest, ops, s, hc, _, _, _ => absurd hc (not_carries_nil q)
  | [v], got, q, rest, ops, s, hc, hl, hq, hin => by
    simp only [List.flatMap_cons, List.flatMap_nil, List.append_nil] at hc
    rw [rdBucket_spec n got _ q rest 0 0 ops s hc (by simp [intBytes_length]) hq hin, readInt_intBytes2,
      if_neg (by simp at hl; omega)]
  | v :: v2 :: vs, got, q, rest, ops, s, hc, hl, hq, hin => by
    rw [List.flatMap_cons] at hc
    have hne : ∀ x : BitVec 16, intBytes s.wireBe 2 x ≠ [] := fun x h => by
      have := intBytes_length s.wireBe 2 x; simp [h] at this
    obtain ⟨q1, q2, rfl, c1, f1, c2⟩ := hc.split (hne v) (by simp [List.flatMap_cons, hne])
    rw [List.append_assoc] at hq
    rw [rdBucket_spec n got _ q1 (q2 ++ rest) 0 0 ops s c1 (by simp [intBytes_length]) hq hin,
      readInt_intBytes2, if_pos (by simp at hl; omega),
      rdBuckets_spec n (v2 :: vs) (got ++ [v]) q2 rest ops (s.took q1 (q2 ++ rest)) c2 (by simp at hl ⊢; omega) rfl
        (by simp [f1]), State.took_took, List.append_assoc]
    rfl

/-- Reading a whole header (41_bitbuffer.md R160). -/
theorem header_spec (n : Word) (vs : List (BitVec 16)) (q rest : List Beat) (ops : List Op) (s : State)
    (hc : Carries q (intBytes s.wireBe 4 n ++ vs.flatMap (intBytes s.wireBe 2)))
    (hn : n.toNat ≤ Config.tbMaxBits) (hl : vs.length = bucketCount n.toNat) (hq : s.inQ = q ++ rest) :
    runAll (.rdLen 0 0 :: ops) s = runAll ops ((s.took q rest).loadBuckets n.toNat vs) := by
  have h4 : intBytes s.wireBe 4 n ≠ [] := fun h => by
    have := intBytes_length s.wireBe 4 n; simp [h] at this
  have h2 : vs.flatMap (intBytes s.wireBe 2) ≠ [] := by
    cases vs with
    | nil => simp [bucketCount] at hl
    | cons v vs =>
      intro h
      have := intBytes_length s.wireBe 2 v
      simp [List.flatMap_cons] at h
      simp [h.1] at this
  obtain ⟨q1, q2, rfl, c1, f1, c2⟩ := hc.split h4 h2
  rw [List.append_assoc] at hq
  rw [rdLen_spec _ q1 (q2 ++ rest) 0 0 ops s c1 (by simp [intBytes_length]) hq, readInt_intBytes4,
    if_neg (by omega), rdBuckets_spec n.toNat vs [] q2 rest ops (s.took q1 (q2 ++ rest)) c2 (by simpa using hl) rfl (by simp [f1]),
    State.took_took, List.nil_append]

/-- The header that BB_SERIALIZE writes is the buffer it was written from (41_bitbuffer.md R163). -/
theorem loadBuckets_header {tb : BitVec 2576} {len : BitVec 12} (hl : len.toNat ≤ Config.tbMaxBits)
    (ht : ∀ i, len.toNat ≤ i → tbGet tb i = false) (s : State) :
    s.loadBuckets len.toNat ((List.range (bucketCount len.toNat)).map (tbBucket tb)) =
      { s with tb := tb, tbLen := len } := by
  simp only [Config.tbMaxBits] at hl
  unfold State.loadBuckets
  rw [tbOfBuckets_tbBucket tb _ (by simp only [bucketCount, Config.tbBuckets]; omega)
    (fun i hi => ht i (by simp only [bucketCount] at hi; omega))]
  have e1 : tbKeep tb len.toNat = tb := by
    apply tb_ext
    intro i _
    rw [tbGet_tbKeep _ _ _ (by simp only [Config.tbBits]; omega)]
    by_cases h : i < len.toNat
    · simp [h]
    · simp [h, ht i (by omega)]
  have e2 : BitVec.ofNat 12 len.toNat = len := by
    apply BitVec.eq_of_toNat_eq; simp
  rw [e1, e2]

theorem headerBytes_eq (be : Bool) (len : BitVec 12) (tb : BitVec 2576) :
    headerBytes be len tb = intBytes be 4 (len.setWidth 32) ++
      ((List.range (bucketCount len.toNat)).map (tbBucket tb)).flatMap (intBytes be 2) := by
  rw [headerBytes, List.flatMap_map]

/-- The header's length (41_bitbuffer.md R159). -/
theorem headerBytes_length (be : Bool) (len : BitVec 12) (tb : BitVec 2576) :
    (headerBytes be len tb).length = 4 + 2 * bucketCount len.toNat := by
  simp [headerBytes, intBytes_length, List.length_flatMap, Nat.mul_comm]

/-! ### The header in the spec's terms -/

theorem wrInt_eq {w : Nat} (be : Bool) (n : Nat) (v : BitVec w) : wrInt be n v.toNat = intBytes be n v := by
  have h : (List.range n).map (fun k => BitVec.ofNat 8 (v.toNat / 256 ^ k)) = intBytesLe n v := by
    unfold intBytesLe
    apply List.map_congr_left
    intro k _
    apply BitVec.eq_of_toNat_eq
    rw [BitVec.extractLsb'_toNat, BitVec.toNat_ofNat, Nat.shiftRight_eq_div_pow]
    rw [show (256 : Nat) = 2 ^ 8 from rfl, ← Nat.pow_mul]
  unfold wrInt intBytes
  rw [h]

theorem foldl_bits (v : BitVec 16) : ∀ n, n ≤ 16 →
    (List.range n).foldl (fun x t => 2 * x + (v.getMsbD t).toNat) 0 = v.toNat >>> (16 - n)
  | 0, _ => by
    have := v.isLt
    simp only [List.range_zero, List.foldl_nil, Nat.sub_zero, Nat.shiftRight_eq_div_pow]
    omega
  | n + 1, h => by
    rw [List.range_succ, List.foldl_append, foldl_bits v n (by omega)]
    simp only [List.foldl_cons, List.foldl_nil, BitVec.getMsbD, BitVec.getLsbD]
    rw [show 16 - n = 16 - (n + 1) + 1 by omega, show decide (n < 16) = true by simp; omega, Bool.true_and,
      show 16 - 1 - n = 16 - (n + 1) by omega, Nat.shiftRight_add]
    generalize hx : v.toNat >>> (16 - (n + 1)) = x
    have : v.toNat.testBit (16 - (n + 1)) = decide (x % 2 = 1) := by
      rw [← hx, Nat.testBit_eq_decide_div_mod_eq, Nat.shiftRight_eq_div_pow]
    rw [this, Nat.shiftRight_one]
    rcases Nat.mod_two_eq_zero_or_one x with h | h <;> simp [h] <;> omega

theorem bucketValue_eq (tb : BitVec 2576) (k : Nat) (hk : k < Config.tbBuckets) :
    bucketValue tb k = (tbBucket tb k).toNat := by
  rw [← Nat.shiftRight_zero (n := (tbBucket tb k).toNat), ← foldl_bits (tbBucket tb k) 16 (Nat.le_refl _)]
  unfold bucketValue
  apply List.foldl_ext
  intro x t ht
  rw [tbBucket_getMsbD tb k t hk (by simpa using ht)]

theorem headerOf_eq (be : Bool) {len : BitVec 12} (hl : len.toNat ≤ Config.tbMaxBits) (tb : BitVec 2576) :
    headerOf be len.toNat tb = headerBytes be len tb := by
  have hn : len.toNat = (len.setWidth 32).toNat := by
    simp only [BitVec.toNat_setWidth]; have := len.isLt; omega
  unfold headerOf headerBytes
  congr 1
  · rw [← wrInt_eq, ← hn]
  · change (List.range (bucketCount len.toNat)).flatMap _ = _
    apply List.flatMap_congr
    intro k hk
    have hk : k < Config.tbBuckets := by
      simp only [Config.tbMaxBits] at hl
      simp only [List.mem_range, bucketCount] at hk
      simp only [Config.tbBuckets]; omega
    rw [bucketValue_eq tb k hk, wrInt_eq]

end Sys2Proof.Machine
end

