-- ==== Sys2Proof/Laws/Inv.lean ====
section
/-! SUPPORT. Laws/Inv.lean: every operation keeps the invariant of the datapath, and none faults. -/

namespace Sys2Proof.Machine

/-! ### The invariant of the datapath -/

/-- The invariant of the tree bit buffer (41_bitbuffer.md R153). -/
def TbOk (tb : BitVec 2576) (len : BitVec 12) : Prop :=
  len.toNat ≤ Config.tbMaxBits ∧ ∀ i, len.toNat ≤ i → tbGet tb i = false

/-- The invariant of the code table (10_state.md R44). -/
def CodeOk (m : Memory CodeEntry) : Prop :=
  CodeWf m ∧ ∀ x j, (codeAt m x).len.toNat ≤ j → (codeAt m x).bits.getMsbD j = false

/-- The validity flags tell the truth (10_state.md R34, R52; 44_codec.md R237). -/
structure TreeOk (m : Memory Node) (n : BitVec 10) (root : NodeIx) (tree code : Bool) : Prop where
  held : tree = true → ∃ t, Holds m n.toNat root t ∧ t.leaves ≤ Config.symbols
  free : tree = false → root = 0
  code : code = true → tree = true

/-- The part of the invariant that the datapath's state alone decides. -/
structure State.Data (s : State) : Prop where
  freq : FreqWf s.freq
  node : NodeWf s.node
  heap : HeapWf s.heap
  code : CodeOk s.code
  tb : TbOk s.tb s.tbLen
  count : s.nodeCount.toNat ≤ Config.nodeCap
  size : s.pqSize.toNat ≤ Config.heapCap
  tree : TreeOk s.node s.nodeCount s.root s.treeValid s.codeValid

/-- What a step keeps of the datapath: its invariant, and the heap property if it held. -/
structure Keeps (s s' : State) : Prop where
  data : s'.Data
  heap : s.HeapInv → s'.HeapInv

/-- What an operation may answer: never a fault. -/
def Res.Good (s : State) : Res → Prop
  | .ok s' more => Keeps s s' ∧ more.all Op.ok = true
  | .raise _ s' => Keeps s s'
  | .wait => True
  | .fault _ => False

theorem TreeOk.none {m : Memory Node} : TreeOk m 0 0 false false :=
  ⟨fun h => (by cases h), fun _ => rfl, fun h => (by cases h)⟩

theorem TreeOk.of_holds {m : Memory Node} {n : BitVec 10} {root : NodeIx} {code : Bool} {t : HTree}
    (h : Holds m n.toNat root t) (hl : t.leaves ≤ Config.symbols) : TreeOk m n root true code :=
  ⟨fun _ => ⟨t, h, hl⟩, fun h0 => (by cases h0), fun _ => rfl⟩

theorem TbOk.zero {len : BitVec 12} (h : len.toNat ≤ Config.tbMaxBits) : TbOk 0 len :=
  ⟨h, fun i _ => tbGet_zero i⟩

theorem CodeOk.nil : CodeOk [] := ⟨by simp [CodeWf], fun x j _ => by simp [codeAt, CodeEntry.zero]⟩

theorem State.HeapInv.empty {s : State} (h : s.pqSize = 0) : s.HeapInv := by
  intro k _ hk
  rw [h] at hk
  exact absurd hk (Nat.not_lt_zero _)

/-- A step that leaves node frequencies, heap and size alone keeps the heap property. -/
theorem Keeps.same {s s' : State} (h : s'.Data) (hn : s'.node = s.node) (hh : s'.heap = s.heap)
    (hs : s'.pqSize = s.pqSize) : Keeps s s' :=
  ⟨h, fun hi => by unfold State.HeapInv at hi ⊢; rw [hn, hh, hs]; exact hi⟩

/-! ### The bit buffer -/

theorem tbPut_ok {tb : BitVec 2576} {len : BitVec 12} {i : Nat} {b : Bool} (h : TbOk tb len) (hi : i < len.toNat) :
    TbOk (tbPut tb i b) len := by
  have h1 := h.1
  simp only [Config.tbMaxBits] at h1
  refine ⟨h.1, fun j hj => ?_⟩
  rw [tbGet_tbPut _ _ _ _ (by simp only [Config.tbBits]; omega), if_neg (by omega)]
  exact h.2 j hj

/-- Clearing positions one after the other (41_bitbuffer.md R158). -/
theorem tbGet_clear (tb : BitVec 2576) : ∀ (n a i : Nat), a + n ≤ Config.tbBits →
    tbGet ((List.range' a n).foldl (fun tb i => tbPut tb i false) tb) i =
      if a ≤ i ∧ i < a + n then false else tbGet tb i
  | 0, a, i, _ => by rw [List.range'_zero, List.foldl_nil, if_neg (by omega)]
  | n + 1, a, i, h => by
    rw [List.range'_succ, List.foldl_cons, tbGet_clear (tbPut tb a false) n (a + 1) i (by omega),
      tbGet_tbPut _ _ _ _ (by omega)]
    by_cases h1 : a + 1 ≤ i ∧ i < a + 1 + n
    · rw [if_pos h1, if_pos (by omega)]
    · rw [if_neg h1]
      by_cases h2 : i = a
      · rw [if_pos h2, if_pos (by omega)]
      · rw [if_neg h2, if_neg (by omega)]

theorem bbResize_good {s : State} (h : s.Data) (arg : Nat) : (doBbResize arg s).Good s := by
  unfold doBbResize
  split
  · exact Keeps.same h rfl rfl rfl
  · next hle =>
    have ht := h.tb.1
    simp only [Config.tbMaxBits] at hle ht
    have hn : (BitVec.ofNat 12 arg).toNat = arg := by simp; omega
    refine ⟨Keeps.same ⟨h.freq, h.node, h.heap, h.code, ⟨?_, fun i hi => ?_⟩, h.count, h.size, h.tree⟩ rfl rfl rfl, rfl⟩
    · show (BitVec.ofNat 12 arg).toNat ≤ _
      rw [hn]; simp only [Config.tbMaxBits]; omega
    · replace hi : arg ≤ i := hn ▸ hi
      show tbGet (if arg < s.tbLen.toNat then _ else _) i = false
      split
      · rw [tbGet_clear _ _ _ _ (by simp only [Config.tbBits]; omega)]
        split
        · rfl
        · exact h.tb.2 i (by omega)
      · exact h.tb.2 i (by omega)

/-! ### The queue -/

theorem pqInsert_good {s : State} (h : s.Data) (arg : Nat) : (doPqInsert arg s).Good s := by
  unfold doPqInsert
  split
  · exact Keeps.same h rfl rfl rfl
  · by_cases hfull : s.pqSize.toNat < Config.heapCap
    · obtain ⟨hp, m, e, -⟩ := pqInsert_exact (BitVec.ofNat 9 arg) s.arena h.heap hfull
      have hw : HeapWf hp := by
        unfold pqInsert at e
        rw [if_neg (by show ¬ Config.heapCap ≤ s.pqSize.toNat; omega)] at e
        injection e with _ e
        have e := congrArg Arena.heap e
        rw [← show siftUp _ _ _ _ = hp from e]
        exact siftUp_wf _ _ _ (heapPut_wf h.heap hfull _) hfull
      have hsz : (s.pqSize + 1).toNat = s.pqSize.toNat + 1 := by
        simp only [Config.heapCap] at hfull
        rw [BitVec.toNat_add]; simp; omega
      rw [e]
      refine ⟨⟨⟨h.freq, h.node, hw, h.code, h.tb, h.count, ?_, h.tree⟩, fun ho => ?_⟩, rfl⟩
      · show (s.pqSize + 1).toNat ≤ _
        rw [hsz]; omega
      · rcases pqInsert_spec (BitVec.ofNat 9 arg) s.arena ⟨h.heap, h.size, ho⟩ with ⟨h1, -⟩ | ⟨-, a, e2, hn, -, -, ha, -⟩
        · exact absurd h1 (by show s.pqSize.toNat ≠ _; omega)
        · rw [e] at e2
          injection e2 with _ e2
          subst e2
          exact ha.ordered
    · unfold pqInsert
      rw [if_pos (by show Config.heapCap ≤ s.pqSize.toNat; omega)]
      exact Keeps.same h rfl rfl rfl

theorem pqExtract_good {s : State} (h : s.Data) : (doPqExtract s).Good s := by
  unfold doPqExtract
  rcases hn : s.pqSize.toNat with - | n
  · unfold pqExtract
    rw [if_pos (show s.arena.pqSize = 0 from BitVec.eq_of_toNat_eq hn)]
    exact Keeps.same h rfl rfl rfl
  · have hs := h.size
    simp only [Config.heapCap] at hs
    obtain ⟨hp, e, h0, -⟩ := pqExtract_exact s.arena n h.heap hn (by simp only [Config.heapCap]; omega)
    have hw : HeapWf hp := by
      by_cases hz : n = 0
      · rw [h0 hz]; exact h.heap
      · unfold pqExtract at e
        rw [if_neg (show ¬ s.arena.pqSize = 0 from fun h0 => by
          have : s.pqSize = 0 := h0
          rw [this] at hn; simp at hn)] at e
        dsimp only at e
        rw [if_neg (show ¬ s.arena.pqSize.toNat - 1 = 0 by show ¬ s.pqSize.toNat - 1 = 0; omega)] at e
        injection e with _ e
        have e := congrArg Arena.heap e
        rw [← show siftDown _ _ _ _ _ = hp from e]
        exact siftDown_wf _ _ (by show s.pqSize.toNat - 1 ≤ _; simp only [Config.heapCap]; omega) _ _
          (heapPut_wf h.heap (by decide) _)
    rw [e]
    refine ⟨⟨⟨h.freq, h.node, hw, h.code, h.tb, h.count, ?_, h.tree⟩, fun ho => ?_⟩, rfl⟩
    · show (BitVec.ofNat 9 n).toNat ≤ _
      simp only [BitVec.toNat_ofNat, Config.heapCap]; omega
    · rcases pqExtract_spec s.arena ⟨h.heap, h.size, ho⟩ with ⟨h1, -⟩ | ⟨-, x, a, e2, hn', -, -, ha, -⟩
      · have : s.pqSize = 0 := h1
        rw [this] at hn; simp at hn
      · rw [e] at e2
        injection e2 with _ e2
        subst e2
        exact ha.ordered

/-! ### The tree -/

theorem Data.released {s : State} (h : s.Data) : s.treeRelease.arena.Released := Machine.released h.node h.heap

theorem treeBuild_good {s : State} (h : s.Data) : (procOf .treeBuild s).Good s := by
  have hz : (0#10).toNat ≤ Config.nodeCap := Nat.zero_le _
  have hz' : (0#9).toNat ≤ Config.heapCap := Nat.zero_le _
  have fail : ∀ (e : Raise) (a : Arena), buildTree s.freq s.treeRelease.arena = .raise e a → NodeWf a.node →
      HeapWf a.heap → (procOf .treeBuild s).Good s := by
    intro e a he hn hh
    rw [treeBuild_raise he]
    exact ⟨⟨h.freq, hn, hh, h.code, h.tb, hz, hz', TreeOk.none⟩, fun _ => State.HeapInv.empty rfl⟩
  rcases hl : usedSymbols s.freq with - | ⟨x, - | ⟨y, zs⟩⟩
  · obtain ⟨a, he, hn, hh⟩ := buildTree_none (Data.released h) hl
    exact fail _ _ he hn hh
  · obtain ⟨a, he, hw, hh, hc, hp, e0, e1, e2⟩ := buildTree_single (Data.released h) hl
    rw [treeBuild_ok he hp, hc]
    refine ⟨⟨⟨h.freq, hw, hh, h.code, h.tb, (by decide : (3#10).toNat ≤ Config.nodeCap), hz',
      TreeOk.of_holds (t := .node (.leaf x false) (.leaf (x ^^^ 0x01#8) true)) ?_ (by simp [HTree.leaves, Config.symbols])⟩,
      fun _ => State.HeapInv.empty rfl⟩, rfl⟩
    simp only [Holds, e2, e0, e1]
    decide
  · rcases buildTree_many (Data.released h) (freq := s.freq) (by rw [hl]; simp) with
      ⟨-, r, a, t, he, hw, hh, hc, hp, -, -, hT, -, -, hlv, -⟩ | ⟨-, k, a, he, -, -, -, -, hn, hh⟩
    · have hle := usedSymbols_length s.freq
      rw [treeBuild_ok he hp]
      refine ⟨⟨⟨h.freq, hw, hh, h.code, h.tb, ?_, hz',
        TreeOk.of_holds hT (by rw [hlv]; exact hle)⟩,
        fun _ => State.HeapInv.empty rfl⟩, rfl⟩
      show a.nodeCount.toNat ≤ _
      rw [hc]
      simp only [Config.symbols, Config.nodeCap] at hle ⊢
      omega
    · exact fail _ _ he hn hh

theorem treeSerialize_good {s : State} (h : s.Data) : (procOf .treeSerialize s).Good s := by
  cases hv : s.treeValid with
  | false =>
    have e : procOf .treeSerialize s = .raise (raiseNat .sequence 0) s := by
      show doTreeSerialize s = _
      rw [doTreeSerialize, if_neg (by simp [hv])]
    rw [e]
    exact Keeps.same h rfl rfl rfl
  | true =>
    obtain ⟨T, hT, hl⟩ := h.tree.held hv
    obtain ⟨tb, ht, e⟩ := treeSerialize_ok hv hT hl
    have hlen := T.toBits_length s.symLsb
    have hlen' : (BitVec.ofNat 12 (T.toBits s.symLsb).length).toNat = (T.toBits s.symLsb).length := by
      simp only [Config.symbols] at hl
      simp only [BitVec.toNat_ofNat]; omega
    rw [e]
    refine ⟨Keeps.same ⟨h.freq, h.node, h.heap, h.code, ⟨?_, fun i hi => ?_⟩, h.count, h.size, h.tree⟩ rfl rfl rfl, rfl⟩
    · show (BitVec.ofNat 12 (T.toBits s.symLsb).length).toNat ≤ _
      rw [hlen']
      simp only [Config.symbols, Config.tbMaxBits] at hl ⊢
      omega
    · replace hi : (T.toBits s.symLsb).length ≤ i := hlen' ▸ hi
      show tbGet tb i = false
      rw [ht, List.getD_eq_getElem?_getD, List.getElem?_eq_none hi]
      rfl

theorem treeDeserialize_good {s : State} (h : s.Data) : (procOf .treeDeserialize s).Good s := by
  have hz : (0#10).toNat ≤ Config.nodeCap := Nat.zero_le _
  have hz' : (0#9).toNat ≤ Config.heapCap := Nat.zero_le _
  obtain ⟨T, hT⟩ := exists_tree s.symLsb s.tb s.tbLen.toNat s.tbLen.toNat 0 (by omega)
  by_cases hl : (T.toBits s.symLsb).length ≤ s.tbLen.toNat
  · have hsz := HTree.size_le_of_bits (Nat.le_trans hl h.tb.1)
    obtain ⟨m, hm, hp, e⟩ := treeDeserialize_ok h.node (Nat.le_of_lt hsz) hT hl
    have hc : (BitVec.ofNat 10 T.size).toNat = T.size := by
      simp only [Config.nodeCap] at hsz
      simp only [BitVec.toNat_ofNat]; omega
    rw [e]
    refine ⟨⟨⟨h.freq, hm, h.heap, h.code, h.tb, ?_, hz',
      TreeOk.of_holds (t := T.plain) ?_ ?_⟩, fun _ => State.HeapInv.empty rfl⟩, rfl⟩
    · show (BitVec.ofNat 10 T.size).toNat ≤ _
      rw [hc]; exact Nat.le_of_lt hsz
    · rw [hc]
      exact ParsedAt.holds (i := 0) (n := T.size) (by omega) (Nat.le_of_lt hsz) hp
    · rw [HTree.plain_leaves]
      have := T.size_eq
      simp only [Config.nodeCap, Config.symbols] at hsz ⊢
      omega
  · obtain ⟨m, pos, k, hm, -, -, -, -, e⟩ := treeDeserialize_raise h.node hT (.inr (by omega))
    rw [e]
    exact ⟨⟨h.freq, hm, h.heap, h.code, h.tb, hz, hz', TreeOk.none⟩, fun _ => State.HeapInv.empty rfl⟩

theorem codeGen_good {s : State} (h : s.Data) : (procOf .codeGen s).Good s := by
  have hdisc : s.codeDiscard.Data := ⟨h.freq, h.node, h.heap, CodeOk.nil, h.tb, h.count, h.size,
    ⟨h.tree.held, h.tree.free, fun h0 => by cases h0⟩⟩
  cases hv : s.treeValid with
  | false =>
    have e : procOf .codeGen s = .raise (raiseNat .sequence 0) s.codeDiscard := by
      show doCodeGen s = _
      rw [doCodeGen, if_pos (by simp [hv])]
    rw [e]
    exact Keeps.same hdisc rfl rfl rfl
  | true =>
    obtain ⟨T, hT, hl⟩ := h.tree.held hv
    cases T with
    | leaf sym y =>
      have e : procOf .codeGen s = .raise (raiseNat .encoding 0) s.codeDiscard := by
        show doCodeGen s = _
        rw [doCodeGen, if_neg (by simp [hv]), if_pos hT.2.1]
      rw [e]
      exact Keeps.same hdisc rfl rfl rfl
    | node l r =>
      obtain ⟨m, path, depth, hw, hst, e⟩ := codeGen_ok hv hT hl
      rw [e]
      refine ⟨Keeps.same ⟨h.freq, h.node, h.heap, ⟨hw, fun x j hj => ?_⟩, h.tb, h.count, h.size,
        ⟨h.tree.held, h.tree.free, fun _ => hv⟩⟩ rfl rfl rfl, rfl⟩
      replace hj : (codeAt m x).len.toNat ≤ j := hj
      show (codeAt m x).bits.getMsbD j = false
      have hx := hst x
      cases hc : lastCode x ((HTree.node l r).codes []) with
      | none =>
        rw [hc] at hx
        rw [hx]
        simp [codeAt, CodeEntry.zero]
      | some c =>
        rw [hc] at hx
        rw [hx.2, List.getD_eq_getElem?_getD, List.getElem?_eq_none (by rw [← hx.1]; exact hj)]
        rfl

/-! ### All operations -/

theorem puts_ok (bs : List Byte) (f : Bool) : (bs.map Op.put ++ if f then [Op.putEnd] else []).all Op.ok = true := by
  rw [List.all_append, Bool.and_eq_true]
  refine ⟨?_, by cases f <;> rfl⟩
  rw [List.all_eq_true]
  intro op hop
  obtain ⟨b, -, rfl⟩ := List.mem_map.1 hop
  rfl

/-- No procedure faults, and each keeps the datapath's invariant. -/
theorem procOf_good (i : Instr) {s : State} (h : s.Data) : (procOf i s).Good s := by
  have same : Keeps s s := Keeps.same h rfl rfl rfl
  cases i with
  | nop => exact ⟨same, rfl⟩
  | softReset =>
    exact ⟨⟨⟨by simp [FreqWf, State.softReset], by simp [NodeWf, State.softReset], by simp [HeapWf, State.softReset],
      CodeOk.nil, TbOk.zero (Nat.zero_le _), Nat.zero_le _, Nat.zero_le _, TreeOk.none⟩,
      fun _ => State.HeapInv.empty rfl⟩, rfl⟩
  | inDiscard => exact ⟨same, rfl⟩
  | bbCreate arg =>
    show (doBbCreate arg s).Good s
    unfold doBbCreate
    split
    · exact same
    · next hle =>
      refine ⟨Keeps.same ⟨h.freq, h.node, h.heap, h.code, TbOk.zero ?_, h.count, h.size, h.tree⟩ rfl rfl rfl, rfl⟩
      simp only [Config.tbMaxBits, BitVec.toNat_ofNat] at hle ⊢
      omega
  | bbSet arg =>
    show (doBbSet arg s).Good s
    unfold doBbSet
    split
    · exact same
    · next hle =>
      exact ⟨Keeps.same ⟨h.freq, h.node, h.heap, h.code, tbPut_ok (len := s.tbLen) h.tb (by omega), h.count, h.size, h.tree⟩ rfl rfl rfl, rfl⟩
  | bbClear arg =>
    show (doBbClear arg s).Good s
    unfold doBbClear
    split
    · exact same
    · next hle =>
      exact ⟨Keeps.same ⟨h.freq, h.node, h.heap, h.code, tbPut_ok (len := s.tbLen) h.tb (by omega), h.count, h.size, h.tree⟩ rfl rfl rfl, rfl⟩
  | bbGet arg =>
    show (doBbGet arg s).Good s
    unfold doBbGet
    split
    · exact same
    · exact ⟨Keeps.same ⟨h.freq, h.node, h.heap, h.code, h.tb, h.count, h.size, h.tree⟩ rfl rfl rfl, rfl⟩
  | bbResize arg => exact bbResize_good h arg
  | bbSerialize f => exact ⟨same, puts_ok _ f⟩
  | bbDeserialize =>
    exact ⟨Keeps.same ⟨h.freq, h.node, h.heap, h.code, h.tb, h.count, h.size, h.tree⟩ rfl rfl rfl, rfl⟩
  | pqClear =>
    exact ⟨⟨⟨h.freq, h.node, h.heap, h.code, h.tb, h.count, Nat.zero_le _, h.tree⟩, fun _ => State.HeapInv.empty rfl⟩, rfl⟩
  | pqInsert arg => exact pqInsert_good h arg
  | pqExtract => exact pqExtract_good h
  | treeBuild => exact treeBuild_good h
  | treeDestroy =>
    exact ⟨⟨⟨h.freq, h.node, h.heap, h.code, h.tb, Nat.zero_le _, Nat.zero_le _, TreeOk.none⟩,
      fun _ => State.HeapInv.empty rfl⟩, rfl⟩
  | treeSerialize => exact treeSerialize_good h
  | treeDeserialize => exact treeDeserialize_good h
  | freqClear =>
    exact ⟨Keeps.same ⟨by simp [FreqWf], h.node, h.heap, h.code, h.tb, h.count, h.size, h.tree⟩ rfl rfl rfl, rfl⟩
  | freqAccum =>
    exact ⟨Keeps.same ⟨h.freq, h.node, h.heap, h.code, h.tb, h.count, h.size, h.tree⟩ rfl rfl rfl, rfl⟩
  | codeGen => exact codeGen_good h
  | pack f =>
    show (doPack f s).Good s
    unfold doPack
    split
    · exact ⟨Keeps.same ⟨h.freq, h.node, h.heap, h.code, h.tb, h.count, h.size, h.tree⟩ rfl rfl rfl, rfl⟩
    · exact same
  | unpack f =>
    show (doUnpack f s).Good s
    unfold doUnpack
    split
    · exact same
    · split
      · exact same
      · exact ⟨Keeps.same ⟨h.freq, h.node, h.heap, h.code, h.tb, h.count, h.size, h.tree⟩ rfl rfl rfl, rfl⟩
  | encode => exact ⟨same, rfl⟩
  | decode => exact ⟨same, rfl⟩

/-- A beat taken keeps the datapath. -/
theorem takeBeat_data {s s' : State} {b : Beat} (h : s.Data) (ht : s.takeBeat = some (b, s')) :
    s'.Data ∧ s'.node = s.node ∧ s'.heap = s.heap ∧ s'.pqSize = s.pqSize := by
  obtain ⟨q, -, rfl⟩ := takeBeat_some ht
  exact ⟨⟨h.freq, h.node, h.heap, h.code, h.tb, h.count, h.size, h.tree⟩, rfl, rfl, rfl⟩

theorem tbDiscard_data {s : State} (h : s.Data) : s.tbDiscard.Data :=
  ⟨h.freq, h.node, h.heap, h.code, TbOk.zero (Nat.zero_le _), h.count, h.size, h.tree⟩

theorem rdBucket_good {s : State} (h : s.Data) {n k : Nat} {got : List (BitVec 16)} {v : BitVec 16}
    (hok : (Op.rdBucket n got k v).ok = true) : (rdBucketLoop n got k v s).Good s := by
  simp only [Op.ok, Bool.decide_and, Bool.and_eq_true, decide_eq_true_eq] at hok
  obtain ⟨hn, hg, hk⟩ := hok
  unfold rdBucketLoop
  split
  · exact Keeps.same (tbDiscard_data h) rfl rfl rfl
  · cases ht : s.takeBeat with
    | none => trivial
    | some p =>
      obtain ⟨b, s'⟩ := p
      obtain ⟨hd, e1, e2, e3⟩ := takeBeat_data h ht
      dsimp only
      generalize (if b.empty = true then k else k + 1) = k'
      generalize (if b.empty = true then v else intByteIn s.wireBe 2 k v b.data) = v'
      split
      · next hk2 =>
        split
        · exact Keeps.same (tbDiscard_data hd) e1 e2 e3
        · refine ⟨Keeps.same hd e1 e2 e3, ?_⟩
          simp only [List.all_cons, List.all_nil, Op.ok, Bool.and_true, decide_eq_true_eq]
          exact ⟨hn, hg, hk2⟩
      · split
        · next hm =>
          refine ⟨Keeps.same hd e1 e2 e3, ?_⟩
          simp only [List.all_cons, List.all_nil, Op.ok, Bool.and_true, decide_eq_true_eq, List.length_append,
            List.length_cons, List.length_nil]
          exact ⟨hn, by omega, by omega⟩
        · have hnn : (BitVec.ofNat 12 n).toNat = n := by
            simp only [Config.tbMaxBits] at hn
            simp only [BitVec.toNat_ofNat]; omega
          refine ⟨Keeps.same ⟨hd.freq, hd.node, hd.heap, hd.code, ⟨?_, fun i hi => ?_⟩, hd.count, hd.size, hd.tree⟩ e1 e2 e3,
            rfl⟩
          · show (BitVec.ofNat 12 n).toNat ≤ _
            rw [hnn]; exact hn
          · replace hi : n ≤ i := hnn ▸ hi
            show tbGet (tbKeep _ n) i = false
            rw [tbGet_tbKeep _ _ _ (by simp only [Config.tbMaxBits, Config.tbBits] at hn ⊢; omega)]
            simp [Nat.not_lt.2 hi]

/-- No operation faults, and each keeps the datapath's invariant. -/
theorem runOp_good {op : Op} {s : State} (h : s.Data) (hok : op.ok = true) : (runOp op s).Good s := by
  have same : Keeps s s := Keeps.same h rfl rfl rfl
  cases op with
  | run i => exact procOf_good i h
  | put b =>
    show (putOp b s).Good s
    unfold putOp
    cases hp : s.putByte b with
    | none => trivial
    | some s' =>
      obtain ⟨n, -, rfl⟩ := putByte_some hp
      exact ⟨Keeps.same ⟨h.freq, h.node, h.heap, h.code, h.tb, h.count, h.size, h.tree⟩ rfl rfl rfl, rfl⟩
  | putEnd =>
    show (putEndOp s).Good s
    unfold putEndOp
    cases hp : s.putMarker with
    | none => trivial
    | some s' =>
      obtain ⟨n, -, rfl⟩ := putMarker_some hp
      exact ⟨Keeps.same ⟨h.freq, h.node, h.heap, h.code, h.tb, h.count, h.size, h.tree⟩ rfl rfl rfl, rfl⟩
  | discard =>
    show (discardLoop s).Good s
    unfold discardLoop
    split
    · exact ⟨same, rfl⟩
    · cases ht : s.takeBeat with
      | none => trivial
      | some p =>
        obtain ⟨hd, e1, e2, e3⟩ := takeBeat_data (b := p.1) (s' := p.2) h ht
        exact ⟨Keeps.same hd e1 e2 e3, rfl⟩
  | accum =>
    show (accumLoop s).Good s
    unfold accumLoop
    split
    · exact ⟨same, rfl⟩
    · cases ht : s.takeBeat with
      | none => trivial
      | some p =>
        obtain ⟨b, s'⟩ := p
        obtain ⟨hd, e1, e2, e3⟩ := takeBeat_data h ht
        dsimp only
        split
        · exact ⟨Keeps.same hd e1 e2 e3, rfl⟩
        · split
          · exact Keeps.same hd e1 e2 e3
          · exact ⟨Keeps.same ⟨freqPut_wf hd.freq _ _, hd.node, hd.heap, hd.code, hd.tb, hd.count, hd.size, hd.tree⟩
              e1 e2 e3, rfl⟩
  | rdLen k v =>
    show (rdLenLoop k v s).Good s
    unfold rdLenLoop
    cases ht : s.takeBeat with
    | none => trivial
    | some p =>
      obtain ⟨b, s'⟩ := p
      obtain ⟨hd, e1, e2, e3⟩ := takeBeat_data h ht
      dsimp only
      generalize (if b.empty = true then k else k + 1) = k'
      generalize (if b.empty = true then v else intByteIn s.wireBe 4 k v b.data) = v'
      split
      · next hk =>
        split
        · exact Keeps.same (tbDiscard_data hd) e1 e2 e3
        · refine ⟨Keeps.same hd e1 e2 e3, ?_⟩
          simp only [List.all_cons, List.all_nil, Op.ok, Bool.and_true, decide_eq_true_eq]
          exact hk
      · split
        · exact Keeps.same (tbDiscard_data hd) e1 e2 e3
        · next hle =>
          refine ⟨Keeps.same hd e1 e2 e3, ?_⟩
          simp only [List.all_cons, List.all_nil, Op.ok, Bool.and_true, decide_eq_true_eq]
          exact ⟨by omega, Nat.succ_pos _, by omega⟩
  | rdBucket n got k v => exact rdBucket_good h hok
  | pack f =>
    show (packLoop f s).Good s
    unfold packLoop
    split
    · exact ⟨Keeps.same ⟨h.freq, h.node, h.heap, h.code, h.tb, h.count, h.size, h.tree⟩ rfl rfl rfl, puts_ok _ f⟩
    · cases ht : s.takeBeat with
      | none => trivial
      | some p =>
        obtain ⟨b, s'⟩ := p
        obtain ⟨hd, e1, e2, e3⟩ := takeBeat_data h ht
        dsimp only
        split
        · exact ⟨Keeps.same hd e1 e2 e3, rfl⟩
        · split
          · exact Keeps.same hd e1 e2 e3
          · refine ⟨Keeps.same ⟨hd.freq, hd.node, hd.heap, hd.code, hd.tb, hd.count, hd.size, hd.tree⟩ e1 e2 e3, ?_⟩
            rw [List.all_append, Bool.and_eq_true]
            exact ⟨by simpa using puts_ok _ false, rfl⟩
  | unpack n stop =>
    show (unpackLoop n stop s).Good s
    unfold unpackLoop
    split
    · exact ⟨Keeps.same ⟨h.freq, h.node, h.heap, h.code, h.tb, h.count, h.size, h.tree⟩ rfl rfl rfl, rfl⟩
    · cases ht : s.takeBeat with
      | none => trivial
      | some p =>
        obtain ⟨b, s'⟩ := p
        obtain ⟨hd, e1, e2, e3⟩ := takeBeat_data h ht
        dsimp only
        split
        · exact ⟨Keeps.same hd e1 e2 e3, rfl⟩
        · refine ⟨Keeps.same ⟨hd.freq, hd.node, hd.heap, hd.code, hd.tb, hd.count, hd.size, hd.tree⟩ e1 e2 e3, ?_⟩
          rw [List.all_append, Bool.and_eq_true]
          exact ⟨by simpa using puts_ok _ false, rfl⟩
  | fail r => exact same

end Sys2Proof.Machine
end

