-- ==== Sys2Proof/Laws/PerInstr.lean ====
section
/-! SUPPORT. Laws/PerInstr.lean: facts about every command as syntax, one lemma per command. -/

namespace Sys2Proof.Laws.OpcodeRow

/-- The fields of a command's word select its own row of the opcode map (30_encoding.md R116, R119). -/
def Statement (i : Instr) : Prop :=
  WellFormed i → ∃ fmt, opcodeRow (opField (encode i)) (flagField (encode i)) (argField (encode i)) = some (fmt, i)

/-- The row of a word laid out from its fields. -/
theorem of_fields {op : Nat} {f : Bool} {arg : Nat} {i : Instr} {fmt : Format} (hop : op < 256) (ha : arg < 65536)
    (he : encode i = commandWord op f arg) (hr : opcodeRow op f arg = some (fmt, i)) :
    ∃ fmt, opcodeRow (opField (encode i)) (flagField (encode i)) (argField (encode i)) = some (fmt, i) :=
  ⟨fmt, by rw [he, opField_commandWord f arg hop, flagField_commandWord, argField_commandWord op f ha, hr]⟩

theorem arg_lt {arg : Nat} (h : argFits arg = true) : arg < 65536 := by simpa [argFits] using h

theorem nop : Statement .nop := fun _ => of_fields (by decide) (by decide) rfl rfl
theorem softReset : Statement .softReset := fun _ => of_fields (by decide) (by decide) rfl rfl
theorem inDiscard : Statement .inDiscard := fun _ => of_fields (by decide) (by decide) rfl rfl
theorem bbCreate (arg : Nat) : Statement (.bbCreate arg) := fun h => of_fields (by decide) (arg_lt h) rfl rfl
theorem bbSet (arg : Nat) : Statement (.bbSet arg) := fun h => of_fields (by decide) (arg_lt h) rfl rfl
theorem bbClear (arg : Nat) : Statement (.bbClear arg) := fun h => of_fields (by decide) (arg_lt h) rfl rfl
theorem bbGet (arg : Nat) : Statement (.bbGet arg) := fun h => of_fields (by decide) (arg_lt h) rfl rfl
theorem bbResize (arg : Nat) : Statement (.bbResize arg) := fun h => of_fields (by decide) (arg_lt h) rfl rfl
theorem bbSerialize (f : Bool) : Statement (.bbSerialize f) := fun _ => of_fields (by decide) (by decide) rfl rfl
theorem bbDeserialize : Statement .bbDeserialize := fun _ => of_fields (by decide) (by decide) rfl rfl
theorem pqClear : Statement .pqClear := fun _ => of_fields (by decide) (by decide) rfl rfl
theorem pqInsert (arg : Nat) : Statement (.pqInsert arg) := fun h => of_fields (by decide) (arg_lt h) rfl rfl
theorem pqExtract : Statement .pqExtract := fun _ => of_fields (by decide) (by decide) rfl rfl
theorem treeBuild : Statement .treeBuild := fun _ => of_fields (by decide) (by decide) rfl rfl
theorem treeDestroy : Statement .treeDestroy := fun _ => of_fields (by decide) (by decide) rfl rfl
theorem treeSerialize : Statement .treeSerialize := fun _ => of_fields (by decide) (by decide) rfl rfl
theorem treeDeserialize : Statement .treeDeserialize := fun _ => of_fields (by decide) (by decide) rfl rfl
theorem freqClear : Statement .freqClear := fun _ => of_fields (by decide) (by decide) rfl rfl
theorem freqAccum : Statement .freqAccum := fun _ => of_fields (by decide) (by decide) rfl rfl
theorem codeGen : Statement .codeGen := fun _ => of_fields (by decide) (by decide) rfl rfl
theorem pack (f : Bool) : Statement (.pack f) := fun _ => of_fields (by decide) (by decide) rfl rfl
theorem unpack (f : Bool) : Statement (.unpack f) := fun _ => of_fields (by decide) (by decide) rfl rfl
theorem encode : Statement .encode := fun _ => of_fields (by decide) (by decide) rfl rfl
theorem decode : Statement .decode := fun _ => of_fields (by decide) (by decide) rfl rfl

end Sys2Proof.Laws.OpcodeRow
end

