-- ==== Sys2Proof/Laws/Reject.lean ====
section
/-! SUPPORT. Laws/Reject.lean: a header message that ends too early (41_bitbuffer.md R160), and a message
cut after its header. -/

namespace Sys2Proof.Machine

/-- Beats that carry bytes, with one more in front. -/
theorem Carries.cons_empty {b : Beat} {q : List Beat} {ds : List Byte} (he : b.empty = true)
    (hl : b.last = false) (h : Carries q ds) : Carries (b :: q) ds := by
  obtain ⟨p, d, x, hx, hxe⟩ := h
  cases q with
  | nil => simp at hx
  | cons z q =>
    refine ⟨by rw [payload_cons, if_pos he]; simpa using p, ?_, x, by simpa using hx, hxe⟩
    intro y hy
    rw [List.dropLast_cons_cons] at hy
    rcases List.mem_cons.1 hy with rfl | hy
    · exact hl
    · exact d y hy

theorem Carries.cons_data {b : Beat} {q : List Beat} {ds : List Byte} (he : b.empty = false)
    (hl : b.last = false) (h : Carries q ds) : Carries (b :: q) (b.data :: ds) := by
  obtain ⟨p, d, x, hx, hxe⟩ := h
  cases q with
  | nil => simp at hx
  | cons z q =>
    refine ⟨by rw [payload_cons, if_neg (by simp [he])]; simpa using p, ?_, x, by simpa using hx, hxe⟩
    intro y hy
    rw [List.dropLast_cons_cons] at hy
    rcases List.mem_cons.1 hy with rfl | hy
    · exact hl
    · exact d y hy

/-- A message cut after its first bytes: either its last beat carries the last of them, or the rest of it
is a message. -/
theorem IsMessage.split : ∀ {q : List Beat} {ds1 ds2 : List Byte}, IsMessage q → payload q = ds1 ++ ds2 →
    ds1 ≠ [] → ∃ q1 q2, q = q1 ++ q2 ∧ Carries q1 ds1 ∧ payload q2 = ds2 ∧
      ((q2 = [] ∧ ∀ d, lastFlag d q1 = true) ∨ (IsMessage q2 ∧ ∀ d, lastFlag d q1 = false))
  | [], _, _, h, _, _ => h.elim
  | b :: q, ds1, ds2, hm, hp, hne => by
    cases ds1 with
    | nil => exact absurd rfl hne
    | cons x ds1 =>
      by_cases he : b.empty = true
      · rw [payload_cons, if_pos he, List.nil_append] at hp
        cases q with
        | nil => simp [payload] at hp
        | cons b2 q =>
          obtain ⟨q1, q2, e, c1, p2, h⟩ := IsMessage.split (q := b2 :: q) hm.2 hp (by simp)
          refine ⟨b :: q1, q2, by rw [e]; rfl, c1.cons_empty he hm.1, p2, ?_⟩
          simpa only [lastFlag_cons] using h.imp (fun h => ⟨h.1, fun _ => h.2 _⟩) (fun h => ⟨h.1, fun _ => h.2 _⟩)
      · have he : b.empty = false := by simpa using he
        rw [payload_cons, if_neg (by simp [he]), List.singleton_append, List.cons_append, List.cons.injEq] at hp
        obtain ⟨rfl, hp⟩ := hp
        by_cases h1 : ds1 = []
        · subst h1
          refine ⟨[b], q, rfl, ⟨by simp [payload, he], by simp, b, rfl, he⟩, by simpa using hp, ?_⟩
          cases q with
          | nil => exact .inl ⟨rfl, fun d => by simpa [lastFlag] using (show b.last = true from hm)⟩
          | cons b2 q => exact .inr ⟨hm.2, fun d => by simpa [lastFlag] using hm.1⟩
        · cases q with
          | nil => simp [payload] at hp; exact absurd hp.1 h1
          | cons b2 q =>
            obtain ⟨q1, q2, e, c1, p2, h⟩ := IsMessage.split (q := b2 :: q) hm.2 hp h1
            refine ⟨b :: q1, q2, by rw [e]; rfl, c1.cons_data he hm.1, p2, ?_⟩
            simpa only [lastFlag_cons] using h.imp (fun h => ⟨h.1, fun _ => h.2 _⟩) (fun h => ⟨h.1, fun _ => h.2 _⟩)

/-- The message ends inside total_bits. -/
theorem rdLen_short : ∀ (q rest : List Beat) (k : Nat) (v : Word) (ops : List Op) (s : State), IsMessage q →
    k + (payload q).length < 4 → s.inQ = q ++ rest →
    runAll (.rdLen k v :: ops) s =
      failWith (raiseNat .encoding (k + (payload q).length)) (s.took q rest).tbDiscard
  | [], _, _, _, _, _, h, _, _ => h.elim
  | b :: q, rest, k, v, ops, s, hm, hlen, hq => by
    have ht := takeBeat_cons (b := b) (q := q ++ rest) hq
    rw [payload_cons, List.length_append] at hlen ⊢
    generalize hk : (if b.empty = true then k else k + 1) = k'
    have hk' : k' = k + (if b.empty = true then ([] : List Byte) else [b.data]).length := by
      rw [← hk]; split <;> rfl
    cases q with
    | nil =>
      have hl : b.last = true := hm
      have hop : runOp (.rdLen k v) s = .raise (raiseNat .encoding k') (s.took [b] rest).tbDiscard := by
        simp only [runOp, rdLenLoop, ht, hk, hl, if_true]
        rw [if_pos (by omega)]; rfl
      rw [runAll_raise hop, hk']; rfl
    | cons b2 q =>
      have hop : runOp (.rdLen k v) s = .ok (s.took [b] (b2 :: q ++ rest))
          [.rdLen k' (if b.empty then v else intByteIn s.wireBe 4 k v b.data)] := by
        simp only [runOp, rdLenLoop, ht, hk, hm.1, Bool.false_eq_true, if_false]
        rw [if_pos (by omega)]
      rw [runAll_ok hop, List.singleton_append,
        rdLen_short (b2 :: q) rest k' _ ops (s.took [b] (b2 :: q ++ rest)) hm.2 (by omega) rfl, State.took_cons, hk',
        Nat.add_assoc]

/-- The message ends before the last bucket, inside one or between two (41_bitbuffer.md R160). -/
theorem rdBucket_short (n : Nat) : ∀ (q rest : List Beat) (got : List (BitVec 16)) (k : Nat) (v : BitVec 16)
    (ops : List Op) (s : State), IsMessage q → k < 2 → k + (payload q).length + 2 * got.length < 2 * bucketCount n →
    s.inQ = q ++ rest → s.inEom = false →
    runAll (.rdBucket n got k v :: ops) s =
      failWith (raiseNat .encoding (4 + 2 * got.length + (k + (payload q).length))) (s.took q rest).tbDiscard
  | [], _, _, _, _, _, _, h, _, _, _, _ => h.elim
  | b :: q, rest, got, k, v, ops, s, hm, hk2, hlen, hq, hin => by
    have ht := takeBeat_cons (b := b) (q := q ++ rest) hq
    rw [payload_cons, List.length_append] at hlen ⊢
    generalize hk : (if b.empty = true then k else k + 1) = k'
    have hk' : k' = k + (if b.empty = true then ([] : List Byte) else [b.data]).length := by
      rw [← hk]; split <;> rfl
    have hno : ¬ s.inEom = true := by simp [hin]
    by_cases hlt : k' < 2
    · cases q with
      | nil =>
        have hl : b.last = true := hm
        have hop : runOp (.rdBucket n got k v) s =
            .raise (raiseNat .encoding (4 + 2 * got.length + k')) (s.took [b] rest).tbDiscard := by
          simp only [runOp, rdBucketLoop, if_neg hno, ht, hk, hl, if_true, if_pos hlt]; rfl
        rw [runAll_raise hop, hk']; rfl
      | cons b2 q =>
        have hop : runOp (.rdBucket n got k v) s = .ok (s.took [b] (b2 :: q ++ rest))
            [.rdBucket n got k' (if b.empty then v else intByteIn s.wireBe 2 k v b.data)] := by
          simp only [runOp, rdBucketLoop, if_neg hno, ht, hk, hm.1, Bool.false_eq_true, if_false, if_pos hlt]
        rw [runAll_ok hop, List.singleton_append,
          rdBucket_short n (b2 :: q) rest got k' _ ops (s.took [b] (b2 :: q ++ rest)) hm.2 hlt (by omega) rfl hm.1, State.took_cons, hk', Nat.add_assoc k]
    · have he : ¬ b.empty = true := by intro he; rw [if_pos he] at hk; omega
      rw [if_neg he] at hk hk' hlen ⊢
      simp only [List.length_singleton] at hk' hlen ⊢
      have hk1 : k = 1 := by omega
      have hop : runOp (.rdBucket n got k v) s = .ok (s.took [b] (q ++ rest))
          [.rdBucket n (got ++ [intByteIn s.wireBe 2 k v b.data]) 0 0] := by
        simp only [runOp, rdBucketLoop, if_neg hno, ht, he, Bool.false_eq_true, if_false]
        rw [if_neg (by omega), if_pos (by omega)]
      rw [runAll_ok hop, List.singleton_append]
      cases q with
      | nil =>
        have hl : b.last = true := hm
        have hop2 : runOp (.rdBucket n (got ++ [intByteIn s.wireBe 2 k v b.data]) 0 0) (s.took [b] rest) =
            .raise (raiseNat .encoding (4 + 2 * (got ++ [intByteIn s.wireBe 2 k v b.data]).length + 0))
              (s.took [b] rest).tbDiscard := by
          simp only [runOp, rdBucketLoop]
          rw [if_pos (by simpa [State.took, lastFlag] using hl)]
        rw [List.nil_append, runAll_raise hop2]
        congr 2
        simp only [List.length_append, List.length_singleton, payload, List.filter_nil, List.map_nil,
          List.length_nil, hk1]
        omega
      | cons b2 q =>
        rw [rdBucket_short n (b2 :: q) rest _ 0 0 ops (s.took [b] (b2 :: q ++ rest)) hm.2 (by omega)
            (by simp only [List.length_append, List.length_singleton]; omega) rfl hm.1,
          State.took_cons]
        congr 2
        simp only [List.length_append, List.length_singleton]; omega

end Sys2Proof.Machine
end

