-- ==== Sys2Proof/Laws/Pipeline.lean ====
section
/-! SUPPORT. Laws/Pipeline.lean: what ENCODE and DECODE do as wholes (44_codec.md R240 to R243). -/

namespace Sys2Proof.Machine

/-! ### The counts of a message and the tree over them -/

/-- The counts of a message sum up to its length (43_tree.md R207). -/
theorem totalOf_counts {freq : Memory Word} {S : List Byte} (h : ∀ x, (freqAt freq x).toNat = S.count x) :
    totalOf freq (usedSymbols freq) = S.length := by
  have hp : (usedSymbols freq).Perm S.dedup := by
    refine (List.perm_ext_iff_of_nodup (usedSymbols_nodup _) S.nodup_dedup).2 fun x => ?_
    rw [mem_usedSymbols, List.mem_dedup, ← List.count_pos_iff, ← h]
    constructor
    · intro hx
      exact Nat.pos_of_ne_zero fun h0 => hx (BitVec.eq_of_toNat_eq h0)
    · intro hx h0
      rw [h0] at hx
      exact absurd hx (by decide)
  unfold totalOf
  rw [(hp.map _).sum_eq, List.map_congr_left (fun x _ => h x), List.sum_map_count_dedup_eq_length]

/-- TREE_BUILD makes a tree that is no single leaf, unless there is no symbol or too much weight (43_tree.md
R204, R206, R207). -/
theorem treeBuild_tree {s : State} (hn : NodeWf s.node) (hh : HeapWf s.heap) (hu : usedSymbols s.freq ≠ [])
    (ht : totalOf s.freq (usedSymbols s.freq) ≤ maxWord) :
    ∃ m n h r x y, procOf .treeBuild s = .ok { s with
        node := m, heap := h, nodeCount := n, root := r, pqSize := 0, treeValid := true, codeValid := false } [] ∧
      NodeWf m ∧ Holds m n.toNat r (.node x y) ∧ Weighs s.freq m r (.node x y) ∧
      (HTree.node x y).syms.Perm (usedSymbols s.freq) ∧ (HTree.node x y).leaves ≤ Config.symbols ∧
      (∀ z, usedSymbols s.freq = [z] → HTree.node x y = .node (.leaf z false) (.leaf (z ^^^ 0x01#8) true)) ∧
      (2 ≤ (usedSymbols s.freq).length → r.toNat = 2 * (usedSymbols s.freq).length - 2 ∧
        BuiltFrom s.freq (usedSymbols s.freq) m s.heap h) := by
  rcases hl : usedSymbols s.freq with - | ⟨x, - | ⟨y, zs⟩⟩
  · exact absurd hl hu
  · obtain ⟨a, he, hw, -, hc, hp, e0, e1, e2⟩ := buildTree_single (released hn hh) hl
    refine ⟨a.node, a.nodeCount, a.heap, 2, .leaf x false, .leaf (x ^^^ 0x01#8) true, treeBuild_ok he hp, hw, ?_⟩
    rw [hc]
    refine ⟨?_, ?_, by simp [HTree.syms], by simp [HTree.leaves, Config.symbols],
      fun z hz => by rw [List.singleton_inj.1 hz], fun h2 => by simp at h2⟩
    · simp only [Holds, e2, e0, e1]
      decide
    · simp only [Weighs, e2, e0, e1]
      exact ⟨by simp, by simp, by simp⟩
  · have h2 : 2 ≤ (usedSymbols s.freq).length := by rw [hl]; simp
    rcases buildTree_many (released hn hh) h2 with
      ⟨-, r, a, t, he, hw, -, -, hp, hr, hb, hT, hwt, hs, hlv, -⟩ | ⟨hgt, -⟩
    · have hle := usedSymbols_length s.freq
      cases t with
      | leaf _ _ => simp only [HTree.leaves] at hlv; omega
      | node u v =>
        refine ⟨a.node, a.nodeCount, a.heap, r, u, v, treeBuild_ok he hp, hw, hT, hwt, hl ▸ hs,
          by rw [hlv]; exact hle, fun z hz => by simp at hz, fun _ => ?_⟩
        rw [← hl]; exact ⟨hr, hb⟩
    · omega

theorem codeEntry_toBits_length (e : CodeEntry) : e.toBits.length = e.len.toNat := by simp [CodeEntry.toBits]

/-- A bit sequence has a layout in bytes (44_codec.md R231). -/
theorem exists_bytesOfBits (bits : List Bool) : ∃ bytes, BytesOfBits bits bytes := by
  obtain ⟨pend, hp, he⟩ := emitBits_spec bits 0 0 [] Pend.zero
  rw [List.nil_append] at he
  obtain ⟨pad, h8, e⟩ := flushByte_spec hp
  exact ⟨(emitBits bits 0 0).2.2 ++ flushByte _ _, pad, h8, by
    rw [List.flatMap_append, e, ← List.append_assoc, ← he]⟩

/-! ### ENCODE -/

/-- The first two steps of ENCODE: the counts of the first message (44_codec.md R241). -/
theorem encode_counts {s : State} {q rest : List Beat} (ops : List Op) (hm : IsMessage q) (hq : s.inQ = q ++ rest)
    (hl : (payload q).length ≤ maxWord) :
    ∃ m, (∀ x, (freqAt m x).toNat = (payload q).count x) ∧
      runAll (.run .freqClear :: .run .freqAccum :: ops) s = runAll ops { s with
        freq := m, freqTotal := BitVec.ofNat 32 (payload q).length, inQ := rest, inEom := true
        inCount := countUp s.inCount (payload q).length } := by
  obtain ⟨m, hc, e⟩ := accum_spec q rest ops { s with freq := [], freqTotal := 0, inEom := false } hm hq rfl
    (by simp [FreqWf]) ⟨by simpa using hl, fun x => by
      have := List.count_le_length (a := x) (l := payload q)
      show (freqAt [] x).toNat + _ ≤ _
      rw [freqAt, Memory.read_nil, show (0 : Word).toNat = 0 from rfl, Nat.zero_add]
      omega⟩
  refine ⟨m, fun x => by have := hc.count x; simpa [freqAt] using this, ?_⟩
  have h1 : procOf .freqClear s = .ok { s with freq := [], freqTotal := 0 } [] := rfl
  have h2 : procOf .freqAccum { s with freq := [], freqTotal := 0 } =
      .ok { s with freq := [], freqTotal := 0, inEom := false } [.accum] := rfl
  rw [runAll_run_ok h1, List.nil_append, runAll_run_ok h2, List.singleton_append, e]
  refine congrArg _ ?_
  simp [State.took, lastFlag_message _ hm, countUp]

/-- The steps of ENCODE (44_codec.md R241). -/
def encodeOps : List Op :=
  [.run .freqClear, .run .freqAccum, .run .treeBuild, .run .treeSerialize, .run (.bbSerialize false), .run .codeGen,
    .run (.pack true)]

/-- ENCODE up to its last step, on a first message that is not empty: the tables are made and the header is
given (44_codec.md R241). -/
theorem encode_tables {s : State} {q rest : List Beat} {S : List Byte} (hn : NodeWf s.node) (hh : HeapWf s.heap)
    (hm : IsMessage q) (hp : payload q = S) (hq : s.inQ = q ++ rest) (hne : S ≠ []) (hlen : S.length ≤ maxWord)
    (hr : 326 ≤ s.outReady) :
    ∃ t l r, runAll encodeOps s = runAll [.run (.pack true)] t ∧ t.EncodesFor s S (.node l r) ∧
      (HTree.node l r).leaves ≤ Config.symbols ∧ (headerBytes s.wireBe t.tbLen t.tb).length ≤ 326 ∧
      t = { s with
        freq := t.freq, freqTotal := BitVec.ofNat 32 S.length, node := t.node, nodeCount := t.nodeCount
        heap := t.heap, pqSize := 0, root := t.root, treeValid := true, codeValid := true
        tb := t.tb, tbLen := t.tbLen, pos := t.pos, code := t.code, path := t.path, depth := t.depth
        stack := t.stack, draws := t.draws
        inQ := rest, inEom := true, inCount := countUp s.inCount S.length
        outReady := s.outReady - (headerBytes s.wireBe t.tbLen t.tb).length
        outLog := s.outLog ++ (headerBytes s.wireBe t.tbLen t.tb).map dataBeat
        outCount := countUp s.outCount (headerBytes s.wireBe t.tbLen t.tb).length } := by
  obtain ⟨freq, hc, e1⟩ := encode_counts (s := s) (rest := rest) [.run .treeBuild, .run .treeSerialize,
    .run (.bbSerialize false), .run .codeGen, .run (.pack true)] hm hq (by rw [hp]; exact hlen)
  rw [hp] at hc e1
  -- after FREQ_ACCUM
  obtain ⟨s1, g1⟩ : ∃ s1 : State, s1 = { s with
    freq := freq, freqTotal := BitVec.ofNat 32 S.length, inQ := rest, inEom := true
    inCount := countUp s.inCount S.length } := ⟨_, rfl⟩
  rw [← g1] at e1
  have hfreq : s1.freq = freq := by rw [g1]
  have htot := totalOf_counts hc
  have hused : usedSymbols freq ≠ [] := by
    intro h0
    rw [h0] at htot
    exact hne (List.length_eq_zero_iff.1 (by simpa [totalOf] using htot.symm))
  -- after TREE_BUILD
  obtain ⟨m, n, h, root, l, r, e2, -, hT, hwt, hsy, hlv, hsg, hbt⟩ := treeBuild_tree (s := s1)
    (by rw [g1]; exact hn) (by rw [g1]; exact hh) (by rw [hfreq]; exact hused)
    (by rw [hfreq, htot]; exact hlen)
  rw [hfreq] at hwt hsy hsg hbt
  rw [show s1.heap = s.heap by rw [g1]] at hbt
  obtain ⟨s2, hs2⟩ : ∃ s2 : State, s2 = { s1 with
    node := m, heap := h, nodeCount := n, root := root, pqSize := 0, treeValid := true, codeValid := false } :=
    ⟨_, rfl⟩
  rw [← hs2] at e2
  have g2 : s2 = { s with
    freq := freq, freqTotal := BitVec.ofNat 32 S.length, inQ := rest, inEom := true
    inCount := countUp s.inCount S.length
    node := m, heap := h, nodeCount := n, root := root, pqSize := 0, treeValid := true, codeValid := false } := by
    rw [hs2, g1]
  have hT2 : Holds s2.node n.toNat s2.root (.node l r) := by
    rw [show s2.node = m by rw [g2], show s2.root = root by rw [g2]]; exact hT
  -- after TREE_SERIALIZE
  obtain ⟨tb, htb, e3⟩ := treeSerialize_ok (s := s2) (by rw [g2]) hT2 hlv
  have hlsb : s2.symLsb = s.symLsb := by rw [g2]
  have hbl := (HTree.node l r).toBits_length s2.symLsb
  have hlv' : (HTree.node l r).leaves ≤ 256 := hlv
  generalize hN : ((HTree.node l r).toBits s2.symLsb).length = N at e3 hbl
  rw [hlsb] at htb hN
  have hNn : (BitVec.ofNat 12 N).toNat = N := by simp; omega
  generalize BitVec.ofNat 12 N = len at e3 hNn
  obtain ⟨s3, hs3⟩ : ∃ s3 : State, s3 = { s2 with
    tb := tb, tbLen := len, pos := len, stack := Config.stackResidue s2.draws, draws := s2.draws + 1 } := ⟨_, rfl⟩
  rw [← hs3] at e3
  generalize Config.stackResidue s2.draws = st1 at hs3
  have g3 : s3 = { s with
    freq := freq, freqTotal := BitVec.ofNat 32 S.length, inQ := rest, inEom := true
    inCount := countUp s.inCount S.length
    node := m, heap := h, nodeCount := n, root := root, pqSize := 0, treeValid := true, codeValid := false
    tb := tb, tbLen := len, pos := len, stack := st1, draws := s.draws + 1 } := by rw [hs3, g2]
  -- after BB_SERIALIZE
  have hHl := headerBytes_length s.wireBe len tb
  have hHb : (headerBytes s.wireBe len tb).length ≤ 326 := by
    rw [hHl, bucketCount, hNn]; omega
  generalize hH : headerBytes s.wireBe len tb = H at hHb
  have e4 : procOf (.bbSerialize false) s3 = .ok s3 (H.map .put) := by
    show doBbSerialize false s3 = _
    rw [doBbSerialize, show s3.wireBe = s.wireBe by rw [g3],
      show s3.tbLen = len by rw [g3], show s3.tb = tb by rw [g3], hH]
    simp
  have hready3 : s3.outReady = s.outReady := by rw [g3]
  obtain ⟨s4, hs4⟩ : ∃ s4, s4 = s3.gave H := ⟨_, rfl⟩
  have g4 : s4 = { s with
    freq := freq, freqTotal := BitVec.ofNat 32 S.length, inQ := rest, inEom := true
    inCount := countUp s.inCount S.length
    node := m, heap := h, nodeCount := n, root := root, pqSize := 0, treeValid := true, codeValid := false
    tb := tb, tbLen := len, pos := len, stack := st1, draws := s.draws + 1
    outReady := s.outReady - H.length, outLog := s.outLog ++ H.map dataBeat
    outCount := countUp s.outCount H.length } := by rw [hs4, g3]; rfl
  -- after CODE_GEN
  obtain ⟨code, path, depth, -, hst, e5⟩ := codeGen_ok (s := s4) (n := n.toNat) (l := l) (r := r)
    (by rw [g4])
    (by
      rw [show s4.node = m by rw [g4], show s4.root = root by rw [g4]]
      exact hT) hlv
  obtain ⟨s5, hs5⟩ : ∃ s5 : State, s5 = { s4 with
    code := code, codeValid := true, path := path, depth := depth
    stack := Config.stackResidue s4.draws, draws := s4.draws + 1 } := ⟨_, rfl⟩
  rw [← hs5] at e5
  generalize Config.stackResidue s4.draws = st2 at hs5
  have g5 : s5 = { s with
    freq := freq, freqTotal := BitVec.ofNat 32 S.length, inQ := rest, inEom := true
    inCount := countUp s.inCount S.length
    node := m, heap := h, nodeCount := n, root := root, pqSize := 0, treeValid := true, codeValid := true
    tb := tb, tbLen := len, pos := len, stack := st2, draws := s.draws + 1 + 1
    outReady := s.outReady - H.length, outLog := s.outLog ++ H.map dataBeat
    outCount := countUp s.outCount H.length, code := code, path := path, depth := depth } := by rw [hs5, g4]
  have hcode5 : s5.code = code := by rw [g5]
  have hlook : ∀ x ∈ S, ∃ c, (HTree.node l r).codeOf x = some c ∧ (codeAt code x).Says c ∧ c ≠ [] := by
    intro x hx
    have hmem : x ∈ ((HTree.node l r).codes []).map (·.1) := by
      rw [HTree.codes_syms]
      refine hsy.mem_iff.2 (mem_usedSymbols.2 fun h0 => ?_)
      have := hc x
      rw [h0] at this
      exact absurd (List.count_pos_iff.2 hx) (by rw [← this]; decide)
    obtain ⟨c, hcx⟩ := lastCode_isSome hmem
    have hsx := hst x
    rw [hcx] at hsx
    exact ⟨c, by rw [HTree.codeOf_eq]; exact hcx, hsx, codes_ne_nil (lastCode_mem hcx)⟩
  have hnone : ∀ x, x ∉ S → codeAt code x = ⟨0, 0⟩ := by
    intro x hx
    have hsx := hst x
    rw [lastCode_none.2 (by
      rintro d hd rfl
      have hmem : d.1 ∈ (HTree.node l r).syms := by
        rw [← HTree.codes_syms _ []]
        exact List.mem_map_of_mem hd
      refine mem_usedSymbols.1 (hsy.mem_iff.1 hmem) (BitVec.eq_of_toNat_eq ?_)
      rw [hc, List.count_eq_zero.2 hx]; rfl)] at hsx
    exact hsx
  have hrun : runAll encodeOps s = runAll [.run (.pack true)] s5 := by
    refine e1.trans ?_
    rw [runAll_run_ok e2, List.nil_append, runAll_run_ok e3, List.nil_append, runAll_run_ok e4,
      runAll_puts _ _ _ (by omega), ← hs4, runAll_run_ok e5, List.nil_append]
  clear hs5 hs4 hs3 hs2 e1 e2 e3 e4 e5 g1 g2 g3 g4
  subst g5
  exact ⟨_, l, r, hrun, ⟨hc, hT, hwt, hsy, hsg, hbt, htb, by rw [hN]; exact hNn, hlook, hnone⟩, hlv,
    by dsimp only; rw [hH]; exact hHb, by dsimp only; rw [hH]⟩

theorem State.EncodesFor.len_ne {t s : State} {S : List Byte} {T : HTree} (h : t.EncodesFor s S T)
    {x : Byte} : (codeAt t.code x).len ≠ 0 ↔ x ∈ S := by
  constructor
  · intro hx
    by_contra hS
    exact hx (by rw [h.unmapped x hS])
  · intro hx h0
    obtain ⟨c, -, hs, hc⟩ := h.mapped x hx
    have := hs.1
    rw [h0] at this
    exact hc (List.length_eq_zero_iff.1 this.symm)

/-- The codes in the table are those of the tree. -/
theorem State.EncodesFor.bodyBits {t s : State} {S ds : List Byte} {T : HTree} (h : t.EncodesFor s S T)
    (hd : ∀ x ∈ ds, x ∈ S) :
    ds.flatMap (fun x => (codeAt t.code x).toBits) = ds.flatMap (fun x => (T.codeOf x).getD []) := by
  refine List.flatMap_congr fun x hx => ?_
  obtain ⟨c, h1, h2, -⟩ := h.mapped x (hd x hx)
  rw [toBits_of_says h2, h1]; rfl

/-- A code has at most 255 bits, so a body at most 32 bytes for each byte packed. -/
theorem body_length_le {code : Memory CodeEntry} {ds body : List Byte}
    (hb : BytesOfBits (ds.flatMap (fun x => (codeAt code x).toBits)) body) : body.length ≤ 32 * ds.length := by
  have h1 := hb.length
  have h2 : ∀ T : List Byte, (T.flatMap (fun x => (codeAt code x).toBits)).length ≤ 255 * T.length := by
    intro T
    induction T with
    | nil => simp
    | cons x T ih =>
      have := (codeAt code x).len.isLt
      rw [List.flatMap_cons, List.length_append, codeEntry_toBits_length, List.length_cons]
      omega
  have h3 := h2 ds
  omega

/-- ENCODE of a message that is not empty, with a second message of the same bytes, in any number and order
(44_codec.md R241). -/
theorem encode_ok {s : State} {q1 q2 rest : List Beat} {S S2 : List Byte} (hf : s.Fresh) (hn : NodeWf s.node)
    (hh : HeapWf s.heap) (hm1 : IsMessage q1) (hm2 : IsMessage q2) (hp1 : payload q1 = S) (hp2 : payload q2 = S2)
    (hq : s.inQ = q1 ++ q2 ++ rest) (hne : S ≠ []) (hlen : S.length ≤ maxWord) (hsub : ∀ x ∈ S2, x ∈ S)
    (hr : 327 + 32 * S2.length ≤ s.outReady) :
    ∃ t l r body, exec .encode s = .next t ∧ t.EncodesFor s S (.node l r) ∧
      (HTree.node l r).leaves ≤ Config.symbols ∧
      BytesOfBits (S2.flatMap (fun x => (codeAt t.code x).toBits)) body ∧
      t = State.ended { s with
        freq := t.freq, freqTotal := BitVec.ofNat 32 S.length, node := t.node, nodeCount := t.nodeCount
        heap := t.heap, pqSize := 0, root := t.root, treeValid := true, codeValid := true
        tb := t.tb, tbLen := t.tbLen, pos := t.pos, code := t.code, path := t.path, depth := t.depth
        stack := t.stack, draws := t.draws, acc := 0, accN := 0
        inQ := rest, inEom := true, inCount := countUp s.inCount (S.length + S2.length)
        outReady := s.outReady - (headerBytes s.wireBe t.tbLen t.tb ++ body).length - 1
        outLog := s.outLog ++ (headerBytes s.wireBe t.tbLen t.tb ++ body).map dataBeat ++ [endBeat]
        outCount := countUp s.outCount (headerBytes s.wireBe t.tbLen t.tb ++ body).length } := by
  obtain ⟨t, l, r, hrun, ht, hl, hH, e⟩ := encode_tables hn hh hm1 hp1 (by rw [hq, List.append_assoc]) hne hlen
    (by omega)
  obtain ⟨body, hb⟩ := exists_bytesOfBits (S2.flatMap (fun x => (codeAt t.code x).toBits))
  have hbl := body_length_le hb
  have hk := packStep (s := t) (f := true) (q := q2) (rest := rest) (bytes := body) (ops := [])
    (by rw [e]) hm2 (by rw [e]) (by rw [hp2]; exact fun d hd => ht.len_ne.2 (hsub d hd)) (by rw [hp2]; exact hb)
    (by rw [e, Bool.toNat_true]; dsimp only; omega)
  have hhold : t.hold = false := by rw [e]; exact hf.2
  refine ⟨_, l, r, body, (exec_ops hf (i := .encode) rfl).trans (hrun.trans (hk.trans (finish_fresh hhold))),
    ⟨ht.counts, ht.tree, ht.weights, ht.symbols, ht.single, ht.built, ht.bits, ht.bitCount,
      ht.mapped, ht.unmapped⟩, hl, hb, ?_⟩
  conv_lhs => rw [e]
  rw [hp2, ← countUp_add, List.length_append, ← countUp_add, List.map_append, ← Nat.sub_sub, ← List.append_assoc]
  rfl

/-- ENCODE stops at a byte of the second message that the first did not have (44_codec.md R237, R241). -/
theorem encode_unmapped {s : State} {q1 q2 rest : List Beat} {b : Beat} {S : List Byte} (hf : s.Fresh)
    (hn : NodeWf s.node) (hh : HeapWf s.heap) (hm1 : IsMessage q1) (hp1 : payload q1 = S)
    (hl2 : ∀ x ∈ q2, x.last = false) (hb : b.empty = false) (hq : s.inQ = q1 ++ (q2 ++ b :: rest)) (hne : S ≠ [])
    (hlen : S.length ≤ maxWord) (hsub : ∀ x ∈ payload q2, x ∈ S) (hbS : b.data ∉ S)
    (hr : 326 + 32 * (payload q2).length ≤ s.outReady) :
    ∃ t l r bytes tail, exec .encode s = .next t ∧ t.EncodesFor s S (.node l r) ∧
      (HTree.node l r).leaves ≤ Config.symbols ∧ tail.length < 8 ∧
      (payload q2).flatMap (fun x => (codeAt t.code x).toBits) = bytes.flatMap byteBits ++ tail ∧
      t = State.aborted { s with
        freq := t.freq, freqTotal := BitVec.ofNat 32 S.length, node := t.node, nodeCount := t.nodeCount
        heap := t.heap, pqSize := 0, root := t.root, treeValid := true, codeValid := true
        tb := t.tb, tbLen := t.tbLen, pos := t.pos, code := t.code, path := t.path, depth := t.depth
        stack := t.stack, draws := t.draws, acc := t.acc, accN := t.accN
        inQ := rest, inEom := b.last, inCount := countUp s.inCount (S.length + (payload q2).length + 1)
        outReady := s.outReady - (headerBytes s.wireBe t.tbLen t.tb ++ bytes).length
        outLog := s.outLog ++ (headerBytes s.wireBe t.tbLen t.tb ++ bytes).map dataBeat
        outCount := countUp s.outCount (headerBytes s.wireBe t.tbLen t.tb ++ bytes).length }
        5 (BitVec.ofNat 32 b.data.toNat) := by
  obtain ⟨t, l, r, hrun, ht, hl, hH, e⟩ := encode_tables hn hh hm1 hp1 hq hne hlen (by omega)
  have hp : procOf (.pack true) t = .ok { t with inEom := false, acc := 0, accN := 0 } [.pack true] := by
    show doPack true t = _
    rw [doPack, if_pos (by rw [e])]
  obtain ⟨body, hbody⟩ := exists_bytesOfBits ((payload q2).flatMap (fun x => (codeAt t.code x).toBits))
  have hbl := body_length_le hbody
  have hbl2 := hbody.length
  obtain ⟨bytes, tail, acc, n, ht8, heq, hk⟩ := pack_unmapped true (b := b) (rest := rest) (ops := [])
    (s := { t with inEom := false, acc := 0, accN := 0 }) hl2 (by rw [e]) rfl Pend.zero
    (fun d hd => ht.len_ne.2 (hsub d hd)) hb
    (by show (codeAt t.code b.data).len = 0; rw [ht.unmapped _ hbS])
    (by
      show (0 + ((payload q2).flatMap (fun x => (codeAt t.code x).toBits)).length) / 8 ≤ t.outReady
      have : t.outReady = s.outReady - (headerBytes s.wireBe t.tbLen t.tb).length := by rw [e]
      omega)
  have hhold : t.hold = false := by rw [e]; exact hf.2
  refine ⟨_, l, r, bytes, tail, (exec_ops hf (i := .encode) rfl).trans (hrun.trans ((runAll_run_ok hp).trans
      (hk.trans (fail_fresh hhold)))),
    ⟨ht.counts, ht.tree, ht.weights, ht.symbols, ht.single, ht.built, ht.bits, ht.bitCount,
      ht.mapped, ht.unmapped⟩, hl, ht8,
    by rw [List.nil_append] at heq; exact heq, ?_⟩
  have hc : (payload (q2 ++ [b])).length = (payload q2).length + 1 := by simp [payload, hb]
  have hlast : lastFlag false (q2 ++ [b]) = b.last := by simp [lastFlag]
  conv_lhs => rw [e]
  simp only [State.aborted, State.gave, State.took, hc, hlast, countUp_add, List.length_append, List.map_append,
    List.append_assoc, Nat.sub_sub, Nat.add_assoc]
  rfl

/-- ENCODE of the empty message (44_codec.md R241). -/
theorem encode_empty {s : State} {q rest : List Beat} (hf : s.Fresh) (hn : NodeWf s.node) (hh : HeapWf s.heap)
    (hm : IsMessage q) (hp : payload q = []) (hq : s.inQ = q ++ rest) :
    ∃ freq node heap, exec .encode s = .next (State.aborted { s with
        freq := freq, freqTotal := 0, node := node, heap := heap, nodeCount := 0, root := 0, pqSize := 0
        treeValid := false, codeValid := false, inQ := rest, inEom := true } 4 0) ∧
      ∀ x, freqAt freq x = 0 := by
  obtain ⟨m, hc, e⟩ := encode_counts (s := s) [.run .treeBuild, .run .treeSerialize, .run (.bbSerialize false),
    .run .codeGen, .run (.pack true)] hm hq (by rw [hp]; decide)
  have hz : ∀ x, freqAt m x = 0 := fun x => BitVec.eq_of_toNat_eq (by rw [hc, hp]; rfl)
  rw [hp] at e
  generalize hs1 : ({ s with
    freq := m, freqTotal := BitVec.ofNat 32 ([] : List Byte).length, inQ := rest, inEom := true
    inCount := countUp s.inCount ([] : List Byte).length } : State) = s1 at e
  have hf1 : s1.freq = m := by rw [← hs1]
  obtain ⟨a, he, -, -⟩ := buildTree_none (freq := s1.freq) (a := s1.treeRelease.arena)
    (released (by rw [← hs1]; exact hn) (by rw [← hs1]; exact hh))
    (usedSymbols_eq_nil (by rw [hf1]; exact hz))
  refine ⟨m, a.node, a.heap, ?_, hz⟩
  rw [exec_ops hf (i := .encode) rfl, e, runAll_raise (show runOp (.run .treeBuild) s1 = _ from treeBuild_raise he),
    fail_fresh (by rw [← hs1]; exact hf.2), ← hs1]
  simp only [List.length_nil, countUp_zero]
  rfl

/-- ENCODE stops at a byte of the first message that would be the 2^32-th (44_codec.md R234, R241). -/
theorem encode_overflow {s : State} {q rest : List Beat} {b : Beat} (hf : s.Fresh) (hl : ∀ x ∈ q, x.last = false)
    (hb : b.empty = false) (hq : s.inQ = q ++ b :: rest) (hlen : (payload q).length = maxWord) :
    ∃ m, (∀ x, (freqAt m x).toNat = (payload q).count x) ∧ exec .encode s = .next (State.aborted { s with
      freq := m, freqTotal := BitVec.ofNat 32 maxWord, inQ := rest, inEom := b.last
      inCount := countUp s.inCount (maxWord + 1) } 7 (BitVec.ofNat 32 b.data.toNat)) := by
  obtain ⟨m, hc, e⟩ := accum_overflow q b rest [.run .treeBuild, .run .treeSerialize, .run (.bbSerialize false),
    .run .codeGen, .run (.pack true)] { s with freq := [], freqTotal := 0, inEom := false } hl hq rfl (by simp [FreqWf])
    ⟨by simpa using Nat.le_of_eq hlen, fun x => by
      have := List.count_le_length (a := x) (l := payload q)
      show (freqAt [] x).toNat + _ ≤ _
      rw [freqAt, Memory.read_nil, show (0 : Word).toNat = 0 from rfl, Nat.zero_add]
      omega⟩ hb (.inl (by simpa using hlen))
  refine ⟨m, fun x => by have := hc.count x; simpa [freqAt] using this, ?_⟩
  have h2 : procOf .freqAccum { s with freq := [], freqTotal := 0 } =
      .ok { s with freq := [], freqTotal := 0, inEom := false } [.accum] := rfl
  rw [exec_ops hf (i := .encode) rfl, runAll_run_ok (i := .freqClear) rfl, List.nil_append, runAll_run_ok h2,
    List.singleton_append, e, fail_fresh (by exact hf.2)]
  have hp : (payload (q ++ [b])).length = maxWord + 1 := by rw [← hlen]; simp [payload, hb]
  have hlast : lastFlag false (q ++ [b]) = b.last := by simp [lastFlag]
  simp only [State.took, hp, hlast, hlen, countUp]
  rfl

/-! ### DECODE -/

/-- DECODE up to its last step: the header is read and the tree rebuilt (44_codec.md R242). -/
theorem decode_tree {s : State} {q rest : List Beat} {tb : BitVec 2576} {len : BitVec 12} {T : HTree} (hf : s.Fresh)
    (hn : NodeWf s.node) (hq : s.inQ = q ++ rest) (hc : Carries q (headerBytes s.wireBe len tb))
    (hl : len.toNat ≤ Config.tbMaxBits) (htail : ∀ i, len.toNat ≤ i → tbGet tb i = false)
    (hbits : BitsAt tb len.toNat 0 (T.toBits s.symLsb)) (hfit : (T.toBits s.symLsb).length ≤ len.toNat) :
    ∃ m pos, ParsedAt m 0 T ∧ exec .decode s = runAll [.run (.unpack false)] { s with
        tb := tb, tbLen := len, node := m, nodeCount := BitVec.ofNat 10 T.size, root := 0
        pqSize := 0, treeValid := true, codeValid := false, pos := pos
        stack := Config.stackResidue s.draws, draws := s.draws + 1
        inQ := rest, inEom := lastFlag false q
        inCount := countUp s.inCount (headerBytes s.wireBe len tb).length } := by
  have hpay := hc.1
  rw [headerBytes_eq] at hc
  have h32 : (len.setWidth 32).toNat = len.toNat := by
    have := len.isLt
    rw [BitVec.toNat_setWidth]
    omega
  have e1 := header_spec (len.setWidth 32) ((List.range (bucketCount len.toNat)).map (tbBucket tb)) q rest
    [.run .treeDeserialize, .run (.unpack false)] { s with inEom := false } hc (by rw [h32]; exact hl)
    (by rw [h32]; simp) hq
  rw [h32, loadBuckets_header hl htail] at e1
  obtain ⟨s1, g1⟩ : ∃ s1 : State, s1 = { s with
    tb := tb, tbLen := len, inQ := rest, inEom := lastFlag false q
    inCount := countUp s.inCount (headerBytes s.wireBe len tb).length } := ⟨_, rfl⟩
  have e1' : exec .decode s = runAll [.run .treeDeserialize, .run (.unpack false)] s1 := by
    rw [exec_ops hf (i := .decode) rfl, runAll_run_ok (s := s) (i := .bbDeserialize) rfl, List.singleton_append, e1,
      g1, ← hpay]
    simp only [State.took]
  obtain ⟨m, -, hpar, e2⟩ := treeDeserialize_ok (s := s1) (T := T) (by rw [g1]; exact hn)
    (Nat.le_of_lt (HTree.size_le_of_bits (Nat.le_trans hfit hl))) (by rw [g1]; exact hbits) (by rw [g1]; exact hfit)
  refine ⟨m, BitVec.ofNat 12 (T.toBits s1.symLsb).length, hpar, ?_⟩
  rw [e1', runAll_run_ok e2, List.nil_append]
  refine congrArg _ ?_
  rw [g1]

/-- DECODE of the header of a single leaf (44_codec.md R239, R242): the tree stays, and so does the rest of the
message. -/
theorem decode_leaf {s : State} {q rest : List Beat} {tb : BitVec 2576} {len : BitVec 12} {sym : Byte} {y : Bool}
    (hf : s.Fresh) (hn : NodeWf s.node) (hq : s.inQ = q ++ rest) (hc : Carries q (headerBytes s.wireBe len tb))
    (hl : len.toNat ≤ Config.tbMaxBits) (htail : ∀ i, len.toNat ≤ i → tbGet tb i = false)
    (hbits : BitsAt tb len.toNat 0 ((HTree.leaf sym y).toBits s.symLsb)) (hfit : 9 ≤ len.toNat) :
    ∃ m pos, ParsedAt m 0 (.leaf sym y) ∧ exec .decode s = .next (State.aborted { s with
        tb := tb, tbLen := len, node := m, nodeCount := 1, root := 0
        pqSize := 0, treeValid := true, codeValid := false, pos := pos
        stack := Config.stackResidue s.draws, draws := s.draws + 1
        inQ := rest, inEom := lastFlag false q
        inCount := countUp s.inCount (headerBytes s.wireBe len tb).length } 6 0) := by
  obtain ⟨m, pos, hpar, e⟩ := decode_tree hf hn hq hc hl htail hbits
    (by simpa [HTree.toBits, symBits_length] using hfit)
  refine ⟨m, pos, hpar, e.trans ?_⟩
  have hleaf : (nodeAt m 0).isLeaf = true := by rw [show nodeAt m 0 = _ from hpar]
  exact (runAll_raise (op := .run (.unpack false)) (unpack_leaf rfl hleaf)).trans (fail_fresh hf.2)

/-- All of DECODE on a whole stream, with and without the symbol limit reached (44_codec.md R239, R242). -/
theorem decode_ok {s : State} {q rest : List Beat} {tb : BitVec 2576} {len : BitVec 12} {l r stand : HTree}
    {body out : List Byte} (hf : s.Fresh) (hn : NodeWf s.node) (hm : IsMessage q) (hq : s.inQ = q ++ rest)
    (hp : payload q = headerBytes s.wireBe len tb ++ body) (hl : len.toNat ≤ Config.tbMaxBits)
    (htail : ∀ i, len.toNat ≤ i → tbGet tb i = false)
    (hbits : BitsAt tb len.toNat 0 ((HTree.node l r).toBits s.symLsb))
    (hfit : ((HTree.node l r).toBits s.symLsb).length ≤ len.toNat)
    (hd : HTree.descend (HTree.node l r).plain (HTree.node l r).plain (body.flatMap byteBits) = (out, stand)) :
    ((s.limitEn = true → out.length < s.symLimitL.toNat) → out.length + 1 ≤ s.outReady →
      ∃ m x pos, ParsedAt m 0 (.node l r) ∧ exec .decode s = .next (State.ended { s with
        tb := tb, tbLen := len, node := m, nodeCount := BitVec.ofNat 10 (HTree.node l r).size, root := 0
        pqSize := 0, treeValid := true, codeValid := false, pos := pos
        stack := Config.stackResidue s.draws, draws := s.draws + 1
        inQ := rest, inEom := true, inCount := countUp s.inCount (payload q).length
        outReady := s.outReady - out.length - 1, outLog := s.outLog ++ out.map dataBeat ++ [endBeat]
        outCount := countUp s.outCount out.length
        tailPartial := decide (stand ≠ (HTree.node l r).plain), limitHit := false, walk := x })) ∧
    (s.limitEn = true → s.symLimitL.toNat ≤ out.length → s.symLimitL.toNat + 1 ≤ s.outReady →
      ∃ m x pos, ParsedAt m 0 (.node l r) ∧ exec .decode s = .next (State.ended { s with
        tb := tb, tbLen := len, node := m, nodeCount := BitVec.ofNat 10 (HTree.node l r).size, root := 0
        pqSize := 0, treeValid := true, codeValid := false, pos := pos
        stack := Config.stackResidue s.draws, draws := s.draws + 1
        inQ := rest, inEom := true, inCount := countUp s.inCount (payload q).length
        outReady := s.outReady - s.symLimitL.toNat - 1
        outLog := s.outLog ++ (out.take s.symLimitL.toNat).map dataBeat ++ [endBeat]
        outCount := countUp s.outCount s.symLimitL.toNat
        tailPartial := false, limitHit := true, walk := x })) := by
  have hH : headerBytes s.wireBe len tb ≠ [] := fun h0 => by
    have := headerBytes_length s.wireBe len tb
    rw [h0, List.length_nil] at this
    omega
  obtain ⟨q1, q2, rfl, hc, hp2, hcase⟩ := hm.split hp hH
  rw [List.append_assoc] at hq
  obtain ⟨m, pos, hpar, e⟩ := decode_tree hf hn hq hc hl htail hbits hfit
  have hsz := HTree.size_le_of_bits (Nat.le_trans hfit hl)
  have hlen : (payload (q1 ++ q2)).length = (headerBytes s.wireBe len tb).length + (payload q2).length := by
    rw [hp, hp2, List.length_append]
  generalize hs1 : ({ s with
    tb := tb, tbLen := len, node := m, nodeCount := BitVec.ofNat 10 (HTree.node l r).size, root := 0
    pqSize := 0, treeValid := true, codeValid := false, pos := pos
    stack := Config.stackResidue s.draws, draws := s.draws + 1
    inQ := q2 ++ rest, inEom := lastFlag false q1
    inCount := countUp s.inCount (headerBytes s.wireBe len tb).length } : State) = s1 at e
  have hT : Holds s1.node (HTree.node l r).size s1.root (HTree.node l.plain r.plain) := by
    rw [← hs1]
    exact ParsedAt.holds (i := 0) (n := (HTree.node l r).size) (by omega) (Nat.le_of_lt hsz) hpar
  have hE : s1.limitEn = s.limitEn := by rw [← hs1]
  have hL : s1.symLimitL = s.symLimitL := by rw [← hs1]
  have hR : s1.outReady = s.outReady := by rw [← hs1]
  have hHd : s1.hold = false := by rw [← hs1]; exact hf.2
  rcases hcase with ⟨rfl, hlast⟩ | ⟨hm2, hlast⟩
  · -- the header has ended the message
    obtain rfl : body = [] := by rw [← hp2]; rfl
    rw [List.flatMap_nil, descend_nil, Prod.mk.injEq] at hd
    obtain ⟨rfl, rfl⟩ := hd
    have key : 1 ≤ s.outReady → _ := fun hr => unpackClosed (ops := []) (s := s1) (by rw [← hs1]) hT.2.1
      (by rw [← hs1]; exact hlast _) (by rw [hR]; exact hr)
    have h0 : s.symLimitL = 0 ↔ s.symLimitL.toNat = 0 :=
      ⟨fun h => by rw [h]; rfl, fun h => BitVec.eq_of_toNat_eq h⟩
    refine ⟨fun hl hr => ?_, fun hle hl hr => ?_⟩
    · refine ⟨m, s1.root, pos, hpar, e.trans ((key (by simpa using hr)).trans ((finish_fresh ?_).trans ?_))⟩
      · exact hHd
      have hz : (s1.limitEn && decide (s1.symLimitL = 0)) = false := by
        rw [hE, hL]
        cases h : s.limitEn with
        | false => rfl
        | true =>
          have hpos : 0 < s.symLimitL.toNat := hl h
          exact decide_eq_false (fun h => by rw [h0.1 h] at hpos; exact absurd hpos (Nat.lt_irrefl 0))
      rw [hz, ← hs1, hlast, hlen]
      simp [State.ended, payload, countUp]
    · have hzero : s.symLimitL.toNat = 0 := by simpa using hl
      refine ⟨m, s1.root, pos, hpar, e.trans ((key (by omega)).trans ((finish_fresh ?_).trans ?_))⟩
      · exact hHd
      have hz : (s1.limitEn && decide (s1.symLimitL = 0)) = true := by
        rw [hE, hL, hle, h0.2 hzero]; rfl
      rw [hz, ← hs1, hlast, hlen, hzero]
      simp [State.ended, payload, countUp]
  · obtain ⟨h1, h2⟩ := unpackStep (f := false) (ops := []) (s := s1) (q := q2) (rest := rest)
      (out := out) (stand := stand) (by rw [← hs1]) hT
      (.inr (by rw [← hs1]; exact hlast _)) hm2 (by rw [← hs1]) (by rw [hp2]; exact hd)
    rw [hE, hL, hR] at h1 h2
    refine ⟨fun hl hr => ?_, fun hle hl hr => ?_⟩
    · obtain ⟨x, e2⟩ := h1 hl hr
      refine ⟨m, x, pos, hpar, e.trans (e2.trans ((finish_fresh ?_).trans ?_))⟩
      · exact hHd
      rw [hlen, ← countUp_add, ← hs1]
      rfl
    · obtain ⟨x, e2⟩ := h2 hle hl hr
      refine ⟨m, x, pos, hpar, e.trans (e2.trans ((finish_fresh ?_).trans ?_))⟩
      · exact hHd
      rw [hlen, ← countUp_add, ← hs1]

/-! ### The padding (44_codec.md R240) -/

@[simp] theorem HTree.plain_leftmost (t : HTree) : t.plain.leftmost = t.leftmost := by
  induction t with
  | leaf _ _ => rfl
  | node l r ih _ => simp only [HTree.plain, HTree.leftmost, ih]

theorem HTree.plain_codes : ∀ {t : HTree} {path : List Bool} {c : Byte × List Bool}, c ∈ t.codes path →
    c ∈ t.plain.codes path
  | .leaf _ y, path, c, hc => by cases y <;> simp [HTree.codes, HTree.plain] at hc ⊢; exact hc
  | .node l r, path, c, hc => by
    simp only [HTree.codes, HTree.plain, List.mem_append] at hc ⊢
    rcases hc with hc | hc
    · exact .inl (HTree.plain_codes hc)
    · exact .inr (HTree.plain_codes hc)

@[simp] theorem HTree.plain_size (t : HTree) : t.plain.size = t.size := by
  induction t with
  | leaf _ _ => rfl
  | node l r ihl ihr => simp only [HTree.plain, HTree.size, ihl, ihr]

/-- The walk does not see which leaf is synthetic (43_tree.md R216). -/
theorem descend_plain (T : HTree) : ∀ (bs : List Bool) (cur : HTree), HTree.descend T.plain cur.plain bs =
    ((HTree.descend T cur bs).1, (HTree.descend T cur bs).2.plain)
  | [], cur => by simp only [descend_nil]
  | b :: bs, .leaf _ _ => rfl
  | b :: bs, .node l r => by
    have e : (if b = true then r.plain else l.plain) = (if b = true then r else l).plain := by split <;> rfl
    rw [show (HTree.node l r).plain = .node l.plain r.plain from rfl, descend_cons, descend_cons, e]
    cases (if b = true then r else l) with
    | leaf sym y =>
      rw [show (HTree.leaf sym y).plain = .leaf sym false from rfl]
      simp only [descend_plain T bs T]
    | node u v => exact descend_plain T bs (.node u v)

/-- A walk ends at the root or strictly below it. -/
theorem descend_ends {T : HTree} : ∀ (bs : List Bool) {cur : HTree}, (cur = T ∨ cur.size < T.size) →
    ((HTree.descend T cur bs).2 = T ∨ (HTree.descend T cur bs).2.size < T.size)
  | [], cur, h => by rw [descend_nil]; exact h
  | b :: bs, .leaf _ _, _ => .inl rfl
  | b :: bs, .node l r, h => by
    have hlt : (if b = true then r else l).size < T.size := by
      have hs : (HTree.node l r).size = l.size + r.size + 1 := rfl
      have h' : (HTree.node l r).size ≤ T.size := by
        rcases h with h | h
        · rw [h]
        · omega
      split <;> omega
    rw [descend_cons]
    generalize hc : (if b = true then r else l) = c at hlt
    cases c with
    | leaf sym y => exact descend_ends bs (.inl rfl)
    | node u v => exact descend_ends bs (.inr hlt)

/-- TAIL_PARTIAL does not see which leaf is synthetic. -/
theorem descend_plain_partial (T : HTree) (bs : List Bool) :
    decide ((HTree.descend T T bs).2.plain ≠ T.plain) = decide ((HTree.descend T T bs).2 ≠ T) := by
  refine decide_eq_decide.2 (not_congr ⟨fun h => ?_, fun h => by rw [h]⟩)
  rcases descend_ends (T := T) bs (.inl rfl) with he | hlt
  · exact he
  · have := congrArg HTree.size h
    rw [HTree.plain_size, HTree.plain_size] at this
    omega

/-- Zeros from inside a tree: they reach the leftmost leaf, or end below where they began. -/
theorem descend_zeros {T : HTree} : ∀ (cur : HTree) (p : Nat), cur.inner = true →
    (p < cur.leftmost.1 → (HTree.descend T cur (List.replicate p false)).1 = [] ∧
      (0 < p → (HTree.descend T cur (List.replicate p false)).2.size < cur.size)) ∧
    (cur.leftmost.1 ≤ p → HTree.descend T cur (List.replicate p false) =
      (cur.leftmost.2 :: (HTree.descend T T (List.replicate (p - cur.leftmost.1) false)).1,
       (HTree.descend T T (List.replicate (p - cur.leftmost.1) false)).2))
  | .node l r, 0, _ => by
    refine ⟨fun _ => ⟨by rw [List.replicate_zero, descend_nil], fun h => absurd h (by omega)⟩, fun h => ?_⟩
    simp [HTree.leftmost] at h
  | .node (.leaf sym y) r, p + 1, _ => by
    simp only [HTree.leftmost, List.replicate_succ, descend_cons, Bool.false_eq_true, if_false]
    exact ⟨fun h => absurd h (by omega), fun _ => rfl⟩
  | .node (.node u v) r, p + 1, _ => by
    obtain ⟨h1, h2⟩ := descend_zeros (T := T) (.node u v) p rfl
    have hl : (HTree.node (.node u v) r).leftmost = ((HTree.node u v).leftmost.1 + 1, (HTree.node u v).leftmost.2) := rfl
    rw [hl, List.replicate_succ, descend_cons]
    simp only [Bool.false_eq_true, if_false]
    refine ⟨fun h => ⟨(h1 (by omega)).1, fun _ => ?_⟩, fun h => ?_⟩
    · have hs := (HTree.node (.node u v) r).size_pos
      have hr := r.size_pos
      have hlt : (HTree.node u v).size < (HTree.node (.node u v) r).size := by
        rw [show (HTree.node (.node u v) r).size = (HTree.node u v).size + r.size + 1 from rfl]; omega
      rcases Nat.eq_zero_or_pos p with h0 | h0
      · subst h0; rw [List.replicate_zero, descend_nil]; exact hlt
      · exact Nat.lt_trans ((h1 (by omega)).2 h0) hlt
    · rw [h2 (by omega), show p + 1 - ((HTree.node u v).leftmost.1 + 1) = p - (HTree.node u v).leftmost.1 by omega]

/-- Spurious symbols of the padding: as many leftmost symbols as fit (44_codec.md R240). -/
theorem descend_padding {T : HTree} (hin : T.inner = true) : ∀ (p : Nat),
    (HTree.descend T T (List.replicate p false)).1 = List.replicate (p / T.leftmost.1) T.leftmost.2 ∧
      decide ((HTree.descend T T (List.replicate p false)).2 ≠ T) = decide (p % T.leftmost.1 ≠ 0) := by
  have hpos : 0 < T.leftmost.1 := by
    cases T with
    | leaf _ _ => simp [HTree.inner] at hin
    | node _ _ => simp [HTree.leftmost]
  intro p
  induction p using Nat.strong_induction_on with
  | _ p ih =>
    obtain ⟨h1, h2⟩ := descend_zeros (T := T) T p hin
    by_cases hlt : p < T.leftmost.1
    · obtain ⟨e1, e2⟩ := h1 hlt
      rw [e1, Nat.div_eq_of_lt hlt, Nat.mod_eq_of_lt hlt]
      refine ⟨rfl, ?_⟩
      rcases Nat.eq_zero_or_pos p with h0 | h0
      · subst h0; rw [List.replicate_zero, descend_nil]; simp
      · have hne : (HTree.descend T T (List.replicate p false)).2 ≠ T := fun h => by
          have := e2 h0; rw [h] at this; omega
        simp [hne, Nat.ne_of_gt h0]
    · obtain ⟨i1, i2⟩ := ih (p - T.leftmost.1) (by omega)
      rw [h2 (by omega), i1]
      refine ⟨?_, ?_⟩
      · rw [Nat.div_eq_sub_div hpos (Nat.le_of_not_lt hlt), List.replicate_succ]
      · rw [Nat.mod_eq_sub_mod (Nat.le_of_not_lt hlt)]
        exact i2

end Sys2Proof.Machine
end

