-- ==== Sys2Proof/Laws/State.lean ====
section
/-! SUPPORT. Laws/State.lean: for each named update of the state, what every field is after it, one lemma
per field, true by `rfl`; no proof need unfold a record update. -/

namespace Sys2Proof.Machine

/-! ### An event sets a bit of IRQ_STATUS (10_state.md R31). -/

@[simp] theorem State.raiseIrq_ctrl (s : State) (b : BitVec 4) : (s.raiseIrq b).ctrl = s.ctrl := rfl
@[simp] theorem State.raiseIrq_symLimit (s : State) (b : BitVec 4) : (s.raiseIrq b).symLimit = s.symLimit := rfl
@[simp] theorem State.raiseIrq_cmd (s : State) (b : BitVec 4) : (s.raiseIrq b).cmd = s.cmd := rfl
@[simp] theorem State.raiseIrq_errCode (s : State) (b : BitVec 4) : (s.raiseIrq b).errCode = s.errCode := rfl
@[simp] theorem State.raiseIrq_errInfo (s : State) (b : BitVec 4) : (s.raiseIrq b).errInfo = s.errInfo := rfl
@[simp] theorem State.raiseIrq_result (s : State) (b : BitVec 4) : (s.raiseIrq b).result = s.result := rfl
@[simp] theorem State.raiseIrq_irqStatus (s : State) (b : BitVec 4) : (s.raiseIrq b).irqStatus = s.irqStatus ||| b := rfl
@[simp] theorem State.raiseIrq_irqEnable (s : State) (b : BitVec 4) : (s.raiseIrq b).irqEnable = s.irqEnable := rfl
@[simp] theorem State.raiseIrq_tbLen (s : State) (b : BitVec 4) : (s.raiseIrq b).tbLen = s.tbLen := rfl
@[simp] theorem State.raiseIrq_nodeCount (s : State) (b : BitVec 4) : (s.raiseIrq b).nodeCount = s.nodeCount := rfl
@[simp] theorem State.raiseIrq_root (s : State) (b : BitVec 4) : (s.raiseIrq b).root = s.root := rfl
@[simp] theorem State.raiseIrq_pqSize (s : State) (b : BitVec 4) : (s.raiseIrq b).pqSize = s.pqSize := rfl
@[simp] theorem State.raiseIrq_freqTotal (s : State) (b : BitVec 4) : (s.raiseIrq b).freqTotal = s.freqTotal := rfl
@[simp] theorem State.raiseIrq_inCount (s : State) (b : BitVec 4) : (s.raiseIrq b).inCount = s.inCount := rfl
@[simp] theorem State.raiseIrq_outCount (s : State) (b : BitVec 4) : (s.raiseIrq b).outCount = s.outCount := rfl
@[simp] theorem State.raiseIrq_phase (s : State) (b : BitVec 4) : (s.raiseIrq b).phase = s.phase := rfl
@[simp] theorem State.raiseIrq_prog (s : State) (b : BitVec 4) : (s.raiseIrq b).prog = s.prog := rfl
@[simp] theorem State.raiseIrq_freq (s : State) (b : BitVec 4) : (s.raiseIrq b).freq = s.freq := rfl
@[simp] theorem State.raiseIrq_node (s : State) (b : BitVec 4) : (s.raiseIrq b).node = s.node := rfl
@[simp] theorem State.raiseIrq_heap (s : State) (b : BitVec 4) : (s.raiseIrq b).heap = s.heap := rfl
@[simp] theorem State.raiseIrq_tb (s : State) (b : BitVec 4) : (s.raiseIrq b).tb = s.tb := rfl
@[simp] theorem State.raiseIrq_code (s : State) (b : BitVec 4) : (s.raiseIrq b).code = s.code := rfl
@[simp] theorem State.raiseIrq_inEom (s : State) (b : BitVec 4) : (s.raiseIrq b).inEom = s.inEom := rfl
@[simp] theorem State.raiseIrq_wireBe (s : State) (b : BitVec 4) : (s.raiseIrq b).wireBe = s.wireBe := rfl
@[simp] theorem State.raiseIrq_symLsb (s : State) (b : BitVec 4) : (s.raiseIrq b).symLsb = s.symLsb := rfl
@[simp] theorem State.raiseIrq_limitEn (s : State) (b : BitVec 4) : (s.raiseIrq b).limitEn = s.limitEn := rfl
@[simp] theorem State.raiseIrq_symLimitL (s : State) (b : BitVec 4) : (s.raiseIrq b).symLimitL = s.symLimitL := rfl
@[simp] theorem State.raiseIrq_path (s : State) (b : BitVec 4) : (s.raiseIrq b).path = s.path := rfl
@[simp] theorem State.raiseIrq_depth (s : State) (b : BitVec 4) : (s.raiseIrq b).depth = s.depth := rfl
@[simp] theorem State.raiseIrq_acc (s : State) (b : BitVec 4) : (s.raiseIrq b).acc = s.acc := rfl
@[simp] theorem State.raiseIrq_accN (s : State) (b : BitVec 4) : (s.raiseIrq b).accN = s.accN := rfl
@[simp] theorem State.raiseIrq_walk (s : State) (b : BitVec 4) : (s.raiseIrq b).walk = s.walk := rfl
@[simp] theorem State.raiseIrq_pos (s : State) (b : BitVec 4) : (s.raiseIrq b).pos = s.pos := rfl
@[simp] theorem State.raiseIrq_stack (s : State) (b : BitVec 4) : (s.raiseIrq b).stack = s.stack := rfl
@[simp] theorem State.raiseIrq_treeValid (s : State) (b : BitVec 4) : (s.raiseIrq b).treeValid = s.treeValid := rfl
@[simp] theorem State.raiseIrq_codeValid (s : State) (b : BitVec 4) : (s.raiseIrq b).codeValid = s.codeValid := rfl
@[simp] theorem State.raiseIrq_tailPartial (s : State) (b : BitVec 4) : (s.raiseIrq b).tailPartial = s.tailPartial := rfl
@[simp] theorem State.raiseIrq_limitHit (s : State) (b : BitVec 4) : (s.raiseIrq b).limitHit = s.limitHit := rfl
@[simp] theorem State.raiseIrq_rstN (s : State) (b : BitVec 4) : (s.raiseIrq b).rstN = s.rstN := rfl
@[simp] theorem State.raiseIrq_busRsp (s : State) (b : BitVec 4) : (s.raiseIrq b).busRsp = s.busRsp := rfl
@[simp] theorem State.raiseIrq_inQ (s : State) (b : BitVec 4) : (s.raiseIrq b).inQ = s.inQ := rfl
@[simp] theorem State.raiseIrq_outReady (s : State) (b : BitVec 4) : (s.raiseIrq b).outReady = s.outReady := rfl
@[simp] theorem State.raiseIrq_outLog (s : State) (b : BitVec 4) : (s.raiseIrq b).outLog = s.outLog := rfl
@[simp] theorem State.raiseIrq_rspLog (s : State) (b : BitVec 4) : (s.raiseIrq b).rspLog = s.rspLog := rfl
@[simp] theorem State.raiseIrq_sched (s : State) (b : BitVec 4) : (s.raiseIrq b).sched = s.sched := rfl
@[simp] theorem State.raiseIrq_hold (s : State) (b : BitVec 4) : (s.raiseIrq b).hold = s.hold := rfl
@[simp] theorem State.raiseIrq_draws (s : State) (b : BitVec 4) : (s.raiseIrq b).draws = s.draws := rfl

/-! ### Completion of a command (40_control.md R132). -/

@[simp] theorem State.complete_ctrl (s : State) : s.complete.ctrl = s.ctrl := rfl
@[simp] theorem State.complete_symLimit (s : State) : s.complete.symLimit = s.symLimit := rfl
@[simp] theorem State.complete_cmd (s : State) : s.complete.cmd = s.cmd := rfl
@[simp] theorem State.complete_errCode (s : State) : s.complete.errCode = s.errCode := rfl
@[simp] theorem State.complete_errInfo (s : State) : s.complete.errInfo = s.errInfo := rfl
@[simp] theorem State.complete_result (s : State) : s.complete.result = s.result := rfl
@[simp] theorem State.complete_irqStatus (s : State) : s.complete.irqStatus = s.irqStatus ||| irqDone := rfl
@[simp] theorem State.complete_irqEnable (s : State) : s.complete.irqEnable = s.irqEnable := rfl
@[simp] theorem State.complete_tbLen (s : State) : s.complete.tbLen = s.tbLen := rfl
@[simp] theorem State.complete_nodeCount (s : State) : s.complete.nodeCount = s.nodeCount := rfl
@[simp] theorem State.complete_root (s : State) : s.complete.root = s.root := rfl
@[simp] theorem State.complete_pqSize (s : State) : s.complete.pqSize = s.pqSize := rfl
@[simp] theorem State.complete_freqTotal (s : State) : s.complete.freqTotal = s.freqTotal := rfl
@[simp] theorem State.complete_inCount (s : State) : s.complete.inCount = s.inCount := rfl
@[simp] theorem State.complete_outCount (s : State) : s.complete.outCount = s.outCount := rfl
@[simp] theorem State.complete_phase (s : State) : s.complete.phase = .idle := rfl
@[simp] theorem State.complete_prog (s : State) : s.complete.prog = none := rfl
@[simp] theorem State.complete_freq (s : State) : s.complete.freq = s.freq := rfl
@[simp] theorem State.complete_node (s : State) : s.complete.node = s.node := rfl
@[simp] theorem State.complete_heap (s : State) : s.complete.heap = s.heap := rfl
@[simp] theorem State.complete_tb (s : State) : s.complete.tb = s.tb := rfl
@[simp] theorem State.complete_code (s : State) : s.complete.code = s.code := rfl
@[simp] theorem State.complete_inEom (s : State) : s.complete.inEom = s.inEom := rfl
@[simp] theorem State.complete_wireBe (s : State) : s.complete.wireBe = s.wireBe := rfl
@[simp] theorem State.complete_symLsb (s : State) : s.complete.symLsb = s.symLsb := rfl
@[simp] theorem State.complete_limitEn (s : State) : s.complete.limitEn = s.limitEn := rfl
@[simp] theorem State.complete_symLimitL (s : State) : s.complete.symLimitL = s.symLimitL := rfl
@[simp] theorem State.complete_path (s : State) : s.complete.path = s.path := rfl
@[simp] theorem State.complete_depth (s : State) : s.complete.depth = s.depth := rfl
@[simp] theorem State.complete_acc (s : State) : s.complete.acc = s.acc := rfl
@[simp] theorem State.complete_accN (s : State) : s.complete.accN = s.accN := rfl
@[simp] theorem State.complete_walk (s : State) : s.complete.walk = s.walk := rfl
@[simp] theorem State.complete_pos (s : State) : s.complete.pos = s.pos := rfl
@[simp] theorem State.complete_stack (s : State) : s.complete.stack = s.stack := rfl
@[simp] theorem State.complete_treeValid (s : State) : s.complete.treeValid = s.treeValid := rfl
@[simp] theorem State.complete_codeValid (s : State) : s.complete.codeValid = s.codeValid := rfl
@[simp] theorem State.complete_tailPartial (s : State) : s.complete.tailPartial = s.tailPartial := rfl
@[simp] theorem State.complete_limitHit (s : State) : s.complete.limitHit = s.limitHit := rfl
@[simp] theorem State.complete_rstN (s : State) : s.complete.rstN = s.rstN := rfl
@[simp] theorem State.complete_busRsp (s : State) : s.complete.busRsp = s.busRsp := rfl
@[simp] theorem State.complete_inQ (s : State) : s.complete.inQ = s.inQ := rfl
@[simp] theorem State.complete_outReady (s : State) : s.complete.outReady = s.outReady := rfl
@[simp] theorem State.complete_outLog (s : State) : s.complete.outLog = s.outLog := rfl
@[simp] theorem State.complete_rspLog (s : State) : s.complete.rspLog = s.rspLog := rfl
@[simp] theorem State.complete_sched (s : State) : s.complete.sched = s.sched := rfl
@[simp] theorem State.complete_hold (s : State) : s.complete.hold = s.hold := rfl
@[simp] theorem State.complete_draws (s : State) : s.complete.draws = s.draws := rfl

/-! ### An error abort (60_exceptions.md R283). -/

@[simp] theorem State.abort_ctrl (s : State) (r : Raise) : (s.abort r).ctrl = s.ctrl := rfl
@[simp] theorem State.abort_symLimit (s : State) (r : Raise) : (s.abort r).symLimit = s.symLimit := rfl
@[simp] theorem State.abort_cmd (s : State) (r : Raise) : (s.abort r).cmd = s.cmd := rfl
@[simp] theorem State.abort_errCode (s : State) (r : Raise) : (s.abort r).errCode = r.kind.code := rfl
@[simp] theorem State.abort_errInfo (s : State) (r : Raise) : (s.abort r).errInfo = r.info := rfl
@[simp] theorem State.abort_result (s : State) (r : Raise) : (s.abort r).result = s.result := rfl
@[simp] theorem State.abort_irqStatus (s : State) (r : Raise) : (s.abort r).irqStatus = s.irqStatus ||| irqErr := rfl
@[simp] theorem State.abort_irqEnable (s : State) (r : Raise) : (s.abort r).irqEnable = s.irqEnable := rfl
@[simp] theorem State.abort_tbLen (s : State) (r : Raise) : (s.abort r).tbLen = s.tbLen := rfl
@[simp] theorem State.abort_nodeCount (s : State) (r : Raise) : (s.abort r).nodeCount = s.nodeCount := rfl
@[simp] theorem State.abort_root (s : State) (r : Raise) : (s.abort r).root = s.root := rfl
@[simp] theorem State.abort_pqSize (s : State) (r : Raise) : (s.abort r).pqSize = s.pqSize := rfl
@[simp] theorem State.abort_freqTotal (s : State) (r : Raise) : (s.abort r).freqTotal = s.freqTotal := rfl
@[simp] theorem State.abort_inCount (s : State) (r : Raise) : (s.abort r).inCount = s.inCount := rfl
@[simp] theorem State.abort_outCount (s : State) (r : Raise) : (s.abort r).outCount = s.outCount := rfl
@[simp] theorem State.abort_phase (s : State) (r : Raise) : (s.abort r).phase = .idle := rfl
@[simp] theorem State.abort_prog (s : State) (r : Raise) : (s.abort r).prog = none := rfl
@[simp] theorem State.abort_freq (s : State) (r : Raise) : (s.abort r).freq = s.freq := rfl
@[simp] theorem State.abort_node (s : State) (r : Raise) : (s.abort r).node = s.node := rfl
@[simp] theorem State.abort_heap (s : State) (r : Raise) : (s.abort r).heap = s.heap := rfl
@[simp] theorem State.abort_tb (s : State) (r : Raise) : (s.abort r).tb = s.tb := rfl
@[simp] theorem State.abort_code (s : State) (r : Raise) : (s.abort r).code = s.code := rfl
@[simp] theorem State.abort_inEom (s : State) (r : Raise) : (s.abort r).inEom = s.inEom := rfl
@[simp] theorem State.abort_wireBe (s : State) (r : Raise) : (s.abort r).wireBe = s.wireBe := rfl
@[simp] theorem State.abort_symLsb (s : State) (r : Raise) : (s.abort r).symLsb = s.symLsb := rfl
@[simp] theorem State.abort_limitEn (s : State) (r : Raise) : (s.abort r).limitEn = s.limitEn := rfl
@[simp] theorem State.abort_symLimitL (s : State) (r : Raise) : (s.abort r).symLimitL = s.symLimitL := rfl
@[simp] theorem State.abort_path (s : State) (r : Raise) : (s.abort r).path = s.path := rfl
@[simp] theorem State.abort_depth (s : State) (r : Raise) : (s.abort r).depth = s.depth := rfl
@[simp] theorem State.abort_acc (s : State) (r : Raise) : (s.abort r).acc = s.acc := rfl
@[simp] theorem State.abort_accN (s : State) (r : Raise) : (s.abort r).accN = s.accN := rfl
@[simp] theorem State.abort_walk (s : State) (r : Raise) : (s.abort r).walk = s.walk := rfl
@[simp] theorem State.abort_pos (s : State) (r : Raise) : (s.abort r).pos = s.pos := rfl
@[simp] theorem State.abort_stack (s : State) (r : Raise) : (s.abort r).stack = s.stack := rfl
@[simp] theorem State.abort_treeValid (s : State) (r : Raise) : (s.abort r).treeValid = s.treeValid := rfl
@[simp] theorem State.abort_codeValid (s : State) (r : Raise) : (s.abort r).codeValid = s.codeValid := rfl
@[simp] theorem State.abort_tailPartial (s : State) (r : Raise) : (s.abort r).tailPartial = s.tailPartial := rfl
@[simp] theorem State.abort_limitHit (s : State) (r : Raise) : (s.abort r).limitHit = s.limitHit := rfl
@[simp] theorem State.abort_rstN (s : State) (r : Raise) : (s.abort r).rstN = s.rstN := rfl
@[simp] theorem State.abort_busRsp (s : State) (r : Raise) : (s.abort r).busRsp = s.busRsp := rfl
@[simp] theorem State.abort_inQ (s : State) (r : Raise) : (s.abort r).inQ = s.inQ := rfl
@[simp] theorem State.abort_outReady (s : State) (r : Raise) : (s.abort r).outReady = s.outReady := rfl
@[simp] theorem State.abort_outLog (s : State) (r : Raise) : (s.abort r).outLog = s.outLog := rfl
@[simp] theorem State.abort_rspLog (s : State) (r : Raise) : (s.abort r).rspLog = s.rspLog := rfl
@[simp] theorem State.abort_sched (s : State) (r : Raise) : (s.abort r).sched = s.sched := rfl
@[simp] theorem State.abort_hold (s : State) (r : Raise) : (s.abort r).hold = s.hold := rfl
@[simp] theorem State.abort_draws (s : State) (r : Raise) : (s.abort r).draws = s.draws := rfl

/-! ### The configuration latch (40_control.md R131). -/

@[simp] theorem State.latchConfig_ctrl (s : State) : s.latchConfig.ctrl = s.ctrl := rfl
@[simp] theorem State.latchConfig_symLimit (s : State) : s.latchConfig.symLimit = s.symLimit := rfl
@[simp] theorem State.latchConfig_cmd (s : State) : s.latchConfig.cmd = s.cmd := rfl
@[simp] theorem State.latchConfig_errCode (s : State) : s.latchConfig.errCode = s.errCode := rfl
@[simp] theorem State.latchConfig_errInfo (s : State) : s.latchConfig.errInfo = s.errInfo := rfl
@[simp] theorem State.latchConfig_result (s : State) : s.latchConfig.result = s.result := rfl
@[simp] theorem State.latchConfig_irqStatus (s : State) : s.latchConfig.irqStatus = s.irqStatus := rfl
@[simp] theorem State.latchConfig_irqEnable (s : State) : s.latchConfig.irqEnable = s.irqEnable := rfl
@[simp] theorem State.latchConfig_tbLen (s : State) : s.latchConfig.tbLen = s.tbLen := rfl
@[simp] theorem State.latchConfig_nodeCount (s : State) : s.latchConfig.nodeCount = s.nodeCount := rfl
@[simp] theorem State.latchConfig_root (s : State) : s.latchConfig.root = s.root := rfl
@[simp] theorem State.latchConfig_pqSize (s : State) : s.latchConfig.pqSize = s.pqSize := rfl
@[simp] theorem State.latchConfig_freqTotal (s : State) : s.latchConfig.freqTotal = s.freqTotal := rfl
@[simp] theorem State.latchConfig_inCount (s : State) : s.latchConfig.inCount = s.inCount := rfl
@[simp] theorem State.latchConfig_outCount (s : State) : s.latchConfig.outCount = s.outCount := rfl
@[simp] theorem State.latchConfig_phase (s : State) : s.latchConfig.phase = s.phase := rfl
@[simp] theorem State.latchConfig_prog (s : State) : s.latchConfig.prog = s.prog := rfl
@[simp] theorem State.latchConfig_freq (s : State) : s.latchConfig.freq = s.freq := rfl
@[simp] theorem State.latchConfig_node (s : State) : s.latchConfig.node = s.node := rfl
@[simp] theorem State.latchConfig_heap (s : State) : s.latchConfig.heap = s.heap := rfl
@[simp] theorem State.latchConfig_tb (s : State) : s.latchConfig.tb = s.tb := rfl
@[simp] theorem State.latchConfig_code (s : State) : s.latchConfig.code = s.code := rfl
@[simp] theorem State.latchConfig_inEom (s : State) : s.latchConfig.inEom = s.inEom := rfl
@[simp] theorem State.latchConfig_wireBe (s : State) : s.latchConfig.wireBe = s.ctrl.getLsbD 0 := rfl
@[simp] theorem State.latchConfig_symLsb (s : State) : s.latchConfig.symLsb = s.ctrl.getLsbD 1 := rfl
@[simp] theorem State.latchConfig_limitEn (s : State) : s.latchConfig.limitEn = s.ctrl.getLsbD 2 := rfl
@[simp] theorem State.latchConfig_symLimitL (s : State) : s.latchConfig.symLimitL = s.symLimit := rfl
@[simp] theorem State.latchConfig_path (s : State) : s.latchConfig.path = s.path := rfl
@[simp] theorem State.latchConfig_depth (s : State) : s.latchConfig.depth = s.depth := rfl
@[simp] theorem State.latchConfig_acc (s : State) : s.latchConfig.acc = s.acc := rfl
@[simp] theorem State.latchConfig_accN (s : State) : s.latchConfig.accN = s.accN := rfl
@[simp] theorem State.latchConfig_walk (s : State) : s.latchConfig.walk = s.walk := rfl
@[simp] theorem State.latchConfig_pos (s : State) : s.latchConfig.pos = s.pos := rfl
@[simp] theorem State.latchConfig_stack (s : State) : s.latchConfig.stack = s.stack := rfl
@[simp] theorem State.latchConfig_treeValid (s : State) : s.latchConfig.treeValid = s.treeValid := rfl
@[simp] theorem State.latchConfig_codeValid (s : State) : s.latchConfig.codeValid = s.codeValid := rfl
@[simp] theorem State.latchConfig_tailPartial (s : State) : s.latchConfig.tailPartial = s.tailPartial := rfl
@[simp] theorem State.latchConfig_limitHit (s : State) : s.latchConfig.limitHit = s.limitHit := rfl
@[simp] theorem State.latchConfig_rstN (s : State) : s.latchConfig.rstN = s.rstN := rfl
@[simp] theorem State.latchConfig_busRsp (s : State) : s.latchConfig.busRsp = s.busRsp := rfl
@[simp] theorem State.latchConfig_inQ (s : State) : s.latchConfig.inQ = s.inQ := rfl
@[simp] theorem State.latchConfig_outReady (s : State) : s.latchConfig.outReady = s.outReady := rfl
@[simp] theorem State.latchConfig_outLog (s : State) : s.latchConfig.outLog = s.outLog := rfl
@[simp] theorem State.latchConfig_rspLog (s : State) : s.latchConfig.rspLog = s.rspLog := rfl
@[simp] theorem State.latchConfig_sched (s : State) : s.latchConfig.sched = s.sched := rfl
@[simp] theorem State.latchConfig_hold (s : State) : s.latchConfig.hold = s.hold := rfl
@[simp] theorem State.latchConfig_draws (s : State) : s.latchConfig.draws = s.draws := rfl

/-! ### Acceptance of a command word (40_control.md R130). -/

@[simp] theorem State.accept_ctrl (s : State) (w : Word) : (s.accept w).ctrl = s.ctrl := rfl
@[simp] theorem State.accept_symLimit (s : State) (w : Word) : (s.accept w).symLimit = s.symLimit := rfl
@[simp] theorem State.accept_cmd (s : State) (w : Word) : (s.accept w).cmd = w := rfl
@[simp] theorem State.accept_errCode (s : State) (w : Word) : (s.accept w).errCode = 0 := rfl
@[simp] theorem State.accept_errInfo (s : State) (w : Word) : (s.accept w).errInfo = 0 := rfl
@[simp] theorem State.accept_result (s : State) (w : Word) : (s.accept w).result = s.result := rfl
@[simp] theorem State.accept_irqStatus (s : State) (w : Word) : (s.accept w).irqStatus = s.irqStatus := rfl
@[simp] theorem State.accept_irqEnable (s : State) (w : Word) : (s.accept w).irqEnable = s.irqEnable := rfl
@[simp] theorem State.accept_tbLen (s : State) (w : Word) : (s.accept w).tbLen = s.tbLen := rfl
@[simp] theorem State.accept_nodeCount (s : State) (w : Word) : (s.accept w).nodeCount = s.nodeCount := rfl
@[simp] theorem State.accept_root (s : State) (w : Word) : (s.accept w).root = s.root := rfl
@[simp] theorem State.accept_pqSize (s : State) (w : Word) : (s.accept w).pqSize = s.pqSize := rfl
@[simp] theorem State.accept_freqTotal (s : State) (w : Word) : (s.accept w).freqTotal = s.freqTotal := rfl
@[simp] theorem State.accept_inCount (s : State) (w : Word) : (s.accept w).inCount = 0 := rfl
@[simp] theorem State.accept_outCount (s : State) (w : Word) : (s.accept w).outCount = 0 := rfl
@[simp] theorem State.accept_phase (s : State) (w : Word) : (s.accept w).phase = .exec := rfl
@[simp] theorem State.accept_prog (s : State) (w : Word) : (s.accept w).prog = none := rfl
@[simp] theorem State.accept_freq (s : State) (w : Word) : (s.accept w).freq = s.freq := rfl
@[simp] theorem State.accept_node (s : State) (w : Word) : (s.accept w).node = s.node := rfl
@[simp] theorem State.accept_heap (s : State) (w : Word) : (s.accept w).heap = s.heap := rfl
@[simp] theorem State.accept_tb (s : State) (w : Word) : (s.accept w).tb = s.tb := rfl
@[simp] theorem State.accept_code (s : State) (w : Word) : (s.accept w).code = s.code := rfl
@[simp] theorem State.accept_inEom (s : State) (w : Word) : (s.accept w).inEom = s.inEom := rfl
@[simp] theorem State.accept_wireBe (s : State) (w : Word) : (s.accept w).wireBe = s.ctrl.getLsbD 0 := rfl
@[simp] theorem State.accept_symLsb (s : State) (w : Word) : (s.accept w).symLsb = s.ctrl.getLsbD 1 := rfl
@[simp] theorem State.accept_limitEn (s : State) (w : Word) : (s.accept w).limitEn = s.ctrl.getLsbD 2 := rfl
@[simp] theorem State.accept_symLimitL (s : State) (w : Word) : (s.accept w).symLimitL = s.symLimit := rfl
@[simp] theorem State.accept_path (s : State) (w : Word) : (s.accept w).path = s.path := rfl
@[simp] theorem State.accept_depth (s : State) (w : Word) : (s.accept w).depth = s.depth := rfl
@[simp] theorem State.accept_acc (s : State) (w : Word) : (s.accept w).acc = s.acc := rfl
@[simp] theorem State.accept_accN (s : State) (w : Word) : (s.accept w).accN = s.accN := rfl
@[simp] theorem State.accept_walk (s : State) (w : Word) : (s.accept w).walk = s.walk := rfl
@[simp] theorem State.accept_pos (s : State) (w : Word) : (s.accept w).pos = s.pos := rfl
@[simp] theorem State.accept_stack (s : State) (w : Word) : (s.accept w).stack = s.stack := rfl
@[simp] theorem State.accept_treeValid (s : State) (w : Word) : (s.accept w).treeValid = s.treeValid := rfl
@[simp] theorem State.accept_codeValid (s : State) (w : Word) : (s.accept w).codeValid = s.codeValid := rfl
@[simp] theorem State.accept_tailPartial (s : State) (w : Word) : (s.accept w).tailPartial = s.tailPartial := rfl
@[simp] theorem State.accept_limitHit (s : State) (w : Word) : (s.accept w).limitHit = s.limitHit := rfl
@[simp] theorem State.accept_rstN (s : State) (w : Word) : (s.accept w).rstN = s.rstN := rfl
@[simp] theorem State.accept_busRsp (s : State) (w : Word) : (s.accept w).busRsp = s.busRsp := rfl
@[simp] theorem State.accept_inQ (s : State) (w : Word) : (s.accept w).inQ = s.inQ := rfl
@[simp] theorem State.accept_outReady (s : State) (w : Word) : (s.accept w).outReady = s.outReady := rfl
@[simp] theorem State.accept_outLog (s : State) (w : Word) : (s.accept w).outLog = s.outLog := rfl
@[simp] theorem State.accept_rspLog (s : State) (w : Word) : (s.accept w).rspLog = s.rspLog := rfl
@[simp] theorem State.accept_sched (s : State) (w : Word) : (s.accept w).sched = s.sched := rfl
@[simp] theorem State.accept_hold (s : State) (w : Word) : (s.accept w).hold = s.hold := rfl
@[simp] theorem State.accept_draws (s : State) (w : Word) : (s.accept w).draws = s.draws := rfl

/-! ### `tree_release()` (43_tree.md R203). -/

@[simp] theorem State.treeRelease_ctrl (s : State) : s.treeRelease.ctrl = s.ctrl := rfl
@[simp] theorem State.treeRelease_symLimit (s : State) : s.treeRelease.symLimit = s.symLimit := rfl
@[simp] theorem State.treeRelease_cmd (s : State) : s.treeRelease.cmd = s.cmd := rfl
@[simp] theorem State.treeRelease_errCode (s : State) : s.treeRelease.errCode = s.errCode := rfl
@[simp] theorem State.treeRelease_errInfo (s : State) : s.treeRelease.errInfo = s.errInfo := rfl
@[simp] theorem State.treeRelease_result (s : State) : s.treeRelease.result = s.result := rfl
@[simp] theorem State.treeRelease_irqStatus (s : State) : s.treeRelease.irqStatus = s.irqStatus := rfl
@[simp] theorem State.treeRelease_irqEnable (s : State) : s.treeRelease.irqEnable = s.irqEnable := rfl
@[simp] theorem State.treeRelease_tbLen (s : State) : s.treeRelease.tbLen = s.tbLen := rfl
@[simp] theorem State.treeRelease_nodeCount (s : State) : s.treeRelease.nodeCount = 0 := rfl
@[simp] theorem State.treeRelease_root (s : State) : s.treeRelease.root = 0 := rfl
@[simp] theorem State.treeRelease_pqSize (s : State) : s.treeRelease.pqSize = 0 := rfl
@[simp] theorem State.treeRelease_freqTotal (s : State) : s.treeRelease.freqTotal = s.freqTotal := rfl
@[simp] theorem State.treeRelease_inCount (s : State) : s.treeRelease.inCount = s.inCount := rfl
@[simp] theorem State.treeRelease_outCount (s : State) : s.treeRelease.outCount = s.outCount := rfl
@[simp] theorem State.treeRelease_phase (s : State) : s.treeRelease.phase = s.phase := rfl
@[simp] theorem State.treeRelease_prog (s : State) : s.treeRelease.prog = s.prog := rfl
@[simp] theorem State.treeRelease_freq (s : State) : s.treeRelease.freq = s.freq := rfl
@[simp] theorem State.treeRelease_node (s : State) : s.treeRelease.node = s.node := rfl
@[simp] theorem State.treeRelease_heap (s : State) : s.treeRelease.heap = s.heap := rfl
@[simp] theorem State.treeRelease_tb (s : State) : s.treeRelease.tb = s.tb := rfl
@[simp] theorem State.treeRelease_code (s : State) : s.treeRelease.code = s.code := rfl
@[simp] theorem State.treeRelease_inEom (s : State) : s.treeRelease.inEom = s.inEom := rfl
@[simp] theorem State.treeRelease_wireBe (s : State) : s.treeRelease.wireBe = s.wireBe := rfl
@[simp] theorem State.treeRelease_symLsb (s : State) : s.treeRelease.symLsb = s.symLsb := rfl
@[simp] theorem State.treeRelease_limitEn (s : State) : s.treeRelease.limitEn = s.limitEn := rfl
@[simp] theorem State.treeRelease_symLimitL (s : State) : s.treeRelease.symLimitL = s.symLimitL := rfl
@[simp] theorem State.treeRelease_path (s : State) : s.treeRelease.path = s.path := rfl
@[simp] theorem State.treeRelease_depth (s : State) : s.treeRelease.depth = s.depth := rfl
@[simp] theorem State.treeRelease_acc (s : State) : s.treeRelease.acc = s.acc := rfl
@[simp] theorem State.treeRelease_accN (s : State) : s.treeRelease.accN = s.accN := rfl
@[simp] theorem State.treeRelease_walk (s : State) : s.treeRelease.walk = s.walk := rfl
@[simp] theorem State.treeRelease_pos (s : State) : s.treeRelease.pos = s.pos := rfl
@[simp] theorem State.treeRelease_stack (s : State) : s.treeRelease.stack = s.stack := rfl
@[simp] theorem State.treeRelease_treeValid (s : State) : s.treeRelease.treeValid = false := rfl
@[simp] theorem State.treeRelease_codeValid (s : State) : s.treeRelease.codeValid = false := rfl
@[simp] theorem State.treeRelease_tailPartial (s : State) : s.treeRelease.tailPartial = s.tailPartial := rfl
@[simp] theorem State.treeRelease_limitHit (s : State) : s.treeRelease.limitHit = s.limitHit := rfl
@[simp] theorem State.treeRelease_rstN (s : State) : s.treeRelease.rstN = s.rstN := rfl
@[simp] theorem State.treeRelease_busRsp (s : State) : s.treeRelease.busRsp = s.busRsp := rfl
@[simp] theorem State.treeRelease_inQ (s : State) : s.treeRelease.inQ = s.inQ := rfl
@[simp] theorem State.treeRelease_outReady (s : State) : s.treeRelease.outReady = s.outReady := rfl
@[simp] theorem State.treeRelease_outLog (s : State) : s.treeRelease.outLog = s.outLog := rfl
@[simp] theorem State.treeRelease_rspLog (s : State) : s.treeRelease.rspLog = s.rspLog := rfl
@[simp] theorem State.treeRelease_sched (s : State) : s.treeRelease.sched = s.sched := rfl
@[simp] theorem State.treeRelease_hold (s : State) : s.treeRelease.hold = s.hold := rfl
@[simp] theorem State.treeRelease_draws (s : State) : s.treeRelease.draws = s.draws := rfl

/-! ### The traversal stack after a traversal (43_tree.md R222). -/

@[simp] theorem State.spoilStack_ctrl (s : State) : s.spoilStack.ctrl = s.ctrl := rfl
@[simp] theorem State.spoilStack_symLimit (s : State) : s.spoilStack.symLimit = s.symLimit := rfl
@[simp] theorem State.spoilStack_cmd (s : State) : s.spoilStack.cmd = s.cmd := rfl
@[simp] theorem State.spoilStack_errCode (s : State) : s.spoilStack.errCode = s.errCode := rfl
@[simp] theorem State.spoilStack_errInfo (s : State) : s.spoilStack.errInfo = s.errInfo := rfl
@[simp] theorem State.spoilStack_result (s : State) : s.spoilStack.result = s.result := rfl
@[simp] theorem State.spoilStack_irqStatus (s : State) : s.spoilStack.irqStatus = s.irqStatus := rfl
@[simp] theorem State.spoilStack_irqEnable (s : State) : s.spoilStack.irqEnable = s.irqEnable := rfl
@[simp] theorem State.spoilStack_tbLen (s : State) : s.spoilStack.tbLen = s.tbLen := rfl
@[simp] theorem State.spoilStack_nodeCount (s : State) : s.spoilStack.nodeCount = s.nodeCount := rfl
@[simp] theorem State.spoilStack_root (s : State) : s.spoilStack.root = s.root := rfl
@[simp] theorem State.spoilStack_pqSize (s : State) : s.spoilStack.pqSize = s.pqSize := rfl
@[simp] theorem State.spoilStack_freqTotal (s : State) : s.spoilStack.freqTotal = s.freqTotal := rfl
@[simp] theorem State.spoilStack_inCount (s : State) : s.spoilStack.inCount = s.inCount := rfl
@[simp] theorem State.spoilStack_outCount (s : State) : s.spoilStack.outCount = s.outCount := rfl
@[simp] theorem State.spoilStack_phase (s : State) : s.spoilStack.phase = s.phase := rfl
@[simp] theorem State.spoilStack_prog (s : State) : s.spoilStack.prog = s.prog := rfl
@[simp] theorem State.spoilStack_freq (s : State) : s.spoilStack.freq = s.freq := rfl
@[simp] theorem State.spoilStack_node (s : State) : s.spoilStack.node = s.node := rfl
@[simp] theorem State.spoilStack_heap (s : State) : s.spoilStack.heap = s.heap := rfl
@[simp] theorem State.spoilStack_tb (s : State) : s.spoilStack.tb = s.tb := rfl
@[simp] theorem State.spoilStack_code (s : State) : s.spoilStack.code = s.code := rfl
@[simp] theorem State.spoilStack_inEom (s : State) : s.spoilStack.inEom = s.inEom := rfl
@[simp] theorem State.spoilStack_wireBe (s : State) : s.spoilStack.wireBe = s.wireBe := rfl
@[simp] theorem State.spoilStack_symLsb (s : State) : s.spoilStack.symLsb = s.symLsb := rfl
@[simp] theorem State.spoilStack_limitEn (s : State) : s.spoilStack.limitEn = s.limitEn := rfl
@[simp] theorem State.spoilStack_symLimitL (s : State) : s.spoilStack.symLimitL = s.symLimitL := rfl
@[simp] theorem State.spoilStack_path (s : State) : s.spoilStack.path = s.path := rfl
@[simp] theorem State.spoilStack_depth (s : State) : s.spoilStack.depth = s.depth := rfl
@[simp] theorem State.spoilStack_acc (s : State) : s.spoilStack.acc = s.acc := rfl
@[simp] theorem State.spoilStack_accN (s : State) : s.spoilStack.accN = s.accN := rfl
@[simp] theorem State.spoilStack_walk (s : State) : s.spoilStack.walk = s.walk := rfl
@[simp] theorem State.spoilStack_pos (s : State) : s.spoilStack.pos = s.pos := rfl
@[simp] theorem State.spoilStack_stack (s : State) : s.spoilStack.stack = Config.stackResidue s.draws := rfl
@[simp] theorem State.spoilStack_treeValid (s : State) : s.spoilStack.treeValid = s.treeValid := rfl
@[simp] theorem State.spoilStack_codeValid (s : State) : s.spoilStack.codeValid = s.codeValid := rfl
@[simp] theorem State.spoilStack_tailPartial (s : State) : s.spoilStack.tailPartial = s.tailPartial := rfl
@[simp] theorem State.spoilStack_limitHit (s : State) : s.spoilStack.limitHit = s.limitHit := rfl
@[simp] theorem State.spoilStack_rstN (s : State) : s.spoilStack.rstN = s.rstN := rfl
@[simp] theorem State.spoilStack_busRsp (s : State) : s.spoilStack.busRsp = s.busRsp := rfl
@[simp] theorem State.spoilStack_inQ (s : State) : s.spoilStack.inQ = s.inQ := rfl
@[simp] theorem State.spoilStack_outReady (s : State) : s.spoilStack.outReady = s.outReady := rfl
@[simp] theorem State.spoilStack_outLog (s : State) : s.spoilStack.outLog = s.outLog := rfl
@[simp] theorem State.spoilStack_rspLog (s : State) : s.spoilStack.rspLog = s.rspLog := rfl
@[simp] theorem State.spoilStack_sched (s : State) : s.spoilStack.sched = s.sched := rfl
@[simp] theorem State.spoilStack_hold (s : State) : s.spoilStack.hold = s.hold := rfl
@[simp] theorem State.spoilStack_draws (s : State) : s.spoilStack.draws = s.draws + 1 := rfl

end Sys2Proof.Machine
end

