-- ==== Sys2Proof/Laws/Streams.lean ====
section
/-! SUPPORT. Laws/Streams.lean: a command gives its end-of-message marker last (20_memory.md R93): what an
operation leaves pending has the operations that can give a marker at its end. -/

namespace Sys2Proof.Machine

theorem marksLast_cons {op : Op} {ops : List Op} :
    marksLast (op :: ops) = true ↔ ops = [] ∨ (op.mayEnd = false ∧ marksLast ops = true) := by
  cases ops with
  | nil => simp [marksLast]
  | cons o os => simp [marksLast, List.dropLast_cons_of_ne_nil]

theorem marksLast_append {more ops : List Op} (h : ∀ o ∈ more, o.mayEnd = false) (h2 : marksLast ops = true) :
    marksLast (more ++ ops) = true := by
  induction more with
  | nil => exact h2
  | cons o more ih =>
    exact marksLast_cons.2 (.inr ⟨h o (by simp), ih fun o ho => h o (by simp [ho])⟩)

theorem puts_mayEnd (bs : List Byte) : ∀ o ∈ bs.map Op.put, o.mayEnd = false := by
  intro o ho
  obtain ⟨b, -, rfl⟩ := List.mem_map.1 ho
  rfl

/-- Bytes to give, then the marker if `f` asks for it. -/
theorem puts_marker (bs : List Byte) (f : Bool) :
    (f = false → ∀ o ∈ bs.map Op.put ++ (if f then [Op.putEnd] else []), o.mayEnd = false) ∧
      marksLast (bs.map Op.put ++ if f then [Op.putEnd] else []) = true := by
  refine ⟨?_, marksLast_append (puts_mayEnd bs) (by cases f <;> rfl)⟩
  rintro rfl
  simpa using puts_mayEnd bs

/-- What an operation leaves pending gives a marker only at its end, and not at all unless the operation
itself can. -/
theorem runOp_mayEnd {op : Op} {s s' : State} {more : List Op} (h : runOp op s = .ok s' more) :
    (op.mayEnd = false → ∀ o ∈ more, o.mayEnd = false) ∧ marksLast more = true := by
  have nil : ∀ {op : Op}, (op.mayEnd = false → ∀ o ∈ ([] : List Op), o.mayEnd = false) ∧ marksLast [] = true := by
    simp [marksLast]
  have one : ∀ {op o : Op}, (op.mayEnd = false → o.mayEnd = false) →
      (op.mayEnd = false → ∀ o' ∈ [o], o'.mayEnd = false) ∧ marksLast [o] = true := by
    intro op o h
    exact ⟨fun h' => by simpa using h h', rfl⟩
  have proc : ∀ (i : Instr), procOf i s = .ok s' more →
      ((Op.run i).mayEnd = false → ∀ o ∈ more, o.mayEnd = false) ∧ marksLast more = true := by
    intro i h
    cases i <;> simp only [procOf] at h
    case encode => simp only [doEncode, Res.ok.injEq] at h; rw [← h.2]; exact ⟨by simp [Op.mayEnd], rfl⟩
    case decode => simp only [doDecode, Res.ok.injEq] at h; rw [← h.2]; exact ⟨by simp [Op.mayEnd], rfl⟩
    case bbSerialize f =>
      simp only [doBbSerialize, Res.ok.injEq] at h
      rw [← h.2]
      exact puts_marker _ f
    all_goals
      simp only [doNop, doSoftReset, doInDiscard, doBbCreate, doBbSet, doBbClear, doBbGet, doBbResize,
        doBbDeserialize, doPqClear, doPqInsert, doPqExtract, doTreeBuild, doTreeDestroy, doTreeSerialize,
        doTreeDeserialize, doFreqClear, doFreqAccum, doCodeGen, doPack, doUnpack] at h
      repeat' split at h
      all_goals first
        | (cases h; done)
        | (simp only [Res.ok.injEq] at h; rw [← h.2]; first | exact nil | exact one (by simp [Op.mayEnd]))
  cases op <;> simp only [runOp] at h
  case run i => exact proc i h
  case pack f =>
    simp only [packLoop] at h
    split at h
    · simp only [Res.ok.injEq] at h; rw [← h.2]; exact puts_marker _ f
    · split at h
      · simp at h
      · split at h
        · simp only [Res.ok.injEq] at h; rw [← h.2]; exact one id
        · split at h <;> simp only [Res.ok.injEq, reduceCtorEq] at h
          rw [← h.2]
          refine ⟨fun hf o ho => ?_, marksLast_append (puts_mayEnd _) rfl⟩
          rcases List.mem_append.1 ho with ho | ho
          · exact puts_mayEnd _ o ho
          · rw [List.mem_singleton.1 ho]; exact hf
  case unpack n stop =>
    refine ⟨by simp [Op.mayEnd], ?_⟩
    simp only [unpackLoop] at h
    split at h
    · simp only [Res.ok.injEq] at h; rw [← h.2]; rfl
    · split at h
      · simp at h
      · split at h <;> simp only [Res.ok.injEq] at h <;> rw [← h.2]
        · rfl
        · exact marksLast_append (puts_mayEnd _) rfl
  all_goals
    try simp only [putOp, putEndOp, discardLoop, accumLoop, rdLenLoop, rdBucketLoop] at h
    repeat' split at h
    all_goals first
      | (cases h; done)
      | (simp only [Res.ok.injEq] at h; rw [← h.2]; first | exact nil | exact one (by simp [Op.mayEnd]))

/-- The operations of a turn keep their shape. -/
theorem marksLast_step {op : Op} {ops more : List Op} {s s' : State} (hm : marksLast (op :: ops) = true)
    (h : runOp op s = .ok s' more) : marksLast (more ++ ops) = true := by
  obtain ⟨h1, h2⟩ := runOp_mayEnd h
  rcases marksLast_cons.1 hm with rfl | ⟨ho, hops⟩
  · rwa [List.append_nil]
  · exact marksLast_append (h1 ho) hops

end Sys2Proof.Machine
end

