-- ==== Sys2Proof/Laws/Step.lean ====
section
/-! SUPPORT. Laws/Step.lean: every turn keeps the invariant, of the datapath and of the sequencer, and no turn of
the core stops. -/

namespace Sys2Proof.Machine

theorem Keeps.trans {a b c : State} (h1 : Keeps a b) (h2 : Keeps b c) : Keeps a c :=
  ⟨h2.data, fun h => h2.heap (h1.heap h)⟩

/-! ### The invariant and its datapath part -/

theorem State.Inv.toData {s : State} (h : s.Inv) : s.Data :=
  ⟨h.freqWf, h.nodeWf, h.heapWf, ⟨h.codeWf, h.codeTail⟩, ⟨h.tbLenRange, h.tbTail⟩, h.nodeCountRange, h.pqSizeRange,
    ⟨h.treeHeld, h.rootFree, h.codeNeedsTree⟩⟩

/-- The part of the invariant that the sequencer decides. -/
structure State.Control (s : State) : Prop where
  err : s.errCode.toNat ≤ 9
  clean : s.phase = .exec → s.errCode = 0 ∧ s.errInfo = 0
  prog : s.phase ≠ .exec → s.prog = none
  init : s.phase = .init → s.treeValid = false ∧ s.pqSize = 0 ∧ s.tbLen = 0
  ops : ∀ ops, s.prog = some ops → ops.all Op.ok = true
  marks : ∀ ops, s.prog = some ops → marksLast ops = true

theorem State.Inv.toControl {s : State} (h : s.Inv) : s.Control :=
  ⟨h.errCodeRange, h.execClean, h.notExec, h.initFlags, h.progOk, h.markerLast⟩

theorem State.Data.inv {s : State} (h : s.Data) (hc : s.Control) : s.Inv :=
  ⟨h.freq, h.node, h.heap, h.code.1, h.tb.1, h.count, h.size, hc.err, h.tb.2, h.code.2, h.tree.held, h.tree.free,
    h.tree.code, hc.clean, hc.prog, hc.init, hc.ops, hc.marks⟩

/-- Outside the initialisation phase, with no operation pending, nothing is asked of the sequencer but the
range of the error code. -/
theorem State.Control.idle {s : State} (he : s.errCode.toNat ≤ 9) (hp : s.phase = .idle) (hg : s.prog = none) :
    s.Control :=
  ⟨he, fun h => (by rw [hp] at h; cases h), fun _ => hg, fun h => (by rw [hp] at h; cases h),
    fun ops h => (by rw [hg] at h; cases h), fun ops h => (by rw [hg] at h; cases h)⟩

theorem ErrKind.code_le (k : ErrKind) : k.code.toNat ≤ 9 := by cases k <;> decide

/-! ### A turn of the core -/

theorem hostPart_phase {s s' : State} (h : s'.hostPart = s.hostPart) :
    s'.phase = s.phase ∧ s'.errCode = s.errCode ∧ s'.errInfo = s.errInfo := by
  simp only [State.hostPart, HostPart.mk.injEq] at h
  exact ⟨h.2.2.2.2.2.2.2.1, h.2.2.2.1, h.2.2.2.2.1⟩

/-- What a state looks like in the middle of a turn that began at `s`. -/
structure Within (s : State) (ops : List Op) (s' : State) : Prop where
  keeps : Keeps s s'
  marks : marksLast ops = true
  ops : ops.all Op.ok = true
  host : s'.hostPart = s.hostPart

theorem Within.step {s : State} {op : Op} {ops more : List Op} {s1 s2 : State} (h : Within s (op :: ops) s1)
    (hr : runOp op s1 = .ok s2 more) : Within s (more ++ ops) s2 := by
  have ho := h.ops
  rw [List.all_cons, Bool.and_eq_true] at ho
  have hg := runOp_good h.keeps.data ho.1
  rw [hr] at hg
  refine ⟨h.keeps.trans hg.1, marksLast_step h.marks hr, ?_, (runOp_ok hr).1.trans h.host⟩
  rw [List.all_append, hg.2, ho.2]
  rfl

theorem startOps_ok {i : Instr} {s : State} (hc : s.Control) :
    (startOps i s).all Op.ok = true ∧ marksLast (startOps i s) = true := by
  unfold startOps
  cases hp : s.prog with
  | none => exact ⟨rfl, rfl⟩
  | some ops => exact ⟨hc.ops ops hp, hc.marks ops hp⟩

/-- A turn of a command keeps the invariant. -/
theorem exec_keeps {i : Instr} {s t : State} (hd : s.Data) (hc : s.Control) (hx : s.phase = .exec)
    (h : exec i s = .next t) : Keeps s t ∧ t.Control := by
  rw [exec_eq_runAll] at h
  have hstart : Within s (startOps i s) s := ⟨Keeps.same hd rfl rfl rfl, (startOps_ok hc).2, (startOps_ok hc).1, rfl⟩
  obtain ⟨ops, s', hw, hend⟩ := runAll_cases (P := Within s) (fun h hr => h.step hr) _ _ hstart h
  obtain ⟨hp, he, hi⟩ := hostPart_phase hw.host
  have hx' : s'.phase = .exec := hp.trans hx
  have hcl := hc.clean hx
  have data : ∀ s2 : State, s2.Data → Keeps s2 { s2 with prog := some ops } := fun s2 h2 =>
    Keeps.same ⟨h2.freq, h2.node, h2.heap, h2.code, h2.tb, h2.count, h2.size, h2.tree⟩ rfl rfl rfl
  have waits : ∀ (s2 : State) (ops2 : List Op), s2.phase = .exec → s2.errCode = 0 → s2.errInfo = 0 →
      ops2.all Op.ok = true → marksLast ops2 = true → State.Control { s2 with prog := some ops2 } := by
    intro s2 ops2 h1 h2 h3 h4 h5
    refine ⟨?_, fun _ => ⟨h2, h3⟩, fun h => absurd h1 h, fun h => ?_, fun o ho => ?_, fun o ho => ?_⟩
    · show s2.errCode.toNat ≤ 9
      rw [h2]; decide
    · replace h : s2.phase = .init := h
      rw [h1] at h; cases h
    · injection ho with ho
      rw [← ho]; exact h4
    · injection ho with ho
      rw [← ho]; exact h5
  cases hend with
  | finish hf =>
    unfold finish at hf
    split at hf <;> injection hf with hf <;> subst hf
    · exact ⟨hw.keeps.trans (data s' hw.keeps.data), waits s' [] hx' (he.trans hcl.1) (hi.trans hcl.2) rfl rfl⟩
    · have hk : Keeps s' s'.complete := Keeps.same ⟨hw.keeps.data.freq, hw.keeps.data.node, hw.keeps.data.heap,
        hw.keeps.data.code, hw.keeps.data.tb, hw.keeps.data.count, hw.keeps.data.size, hw.keeps.data.tree⟩ rfl rfl rfl
      refine ⟨hw.keeps.trans hk, State.Control.idle ?_ rfl rfl⟩
      show s'.errCode.toNat ≤ 9
      rw [he]; exact hc.err
  | raise hr hf =>
    rename_i op ops' s2 r
    have ho := hw.ops
    rw [List.all_cons, Bool.and_eq_true] at ho
    have hg := runOp_good hw.keeps.data ho.1
    rw [hr] at hg
    replace hg : Keeps s' s2 := hg
    have hk : ∀ t' : State, t'.freq = s2.freq ∧ t'.node = s2.node ∧ t'.heap = s2.heap ∧ t'.code = s2.code ∧ t'.tb = s2.tb ∧
        t'.tbLen = s2.tbLen ∧ t'.nodeCount = s2.nodeCount ∧ t'.pqSize = s2.pqSize ∧ t'.root = s2.root ∧
        t'.treeValid = s2.treeValid ∧ t'.codeValid = s2.codeValid → Keeps s2 t' := by
      rintro t' ⟨e1, e2, e3, e4, e5, e6, e7, e8, e9, e10, e11⟩
      have hd2 := hg.data
      exact Keeps.same ⟨e1 ▸ hd2.freq, e2 ▸ hd2.node, e3 ▸ hd2.heap, e4 ▸ hd2.code, by rw [e5, e6]; exact hd2.tb,
        e7 ▸ hd2.count, e8 ▸ hd2.size, by rw [e2, e7, e9, e10, e11]; exact hd2.tree⟩ e2 e3 e8
    unfold failWith at hf
    split at hf <;> injection hf with hf <;> subst hf
    · have hhost : s2.phase = .exec ∧ s2.errCode = 0 ∧ s2.errInfo = 0 := by
        have hp2 := (runOp_raise hr).1
        obtain ⟨p1, p2, p3⟩ := hostPart_phase hp2
        exact ⟨p1.trans hx', p2.trans (he.trans hcl.1), p3.trans (hi.trans hcl.2)⟩
      exact ⟨(hw.keeps.trans hg).trans (hk _ ⟨rfl, rfl, rfl, rfl, rfl, rfl, rfl, rfl, rfl, rfl, rfl⟩),
        waits s2 _ hhost.1 hhost.2.1 hhost.2.2 rfl rfl⟩
    · exact ⟨(hw.keeps.trans hg).trans (hk _ ⟨rfl, rfl, rfl, rfl, rfl, rfl, rfl, rfl, rfl, rfl, rfl⟩),
        State.Control.idle (ErrKind.code_le _) rfl rfl⟩
  | wait hr =>
    exact ⟨hw.keeps.trans (data s' hw.keeps.data), waits s' _ hx' (he.trans hcl.1) (hi.trans hcl.2) hw.ops hw.marks⟩

/-- No command faults. -/
theorem exec_next (i : Instr) {s : State} (hd : s.Data) (hc : s.Control) : ∃ t, exec i s = .next t := by
  by_contra hno
  have hstart : Within s (startOps i s) s := ⟨Keeps.same hd rfl rfl rfl, (startOps_ok hc).2, (startOps_ok hc).1, rfl⟩
  obtain ⟨op, ops, s', f, hw, hf⟩ := runAll_not_next (P := Within s) (fun h hr => h.step hr) _ _ hstart
    (fun t ht => hno ⟨t, by rw [exec_eq_runAll]; exact ht⟩)
  have ho := hw.ops
  rw [List.all_cons, Bool.and_eq_true] at ho
  have hg := runOp_good hw.keeps.data ho.1
  rw [hf] at hg
  exact hg

/-! ### The other turns -/

/-- A change outside the datapath, the phase, the error registers and the pending operations. -/
theorem keeps_outside {s t : State} (hd : s.Data) (hc : s.Control)
    (e : t.freq = s.freq ∧ t.node = s.node ∧ t.heap = s.heap ∧ t.code = s.code ∧ t.tb = s.tb ∧
      t.tbLen = s.tbLen ∧ t.nodeCount = s.nodeCount ∧ t.pqSize = s.pqSize ∧ t.root = s.root ∧
      t.treeValid = s.treeValid ∧ t.codeValid = s.codeValid)
    (c : t.phase = s.phase ∧ t.errCode = s.errCode ∧ t.errInfo = s.errInfo ∧ t.prog = s.prog) :
    Keeps s t ∧ t.Control := by
  obtain ⟨e1, e2, e3, e4, e5, e6, e7, e8, e9, e10, e11⟩ := e
  obtain ⟨c1, c2, c3, c4⟩ := c
  refine ⟨Keeps.same ⟨e1 ▸ hd.freq, e2 ▸ hd.node, e3 ▸ hd.heap, e4 ▸ hd.code, by rw [e5, e6]; exact hd.tb,
    e7 ▸ hd.count, e8 ▸ hd.size, by rw [e2, e7, e9, e10, e11]; exact hd.tree⟩ e2 e3 e8, ?_⟩
  exact ⟨c2 ▸ hc.err, fun h => by rw [c2, c3]; exact hc.clean (c1 ▸ h), fun h => c4 ▸ hc.prog (c1 ▸ h),
    fun h => by rw [e10, e8, e6]; exact hc.init (c1 ▸ h), fun ops h => hc.ops ops (c4 ▸ h), fun ops h => hc.marks ops (c4 ▸ h)⟩

theorem respond_keeps {s : State} (hd : s.Data) (hc : s.Control) : Keeps s s.respond ∧ s.respond.Control := by
  unfold State.respond
  split
  · exact keeps_outside hd hc ⟨rfl, rfl, rfl, rfl, rfl, rfl, rfl, rfl, rfl, rfl, rfl⟩ ⟨rfl, rfl, rfl, rfl⟩
  · exact ⟨Keeps.same hd rfl rfl rfl, hc⟩

/-- What reset leaves meets the invariant, with any host side (70_reset_and_hazards.md R310). -/
theorem reset_data : State.reset.Data ∧ State.reset.HeapInv :=
  ⟨⟨by simp [FreqWf, State.reset], by simp [NodeWf, State.reset], by simp [HeapWf, State.reset], CodeOk.nil,
    TbOk.zero (Nat.zero_le _), Nat.zero_le _, Nat.zero_le _, TreeOk.none⟩, State.HeapInv.empty rfl⟩

theorem reset_control : State.reset.Control :=
  ⟨by decide, fun h => (by cases h), fun _ => rfl, fun _ => ⟨rfl, rfl, rfl⟩, fun _ h => (by cases h), fun _ h => (by cases h)⟩

/-- A state with every datapath value of reset meets the invariant, whatever it comes from. -/
theorem atReset_keeps (s : State) {t : State} (hp : t.phase ≠ .exec)
    (h : { t with phase := .init, rstN := true, busRsp := none } = s.atReset) : Keeps s t ∧ t.Control := by
  have e : t = { s.atReset with phase := t.phase, rstN := t.rstN, busRsp := t.busRsp } := by rw [← h]
  rw [e]
  exact ⟨⟨⟨reset_data.1.freq, reset_data.1.node, reset_data.1.heap, reset_data.1.code, reset_data.1.tb,
    reset_data.1.count, reset_data.1.size, reset_data.1.tree⟩, fun _ => reset_data.2⟩,
    reset_control.err, fun h => absurd h hp, fun _ => rfl, fun _ => ⟨rfl, rfl, rfl⟩, fun _ h => (by cases h), fun _ h => (by cases h)⟩

theorem assertReset_keeps (s : State) : Keeps s s.assertReset ∧ s.assertReset.Control :=
  atReset_keeps s (fun h => (by cases h)) rfl

theorem writeCmd_keeps {s : State} (hd : s.Data) (hc : s.Control) (v : Word) :
    Keeps s (s.writeCmd v) ∧ (s.writeCmd v).Control := by
  unfold State.writeCmd
  split
  · exact ⟨Keeps.same ⟨hd.freq, hd.node, hd.heap, hd.code, hd.tb, hd.count, hd.size, hd.tree⟩ rfl rfl rfl,
      Nat.zero_le _, fun _ => ⟨rfl, rfl⟩, fun h => absurd rfl h, fun h => (by cases h), fun _ h => (by cases h), fun _ h => (by cases h)⟩
  · exact keeps_outside hd hc ⟨rfl, rfl, rfl, rfl, rfl, rfl, rfl, rfl, rfl, rfl, rfl⟩ ⟨rfl, rfl, rfl, rfl⟩

theorem busAccess_keeps {s : State} (hd : s.Data) (hc : s.Control) (a : BusReq) :
    Keeps s (s.busAccess a) ∧ (s.busAccess a).Control := by
  have refuse : Keeps s s.notPerformed ∧ s.notPerformed.Control :=
    keeps_outside hd hc ⟨rfl, rfl, rfl, rfl, rfl, rfl, rfl, rfl, rfl, rfl, rfl⟩ ⟨rfl, rfl, rfl, rfl⟩
  unfold State.busAccess
  dsimp only
  split
  · split
    · next hw =>
      have plain : ∀ t : State, (t.freq = s.freq ∧ t.node = s.node ∧ t.heap = s.heap ∧ t.code = s.code ∧ t.tb = s.tb ∧
          t.tbLen = s.tbLen ∧ t.nodeCount = s.nodeCount ∧ t.pqSize = s.pqSize ∧ t.root = s.root ∧
          t.treeValid = s.treeValid ∧ t.codeValid = s.codeValid) →
          (t.phase = s.phase ∧ t.errCode = s.errCode ∧ t.errInfo = s.errInfo ∧ t.prog = s.prog) →
          Keeps s t ∧ t.Control := fun t h1 h2 => keeps_outside hd hc h1 h2
      cases ht : targetOf a.addr with
      | freq x =>
        refine ⟨Keeps.same ⟨freqPut_wf hd.freq _ _, hd.node, hd.heap, hd.code, hd.tb, hd.count, hd.size, hd.tree⟩
          rfl rfl rfl, hc.err, hc.clean, hc.prog, hc.init, hc.ops, hc.marks⟩
      | reg r =>
        rw [ht] at hw
        cases r with
        | cmd =>
          obtain ⟨h1, h2⟩ := writeCmd_keeps hd hc a.wdata
          obtain ⟨h3, h4⟩ := keeps_outside (t := { s.writeCmd a.wdata with busRsp := some ⟨0, false⟩ }) h1.data h2
            ⟨rfl, rfl, rfl, rfl, rfl, rfl, rfl, rfl, rfl, rfl, rfl⟩ ⟨rfl, rfl, rfl, rfl⟩
          exact ⟨h1.trans h3, h4⟩
        | _ => exact plain _ ⟨rfl, rfl, rfl, rfl, rfl, rfl, rfl, rfl, rfl, rfl, rfl⟩ ⟨rfl, rfl, rfl, rfl⟩
      | _ => exact plain _ ⟨rfl, rfl, rfl, rfl, rfl, rfl, rfl, rfl, rfl, rfl, rfl⟩ ⟨rfl, rfl, rfl, rfl⟩
    · exact refuse
  · split
    · have hcd : ∀ t, ∃ d, s.countDraw t = { s with draws := d } := by
        intro t
        unfold State.countDraw
        split
        · split
          · exact ⟨_, rfl⟩
          · exact ⟨s.draws, rfl⟩
        all_goals exact ⟨s.draws, rfl⟩
      obtain ⟨d, e⟩ := hcd (targetOf a.addr)
      rw [e]
      exact keeps_outside hd hc ⟨rfl, rfl, rfl, rfl, rfl, rfl, rfl, rfl, rfl, rfl, rfl⟩ ⟨rfl, rfl, rfl, rfl⟩
    · exact refuse

theorem hostTurn_keeps {s : State} (hd : s.Data) (hc : s.Control) (turn : Turn) (rest : List Turn) :
    Keeps s (s.hostTurn turn rest) ∧ (s.hostTurn turn rest).Control := by
  have plain : ∀ t : State, (t.freq = s.freq ∧ t.node = s.node ∧ t.heap = s.heap ∧ t.code = s.code ∧ t.tb = s.tb ∧
      t.tbLen = s.tbLen ∧ t.nodeCount = s.nodeCount ∧ t.pqSize = s.pqSize ∧ t.root = s.root ∧
      t.treeValid = s.treeValid ∧ t.codeValid = s.codeValid) →
      (t.phase = s.phase ∧ t.errCode = s.errCode ∧ t.errInfo = s.errInfo ∧ t.prog = s.prog) →
      Keeps s t ∧ t.Control := fun t h1 h2 => keeps_outside hd hc h1 h2
  have hmove := plain { s with sched := rest } ⟨rfl, rfl, rfl, rfl, rfl, rfl, rfl, rfl, rfl, rfl, rfl⟩ ⟨rfl, rfl, rfl, rfl⟩
  cases turn with
  | core _ => exact hmove
  | access a =>
    show Keeps s (if s.busRsp.isSome then _ else _) ∧ State.Control (if s.busRsp.isSome then _ else _)
    split
    · exact respond_keeps hd hc
    · split
      · obtain ⟨h1, h2⟩ := busAccess_keeps hmove.1.data hmove.2 a
        exact ⟨hmove.1.trans h1, h2⟩
      · exact hmove
  | respond =>
    obtain ⟨h1, h2⟩ := respond_keeps hmove.1.data hmove.2
    exact ⟨hmove.1.trans h1, h2⟩
  | offer b => exact plain _ ⟨rfl, rfl, rfl, rfl, rfl, rfl, rfl, rfl, rfl, rfl, rfl⟩ ⟨rfl, rfl, rfl, rfl⟩
  | ready => exact plain _ ⟨rfl, rfl, rfl, rfl, rfl, rfl, rfl, rfl, rfl, rfl, rfl⟩ ⟨rfl, rfl, rfl, rfl⟩
  | rst level =>
    show Keeps s (State.setRst _ level) ∧ State.Control (State.setRst _ level)
    unfold State.setRst
    split
    · exact plain _ ⟨rfl, rfl, rfl, rfl, rfl, rfl, rfl, rfl, rfl, rfl, rfl⟩ ⟨rfl, rfl, rfl, rfl⟩
    · obtain ⟨h1, h2⟩ := assertReset_keeps { s with sched := rest }
      exact ⟨hmove.1.trans h1, h2⟩

theorem endInit_keeps {s : State} (hd : s.Data) (hc : s.Control) : Keeps s s.endInit ∧ s.endInit.Control := by
  unfold State.endInit
  split
  · exact ⟨Keeps.same hd rfl rfl rfl, hc⟩
  · exact atReset_keeps s (fun h => (by cases h)) rfl

theorem coreTurn_next {s : State} (hd : s.Data) (hc : s.Control) : ∃ t, coreTurn s = .next t := by
  unfold coreTurn
  split
  · split
    · exact ⟨_, rfl⟩
    · exact ⟨_, rfl⟩
    · split
      · exact exec_next _ hd hc
      · exact ⟨_, rfl⟩
  · exact ⟨_, rfl⟩

theorem coreTurn_keeps {s t : State} (hd : s.Data) (hc : s.Control) (h : coreTurn s = .next t) :
    Keeps s t ∧ t.Control := by
  have same : Keeps s s ∧ s.Control := ⟨Keeps.same hd rfl rfl rfl, hc⟩
  unfold coreTurn at h
  split at h
  · split at h
    · injection h with h; subst h; exact endInit_keeps hd hc
    · injection h with h; subst h; exact same
    · next hp =>
      split at h
      · exact exec_keeps hd hc hp h
      · injection h with h
        subst h
        unfold State.illegalTurn
        split
        · exact same
        · exact ⟨Keeps.same ⟨hd.freq, hd.node, hd.heap, hd.code, hd.tb, hd.count, hd.size, hd.tree⟩ rfl rfl rfl,
            State.Control.idle (ErrKind.code_le _) rfl rfl⟩
  · injection h with h; subst h; exact same

/-- The word that `withFetchWord` places is the command that the next step runs (log 2). -/
theorem step_withFetchWord (s : State) (nbits w : Nat) (i : Instr)
    (h : decode (BitVec.ofNat 32 (w % 2 ^ nbits)) = .ok i) :
    step (s.withFetchWord nbits w) = exec i { s.withFetchWord nbits w with hold := false } := by
  simp [step, coreTurn, State.withFetchWord, State.accept, State.latchConfig, h]

end Sys2Proof.Machine
end

