-- ==== Sys2Proof/Laws/Steps.lean ====
section
/-! SUPPORT. Laws/Steps.lean: a pipeline is its steps, one command after the other (40_control.md R133, 44_codec.md
R241, R242; 60_exceptions.md R287). -/

namespace Sys2Proof.Machine

/-- How the first operations of a turn go decides how the turn goes on: they are all done, one of them raises, the
turn waits in one of them, or faults. -/
inductive Begun (ops : List Op) (s : State) : Prop where
  | done (s' : State) (host : s'.hostPart = s.hostPart) (alone : runAll ops s = finish s')
      (on : ∀ rest, runAll (ops ++ rest) s = runAll rest s')
  | raised (r : Raise) (s' : State) (host : s'.hostPart = s.hostPart) (alone : runAll ops s = failWith r s')
      (on : ∀ rest, runAll (ops ++ rest) s = failWith r s')
  | waits (ops' : List Op) (s' : State) (host : s'.hostPart = s.hostPart)
      (alone : runAll ops s = .next { s' with prog := some ops' })
  | faults (f : Fault) (alone : runAll ops s = .fault f)

theorem begun : ∀ (ops : List Op) (s : State), Begun ops s := by
  intro ops s
  induction hn : need ops s using Nat.strongRecOn generalizing ops s with
  | ind n ih =>
    subst hn
    cases ops with
    | nil => exact .done s rfl (runAll_nil s) fun rest => by rw [List.nil_append]
    | cons op ops =>
      cases hr : runOp op s with
      | ok s' more =>
        have hh := (runOp_ok hr).1
        have e : ∀ rest, runAll (op :: ops ++ rest) s = runAll (more ++ ops ++ rest) s' := fun rest => by
          rw [List.cons_append, runAll_ok hr, List.append_assoc]
        have e0 : runAll (op :: ops) s = runAll (more ++ ops) s' := runAll_ok hr
        cases ih _ (need_lt hr) _ _ rfl with
        | done u h1 h2 h3 => exact .done u (h1.trans hh) (e0.trans h2) fun rest => (e rest).trans (h3 rest)
        | raised r u h1 h2 h3 => exact .raised r u (h1.trans hh) (e0.trans h2) fun rest => (e rest).trans (h3 rest)
        | waits o u h1 h2 => exact .waits o u (h1.trans hh) (e0.trans h2)
        | faults f h => exact .faults f (e0.trans h)
      | raise r s' =>
        exact .raised r s' (runOp_raise hr).1 (runAll_raise hr) fun rest => runAll_raise hr
      | wait => exact .waits _ s rfl (runAll_wait hr)
      | fault f => exact .faults f (runAll_fault hr)

theorem ErrKind.code_ne (k : ErrKind) : k.code ≠ 0 := by cases k <;> decide

/-- The steps as commands, and the same steps inside one command: where the commands end, the one command ends
the same (60_exceptions.md R287). -/
theorem runSteps_spec : ∀ (is : List Instr) (s t : State), s.prog = none → s.hold = false → s.phase = .exec →
    s.errCode = 0 → runSteps is s = .next t → t.phase = .idle → runAll (is.map .run) s = .next t
  | [], s, t, _, hh, _, _, h, _ => by
    rw [List.map_nil, finish_fresh hh]; exact h
  | i :: is, s, t, hp, hh, hx, he, h, ht => by
    unfold runSteps at h
    rw [exec_fresh ⟨hp, hh⟩] at h
    have host : ∀ {s' : State}, s'.hostPart = s.hostPart → s'.prog = none ∧ s'.hold = false ∧ s'.phase = .exec ∧
        s'.errCode = 0 ∧ s'.irqStatus = s.irqStatus := by
      intro s' h'
      simp only [State.hostPart, HostPart.mk.injEq] at h'
      simp [h', hp, hh, hx, he]
    cases begun [.run i] s with
    | done s' h1 h2 h3 =>
      obtain ⟨g1, g2, g3, g4, g5⟩ := host h1
      rw [h2, finish, g2] at h
      simp only [Bool.false_eq_true, if_false] at h
      rw [if_pos ⟨rfl, by rw [he]; exact g4⟩] at h
      have e : ({ s'.complete with phase := s.phase, prog := s.prog, irqStatus := s.irqStatus } : State) = s' := by
        rw [hp, hx, ← g1, ← g3, ← g5]; rfl
      rw [e] at h
      rw [List.map_cons, show Op.run i :: is.map Op.run = [Op.run i] ++ is.map Op.run from rfl, h3]
      exact runSteps_spec is s' t g1 g2 g3 g4 h ht
    | raised r s' h1 h2 h3 =>
      obtain ⟨g1, g2, g3, g4, g5⟩ := host h1
      rw [h2, fail_fresh g2] at h
      simp only at h
      rw [if_neg (fun hc => ErrKind.code_ne r.kind (by rw [he] at hc; exact hc.2))] at h
      rw [List.map_cons, show Op.run i :: is.map Op.run = [Op.run i] ++ is.map Op.run from rfl, h3, fail_fresh g2]
      exact h
    | waits o s' h1 h2 =>
      obtain ⟨g1, g2, g3, g4, g5⟩ := host h1
      rw [h2] at h
      simp only at h
      rw [if_neg (fun hc => by have := hc.1; rw [g3] at this; cases this)] at h
      injection h with h
      rw [← h] at ht
      rw [g3] at ht; cases ht
    | faults f h2 => rw [h2] at h; cases h

/-- ENCODE is its seven steps (44_codec.md R241). -/
theorem encode_steps {s t : State} (hf : s.Fresh) (hx : s.phase = .exec) (he : s.errCode = 0)
    (h : runSteps [.freqClear, .freqAccum, .treeBuild, .treeSerialize, .bbSerialize false, .codeGen, .pack true] s = .next t)
    (ht : t.phase = .idle) : exec .encode s = .next t := by
  rw [exec_ops hf (i := .encode) rfl]
  exact runSteps_spec _ s t hf.1 hf.2 hx he h ht

/-- DECODE is its three steps (44_codec.md R242). -/
theorem decode_steps {s t : State} (hf : s.Fresh) (hx : s.phase = .exec) (he : s.errCode = 0)
    (h : runSteps [.bbDeserialize, .treeDeserialize, .unpack false] s = .next t) (ht : t.phase = .idle) :
    exec .decode s = .next t := by
  rw [exec_ops hf (i := .decode) rfl]
  exact runSteps_spec _ s t hf.1 hf.2 hx he h ht

end Sys2Proof.Machine
end

