-- ==== Sys2Proof/Tests/Slice0.lean ====
section
/-! SUPPORT. Tests/Slice0.lean: small tests. Expected values are those of spec/95_test_vectors.md (V-…, X…,
P…) and of the encodings in spec/30_encoding.md; and for every statement with hypotheses, states and operands
that meet them. -/

namespace Sys2Proof.Tests

open Sys2Proof Sys2Proof.Machine

set_option Elab.async false

/-! ### Well-formedness: one term that each check refuses -/

theorem test_wf_bbCreate : ¬ WellFormed (.bbCreate 65536) := by decide
theorem test_wf_bbSet : ¬ WellFormed (.bbSet 65536) := by decide
theorem test_wf_bbClear : ¬ WellFormed (.bbClear 65536) := by decide
theorem test_wf_bbGet : ¬ WellFormed (.bbGet 65536) := by decide
theorem test_wf_bbResize : ¬ WellFormed (.bbResize 65536) := by decide
theorem test_wf_pqInsert : ¬ WellFormed (.pqInsert 65536) := by decide
theorem test_wf_largest : WellFormed (.pqInsert 65535) ∧ WellFormed .nop ∧ WellFormed (.pack true) := by decide

/-! ### Decoding: words written out as ARG, RSV, F, OP (30_encoding.md R111, R116) -/

theorem test_decode_control :
    decode (0x0000#16 ++ 0b0000000#7 ++ 0#1 ++ 0x00#8) = .ok .nop ∧
    decode (0x0000#16 ++ 0b0000000#7 ++ 0#1 ++ 0x01#8) = .ok .softReset ∧
    decode (0x0000#16 ++ 0b0000000#7 ++ 0#1 ++ 0x02#8) = .ok .inDiscard := by decide
theorem test_decode_bitBuffer :
    decode (0xFFFF#16 ++ 0b0000000#7 ++ 0#1 ++ 0x10#8) = .ok (.bbCreate 65535) ∧
    decode (0x0011#16 ++ 0b0000000#7 ++ 0#1 ++ 0x11#8) = .ok (.bbSet 17) ∧
    decode (0x0000#16 ++ 0b0000000#7 ++ 0#1 ++ 0x12#8) = .ok (.bbClear 0) ∧
    decode (0x000F#16 ++ 0b0000000#7 ++ 0#1 ++ 0x13#8) = .ok (.bbGet 15) ∧
    decode (0x000A#16 ++ 0b0000000#7 ++ 0#1 ++ 0x14#8) = .ok (.bbResize 10) ∧
    decode (0x0000#16 ++ 0b0000000#7 ++ 1#1 ++ 0x15#8) = .ok (.bbSerialize true) ∧
    decode (0x0000#16 ++ 0b0000000#7 ++ 0#1 ++ 0x16#8) = .ok .bbDeserialize := by decide
theorem test_decode_queue :
    decode (0x0000#16 ++ 0b0000000#7 ++ 0#1 ++ 0x20#8) = .ok .pqClear ∧
    decode (0x0006#16 ++ 0b0000000#7 ++ 0#1 ++ 0x21#8) = .ok (.pqInsert 6) ∧
    decode (0x0000#16 ++ 0b0000000#7 ++ 0#1 ++ 0x22#8) = .ok .pqExtract := by decide
theorem test_decode_tree :
    decode (0x0000#16 ++ 0b0000000#7 ++ 0#1 ++ 0x30#8) = .ok .treeBuild ∧
    decode (0x0000#16 ++ 0b0000000#7 ++ 0#1 ++ 0x31#8) = .ok .treeDestroy ∧
    decode (0x0000#16 ++ 0b0000000#7 ++ 0#1 ++ 0x32#8) = .ok .treeSerialize ∧
    decode (0x0000#16 ++ 0b0000000#7 ++ 0#1 ++ 0x33#8) = .ok .treeDeserialize := by decide
theorem test_decode_codec :
    decode (0x0000#16 ++ 0b0000000#7 ++ 0#1 ++ 0x40#8) = .ok .freqClear ∧
    decode (0x0000#16 ++ 0b0000000#7 ++ 0#1 ++ 0x41#8) = .ok .freqAccum ∧
    decode (0x0000#16 ++ 0b0000000#7 ++ 0#1 ++ 0x42#8) = .ok .codeGen ∧
    decode (0x0000#16 ++ 0b0000000#7 ++ 1#1 ++ 0x43#8) = .ok (.pack true) ∧
    decode (0x0000#16 ++ 0b0000000#7 ++ 1#1 ++ 0x44#8) = .ok (.unpack true) ∧
    decode (0x0000#16 ++ 0b0000000#7 ++ 0#1 ++ 0x48#8) = .ok .encode ∧
    decode (0x0000#16 ++ 0b0000000#7 ++ 0#1 ++ 0x49#8) = .ok .decode := by decide
/-- V-D1 to V-D8. -/
theorem test_decode_illegal :
    [0x00000003#32, 0x00000100#32, 0x00010040#32, 0x00000111#32, 0x00000211#32, 0x00010015#32, 0x000000FF#32,
      0x00000080#32, 0x00000045#32, 0x0000004A#32].map (fun w => (decode w).toOption) = List.replicate 10 none := by
  decide +kernel

/-! ### One step of each command -/

/-- The clean-entry state (70_reset_and_hazards.md R315) with a command accepted, beats offered and room for
output. -/
def cleanExec (q : List Beat) (k : Nat) : State := { State.reset with phase := .exec, inQ := q, outReady := k }

/-- One part of the next state. -/
def next {α : Type} (o : Host.Outcome State Fault Refusal) (f : State → α) : Option α :=
  match o with
  | .next s => some (f s)
  | .fault _ => none
  | .refused _ => none

/-- The detail of an abort. -/
def failure (s : State) : Phase × BitVec 4 × Word × BitVec 4 := (s.phase, s.errCode, s.errInfo, s.irqStatus)

/-- The tree of X3 and its codes (V-E3): A = 0, C = 10, B = 11. -/
def abcTree (s : State) : State :=
  { s with
    node := [(0, ⟨true, false, 0x41, 0, 0, 5⟩), (1, ⟨true, false, 0x42, 0, 0, 3⟩), (2, ⟨true, false, 0x43, 0, 0, 2⟩),
      (3, ⟨false, false, 0, 2, 1, 5⟩), (4, ⟨false, false, 0, 0, 3, 10⟩)]
    nodeCount := 5, root := 4, treeValid := true
    code := [(0x41, ⟨1, 0⟩), (0x42, ⟨2, 3#255 <<< 253⟩), (0x43, ⟨2, 2#255 <<< 253⟩)], codeValid := true }

/-- V-C1 -/
theorem test_nop : next (exec .nop (cleanExec [] 0)) failure = some (.idle, 0, 0, 1) := by decide
/-- V-C2 -/
theorem test_softReset : next (exec .softReset { abcTree (cleanExec [] 0) with ctrl := 7, result := 1, tbLen := 29 })
    (fun s => (s.ctrl, s.result, s.tbLen, s.nodeCount, s.statusWord 0)) = some (7, 0, 0, 0, 0x10) := by decide +kernel
/-- V-C3, and P5: the six beats left of a message. -/
theorem test_inDiscard : next (exec .inDiscard { cleanExec (messageOf [0, 0, 0, 0, 0, 0] ++ messageOf [1]) 0 with
    inEom := false }) (fun s => (s.inCount, s.inEom, s.inQ)) = some (6, true, messageOf [1]) := by decide +kernel
/-- V-B10 -/
theorem test_bbCreate_alloc : next (exec (.bbCreate 2561) (cleanExec [] 0)) failure = some (.idle, 1, 2561, 2) := by
  decide
/-- V-B9 -/
theorem test_bbCreate : next (exec (.bbCreate 2560) (cleanExec [] 0)) (·.tbLen) = some 2560 := by decide
/-- X1 -/
theorem test_bbSet : next (exec (.bbSet 17) { cleanExec [] 0 with tbLen := 20 })
    (fun s => (tbBucket s.tb 0, tbBucket s.tb 1)) = some (0, 0x4000) := by decide +kernel
/-- V-B13 -/
theorem test_bbClear : next (exec (.bbClear 0) { cleanExec [] 0 with tbLen := 20, tb := tbOfBuckets 0 [0x8001, 0x8000] })
    (fun s => (tbBucket s.tb 0, tbBucket s.tb 1)) = some (1, 0x8000) := by decide +kernel
/-- V-B3 -/
theorem test_bbGet : next (exec (.bbGet 15) { cleanExec [] 0 with tbLen := 20, tb := tbOfBuckets 0 [0x8001, 0x8000] })
    (·.result) = some 1 := by decide +kernel
/-- V-B4 -/
theorem test_bbGet_outside : next (exec (.bbGet 20) { cleanExec [] 0 with tbLen := 20 }) failure =
    some (.idle, 2, 20, 2) := by decide
/-- V-B5 -/
theorem test_bbResize : next (exec (.bbResize 10)
    { cleanExec [] 0 with tbLen := 20, tb := tbOfBuckets 0 [0x8001, 0x8000] })
    (fun s => (s.tbLen, tbBucket s.tb 0, tbBucket s.tb 1)) = some (10, 0x8000, 0) := by decide +kernel
/-- V-B6 -/
theorem test_bbSerialize : next (exec (.bbSerialize true)
    { cleanExec [] 11 with tbLen := 20, tb := tbOfBuckets 0 [0x8001, 0x8000] })
    (fun s => (s.outLog, s.outCount)) =
    some ([0x14, 0, 0, 0, 0x01, 0x80, 0x00, 0x80, 0, 0].map dataBeat ++ [endBeat], 10) := by decide +kernel
/-- V-B7 -/
theorem test_bbSerialize_be : next (exec (.bbSerialize true)
    { cleanExec [] 11 with tbLen := 20, tb := tbOfBuckets 0 [0x8001, 0x8000], wireBe := true }) (·.outLog) =
    some ([0, 0, 0, 0x14, 0x80, 0x01, 0x80, 0x00, 0, 0].map dataBeat ++ [endBeat]) := by decide +kernel
/-- V-B14 -/
theorem test_bbDeserialize : next (exec .bbDeserialize (cleanExec (messageOf [3, 0, 0, 0, 0xFF, 0xFF, 0, 0]) 0))
    (fun s => (s.tbLen, tbBucket s.tb 0, s.inEom, s.inCount)) = some (3, 0xE000, true, 8) := by decide +kernel
/-- V-B17; and 41_bitbuffer.md R160 with D13: a message that ends between two integers, the next one untouched. -/
theorem test_bbDeserialize_short :
    next (exec .bbDeserialize (cleanExec (messageOf [5, 0, 0, 0, 0xAA]) 0)) failure = some (.idle, 6, 5, 2) ∧
    next (exec .bbDeserialize (cleanExec (messageOf [5, 0, 0, 0, 0xAA, 0xBB] ++ messageOf [1, 2]) 0))
      (fun s => (failure s, s.inQ)) = some ((.idle, 6, 6, 2), messageOf [1, 2]) := by decide +kernel
/-- V-Q8 -/
theorem test_pqClear : next (exec .pqClear { abcTree (cleanExec [] 0) with pqSize := 3 })
    (fun s => (s.pqSize, s.nodeCount, s.treeValid)) = some (0, 5, true) := by decide
/-- X3: insert 2 (2 < 3: sift up) gives [2, 0, 1]. -/
theorem test_pqInsert : next (exec (.pqInsert 2) { abcTree (cleanExec [] 0) with heap := [(0, 1)], pqSize := 2 })
    (fun s => (heapItems s.heap 3, s.pqSize)) = some ([2, 0, 1], 3) := by decide +kernel
/-- V-Q6: the bounds check comes first. -/
theorem test_pqInsert_outside : next (exec (.pqInsert 9) { abcTree (cleanExec [] 0) with pqSize := 256 }) failure =
    some (.idle, 2, 9, 2) := by decide
/-- X3: extract gives 2 and leaves [1, 0]. -/
theorem test_pqExtract : next (exec .pqExtract { abcTree (cleanExec [] 0) with heap := [(0, 2), (2, 1)], pqSize := 3 })
    (fun s => (s.result, heapItems s.heap 2, s.pqSize)) = some (2, [1, 0], 2) := by decide +kernel
/-- V-Q3 -/
theorem test_pqExtract_empty : next (exec .pqExtract (cleanExec [] 0)) failure = some (.idle, 3, 0, 2) := by decide
/-- X3, V-T1 -/
theorem test_treeBuild : next (exec .treeBuild { cleanExec [] 0 with freq := [(0x41, 5), (0x42, 3), (0x43, 2)] })
    (fun s => (s.node, s.nodeCount, s.root)) =
    some ((abcTree State.reset).node, 5, 4) := by decide +kernel
/-- V-T2: four equal counts; the tie rules decide the shape. -/
theorem test_treeBuild_ties : next (exec .treeBuild { cleanExec [] 0 with freq := [(0x41, 1), (0x42, 1), (0x43, 1), (0x44, 1)] })
    (fun s => ((List.range 7).map (fun i => (nodeAt s.node (BitVec.ofNat 9 i)).word0), s.root)) =
    some ([0x81040000, 0x81080000, 0x810C0000, 0x81100000, 0x00000600, 0x00000202, 0x00000A04], 6) := by decide +kernel
/-- X5: the single-symbol tree. -/
theorem test_treeBuild_single : next (exec .treeBuild { cleanExec [] 0 with freq := [(0x41, 1000)] })
    (fun s => ((List.range 3).map (fun i => (nodeAt s.node (BitVec.ofNat 9 i)).word0), s.root)) =
    some ([0x81040000, 0xC1000000, 0x00000200], 2) := by decide +kernel
/-- 43_tree.md R203, R208 -/
theorem test_treeDestroy : next (exec .treeDestroy (abcTree (cleanExec [] 0)))
    (fun s => (s.nodeCount, s.root, s.treeValid, s.codeValid)) = some (0, 0, false, false) := by decide
/-- P1: TB words 0x5054, 0x3A10, 0. -/
theorem test_treeSerialize : next (exec .treeSerialize (abcTree (cleanExec [] 0)))
    (fun s => (s.tbLen, tbBucket s.tb 0, tbBucket s.tb 1, tbBucket s.tb 2)) = some (29, 0x5054, 0x3A10, 0) := by
  decide +kernel
/-- P2: the nodes in pre-order. -/
theorem test_treeDeserialize : next (exec .treeDeserialize
    { cleanExec [] 0 with tbLen := 29, tb := tbOfBuckets 0 [0x5054, 0x3A10] })
    (fun s => ((List.range 5).map (fun i => (nodeAt s.node (BitVec.ofNat 9 i)).word0), s.root)) =
    some ([0x401, 0x81040000, 0x803, 0x810C0000, 0x81080000], 0) := by decide +kernel
/-- V-E26 -/
theorem test_freqClear : next (exec .freqClear { cleanExec [] 0 with freq := [(0x41, 2)], freqTotal := 2 })
    (fun s => (freqAt s.freq 0x41, s.freqTotal)) = some (0, 0) := by decide
/-- V-E25 -/
theorem test_freqAccum : next (exec .freqAccum { cleanExec (messageOf [0x41]) 0 with
    freq := [(0x41, 1), (0x42, 1)], freqTotal := 2 })
    (fun s => (freqAt s.freq 0x41, freqAt s.freq 0x42, s.freqTotal)) = some (2, 1, 3) := by decide +kernel
/-- V-E24 -/
theorem test_freqAccum_overflow : next (exec .freqAccum { cleanExec (messageOf [0x41]) 0 with freq := [(0x41, 0xFFFFFFFF)] })
    failure = some (.idle, 7, 0x41, 2) := by decide +kernel
/-- V-E3 -/
theorem test_codeGen : next (exec .codeGen { abcTree (cleanExec [] 0) with code := [], codeValid := false })
    (fun s => (s.code, s.codeValid)) = some ((abcTree State.reset).code, true) := by decide +kernel
/-- V-E27 -/
theorem test_codeGen_sequence : next (exec .codeGen (cleanExec [] 0)) failure = some (.idle, 8, 0, 2) := by decide
/-- V-E7 -/
theorem test_pack : next (exec (.pack false) (abcTree (cleanExec (messageOf [0x43, 0x41, 0x42]) 1))) (·.outLog) =
    some [dataBeat 0x98] := by decide +kernel
/-- V-E11 -/
theorem test_pack_unmapped : next (exec (.pack false) (abcTree (cleanExec (messageOf [0x44]) 1))) failure =
    some (.idle, 5, 0x44, 2) := by decide +kernel
/-- V-E13 -/
theorem test_unpack : next (exec (.unpack true) (abcTree (cleanExec (messageOf [0x01]) 8)))
    (fun s => (s.outLog, s.tailPartial)) =
    some ((List.replicate 7 0x41).map dataBeat ++ [endBeat], true) := by decide +kernel
/-- V-E16 -/
theorem test_unpack_limit : next (exec (.unpack true) { abcTree (cleanExec (messageOf [0x39]) 8) with limitEn := true })
    (fun s => (s.outLog, s.limitHit, s.inCount)) = some ([endBeat], true, 1) := by decide +kernel
/-- P1 -/
theorem test_encode : next (exec .encode (cleanExec
    (messageOf [0x41, 0x41, 0x41, 0x41, 0x41, 0x42, 0x42, 0x42, 0x43, 0x43] ++
     messageOf [0x41, 0x41, 0x41, 0x41, 0x41, 0x42, 0x42, 0x42, 0x43, 0x43]) 13))
    (fun s => (s.outLog, s.inCount, s.statusWord 0)) =
    some ([0x1D, 0, 0, 0, 0x54, 0x50, 0x10, 0x3A, 0, 0, 0x07, 0xF4].map dataBeat ++ [endBeat], 20, 0x1C) := by
  decide +kernel
/-- V-E22 -/
theorem test_encode_unmapped : next (exec .encode (cleanExec (messageOf [0x41, 0x42] ++ messageOf [0x41, 0x43]) 20))
    (fun s => (s.outLog, s.errCode, s.errInfo, s.inCount)) =
    some ([0x13, 0, 0, 0, 0x68, 0x50, 0x00, 0x40, 0, 0].map dataBeat, 5, 0x43, 4) := by decide +kernel
/-- V-E5 -/
theorem test_decode : next (exec .decode (cleanExec
    (messageOf [0x1D, 0, 0, 0, 0x54, 0x50, 0x10, 0x3A, 0, 0, 0x07, 0xF4]) 12))
    (fun s => (s.outLog, s.statusWord 0)) =
    some ([0x41, 0x41, 0x41, 0x41, 0x41, 0x42, 0x42, 0x42, 0x43, 0x43, 0x41].map dataBeat ++ [endBeat], 0x14) := by
  decide +kernel
/-- P2: with the symbol limit. -/
theorem test_decode_limit : next (exec .decode { cleanExec
    (messageOf [0x1D, 0, 0, 0, 0x54, 0x50, 0x10, 0x3A, 0, 0, 0x07, 0xF4]) 12 with limitEn := true, symLimitL := 10 })
    (fun s => (s.outLog.map (·.data), s.statusWord 0)) =
    some ([0x41, 0x41, 0x41, 0x41, 0x41, 0x42, 0x42, 0x42, 0x43, 0x43, 0x00], 0x54) := by decide +kernel

/-! ### Host turns and the step -/

/-- An idle state in which the host presents an access. -/
def presenting (a : BusReq) : State := { State.reset with phase := .idle, sched := [.access a] }

/-- V-U1 -/
theorem test_bus_unaligned : next (step (presenting (readOf 0x002 0))) (fun s => (s.busRsp, s.irqStatus)) =
    some (some ⟨0, true⟩, 8) := by decide
/-- V-U7 -/
theorem test_bus_ctrl : next (step (presenting (writeOf 0x008 0xFFFFFFFF))) (·.ctrl) = some 7 := by decide
/-- V-U9 -/
theorem test_bus_w1c : next (step { presenting (writeOf 0x024 0xF) with irqStatus := 9 }) (·.irqStatus) = some 0 := by
  decide
/-- V-U8 -/
theorem test_bus_freq : next (step (presenting (writeOf 0x440 7))) (fun s => (freqAt s.freq 0x10, s.freqTotal)) =
    some (7, 0) := by decide
/-- V-C5: the write is dropped. -/
theorem test_bus_dropped : next (step { presenting (writeOf 0x010 0) with phase := .exec, cmd := 0x41 })
    (fun s => (s.irqStatus, s.cmd, s.busRsp)) = some (4, 0x41, some ⟨0, false⟩) := by decide
/-- V-D1 -/
theorem test_step_illegal : next (step (State.reset.withFetchWord 32 3)) failure = some (.idle, 9, 3, 2) := by decide
/-- 70_reset_and_hazards.md R310, R311: also after an access in INIT that has set BUS_ERR. -/
theorem test_step_init : next (step State.reset) (fun s => s.statusWord 0) = some 0x10 ∧
    next (step { State.reset with irqStatus := 8, busRsp := some ⟨0, true⟩, sched := [.core false] })
      (fun s => (s.phase, s.irqStatus, s.busRsp)) = some (.idle, 0, some ⟨0, true⟩) := by decide

/-! ### States and operands that meet the hypotheses of the statements, clause by clause -/

theorem fresh (q : List Beat) (k : Nat) : (cleanExec q k).Fresh := ⟨rfl, rfl⟩

/-- A next state of which something is known. -/
theorem next_some {α : Type} {o : Host.Outcome State Fault Refusal} {f : State → α} {a : α} (h : next o f = some a) :
    ∃ t, o = .next t ∧ f t = a := by
  cases o with
  | next s => exact ⟨s, rfl, by simpa [next] using h⟩
  | fault _ => simp [next] at h
  | refused _ => simp [next] at h

theorem test_meets_DecodedWordEncodesBack : Sys2Proof.decode 0xFFFF0021#32 = .ok (.pqInsert 65535) := by decide

/-- A core turn: with nothing scheduled, and as the schedule says. -/
theorem test_meets_StepRunsDecodedCommand :
    (∃ s s1 : State, s.CoreTurn s1 ∧ s.rstN = true ∧ s.phase = .exec ∧ Sys2Proof.decode s.cmd = .ok .nop) ∧
    (∃ s s1 : State, s.CoreTurn s1 ∧ s1.hold = true ∧ s.rstN = true ∧ s.phase = .exec ∧
      Sys2Proof.decode s.cmd = .ok .decode) :=
  ⟨⟨cleanExec [] 0, cleanExec [] 0, .inl ⟨rfl, rfl, rfl⟩, rfl, rfl, rfl⟩,
   ⟨{ cleanExec [] 0 with sched := [.core true], cmd := 0x49 }, _, .inr ⟨true, [], rfl, rfl⟩, rfl, rfl, rfl, rfl⟩⟩
/-- An ILLEGAL word, in a turn that may end and in a held one. -/
theorem test_meets_IllegalWordAborts : ∀ hold, ∃ (s s1 : State) (why : Illegal), s.CoreTurn s1 ∧ s.rstN = true ∧
    s.phase = .exec ∧ Sys2Proof.decode s.cmd = .error why ∧ s1.hold = hold :=
  fun hold => ⟨{ cleanExec [] 0 with cmd := 3, sched := [.core hold] }, _, _, .inr ⟨hold, [], rfl, rfl⟩, rfl, rfl, rfl, rfl⟩

/-- An access is presented. -/
theorem presents (a : BusReq) : (presenting a).Presents a [] := ⟨rfl, rfl, rfl⟩
theorem presents_exec (a : BusReq) : { presenting a with phase := .exec }.Presents a [] := ⟨rfl, rfl, rfl⟩
theorem presents_init (a : BusReq) : { presenting a with phase := .init }.Presents a [] := ⟨rfl, rfl, rfl⟩

theorem test_meets_CmdWrites :
    ((presenting (writeOf 0x010 0)).Presents (writeOf 0x010 0) [] ∧ (presenting (writeOf 0x010 0)).phase = .idle) ∧
    (∃ s : State, s.Presents (writeOf 0x010 0) [] ∧ s.phase = .exec) ∧
    ∃ s : State, s.Presents (writeOf 0x010 0) [] ∧ s.phase = .init :=
  ⟨⟨presents _, rfl⟩, ⟨_, presents_exec _, rfl⟩, ⟨_, presents_init _, rfl⟩⟩

/-- FREQ_ACCUM with nothing offered waits inside `in_take`. -/
theorem test_meets_waitForInput : ∃ t, exec .freqAccum (cleanExec [] 0) = .next t ∧ t.phase = .exec ∧
    t.prog = some [.accum] := by
  obtain ⟨t, h, e⟩ := next_some (f := fun s => (s.phase, s.prog)) (a := (.exec, some [.accum]))
    (o := exec .freqAccum (cleanExec [] 0)) (by decide)
  exact ⟨t, h, congrArg (·.1) e, congrArg (·.2) e⟩
/-- BB_SERIALIZE with the host not ready waits inside `out_put`. -/
theorem test_meets_waitForOutput : ∃ t, exec (.bbSerialize false) (cleanExec [] 0) = .next t ∧ t.phase = .exec := by
  obtain ⟨t, h, e⟩ := next_some (f := fun s => s.phase) (a := .exec)
    (o := exec (.bbSerialize false) (cleanExec [] 0)) (by decide +kernel)
  exact ⟨t, h, e⟩
theorem test_meets_CommandReadsOnlyLatchedConfiguration : ∃ t, exec .nop (cleanExec [] 0) = .next t := ⟨_, rfl⟩
theorem test_meets_HeldTurnOnlyDelays : ∃ s t : State, s.phase = .exec ∧ s.hold = true ∧ exec .nop s = .next t :=
  ⟨{ cleanExec [] 0 with hold := true }, _, rfl, rfl, rfl⟩
theorem test_meets_WaitingCoreHoldsAllState :
    (∃ s s1 : State, s.CoreTurn s1 ∧ s.rstN = true ∧ s.phase = .idle) ∧
    (∃ s s1 : State, s.CoreTurn s1 ∧ s.rstN = true ∧ s.phase = .exec ∧ Sys2Proof.decode s.cmd = .ok .freqAccum ∧
      s.prog = some [.accum] ∧ Op.accum.takesInput = true ∧ s.inQ = [] ∧ s.inEom = false) ∧
    ∃ s s1 : State, s.CoreTurn s1 ∧ s.rstN = true ∧ s.phase = .exec ∧
      Sys2Proof.decode s.cmd = .ok (.unpack false) ∧ s.prog = some [.putEnd] ∧ Op.putEnd.offers.isSome = true ∧
      s.outReady = 0 :=
  ⟨⟨{ State.reset with phase := .idle }, _, .inl ⟨rfl, rfl, rfl⟩, rfl, rfl⟩,
   ⟨{ cleanExec [] 0 with cmd := 0x41, prog := some [.accum], inEom := false }, _, .inl ⟨rfl, rfl, rfl⟩, rfl, rfl, rfl,
     rfl, rfl, rfl, rfl⟩,
   ⟨{ cleanExec [] 0 with cmd := 0x44, prog := some [.putEnd] }, _, .inl ⟨rfl, rfl, rfl⟩, rfl, rfl, rfl, rfl, rfl, rfl⟩⟩

theorem test_meets_reset :
    (∃ s : State, s.sched = [.rst false]) ∧
    (∃ s s1 : State, s.CoreTurn s1 ∧ s.phase = .init ∧ s.rstN = true ∧ s1.hold = false) ∧
    (∃ s s1 : State, s.CoreTurn s1 ∧ s.phase = .init ∧ s.rstN = false) ∧
    ∃ s s1 : State, s.CoreTurn s1 ∧ s.phase = .init ∧ s1.hold = true :=
  ⟨⟨{ State.reset with sched := [.rst false] }, rfl⟩, ⟨State.reset, State.reset, .inl ⟨rfl, rfl, rfl⟩, rfl, rfl, rfl⟩,
   ⟨{ State.reset with rstN := false }, _, .inl ⟨rfl, rfl, rfl⟩, rfl, rfl⟩,
   ⟨{ State.reset with sched := [.core true] }, _, .inr ⟨true, [], rfl, rfl⟩, rfl, rfl⟩⟩

/-- The five cases of 20_memory.md R78 at the ends of their ranges. -/
theorem test_meets_RefusedAccessSetsBusErrOnly :
    (∀ a ∈ [readOf 0x001 0, readOf 0x7FFF 0, readOf 0x048 0, readOf 0x3FC 0, readOf 0xC00 0, readOf 0xFFC 0,
        readOf 0x2284 0, readOf 0x3FFC 0, writeOf 0x000 0, writeOf 0x044 0, writeOf 0x800 0, writeOf 0x7FFC 0],
      (presenting a).Presents a [] ∧ (presenting a).Refuses a) ∧
    (∀ a ∈ [readOf 0x400 0, writeOf 0x7FC 0, readOf 0x7FFC 0],
      { presenting a with phase := .exec }.Presents a [] ∧ { presenting a with phase := .exec }.Refuses a) ∧
    ∀ a ∈ [readOf 0x008 0, writeOf 0x010 0, readOf 0x044 0],
      { presenting a with phase := .init }.Presents a [] ∧ { presenting a with phase := .init }.Refuses a := by
  refine ⟨fun a ha => ⟨presents a, ?_⟩, fun a ha => ⟨presents_exec a, ?_⟩, fun a ha => ⟨presents_init a, ?_⟩⟩
  all_goals
    simp only [List.mem_cons, List.not_mem_nil, or_false] at ha
    rcases ha with rfl | rfl | rfl | rfl | rfl | rfl | rfl | rfl | rfl | rfl | rfl | rfl
  all_goals unfold State.Refuses; decide
theorem test_meets_OtherAccessesArePerformed :
    (∀ a ∈ [readOf 0x000 0, readOf 0x044 0, writeOf 0x028 0, readOf 0x400 0, writeOf 0x7FC 0, readOf 0xBFC 0,
        readOf 0x1000 0, readOf 0x2280 0, readOf 0x4000 0, readOf 0x7FFC 0],
      (presenting a).Presents a [] ∧ ¬ (presenting a).Refuses a) ∧
    ∀ a ∈ [readOf 0x000 0, readOf 0x014 0],
      { presenting a with phase := .init }.Presents a [] ∧ ¬ { presenting a with phase := .init }.Refuses a := by
  refine ⟨fun a ha => ⟨presents a, ?_⟩, fun a ha => ⟨presents_init a, ?_⟩⟩
  all_goals
    simp only [List.mem_cons, List.not_mem_nil, or_false] at ha
    rcases ha with rfl | rfl | rfl | rfl | rfl | rfl | rfl | rfl | rfl | rfl
  all_goals unfold State.Refuses; decide

/-- Every register and every window word of the statements can be presented in the phase they ask for. -/
theorem test_meets_busReads :
    (∀ addr w, (presenting (readOf addr w)).Presents (readOf addr w) [] ∧ (presenting (readOf addr w)).phase = .idle) ∧
    (∀ addr w, ∃ s : State, s.Presents (readOf addr w) [] ∧ s.phase = .exec ∧ s.phase ≠ .init) ∧
    (∀ addr w, ∃ s : State, s.Presents (readOf addr w) [] ∧ s.phase = .init) ∧
    (∀ addr v, (presenting (writeOf addr v)).Presents (writeOf addr v) [] ∧ (presenting (writeOf addr v)).phase = .idle ∧
      Memory.wf 0 Config.symbols (presenting (writeOf addr v)).freq = true) :=
  ⟨fun _ _ => ⟨presents _, rfl⟩, fun _ _ => ⟨_, presents_exec _, rfl, fun h => (by cases h)⟩, fun _ _ => ⟨_, presents_init _, rfl⟩,
   fun _ _ => ⟨presents _, rfl, rfl⟩⟩
/-- The interrupt output is on with an enabled source, off without one, and off while rst_n = 0. -/
theorem test_meets_irq :
    (∃ s : State, s.rstN = true ∧ s.irq = true) ∧ (∃ s : State, s.rstN = true ∧ s.irq = false) ∧
    ∃ s : State, s.rstN = false ∧ s.irqStatus &&& s.irqEnable ≠ 0 :=
  ⟨⟨{ State.reset with irqStatus := 9, irqEnable := 8 }, rfl, by decide⟩, ⟨State.reset, rfl, rfl⟩,
   ⟨{ State.reset with rstN := false, irqStatus := 8, irqEnable := 8 }, rfl, by decide⟩⟩
theorem test_meets_HostTurnsDoTheirPart :
    (∃ (s : State) (a : BusReq) (r : BusRsp), s.sched = [.access a] ∧ s.busRsp = some r) ∧
    (∃ (s : State) (a : BusReq), s.sched = [.access a] ∧ s.busRsp = none ∧ s.rstN = false) ∧
    (∃ (s : State) (r : BusRsp), s.sched = [.respond] ∧ s.busRsp = some r) ∧
    (∃ s : State, s.sched = [.respond] ∧ s.busRsp = none) ∧
    (∃ (s : State) (r : BusRsp), s.sched = [] ∧ s.busRsp = some r) ∧
    (∃ (s : State) (b : Beat), s.sched = [.offer b]) ∧ (∃ s : State, s.sched = [.ready]) ∧
    ∃ s : State, s.sched = [.rst true] :=
  ⟨⟨{ presenting (readOf 0 0) with busRsp := some ⟨1, false⟩ }, _, _, rfl, rfl⟩,
   ⟨{ presenting (readOf 0 0) with rstN := false }, _, rfl, rfl, rfl⟩,
   ⟨{ State.reset with sched := [.respond], busRsp := some ⟨1, false⟩ }, _, rfl, rfl⟩,
   ⟨{ State.reset with sched := [.respond] }, rfl, rfl⟩, ⟨{ State.reset with busRsp := some ⟨1, false⟩ }, _, rfl, rfl⟩,
   ⟨{ State.reset with sched := [.offer endBeat] }, _, rfl⟩, ⟨{ State.reset with sched := [.ready] }, rfl⟩,
   ⟨{ State.reset with sched := [.rst true] }, rfl⟩⟩

theorem isMessage_one (b : Byte) : IsMessage (messageOf [b]) := rfl
theorem isMessage_none : IsMessage (messageOf []) := rfl

theorem test_meets_InDiscardDrainsTheOpenMessage :
    (∃ s : State, s.Fresh ∧ s.inEom = true) ∧
    ∃ (s : State) (q rest : List Beat), s.Fresh ∧ s.inEom = false ∧ IsMessage q ∧ s.inQ = q ++ rest :=
  ⟨⟨_, fresh [] 0, rfl⟩, ⟨{ cleanExec (messageOf [7]) 0 with inEom := false }, messageOf [7], [], ⟨rfl, rfl⟩, rfl, rfl, rfl⟩⟩

/-- BB_CREATE, BB_SET, BB_CLEAR, BB_GET and BB_RESIZE at the ends of their ranges. -/
theorem test_meets_bitCommands : ∃ s : State, s.Fresh ∧ s.tbLen.toNat ≤ 2560 ∧
    (2560 < 65536 ∧ 2560 ≤ 2560) ∧ (2561 < 65536 ∧ 2560 < 2561) ∧ (65535 < 65536 ∧ 2560 < 65535) ∧
    (2559 < 65536 ∧ 2559 < s.tbLen.toNat) ∧ (2560 < 65536 ∧ s.tbLen.toNat ≤ 2560) :=
  ⟨{ cleanExec [] 0 with tbLen := 2560 }, ⟨rfl, rfl⟩, by decide⟩
theorem test_meets_BbResizeKeepsWhatStaysCovered : ∃ s : State, s.Fresh ∧ s.tbLen.toNat ≤ 2560 ∧ s.tbLen.toNat < 2560 ∧
    tbGet s.tb 2 = true ∧ ∀ i, s.tbLen.toNat ≤ i → tbGet s.tb i = false := by
  refine ⟨{ cleanExec [] 0 with tbLen := 3, tb := tbKeep (tbOfBuckets 0 [0xFFFF]) 3 }, ⟨rfl, rfl⟩, by decide, by decide,
    by decide +kernel, fun i hi => ?_⟩
  have hi : 3 ≤ i := hi
  rw [tbGet_tbKeep _ _ _ (by decide)]
  simp [Nat.not_lt.2 hi]
theorem test_meets_BbSerializeEmitsTheHeader : ∃ (s : State) (f : Bool), s.Fresh ∧ s.tbLen.toNat ≤ 2560 ∧
    4 + 2 * ((s.tbLen.toNat + 15) / 16 + 1) + f.toNat ≤ s.outReady :=
  ⟨{ cleanExec [] 327 with tbLen := 2560 }, true, ⟨rfl, rfl⟩, by decide, by decide⟩

theorem carries_message (ds : List Byte) (h : ds ≠ []) : Carries (messageOf ds) ds := by
  induction ds with
  | nil => exact absurd rfl h
  | cons d ds ih =>
    cases ds with
    | nil => exact ⟨rfl, by simp [messageOf], ⟨d, true, false⟩, rfl, rfl⟩
    | cons e es =>
      obtain ⟨h1, h2, b, h3, h4⟩ := ih (by simp)
      have hm : messageOf (d :: e :: es) = ⟨d, false, false⟩ :: messageOf (e :: es) := rfl
      have hne : messageOf (e :: es) ≠ [] := fun h0 => by rw [h0] at h3; simp at h3
      refine ⟨by rw [hm, payload_cons, h1]; rfl, ?_, b, ?_, h4⟩
      · intro x hx
        rw [hm, List.dropLast_cons_of_ne_nil hne] at hx
        rcases List.mem_cons.1 hx with rfl | hx
        · rfl
        · exact h2 x hx
      · rw [hm, List.getLast?_cons, h3]; rfl

theorem test_meets_BbDeserializeLoadsAHeader : ∃ (s : State) (n : Nat) (vs : List (BitVec 16)) (q rest : List Beat),
    s.Fresh ∧ n ≤ 2560 ∧ vs.length = (n + 15) / 16 + 1 ∧ s.inQ = q ++ rest ∧
    Carries q (wrInt s.wireBe 4 n ++ vs.flatMap (fun v => wrInt s.wireBe 2 v.toNat)) :=
  ⟨cleanExec (messageOf (wrInt false 4 0 ++ wrInt false 2 7)) 0, 0, [7], _, [], ⟨rfl, rfl⟩, by decide, rfl,
    (List.append_nil _).symm, carries_message _ (by decide)⟩
theorem test_meets_BbDeserializeRejectsBadHeaders :
    (∃ (s : State) (q rest : List Beat) (n : Nat), s.Fresh ∧ s.inQ = q ++ rest ∧ 2560 < n ∧ n < 2 ^ 32 ∧
      Carries q (wrInt s.wireBe 4 n)) ∧
    (∃ (s : State) (q rest : List Beat), s.Fresh ∧ s.inQ = q ++ rest ∧ IsMessage q ∧ (payload q).length < 4) ∧
    (∃ (s : State) (q rest : List Beat) (n : Nat) (ds : List Byte), s.Fresh ∧ s.inQ = q ++ rest ∧ n ≤ 2560 ∧ IsMessage q ∧
      payload q = wrInt s.wireBe 4 n ++ ds ∧ ds.length < 2 * ((n + 15) / 16 + 1) ∧ ds.length % 2 = 1) ∧
    ∃ (s : State) (q rest : List Beat) (n : Nat) (ds : List Byte), s.Fresh ∧ s.inQ = q ++ rest ∧ n ≤ 2560 ∧ IsMessage q ∧
      payload q = wrInt s.wireBe 4 n ++ ds ∧ ds.length + 2 = 2 * ((n + 15) / 16 + 1) :=
  ⟨⟨cleanExec (messageOf (wrInt false 4 2561)) 0, _, [], 2561, ⟨rfl, rfl⟩, (List.append_nil _).symm, by decide, by decide,
     carries_message _ (by decide)⟩,
   ⟨cleanExec (messageOf []) 0, messageOf [], [], ⟨rfl, rfl⟩, rfl, rfl, by decide⟩,
   ⟨cleanExec (messageOf [5, 0, 0, 0, 0xAA]) 0, messageOf [5, 0, 0, 0, 0xAA], [], 5, [0xAA], ⟨rfl, rfl⟩, rfl, by decide,
     ⟨rfl, rfl, rfl, rfl, rfl⟩, by decide, by decide, rfl⟩,
   ⟨cleanExec (messageOf [5, 0, 0, 0, 0xAA, 0xBB]) 0, messageOf [5, 0, 0, 0, 0xAA, 0xBB], [], 5, [0xAA, 0xBB], ⟨rfl, rfl⟩, rfl,
     by decide, ⟨rfl, rfl, rfl, rfl, rfl, rfl⟩, by decide, rfl⟩⟩
theorem test_meets_HeaderRoundTripRestoresTheBuffer :
    (∃ s : State, s.Fresh ∧ s.tbLen.toNat ≤ 2560 ∧ (∀ i, s.tbLen.toNat ≤ i → tbGet s.tb i = false) ∧ 327 ≤ s.outReady) ∧
    ∀ (s : State) (bytes : List Byte), bytes ≠ [] → ∃ (u : State) (q rest : List Beat), u.Fresh ∧ u.wireBe = s.wireBe ∧
      u.inQ = q ++ rest ∧ Carries q bytes :=
  ⟨⟨{ cleanExec [] 327 with tbLen := 2560 }, ⟨rfl, rfl⟩, by decide, fun i _ => by simp [cleanExec, State.reset, tbGet],
     by decide⟩,
   fun s bytes h => ⟨{ cleanExec (messageOf bytes) 0 with wireBe := s.wireBe }, _, [], ⟨rfl, rfl⟩, rfl,
     (List.append_nil _).symm, carries_message _ h⟩⟩

theorem test_meets_queueCommands :
    (∃ s : State, s.Fresh ∧ Memory.wf 0 Config.heapCap s.heap = true ∧ s.nodeCount.toNat ≤ 512 ∧ s.pqSize.toNat ≤ 256 ∧
      511 < s.nodeCount.toNat ∧ s.pqSize.toNat < 256 ∧ s.nodeCount.toNat ≤ 512 ∧ s.pqSize.toNat = 254 + 1) ∧
    (∃ s : State, s.Fresh ∧ s.nodeCount.toNat ≤ 512 ∧ 0 < s.nodeCount.toNat ∧ s.pqSize.toNat = 256 ∧
      s.pqSize.toNat = 255 + 1) ∧
    (∃ s : State, s.Fresh ∧ s.nodeCount.toNat ≤ 0 ∧ s.pqSize = 0) ∧ ∃ s : State, s.Fresh ∧ s.pqSize.toNat = 0 + 1 :=
  ⟨⟨{ cleanExec [] 0 with nodeCount := 512, pqSize := 255 }, ⟨rfl, rfl⟩, rfl, by decide⟩,
   ⟨{ cleanExec [] 0 with nodeCount := 1, pqSize := 256 }, ⟨rfl, rfl⟩, by decide⟩, ⟨_, fresh [] 0, by decide, rfl⟩,
   ⟨{ cleanExec [] 0 with pqSize := 1 }, ⟨rfl, rfl⟩, rfl⟩⟩

/-- The tree of `abcTree`. -/
def abc : HTree := .node (.leaf 0x41 false) (.node (.leaf 0x43 false) (.leaf 0x42 false))

theorem abc_holds (q : List Beat) (k : Nat) : Holds (abcTree (cleanExec q k)).node 5 (abcTree (cleanExec q k)).root abc := by
  show Holds (abcTree State.reset).node 5 4 abc
  simp only [abc, Holds]
  decide

/-- A state in EXEC with a tree and a queue of two items. -/
def held : State := { abcTree (cleanExec [] 0) with heap := [(0, 2), (1, 1)], pqSize := 2 }

theorem held_inv : held.Inv ∧ held.HeapInv := by
  refine ⟨State.Data.inv ⟨rfl, rfl, rfl, ⟨rfl, ?_⟩, TbOk.zero (by decide), by decide, by decide,
    TreeOk.of_holds (t := abc) (abc_holds [] 0) (by decide)⟩
    ⟨by decide, fun _ => ⟨rfl, rfl⟩, fun h => absurd rfl h, fun h => (by cases h), fun _ h => (by cases h), fun _ h => (by cases h)⟩, ?_⟩
  · intro x j hj
    by_cases hj2 : 255 ≤ j
    · exact BitVec.getMsbD_of_ge _ _ hj2
    · have key : ∀ (x : Byte) (j : Fin 255), (codeAt (abcTree (cleanExec [] 0)).code x).len.toNat ≤ j.val →
          (codeAt (abcTree (cleanExec [] 0)).code x).bits.getMsbD j.val = false := by
        intro x j
        by_cases h1 : x = 0x41
        · subst h1; revert j; decide +kernel
        · by_cases h2 : x = 0x42
          · subst h2; revert j; decide +kernel
          · by_cases h3 : x = 0x43
            · subst h3; revert j; decide +kernel
            · have e : codeAt (abcTree (cleanExec [] 0)).code x = CodeEntry.zero := by
                revert x; decide +kernel
              rw [e]
              intro _
              simp [CodeEntry.zero]
      exact key x ⟨j, by omega⟩ hj
  · intro k h0 h2
    have : k = 1 := by
      have : k < 2 := h2
      omega
    subst this
    decide

theorem test_meets_invariant : ∃ s t : State, s.Inv ∧ s.HeapInv ∧ s.Fresh ∧ s.pqSize ≠ 0 ∧
    exec .pqExtract s = .next t ∧ step s = .next s.ended := by
  obtain ⟨t, h, -⟩ := next_some (f := fun s => s.phase) (a := .idle) (o := exec .pqExtract held) (by decide +kernel)
  exact ⟨held, t, held_inv.1, held_inv.2, ⟨rfl, rfl⟩, by decide, h, rfl⟩

theorem test_meets_treeBuild :
    (∃ s : State, s.Fresh ∧ Memory.wf Node.zero Config.nodeCap s.node = true ∧
      Memory.wf 0 Config.heapCap s.heap = true ∧ ∀ x, freqAt s.freq x = 0) ∧
    (∃ (s : State) (x : Byte), s.Fresh ∧ freqAt s.freq x ≠ 0 ∧ ∀ y, y ≠ x → freqAt s.freq y = 0) ∧
    (∃ s : State, s.Fresh ∧ (usedSymbols s.freq).length = 2 ∧ totalOf s.freq (usedSymbols s.freq) = 2 ^ 32 - 1) ∧
    (∃ s : State, s.Fresh ∧ (usedSymbols s.freq).length = 2 ∧ totalOf s.freq (usedSymbols s.freq) = 2 ^ 32) ∧
    ∃ s t : State, s.Fresh ∧ (usedSymbols s.freq).length = 3 ∧ totalOf s.freq (usedSymbols s.freq) = 2 ^ 32 ∧
      exec .treeBuild s = .next t ∧ t.errCode = 7 ∧ t.errInfo = 3 + 1 := by
  obtain ⟨t, h, e⟩ := next_some (f := fun s => (s.errCode, s.errInfo)) (a := (7, 4))
    (o := exec .treeBuild { cleanExec [] 0 with freq := [(0, 1), (1, 0xFFFFFFFE), (2, 1)] }) (by decide +kernel)
  exact ⟨⟨_, fresh [] 0, rfl, rfl, fun _ => rfl⟩,
   ⟨{ cleanExec [] 0 with freq := [(0xFF, 1)] }, 0xFF, ⟨rfl, rfl⟩, by decide, by decide +kernel⟩,
   ⟨{ cleanExec [] 0 with freq := [(0, 0xFFFFFFFE), (0xFF, 1)] }, ⟨rfl, rfl⟩, by decide +kernel, by decide +kernel⟩,
   ⟨{ cleanExec [] 0 with freq := [(0, 0xFFFFFFFF), (0xFF, 1)] }, ⟨rfl, rfl⟩, by decide +kernel, by decide +kernel⟩,
   ⟨_, t, ⟨rfl, rfl⟩, by decide +kernel, by decide +kernel, h, congrArg (·.1) e, congrArg (·.2) e⟩⟩

theorem test_meets_tree :
    (∃ s : State, s.Fresh ∧ s.treeValid = false) ∧
    (∃ (s : State) (n : Nat) (T : HTree), s.Fresh ∧ s.treeValid = true ∧ Holds s.node n s.root T ∧ T.leaves = 1) ∧
    ∃ (s : State) (n : Nat) (l r : HTree), s.Fresh ∧ s.treeValid = true ∧ Holds s.node n s.root (.node l r) ∧
      (HTree.node l r).leaves ≤ 256 :=
  ⟨⟨_, fresh [] 0, rfl⟩,
   ⟨{ cleanExec [] 0 with node := [(0, ⟨true, false, 9, 0, 0, 0⟩)], treeValid := true }, 1, .leaf 9 false, ⟨rfl, rfl⟩, rfl,
     by simp only [Holds]; decide, rfl⟩,
   ⟨abcTree (cleanExec [] 0), 5, _, _, ⟨rfl, rfl⟩, rfl, abc_holds [] 0, by decide⟩⟩

/-- The buffer of P1, and the same one cut short. -/
theorem test_meets_TreeDeserialize :
    (∃ (s : State) (T : HTree), s.Fresh ∧ s.tbLen.toNat ≤ 2560 ∧ (T.toBits s.symLsb).length ≤ s.tbLen.toNat ∧
      BitsAt s.tb s.tbLen.toNat 0 (T.toBits s.symLsb)) ∧
    ∃ (s : State) (T : HTree), s.Fresh ∧ s.tbLen.toNat ≤ 2560 ∧ s.tbLen.toNat < (T.toBits s.symLsb).length ∧
      BitsAt s.tb s.tbLen.toNat 0 (T.toBits s.symLsb) :=
  ⟨⟨{ cleanExec [] 0 with tbLen := 29, tb := tbOfBuckets 0 [0x5054, 0x3A10] }, abc, ⟨rfl, rfl⟩, by decide, by decide,
     by unfold BitsAt; decide +kernel⟩,
   ⟨{ cleanExec [] 0 with tbLen := 28, tb := tbOfBuckets 0 [0x5054, 0x3A10] }, abc, ⟨rfl, rfl⟩, by decide, by decide,
     by unfold BitsAt; decide +kernel⟩⟩
/-- The inner hypotheses of the round trip, for whatever was serialized. -/
theorem test_meets_TreeRoundTripKeepsShapeAndSymbols (s t1 t2 : State) :
    (∃ u : State, u.Fresh ∧ Memory.wf Node.zero Config.nodeCap u.node = true ∧ u.tb = t1.tb ∧ u.tbLen = t1.tbLen ∧
      u.symLsb = s.symLsb) ∧
    ∃ v : State, v.Fresh ∧ v.node = t2.node ∧ v.root = t2.root ∧ v.treeValid = true ∧ v.symLsb = s.symLsb :=
  ⟨⟨{ cleanExec [] 0 with tb := t1.tb, tbLen := t1.tbLen, symLsb := s.symLsb }, ⟨rfl, rfl⟩, rfl, rfl, rfl, rfl⟩,
   ⟨{ cleanExec [] 0 with node := t2.node, root := t2.root, treeValid := true, symLsb := s.symLsb }, ⟨rfl, rfl⟩, rfl, rfl,
     rfl, rfl⟩⟩

theorem test_meets_FreqAccumCountsTheMessage :
    (∃ (s : State) (q rest : List Beat), s.Fresh ∧ Memory.wf 0 Config.symbols s.freq = true ∧ IsMessage q ∧
      s.inQ = q ++ rest ∧ s.freqTotal.toNat + (payload q).length = 2 ^ 32 - 1 ∧
      ∀ x, (freqAt s.freq x).toNat + (payload q).count x < 2 ^ 32) ∧
    (∃ (s : State) (q rest : List Beat) (b : Beat), s.Fresh ∧ (∀ c ∈ q, c.last = false) ∧ b.empty = false ∧
      s.inQ = q ++ b :: rest ∧ s.freqTotal.toNat + (payload q).length = 2 ^ 32 - 1 ∧
      ∀ x, (freqAt s.freq x).toNat + (payload q).count x < 2 ^ 32) ∧
    ∃ (s : State) (q rest : List Beat) (b : Beat), s.Fresh ∧ (∀ c ∈ q, c.last = false) ∧ b.empty = false ∧
      s.inQ = q ++ b :: rest ∧ s.freqTotal.toNat + (payload q).length < 2 ^ 32 ∧
      (∀ x, (freqAt s.freq x).toNat + (payload q).count x < 2 ^ 32) ∧
      (freqAt s.freq b.data).toNat + (payload q).count b.data = 2 ^ 32 - 1 := by
  have hz : ∀ (q : List Beat) (x : Byte), (payload q).length ≤ 1 → (freqAt [] x).toNat + (payload q).count x < 2 ^ 32 := by
    intro q x hq
    have h1 := List.count_le_length (a := x) (l := payload q)
    have h2 : (freqAt [] x).toNat = 0 := rfl
    omega
  refine ⟨⟨{ cleanExec (messageOf [0]) 0 with freqTotal := 0xFFFFFFFE }, messageOf [0], [], ⟨rfl, rfl⟩, rfl, rfl, rfl, by decide,
      fun x => hz _ x (by decide)⟩,
    ⟨{ cleanExec (messageOf [0]) 0 with freqTotal := 0xFFFFFFFF }, [], [], ⟨0, true, false⟩, ⟨rfl, rfl⟩, by simp, rfl, rfl,
      by decide, fun x => hz _ x (by decide)⟩,
    ⟨{ cleanExec (messageOf [0]) 0 with freq := [(0, 0xFFFFFFFF)] }, [], [], ⟨0, true, false⟩, ⟨rfl, rfl⟩, by simp, rfl, rfl,
      by decide, fun x => ?_, by decide⟩⟩
  have h1 := (freqAt [(0, 0xFFFFFFFF)] x).isLt
  have h2 : (payload []).count x = 0 := rfl
  rw [h2]
  exact h1

theorem test_meets_CodeGen :
    (∃ s : State, s.Fresh ∧ s.treeValid = false) ∧
    (∃ s : State, s.Fresh ∧ s.treeValid = true ∧ (nodeAt s.node s.root).isLeaf = true) ∧
    ∃ s t : State, s.Fresh ∧ s.treeValid = true ∧ Holds s.node 5 s.root abc ∧ abc.leaves ≤ 256 ∧ abc.syms.Nodup ∧
      exec .codeGen s = .next t ∧ t.codeValid = true ∧ (codeAt t.code 0x41).len = 1 ∧ (codeAt t.code 0x42).len = 2 := by
  obtain ⟨t, h, e⟩ := next_some (f := fun s => (s.codeValid, (codeAt s.code 0x41).len, (codeAt s.code 0x42).len))
    (a := (true, 1, 2)) (o := exec .codeGen (abcTree (cleanExec [] 0))) (by decide +kernel)
  exact ⟨⟨_, fresh [] 0, rfl⟩,
    ⟨{ cleanExec [] 0 with node := [(0, ⟨true, false, 9, 0, 0, 0⟩)], treeValid := true }, ⟨rfl, rfl⟩, rfl, rfl⟩,
    ⟨_, t, ⟨rfl, rfl⟩, rfl, abc_holds [] 0, by decide, by decide, h, congrArg (·.1) e, congrArg (·.2.1) e,
      congrArg (·.2.2) e⟩⟩

/-- V-E7's byte 98 is the codes 10, 0, 11 and three zeros; V-E11's byte has no code. -/
theorem test_meets_PackEmitsTheCodes :
    (∃ s : State, s.Fresh ∧ s.codeValid = false) ∧
    (∃ (s : State) (q rest : List Beat) (bytes : List Byte), s.Fresh ∧ s.codeValid = true ∧ IsMessage q ∧ s.inQ = q ++ rest ∧
      (∀ d ∈ payload q, (codeAt s.code d).len ≠ 0) ∧
      BytesOfBits ((payload q).flatMap (fun d => (codeAt s.code d).toBits)) bytes ∧ bytes.length + 1 ≤ s.outReady) ∧
    ∃ (s : State) (q rest : List Beat) (b : Beat) (bytes : List Byte) (tail : List Bool), s.Fresh ∧ s.codeValid = true ∧
      (∀ c ∈ q, c.last = false) ∧ b.empty = false ∧ s.inQ = q ++ b :: rest ∧
      (∀ d ∈ payload q, (codeAt s.code d).len ≠ 0) ∧ (codeAt s.code b.data).len = 0 ∧
      (payload q).flatMap (fun d => (codeAt s.code d).toBits) = bytes.flatMap byteBits ++ tail ∧ tail.length < 8 ∧
      bytes.length ≤ s.outReady :=
  ⟨⟨_, fresh [] 0, rfl⟩,
   ⟨abcTree (cleanExec (messageOf [0x43, 0x41, 0x42]) 2), messageOf [0x43, 0x41, 0x42], [], [0x98], ⟨rfl, rfl⟩, rfl,
     ⟨rfl, rfl, rfl⟩, rfl, by decide, ⟨3, by decide, by decide +kernel⟩, by decide⟩,
   ⟨abcTree (cleanExec (messageOf [0x44]) 0), [], [], ⟨0x44, true, false⟩, [], [], ⟨rfl, rfl⟩, rfl, by simp, rfl, rfl,
     by simp [payload], by decide, rfl, by decide, by decide⟩⟩

/-- V-E13 with and without a limit, and V-E17. -/
theorem test_meets_Unpack :
    (∃ (s : State) (q rest : List Beat) (out : List Byte) (stand : HTree), s.Fresh ∧ s.treeValid = true ∧
      Holds s.node 5 s.root abc ∧ IsMessage q ∧ s.inQ = q ++ rest ∧
      HTree.descend abc abc ((payload q).flatMap byteBits) = (out, stand) ∧ s.limitEn = true ∧
      out.length < s.symLimitL.toNat ∧ out.length + 1 ≤ s.outReady) ∧
    (∃ (s : State) (q rest : List Beat) (out : List Byte) (stand : HTree), s.Fresh ∧ s.treeValid = true ∧
      Holds s.node 5 s.root abc ∧ s.inEom = false ∧ IsMessage q ∧ s.inQ = q ++ rest ∧
      HTree.descend abc abc ((payload q).flatMap byteBits) = (out, stand) ∧ s.limitEn = true ∧
      s.symLimitL.toNat = out.length ∧ s.symLimitL.toNat + 1 ≤ s.outReady) ∧
    (∃ s : State, s.Fresh ∧ s.treeValid = false) ∧
    (∃ s : State, s.Fresh ∧ s.treeValid = true ∧ (nodeAt s.node s.root).isLeaf = true) ∧
    ∃ s : State, s.Fresh ∧ s.treeValid = true ∧ (nodeAt s.node s.root).isLeaf = false ∧ s.inEom = true ∧ 1 ≤ s.outReady :=
  ⟨⟨{ abcTree (cleanExec (messageOf [0x01]) 8) with limitEn := true, symLimitL := 8 }, messageOf [0x01], [], _, _, ⟨rfl, rfl⟩,
     rfl, abc_holds [] 0, rfl, rfl, rfl, rfl, by decide +kernel, by decide +kernel⟩,
   ⟨{ abcTree (cleanExec (messageOf [0x01]) 8) with limitEn := true, symLimitL := 7, inEom := false }, messageOf [0x01], [],
     _, _, ⟨rfl, rfl⟩, rfl, abc_holds [] 0, rfl, rfl, rfl, rfl, rfl, by decide +kernel, by decide +kernel⟩,
   ⟨_, fresh [] 0, rfl⟩,
   ⟨{ cleanExec [] 0 with node := [(0, ⟨true, false, 9, 0, 0, 0⟩)], treeValid := true }, ⟨rfl, rfl⟩, rfl, rfl⟩,
   ⟨abcTree (cleanExec [] 1), ⟨rfl, rfl⟩, rfl, rfl, rfl, by decide⟩⟩

theorem payload_replicate (n : Nat) : (payload (List.replicate n ⟨0, false, false⟩)).length = n := by
  induction n with
  | zero => rfl
  | succ n ih => rw [List.replicate_succ, payload_cons, List.length_append, ih]; exact Nat.add_comm 1 n

theorem test_meets_Encode :
    (∃ (s : State) (q1 q2 rest : List Beat) (S S2 : List Byte), s.Fresh ∧
      Memory.wf Node.zero Config.nodeCap s.node = true ∧ Memory.wf 0 Config.heapCap s.heap = true ∧ IsMessage q1 ∧
      IsMessage q2 ∧ payload q1 = S ∧ payload q2 = S2 ∧ s.inQ = q1 ++ q2 ++ rest ∧ S ≠ [] ∧ S.length < 2 ^ 32 ∧
      (∀ x ∈ S2, x ∈ S) ∧ S2 ≠ S ∧ 327 + 32 * S2.length ≤ s.outReady) ∧
    (∃ (s : State) (q rest : List Beat), s.Fresh ∧ IsMessage q ∧ payload q = [] ∧ s.inQ = q ++ rest) ∧
    (∃ (s : State) (q : List Beat) (b : Beat) (rest : List Beat), s.Fresh ∧
      Memory.wf Node.zero Config.nodeCap s.node = true ∧ Memory.wf 0 Config.heapCap s.heap = true ∧
      (∀ c ∈ q, c.last = false) ∧ b.empty = false ∧ s.inQ = q ++ b :: rest ∧ (payload q).length = 2 ^ 32 - 1) ∧
    ∃ (s : State) (q1 q2 : List Beat) (b : Beat) (rest : List Beat) (S : List Byte), s.Fresh ∧
      Memory.wf Node.zero Config.nodeCap s.node = true ∧ Memory.wf 0 Config.heapCap s.heap = true ∧
      IsMessage q1 ∧ payload q1 = S ∧ S ≠ [] ∧ S.length < 2 ^ 32 ∧ (∀ c ∈ q2, c.last = false) ∧ b.empty = false ∧
      s.inQ = q1 ++ (q2 ++ b :: rest) ∧ (∀ x ∈ payload q2, x ∈ S) ∧ b.data ∉ S ∧
      326 + 32 * (payload q2).length ≤ s.outReady :=
  ⟨⟨cleanExec (messageOf [0x41, 0x42] ++ messageOf [0x42]) 359, messageOf [0x41, 0x42], messageOf [0x42], [], [0x41, 0x42], [0x42],
     ⟨rfl, rfl⟩, rfl, rfl, ⟨rfl, rfl⟩, rfl, rfl, rfl, rfl, by decide, by decide, by decide, by decide, by decide⟩,
   ⟨cleanExec (messageOf []) 0, messageOf [], [], ⟨rfl, rfl⟩, rfl, rfl, rfl⟩,
   ⟨cleanExec (List.replicate (2 ^ 32 - 1) ⟨0, false, false⟩ ++ [⟨0, true, false⟩]) 0, List.replicate (2 ^ 32 - 1) ⟨0, false, false⟩,
     ⟨0, true, false⟩, [], ⟨rfl, rfl⟩, rfl, rfl, fun c hc => (by rw [(List.mem_replicate.1 hc).2]), rfl, rfl, payload_replicate _⟩,
   ⟨cleanExec (messageOf [0x41] ++ messageOf [0x41, 0x42]) 358, messageOf [0x41], [⟨0x41, false, false⟩], ⟨0x42, true, false⟩, [],
     [0x41], ⟨rfl, rfl⟩, rfl, rfl, rfl, rfl, by decide, by decide, by decide, rfl, rfl, by decide, by decide, by decide⟩⟩

/-- The steps of ENCODE end: in completion, and in the UNMAPPED_BYTE of its last. Those of DECODE end too: in completion,
and in the ENCODING of a truncated header. -/
theorem test_meets_steps :
    (∀ q ∈ [messageOf [0x41] ++ messageOf [0x41], messageOf [0x41] ++ messageOf [0x42]],
      ∃ s t : State, s.Fresh ∧ Memory.wf Node.zero Config.nodeCap s.node = true ∧
        Memory.wf 0 Config.heapCap s.heap = true ∧ s.phase = .exec ∧ s.errCode = 0 ∧ s.inQ = q ∧
        runSteps [.freqClear, .freqAccum, .treeBuild, .treeSerialize, .bbSerialize false, .codeGen, .pack true] s =
          .next t ∧ t.phase = .idle) ∧
    ∀ q ∈ [messageOf [0x1D, 0, 0, 0, 0x54, 0x50, 0x10, 0x3A, 0, 0, 0x07], messageOf [0x1D, 0, 0, 0]],
      ∃ s t : State, s.Fresh ∧ Memory.wf Node.zero Config.nodeCap s.node = true ∧ s.phase = .exec ∧ s.errCode = 0 ∧
        s.inQ = q ∧ runSteps [.bbDeserialize, .treeDeserialize, .unpack false] s = .next t ∧ t.phase = .idle := by
  refine ⟨fun q hq => ?_, fun q hq => ?_⟩
  · obtain ⟨t, h, e⟩ := next_some (f := fun s => s.phase) (a := .idle) (o := runSteps [.freqClear, .freqAccum, .treeBuild,
      .treeSerialize, .bbSerialize false, .codeGen, .pack true] (cleanExec q 20)) (by revert q; decide +kernel)
    exact ⟨_, t, fresh q 20, rfl, rfl, rfl, rfl, rfl, h, e⟩
  · obtain ⟨t, h, e⟩ := next_some (f := fun s => s.phase) (a := .idle) (o := runSteps [.bbDeserialize, .treeDeserialize,
      .unpack false] (cleanExec q 20)) (by revert q; decide +kernel)
    exact ⟨_, t, fresh q 20, rfl, rfl, rfl, rfl, h, e⟩

/-- P2's header with a body, and with an empty one; the limit beyond and at the number of symbols; and a leaf's header. -/
theorem test_meets_Decode :
    (∀ body ∈ [[0x07, 0xF4], []], ∃ (s : State) (q rest : List Beat) (tb : BitVec 2576) (out : List Byte) (stand : HTree),
      s.Fresh ∧ Memory.wf Node.zero Config.nodeCap s.node = true ∧ IsMessage q ∧ s.inQ = q ++ rest ∧
      payload q = headerOf s.wireBe 29 tb ++ body ∧ (∀ i, 29 ≤ i → tbGet tb i = false) ∧
      BitsAt tb 29 0 (abc.toBits s.symLsb) ∧ (abc.toBits s.symLsb).length ≤ 29 ∧
      HTree.descend abc abc (body.flatMap byteBits) = (out, stand) ∧ s.limitEn = true ∧
      s.symLimitL.toNat = out.length + 1 ∧ out.length + 1 ≤ s.outReady ∧
      ∃ u : State, u.Fresh ∧ u.inQ = s.inQ ∧ u.limitEn = true ∧ u.symLimitL.toNat ≤ out.length ∧
        u.symLimitL.toNat + 1 ≤ u.outReady) ∧
    ∃ (s : State) (q rest : List Beat) (tb : BitVec 2576), s.Fresh ∧ Memory.wf Node.zero Config.nodeCap s.node = true ∧
      s.inQ = q ++ rest ∧ Carries q (headerOf s.wireBe 9 tb) ∧ (∀ i, 9 ≤ i → tbGet tb i = false) ∧
      BitsAt tb 9 0 ((HTree.leaf 0x41 false).toBits s.symLsb) := by
  have tail : ∀ (n : Nat) (tb : BitVec 2576) (i : Nat), n ≤ 2576 → n ≤ i → tbGet (tbKeep tb n) i = false := by
    intro n tb i hn hi
    rw [tbGet_tbKeep _ _ _ hn]
    simp [Nat.not_lt.2 hi]
  have hbits : BitsAt (tbKeep (tbOfBuckets 0 [0x5054, 0x3A10]) 29) 29 0 (abc.toBits false) := by
    unfold BitsAt; decide +kernel
  have hfit : (abc.toBits false).length ≤ 29 := by decide +kernel
  refine ⟨fun body hb => ?_, ?_⟩
  · have hm : IsMessage (messageOf ([0x1D, 0, 0, 0, 0x54, 0x50, 0x10, 0x3A, 0, 0] ++ body)) ∧
        payload (messageOf ([0x1D, 0, 0, 0, 0x54, 0x50, 0x10, 0x3A, 0, 0] ++ body)) =
          headerOf false 29 (tbKeep (tbOfBuckets 0 [0x5054, 0x3A10]) 29) ++ body ∧
        (HTree.descend abc abc (body.flatMap byteBits)).1.length ≤ 11 := by
      simp only [List.mem_cons, List.not_mem_nil, or_false] at hb
      rcases hb with rfl | rfl
      · exact ⟨⟨rfl, rfl, rfl, rfl, rfl, rfl, rfl, rfl, rfl, rfl, rfl, rfl⟩, by decide +kernel, by decide +kernel⟩
      · exact ⟨⟨rfl, rfl, rfl, rfl, rfl, rfl, rfl, rfl, rfl, rfl⟩, by decide +kernel, by decide +kernel⟩
    obtain ⟨h1, h2, h3⟩ := hm
    generalize messageOf ([0x1D, 0, 0, 0, 0x54, 0x50, 0x10, 0x3A, 0, 0] ++ body) = q at h1 h2
    generalize hd : HTree.descend abc abc (body.flatMap byteBits) = d at h3
    exact ⟨{ cleanExec q 12 with limitEn := true, symLimitL := BitVec.ofNat 32 (d.1.length + 1) }, q, [], _, d.1, d.2,
      ⟨rfl, rfl⟩, rfl, h1, (List.append_nil _).symm, h2, fun i hi => tail 29 _ i (by decide) hi,
      hbits, hfit, rfl, rfl,
      (BitVec.toNat_ofNat _ _).trans (Nat.mod_eq_of_lt (by omega)), Nat.succ_le_succ h3,
      { cleanExec q 12 with limitEn := true, symLimitL := 0 }, ⟨rfl, rfl⟩, rfl, rfl, Nat.zero_le _, Nat.succ_le_succ (Nat.zero_le 11)⟩
  · have hc := carries_message (headerOf false 9 (tbKeep (tbOfBuckets 0 [0xA080]) 9)) (by decide +kernel)
    exact ⟨cleanExec (messageOf (headerOf false 9 (tbKeep (tbOfBuckets 0 [0xA080]) 9))) 0, _, [], _, fresh _ _, rfl,
      (List.append_nil _).symm, hc, fun i hi => tail 9 _ i (by decide) hi, by unfold BitsAt; decide +kernel⟩

/-- A later turn of a command: one that gives the marker and completes, and one that aborts. -/
theorem test_meets_StreamsAreAccountedFor :
    (∃ s t : State, s.prog = some [.putEnd] ∧ marksLast [.putEnd] = true ∧ exec (.unpack false) s = .next t ∧
      t.outLog = s.outLog ++ [endBeat] ∧ t.phase = .idle) ∧
    ∃ s t : State, s.prog = some [.put 1, .pack true] ∧ marksLast [.put 1, .pack true] = true ∧
      exec (.pack true) s = .next t ∧ t.errCode = 5 ∧ s.errCode = 0 := by
  obtain ⟨t, h, e⟩ := next_some (f := fun s => (s.outLog, s.phase)) (a := ([endBeat], .idle))
    (o := exec (.unpack false) { cleanExec [] 1 with prog := some [.putEnd] }) (by decide +kernel)
  obtain ⟨u, h', e'⟩ := next_some (f := fun s => s.errCode) (a := 5)
    (o := exec (.pack true) { cleanExec (messageOf [7]) 1 with prog := some [.put 1, .pack true], inEom := false })
    (by decide +kernel)
  exact ⟨⟨_, t, rfl, rfl, h, congrArg (·.1) e, congrArg (·.2) e⟩, ⟨_, u, rfl, rfl, h', e', rfl⟩⟩

/-- The inner hypotheses of the round trip, for whatever was encoded. -/
theorem test_meets_RoundTripGivesTheMessageBack (s : State) (S bytes : List Byte) (hb : bytes ≠ []) (hS : S.length < 2 ^ 32)
    (hm : IsMessage (messageOf bytes)) :
    (∃ (u : State) (q rest : List Beat), u.Fresh ∧ Memory.wf Node.zero Config.nodeCap u.node = true ∧ u.wireBe = s.wireBe ∧
      u.symLsb = s.symLsb ∧ IsMessage q ∧ payload q = bytes ∧ u.inQ = q ++ rest ∧ S.length + 8 ≤ u.outReady ∧
      u.limitEn = true ∧ u.symLimitL.toNat = S.length) ∧
    ∃ u : State, u.Fresh ∧ u.limitEn = false :=
  ⟨⟨{ cleanExec (messageOf bytes) (S.length + 8) with
        wireBe := s.wireBe, symLsb := s.symLsb, limitEn := true, symLimitL := BitVec.ofNat 32 S.length },
      messageOf bytes, [], ⟨rfl, rfl⟩, rfl, rfl, rfl, hm, (carries_message _ hb).1, (List.append_nil _).symm, Nat.le_refl _, rfl,
      (BitVec.toNat_ofNat _ _).trans (Nat.mod_eq_of_lt hS)⟩,
   ⟨_, fresh [] 0, rfl⟩⟩

end Sys2Proof.Tests
end

section
/-! SUPPORT. The scope statements (00_scope.md): a held turn only delays its command (R8, log 12), and a
command that is still running after a turn is inside one stream wait (R17). -/

namespace Sys2Proof.Machine

/-! ### A held turn -/

theorem hostPart_hold {s s' : State} (h : s'.hostPart = s.hostPart) : s'.hold = s.hold :=
  congrArg HostPart.hold h

theorem finish_held {s : State} (hh : s.hold = true) : finish s = .next { s with prog := some [] } := by
  rw [finish, if_pos hh]

theorem failWith_held {s : State} {r : Raise} (hh : s.hold = true) :
    failWith r s = .next { s with prog := some [.fail r] } := by
  rw [failWith, if_pos hh]

/-- The state with its core turn no longer held (log 12). -/
def State.unheld (s : State) : State := { s with hold := false }

@[simp] theorem State.unheld_prog (s : State) : s.unheld.prog = s.prog := rfl

/-- An operation does the same whatever is outside it, in a wait too, when the streams are as they were. -/
theorem runOp_around_same (h : Outside) (op : Op) (s : State) :
    runOp op (s.around h [] 0) = (runOp op s).map (State.around · h [] 0) := by
  by_cases hw : runOp op s = .wait
  · rw [runOp_wait_around h hw, hw, Res.map]
  · exact runOp_around h [] 0 op s hw

theorem around_unheld {s u : State} (hu : u.outside = s.outside) :
    u.around { s.outside with hold := false } [] 0 = u.unheld := by
  simp only [State.outside, Outside.mk.injEq] at hu
  simp only [State.around, State.outside, State.unheld, List.append_nil, Nat.add_zero, hu]

/-- No operation reads whether its turn is held. -/
theorem runOp_unheld (op : Op) (s : State) : runOp op s.unheld = (runOp op s).map State.unheld := by
  rw [← around_unheld (s := s) rfl, runOp_around_same]
  cases hr : runOp op s with
  | ok s' more => rw [Res.map, Res.map, around_unheld (outside_of_hostPart (runOp_ok hr).1)]
  | raise r s' => rw [Res.map, Res.map, around_unheld (outside_of_hostPart (runOp_raise hr).1)]
  | wait => rfl
  | fault f => rfl

/-- Pending operations go on from what a turn has left as from the state the turn left it at. -/
theorem runAll_unheld_prog (p : Option (List Op)) (ops : List Op) (s : State) :
    runAll ops (State.unheld { s with prog := p }) = runAll ops s.unheld :=
  runAll_prog p ops s.unheld

/-- Where a held turn stops, what it leaves pending ends as the same turn not held. -/
theorem held_stop {ops : List Op} {s t : State} (hh : s.hold = true) (h : runAll ops s = .next t)
    (stop : ∀ op rest, ops = op :: rest → ∀ s' more, runOp op s ≠ .ok s' more) :
    t.phase = s.phase ∧ ∃ p, t.prog = some p ∧ runAll p t.unheld = runAll ops s.unheld := by
  cases ops with
  | nil =>
    rw [runAll_nil, finish_held hh] at h
    cases h
    exact ⟨rfl, [], rfl, runAll_unheld_prog _ _ _⟩
  | cons op ops =>
    have hu := runOp_unheld op s
    cases hr : runOp op s with
    | ok s' more => exact absurd hr (stop op ops rfl s' more)
    | raise r s' =>
      have host := (runOp_raise hr).1
      rw [runAll_raise hr, failWith_held ((hostPart_hold host).trans hh)] at h
      cases h
      rw [hr] at hu
      refine ⟨(hostPart_phase host).1, [.fail r], rfl, ?_⟩
      rw [runAll_unheld_prog, runAll_raise hu, runAll_raise (op := .fail r) rfl]
    | wait =>
      rw [runAll_wait hr] at h
      cases h
      exact ⟨rfl, op :: ops, rfl, runAll_unheld_prog _ _ _⟩
    | fault f => rw [runAll_fault hr] at h; cases h

/-- A held turn leaves its command running, with pending operations that end as the turn not held. -/
theorem runAll_held {ops : List Op} {s t : State} (hh : s.hold = true) (h : runAll ops s = .next t) :
    t.phase = s.phase ∧ ∃ p, t.prog = some p ∧ runAll p t.unheld = runAll ops s.unheld := by
  obtain ⟨ops', s', hs, hsu, host, stop⟩ := runAll_stop State.unheld
    (fun hr => by rw [runOp_unheld, hr, Res.map]) ops s
  obtain ⟨hphase, p, hp, he⟩ := held_stop ((hostPart_hold host).trans hh) (hs ▸ h) stop
  exact ⟨hphase.trans (hostPart_phase host).1, p, hp, he.trans hsu.symm⟩

/-- Settles O10: a held turn performs the same operations as one not held (`runAll_stop`), and stops before
the ending step with what is left of it pending (`held_stop`). -/
theorem heldTurnOnlyDelays : Obligations.HeldTurnOnlyDelays := by
  unfold Obligations.HeldTurnOnlyDelays
  intro i s t hexec hh h
  rw [exec_eq_runAll] at h
  obtain ⟨hphase, p, hp, he⟩ := runAll_held hh h
  have hstart : startOps i t.unheld = p := by simp only [startOps, State.unheld_prog, hp]
  refine ⟨hphase.trans hexec, ?_⟩
  calc exec i t.unheld
    _ = runAll p t.unheld := by rw [exec_eq_runAll, hstart]
    _ = runAll (startOps i s) s.unheld := he
    _ = exec i s.unheld := (exec_eq_runAll i s.unheld).symm

/-! ### Stream waits -/

/-- A waiting operation of `in_take` has no beat to take (20_memory.md R90). -/
theorem takeBeat_none_of_wait {op : Op} {s : State} (hop : op.takesInput = true) (h : runOp op s = .wait) :
    s.takeBeat = none := by
  cases hb : s.takeBeat with
  | none => rfl
  | some p =>
    cases op with
    | run | put | putEnd | fail => cases hop
    | discard => simp only [runOp, discardLoop, hb] at h; split_ifs at h
    | accum => simp only [runOp, accumLoop, hb] at h; split_ifs at h
    | rdLen => simp only [runOp, rdLenLoop, hb] at h; split_ifs at h
    | rdBucket => simp only [runOp, rdBucketLoop, hb] at h; split_ifs at h
    | pack => simp only [runOp, packLoop, hb] at h; split_ifs at h
    | unpack => simp only [runOp, unpackLoop, hb] at h; split_ifs at h

/-- An operation that waits is inside `in_take` with nothing offered, or inside `out_put` or `out_end` with
the host not ready (20_memory.md R90, R92, R93). -/
theorem runOp_wait {op : Op} {s : State} (h : runOp op s = .wait) :
    (op.takesInput = true ∧ s.inQ = []) ∨ (op.offers.isSome = true ∧ s.outReady = 0) := by
  cases op with
  | run i => exact absurd h (procOf_ne_wait i s)
  | put b =>
    cases hr : s.outReady with
    | zero => exact .inr ⟨rfl, rfl⟩
    | succ n => simp [runOp, putOp, State.putByte, hr] at h
  | putEnd =>
    cases hr : s.outReady with
    | zero => exact .inr ⟨rfl, rfl⟩
    | succ n => simp [runOp, putEndOp, State.putMarker, hr] at h
  | fail r => cases h
  | discard | accum | rdLen | rdBucket | pack | unpack => exact .inl ⟨rfl, takeBeat_none (takeBeat_none_of_wait rfl h)⟩

/-- No operation both takes input and offers output. -/
theorem Op.offers_eq_none_of_takesInput {op : Op} (h : op.takesInput = true) : op.offers = none := by
  cases op with
  | put | putEnd => cases h
  | run | discard | accum | rdLen | rdBucket | pack | unpack | fail => rfl

theorem Op.takesInput_eq_false_of_offers {op : Op} (h : op.offers.isSome = true) : op.takesInput = false := by
  cases op with
  | put | putEnd => rfl
  | run | discard | accum | rdLen | rdBucket | pack | unpack | fail => cases h

/-- in_ready of a running command is that of its first pending operation (20_memory.md R91). -/
theorem inReady_of_prog {s : State} {op : Op} {ops : List Op} (hx : s.phase = .exec) (hn : s.rstN = true)
    (hp : s.prog = some (op :: ops)) : s.inReady = op.takesInput := by
  simp only [State.inReady, hx, hp, hn, Bool.true_and]

/-- The output beat a running command offers is that of its first pending operation (20_memory.md R94). -/
theorem outOffer_of_prog {s : State} {op : Op} {ops : List Op} (hx : s.phase = .exec) (hn : s.rstN = true)
    (hp : s.prog = some (op :: ops)) : s.outOffer = op.offers := by
  simp only [State.outOffer, hx, hp, hn, if_true]

/-- A turn that is not held and leaves its command in EXEC stops in an operation that waits. -/
theorem TurnEnd.waits {ops : List Op} {s t : State} (h : TurnEnd ops s t) (hh : s.hold = false)
    (hx : t.phase = .exec) :
    ∃ op rest, runOp op s = .wait ∧ t = { s with prog := some (op :: rest) } := by
  cases h with
  | finish hf =>
    rw [← runAll_nil, finish_fresh hh] at hf
    cases hf
    cases hx
  | raise hr hf =>
    rw [fail_fresh ((hostPart_hold (runOp_raise hr).1).trans hh)] at hf
    cases hf
    cases hx
  | wait hw => exact ⟨_, _, hw, rfl⟩

/-- Settles O13: such a turn stops in an operation that waits (`TurnEnd.waits`), and a waiting operation is in
exactly one of the two stream waits (`runOp_wait`). -/
theorem runningCommandIsInAStreamWait : Obligations.RunningCommandIsInAStreamWait := by
  unfold Obligations.RunningCommandIsInAStreamWait
  intro i s t _ hn hh h hx
  rw [exec_eq_runAll] at h
  obtain ⟨ops, s', host, hend⟩ := runAll_cases (P := fun _ u => u.hostPart = s.hostPart)
    (fun hu hr => (runOp_ok hr).1.trans hu) _ _ rfl h
  obtain ⟨op, rest, hw, rfl⟩ := hend.waits ((hostPart_hold host).trans hh) hx
  have hn' : s'.rstN = true := (congrArg HostPart.rstN host).trans hn
  rw [inReady_of_prog hx hn' rfl, outOffer_of_prog hx hn' rfl]
  obtain ⟨hin, hq⟩ | ⟨hout, hready⟩ := runOp_wait hw
  · exact .inl ⟨hin, Op.offers_eq_none_of_takesInput hin, hq⟩
  · exact .inr ⟨Op.takesInput_eq_false_of_offers hout, hout, hready⟩

end Sys2Proof.Machine
end

section
/-! SUPPORT. The register bus (20_memory.md R72, R76, R77): what a step makes of an accepted access, by what
its address names; and with it what the registers read and take (10_state.md R24 to R37). -/

namespace Sys2Proof.Machine

/-! ### An accepted access -/

/-- An access that is accepted is performed or refused in its step (20_memory.md R72). -/
theorem step_presents {s : State} {a : BusReq} {rest : List Turn} (h : s.Presents a rest) :
    step s = .next ({ s with sched := rest }.busAccess a) := by
  obtain ⟨hrst, hrsp, hsched⟩ := h
  simp [step, hsched, State.hostTurn, hrsp, hrst]

/-- A performed read answers what its target reads and counts its draw, if it is one. -/
theorem step_read {s : State} {addr : BitVec 15} {w : Word} {rest : List Turn} {t : Target}
    (h : s.Presents (readOf addr w) rest) (ht : targetOf addr = t) (hr : s.readable t = true) :
    step s = .next { State.countDraw { s with sched := rest } t with
      busRsp := some ⟨s.readTarget t, false⟩ } := by
  have hr' : State.readable { s with sched := rest } t = true := hr
  have hread : State.readTarget { s with sched := rest } t = s.readTarget t := by cases t <;> rfl
  rw [step_presents h]
  simp only [State.busAccess, readOf, ht, hr', hread, Bool.false_eq_true, if_false, if_true]

/-- A performed write takes effect in its step (20_memory.md R77). -/
theorem step_write {s : State} {addr : BitVec 15} {v : Word} {rest : List Turn} {t : Target}
    (h : s.Presents (writeOf addr v) rest) (ht : targetOf addr = t) (hw : s.writable t = true) :
    step s = .next { State.writeTarget { s with sched := rest } t v with busRsp := some ⟨0, false⟩ } := by
  have hw' : State.writable { s with sched := rest } t = true := hw
  rw [step_presents h]
  simp only [State.busAccess, writeOf, ht, hw', if_true]

/-! ### Reading a register -/

/-- Every register can be read once initialisation is over (20_memory.md R78 case 4). -/
theorem State.readable_reg {s : State} (h : s.phase ≠ .init) (r : Reg) : s.readable (.reg r) = true := by
  cases r with
  | id | version | status => rfl
  | _ => exact decide_eq_true h

/-- A read that is no draw changes nothing (20_memory.md R76). -/
theorem step_readReg {s : State} {addr : BitVec 15} {w : Word} {rest : List Turn} {r : Reg}
    (h : s.Presents (readOf addr w) rest) (ht : targetOf addr = .reg r) (hr : s.readable (.reg r) = true)
    (hd : s.isDraw r = false) : step s = .next (s.answered rest (s.readReg r) false) := by
  have hd' : State.isDraw { s with sched := rest } r = false := hd
  rw [step_read h ht hr, State.countDraw, if_neg (by simp [hd'])]
  rfl

/-- A read that is a draw moves the draw counter and nothing else (20_memory.md R97; log 4). -/
theorem step_drawReg {s : State} {addr : BitVec 15} {w : Word} {rest : List Turn} {r : Reg}
    (h : s.Presents (readOf addr w) rest) (ht : targetOf addr = .reg r) (hp : s.phase = .exec)
    (hr : r.drawnWhileBusy = true) :
    step s = .next { s.answered rest (s.readReg r) false with draws := s.draws + 1 } := by
  have hd : State.isDraw { s with sched := rest } r = true := by simp [State.isDraw, hp, hr]
  rw [step_read h ht (State.readable_reg (by simp [hp]) r), State.countDraw, if_pos hd]
  rfl

theorem State.isDraw_of_exact (s : State) {r : Reg} (h : r.drawnWhileBusy = false) : s.isDraw r = false := by
  rw [State.isDraw, h, Bool.and_false]

theorem State.isDraw_of_phase {s : State} (h : s.phase ≠ .exec) (r : Reg) : s.isDraw r = false := by
  rw [State.isDraw, decide_eq_false h, Bool.false_and]

/-- A register that is never a draw reads its value outside INIT, whatever is going on. -/
theorem step_readReg_exact {s : State} {addr : BitVec 15} {w : Word} {rest : List Turn} {r : Reg}
    (ht : targetOf addr = .reg r) (hr : r.drawnWhileBusy = false) (h : s.Presents (readOf addr w) rest)
    (hp : s.phase ≠ .init) : step s = .next (s.answered rest (s.readReg r) false) :=
  step_readReg h ht (State.readable_reg hp r) (s.isDraw_of_exact hr)

/-- Every register reads its value while the core is idle. -/
theorem step_readReg_idle {s : State} {addr : BitVec 15} {w : Word} {rest : List Turn} {r : Reg}
    (ht : targetOf addr = .reg r) (h : s.Presents (readOf addr w) rest) (hp : s.phase = .idle) :
    step s = .next (s.answered rest (s.readReg r) false) :=
  step_readReg h ht (State.readable_reg (by simp [hp]) r) (State.isDraw_of_phase (by simp [hp]) r)

/-- While idle a drawn field is exact. -/
theorem State.drawnField_idle {w : Nat} {s : State} (h : s.phase = .idle) (v : BitVec w) :
    s.drawnField v = v.setWidth 32 :=
  if_neg (by simp [h])

/-- A draw keeps the width of its field. -/
theorem State.drawnField_exec_lt {w : Nat} {s : State} (h : s.phase = .exec) (v : BitVec w) :
    (s.drawnField v).toNat < 2 ^ w := by
  rw [State.drawnField, if_pos h, BitVec.toNat_setWidth]
  exact (Nat.mod_le _ _).trans_lt (BitVec.isLt _)

/-- A register that reads a field of `width` bits answers a read in EXEC with some value of that width. -/
theorem step_drawReg_field {width : Nat} {s : State} {addr : BitVec 15} {w : Word} {rest : List Turn} {r : Reg}
    (v : BitVec width) (ht : targetOf addr = .reg r) (hr : r.drawnWhileBusy = true)
    (hv : s.readReg r = s.drawnField v) (h : s.Presents (readOf addr w) rest) (hp : s.phase = .exec) :
    ∃ d : Word, d.toNat < 2 ^ width ∧
      step s = .next { s.answered rest d false with draws := s.draws + 1 } :=
  ⟨s.readReg r, hv ▸ State.drawnField_exec_lt hp v, step_drawReg h ht hp hr⟩

/-- While idle a register that reads a field answers with the field. -/
theorem step_readReg_field {width : Nat} {s : State} {addr : BitVec 15} {w : Word} {rest : List Turn} {r : Reg}
    (v : BitVec width) (ht : targetOf addr = .reg r) (hv : s.readReg r = s.drawnField v)
    (h : s.Presents (readOf addr w) rest) (hp : s.phase = .idle) :
    step s = .next (s.answered rest (v.setWidth 32) false) := by
  rw [step_readReg_idle ht h hp, hv, State.drawnField_idle hp]

/-- Settles O19, by the four ways a register can be read: always, outside INIT, exactly while idle, and as a
draw in EXEC. -/
theorem registersReadTheirValues : Obligations.RegistersReadTheirValues := by
  unfold Obligations.RegistersReadTheirValues
  intro s rest w
  simp only [List.forall_mem_cons, List.not_mem_nil, false_implies, implies_true, and_true]
  refine ⟨⟨?_, ?_⟩, ⟨?_, ?_, ?_, ?_, ?_, ?_, ?_, ?_, ?_⟩, ⟨?_, ?_, ?_, ?_, ?_, ?_⟩, ?_, ?_, ?_, ?_, ?_, ?_⟩
  · exact fun h => step_readReg h rfl rfl (s.isDraw_of_exact rfl)
  · exact fun h => step_readReg h rfl rfl (s.isDraw_of_exact rfl)
  · exact step_readReg_exact (r := .ctrl) rfl rfl
  · exact step_readReg_exact (r := .symLimit) rfl rfl
  · exact step_readReg_exact (r := .cmd) rfl rfl
  · exact step_readReg_exact (r := .errCode) rfl rfl
  · exact step_readReg_exact (r := .errInfo) rfl rfl
  · exact step_readReg_exact (r := .irqStatus) rfl rfl
  · exact step_readReg_exact (r := .irqEnable) rfl rfl
  · exact step_readReg_exact (r := .inCount) rfl rfl
  · exact step_readReg_exact (r := .outCount) rfl rfl
  · rw [← BitVec.setWidth_eq s.result]
    exact step_readReg_field s.result rfl rfl
  · exact step_readReg_field s.tbLen rfl rfl
  · exact step_readReg_field s.nodeCount rfl rfl
  · have hroot := step_readReg_field (s := s) (addr := 0x034) (w := w) (rest := rest)
      (if s.treeValid then s.root else 0) rfl rfl
    rwa [apply_ite (BitVec.setWidth 32)] at hroot
  · exact step_readReg_field s.pqSize rfl rfl
  · rw [← BitVec.setWidth_eq s.freqTotal]
    exact step_readReg_field s.freqTotal rfl rfl
  · exact step_drawReg_field s.result rfl rfl rfl
  · exact step_drawReg_field s.tbLen rfl rfl rfl
  · exact step_drawReg_field s.nodeCount rfl rfl rfl
  · exact step_drawReg_field (if s.treeValid then s.root else 0) rfl rfl rfl
  · exact step_drawReg_field s.pqSize rfl rfl rfl
  · exact step_drawReg_field s.freqTotal rfl rfl rfl

/-! ### STATUS and irq -/

theorem bitAnd_ne_zero_iff {w : Nat} {x y : BitVec w} :
    x &&& y ≠ 0 ↔ ∃ i, i < w ∧ x.getLsbD i = true ∧ y.getLsbD i = true := by
  constructor
  · intro h
    by_contra hno
    push Not at hno
    refine h (BitVec.eq_of_getLsbD_eq fun i hi => ?_)
    have hbit := hno i hi
    simpa using hbit
  · rintro ⟨i, -, hx, hy⟩ h
    have hbit := congrArg (·.getLsbD i) h
    simp [hx, hy] at hbit

theorem State.irq_iff {s : State} (h : s.rstN = true) :
    s.irq = true ↔ ∃ i, i < 4 ∧ s.irqStatus.getLsbD i = true ∧ s.irqEnable.getLsbD i = true := by
  rw [State.irq, h, Bool.true_and, decide_eq_true_iff, bitAnd_ne_zero_iff]

theorem flagBit_getLsbD {i : Nat} (hi : i < 32) (b : Bool) (j : Nat) :
    (flagBit i b).getLsbD j = (decide (j = i) && b) := by
  rw [flagBit, BitVec.getLsbD_shiftLeft, BitVec.getLsbD_setWidth, BitVec.getLsbD_ofBool]
  by_cases hj : j = i
  · subst hj; simp [hi]
  · rw [decide_eq_false hj]
    by_cases hlt : j < i
    · simp [hlt]
    · rw [decide_eq_false (show ¬ j - i = 0 by omega)]
      simp

/-- STATUS while idle, as the OR of its flags at their positions (10_state.md R27). -/
theorem State.statusIdle_getLsbD (s : State) (j : Nat) :
    s.statusIdle.getLsbD j = ((decide (j = 1) && s.errorFlag) || (decide (j = 2) && s.treeValid) ||
      (decide (j = 3) && s.codeValid) || (decide (j = 4) && s.inEom) || (decide (j = 5) && s.tailPartial) ||
      (decide (j = 6) && s.limitHit) || (decide (j = 7) && s.rootLeaf)) := by
  simp only [State.statusIdle, BitVec.getLsbD_or]
  rw [flagBit_getLsbD (by decide), flagBit_getLsbD (by decide), flagBit_getLsbD (by decide),
    flagBit_getLsbD (by decide), flagBit_getLsbD (by decide), flagBit_getLsbD (by decide),
    flagBit_getLsbD (by decide)]

/-- Of the draw that STATUS reads in EXEC only bits 9:2 show (10_state.md R27). -/
theorem statusDraw_getLsbD_high (d : Word) {j : Nat} (hj : 10 ≤ j) :
    ((d &&& 0x3FC#32) ||| 1#32).getLsbD j = false := by
  have hlt : ((d &&& 0x3FC#32) ||| 1#32).toNat < 2 ^ 10 :=
    Nat.or_lt_two_pow (Nat.and_lt_two_pow _ (by decide)) (by decide)
  exact Nat.testBit_lt_two_pow (hlt.trans_le (Nat.pow_le_pow_right (by decide) hj))

/-- Settles O20: irq by `State.irq_iff`, and what a read of STATUS answers in each phase. -/
theorem statusAndIrqReportThePhaseAndFlags : Obligations.StatusAndIrqReportThePhaseAndFlags := by
  unfold Obligations.StatusAndIrqReportThePhaseAndFlags
  intro s
  refine ⟨State.irq_iff, fun h => by rw [State.irq, h, Bool.false_and], fun rest w h => ⟨fun hp => ?_, fun hp => ?_,
    fun hp => ?_⟩⟩
  · have hread : s.readReg .status = s.statusIdle := by simp only [State.readReg, State.statusWord, hp]
    refine ⟨s.statusIdle, hread ▸ step_readReg_idle rfl h hp, ?_⟩
    simp only [State.statusIdle_getLsbD]
    refine ⟨by simp, by simp [State.errorFlag], by simp, by simp, by simp, by simp, by simp,
      by simp [State.rootLeaf], fun i hi => ?_⟩
    have hne : ∀ k < 8, i ≠ k := fun k hk => by omega
    simp [hne]
  · refine ⟨s.readReg .status, step_drawReg h rfl hp rfl, ?_⟩
    simp only [State.readReg, State.statusWord, hp]
    exact ⟨by simp, by simp, fun i => statusDraw_getLsbD_high _⟩
  · have hread : s.readReg .status = 1 := by simp only [State.readReg, State.statusWord, hp]; rfl
    rw [← hread]
    exact step_readReg h rfl rfl (State.isDraw_of_phase (by simp [hp]) _)

/-! ### Writing a register -/

/-- Settles O21: each of the four writes is performed outside INIT and is one case of `writeTarget`. -/
theorem registerWritesTakeEffectAtOnce : Obligations.RegisterWritesTakeEffectAtOnce := by
  unfold Obligations.RegisterWritesTakeEffectAtOnce
  intro s rest v hp
  have hw : decide (s.phase ≠ .init) = true := decide_eq_true hp
  rw [← BitVec.setWidth_eq_extractLsb' (by decide), ← BitVec.setWidth_eq_extractLsb' (by decide)]
  exact ⟨fun h => step_write h (t := .reg .ctrl) rfl hw, fun h => step_write h (t := .reg .symLimit) rfl hw,
    fun h => step_write h (t := .reg .irqStatus) rfl hw, fun h => step_write h (t := .reg .irqEnable) rfl hw⟩

end Sys2Proof.Machine
end

section
/-! SUPPORT. What a turn of a command can do outside its datapath: the host's registers and the latched
configuration (10_state.md R31, R46), RESULT (R30), and the beats it takes and gives (R36, 20_memory.md R90 to
R93). -/

namespace Sys2Proof.Machine

/-! ### Beats taken and given -/

/-- From `s` to `t` exactly the beats `taken` have come in and the beats `given` have gone out, and every
counter says so. -/
structure Transfers (s t : State) (taken given : List Beat) : Prop where
  inQ : s.inQ = taken ++ t.inQ
  inCount : t.inCount = countUp s.inCount (payload taken).length
  outLog : t.outLog = s.outLog ++ given
  outCount : t.outCount = countUp s.outCount (payload given).length
  outReady : s.outReady = t.outReady + given.length
  shape : ∀ b ∈ given, (b.empty = false ∧ b.last = false) ∨ b = endBeat

theorem Transfers.of_same {s t : State} (h : t.streamPart = s.streamPart) : Transfers s t [] [] := by
  simp only [State.streamPart, StreamPart.mk.injEq] at h
  obtain ⟨hq, hready, hlog, hin, hout⟩ := h
  exact ⟨hq.symm, hin.trans (countUp_zero _).symm, hlog.trans (List.append_nil _).symm,
    hout.trans (countUp_zero _).symm, hready.symm, fun b hb => absurd hb List.not_mem_nil⟩

theorem Transfers.trans {s t u : State} {taken given taken' given' : List Beat} (h : Transfers s t taken given)
    (h' : Transfers t u taken' given') : Transfers s u (taken ++ taken') (given ++ given') where
  inQ := by rw [h.inQ, h'.inQ, List.append_assoc]
  inCount := by rw [h'.inCount, h.inCount, countUp_add, payload_append, List.length_append]
  outLog := by rw [h'.outLog, h.outLog, List.append_assoc]
  outCount := by rw [h'.outCount, h.outCount, countUp_add, payload_append, List.length_append]
  outReady := by rw [h.outReady, h'.outReady, List.length_append]; omega
  shape b hb := (List.mem_append.1 hb).elim (h.shape b) (h'.shape b)

/-- What happens outside the streams transfers nothing. -/
theorem Transfers.then_same {s t u : State} {taken given : List Beat} (h : Transfers s t taken given)
    (hu : u.streamPart = t.streamPart) : Transfers s u taken given := by
  simpa using h.trans (Transfers.of_same hu)

theorem takeBeat_transfers {s t : State} {b : Beat} (h : s.takeBeat = some (b, t)) : Transfers s t [b] [] := by
  obtain ⟨q, hq, rfl⟩ := takeBeat_some h
  refine ⟨hq, ?_, (List.append_nil _).symm, (countUp_zero _).symm, rfl, fun c hc => absurd hc List.not_mem_nil⟩
  cases hb : b.empty <;> simp [hb, payload, countUp]

/-- An operation that succeeds accounts for its beats, and only `out_end` gives a marker. -/
theorem runOp_transfers {op : Op} {s t : State} {more : List Op} (h : runOp op s = .ok t more) :
    ∃ taken given, Transfers s t taken given ∧ (endBeat ∈ given → op = .putEnd ∧ more = []) := by
  obtain ⟨-, ⟨hs, -⟩ | ⟨b, s1, hb, hs, -⟩ | ⟨b, n, rfl, hn, rfl, rfl⟩ | ⟨n, rfl, hn, rfl, rfl⟩⟩ := runOp_ok h
  · exact ⟨[], [], .of_same hs, by simp⟩
  · exact ⟨[b], [], (takeBeat_transfers hb).then_same hs, by simp⟩
  · exact ⟨[], [dataBeat b], ⟨rfl, (countUp_zero _).symm, rfl, rfl, hn, by simp [dataBeat]⟩, by simp [dataBeat, endBeat]⟩
  · exact ⟨[], [endBeat], ⟨rfl, (countUp_zero _).symm, rfl, (countUp_zero _).symm, hn, by simp⟩, fun _ => ⟨rfl, rfl⟩⟩

/-- An operation that raises gives no beat. -/
theorem runOp_raise_transfers {op : Op} {s t : State} {r : Raise} (h : runOp op s = .raise r t) :
    ∃ taken, Transfers s t taken [] := by
  obtain ⟨-, -, hs | ⟨b, s1, hb, hs⟩⟩ := runOp_raise h
  · exact ⟨[], .of_same hs⟩
  · exact ⟨[b], (takeBeat_transfers hb).then_same hs⟩

/-! ### How a turn leaves the machine -/

theorem finish_next {s t : State} (h : finish s = .next t) : t = { s with prog := some [] } ∨ t = s.complete := by
  unfold finish at h
  split at h <;> cases h
  · exact .inl rfl
  · exact .inr rfl

theorem failWith_next {r : Raise} {s t : State} (h : failWith r s = .next t) :
    t = { s with prog := some [.fail r] } ∨ t = s.abort r := by
  unfold failWith at h
  split at h <;> cases h
  · exact .inl rfl
  · exact .inr rfl

/-- A turn ends in a state `u` that differs from where its operations stopped by at most the clean-up of a
`raise`; then it is left pending, completed (40_control.md R132) or aborted (60_exceptions.md R283). -/
theorem TurnEnd.leaves {ops : List Op} {s t : State} (h : TurnEnd ops s t) :
    ∃ u : State, u.hostPart = s.hostPart ∧ u.result = s.result ∧ (∃ taken, Transfers s u taken []) ∧
      ((∃ p, t = { u with prog := some p }) ∨ t = u.complete ∨ ∃ r, t = u.abort r) := by
  cases h with
  | finish hf =>
    exact ⟨s, rfl, rfl, ⟨[], .of_same rfl⟩, (finish_next hf).imp (⟨_, ·⟩) .inl⟩
  | @raise op ops s u t r hr hf =>
    obtain ⟨host, hres, -⟩ := runOp_raise hr
    exact ⟨u, host, hres, runOp_raise_transfers hr, (failWith_next hf).imp (⟨_, ·⟩) fun h => .inr ⟨r, h⟩⟩
  | wait hw => exact ⟨s, rfl, rfl, ⟨[], .of_same rfl⟩, .inl ⟨_, rfl⟩⟩

/-- A turn that has no operation left completes its command, or is held before that; it raises nothing. -/
theorem TurnEnd.of_nil {s t : State} (h : TurnEnd [] s t) :
    t.errCode = s.errCode ∧ t.errInfo = s.errInfo ∧ (t.phase = .idle ∨ t.prog = some []) := by
  obtain ⟨hf⟩ := h
  obtain rfl | rfl := finish_next hf
  · exact ⟨rfl, rfl, .inr rfl⟩
  · exact ⟨rfl, rfl, .inl rfl⟩

/-! ### The host's registers -/

/-- A turn writes nothing of the host's part but the phase, what is pending, the error registers and, at its
end, DONE or ERR. -/
theorem exec_hostPart {i : Instr} {s t : State} (h : exec i s = .next t) :
    t.hostPart = { s.hostPart with phase := t.phase, prog := t.prog, errCode := t.errCode, errInfo := t.errInfo,
                                   irqStatus := t.irqStatus } ∧
      (t.irqStatus = s.irqStatus ∨ t.irqStatus = s.irqStatus ||| irqDone ∨ t.irqStatus = s.irqStatus ||| irqErr) := by
  rw [exec_eq_runAll] at h
  obtain ⟨ops, s', host, hend⟩ := runAll_cases (P := fun _ u => u.hostPart = s.hostPart)
    (fun hu hr => (runOp_ok hr).1.trans hu) _ _ rfl h
  obtain ⟨u, hu, -, -, hleft⟩ := hend.leaves
  have hsame := hu.trans host
  have hirq : u.irqStatus = s.irqStatus := congrArg HostPart.irqStatus hsame
  rw [← hsame, ← hirq]
  obtain ⟨p, rfl⟩ | rfl | ⟨r, rfl⟩ := hleft
  · exact ⟨rfl, .inl rfl⟩
  · exact ⟨rfl, .inr (.inl rfl)⟩
  · exact ⟨rfl, .inr (.inr rfl)⟩

/-! ### RESULT -/

/-- No pending internal step is a procedure that writes RESULT. -/
def SparesResult (ops : List Op) : Prop := ∀ i, Op.run i ∈ ops → writesResult i = false

theorem Op.two_le_weight_run (i : Instr) : 2 ≤ (Op.run i).weight := by
  cases i <;> simp [Op.weight]

theorem Op.weight_le_one {op : Op} (h : ∀ i, op ≠ .run i) : op.weight ≤ 1 := by
  cases op with
  | run i => exact absurd rfl (h i)
  | _ => simp [Op.weight]

theorem Op.weight_le_opsWeight {op : Op} {ops : List Op} (h : op ∈ ops) : op.weight ≤ opsWeight ops :=
  List.single_le_sum (by simp) _ (List.mem_map_of_mem h)

/-- What weighs less than an internal step contains none. -/
theorem sparesResult_of_weight {ops : List Op} (h : opsWeight ops < 2) : SparesResult ops := fun i hi => by
  have hrun := Op.two_le_weight_run i
  have hle := Op.weight_le_opsWeight hi
  omega

/-- Only ENCODE and DECODE have internal steps, and none of these writes RESULT. -/
theorem runOp_more_sparesResult {op : Op} {s t : State} {more : List Op} (h : runOp op s = .ok t more) :
    SparesResult more := by
  by_cases hop : ∃ i, op = .run i
  · obtain ⟨i, rfl⟩ := hop
    obtain ⟨-, -, hw⟩ := procOf_ok h
    cases i with
    | encode => cases h; simp [SparesResult, writesResult]
    | decode => cases h; simp [SparesResult, writesResult]
    | _ => exact sparesResult_of_weight hw
  · have hw := Op.weight_le_one fun i hi => hop ⟨i, hi⟩
    refine sparesResult_of_weight ?_
    obtain ⟨-, ⟨-, hlt⟩ | ⟨-, -, -, -, hle⟩ | ⟨-, -, -, -, rfl, -⟩ | ⟨-, -, -, rfl, -⟩⟩ := runOp_ok h
    · omega
    · omega
    · simp
    · simp

theorem SparesResult.step {op : Op} {ops more : List Op} {s t : State} (h : SparesResult (op :: ops))
    (hr : runOp op s = .ok t more) : SparesResult (more ++ ops) ∧ t.result = s.result := by
  refine ⟨fun i hi => ?_, runOp_result (fun i hi => h i (hi ▸ List.mem_cons_self)) hr⟩
  obtain hi | hi := List.mem_append.1 hi
  · exact runOp_more_sparesResult hr i hi
  · exact h i (List.mem_cons_of_mem _ hi)

/-- The first turn of a command that is none of the three leaves RESULT alone. -/
theorem exec_result {i : Instr} {s t : State} (hp : s.prog = none) (hw : writesResult i = false)
    (h : exec i s = .next t) : t.result = s.result := by
  have hstart : SparesResult (startOps i s) := by simp [startOps, hp, SparesResult, hw]
  rw [exec_eq_runAll] at h
  obtain ⟨ops, s', ⟨-, hres⟩, hend⟩ := runAll_cases (P := fun ops u => SparesResult ops ∧ u.result = s.result)
    (fun hu hr => ⟨(hu.1.step hr).1, (hu.1.step hr).2.trans hu.2⟩) _ _ ⟨hstart, rfl⟩ h
  obtain ⟨u, -, hu, -, hleft⟩ := hend.leaves
  rw [← hres, ← hu]
  obtain ⟨p, rfl⟩ | rfl | ⟨r, rfl⟩ := hleft <;> rfl

theorem writesResult_cases {i : Instr} (h : writesResult i = true) :
    (∃ arg, i = .bbGet arg) ∨ i = .pqExtract ∨ i = .softReset := by
  cases i with
  | bbGet arg => exact .inl ⟨arg, rfl⟩
  | pqExtract => exact .inr (.inl rfl)
  | softReset => exact .inr (.inr rfl)
  | _ => cases h

/-- Settles O59: the frame of a turn (`exec_hostPart`), and RESULT through the pending internal steps
(`exec_result`). -/
theorem commandsLeaveTheHostsRegistersAlone : Obligations.CommandsLeaveTheHostsRegistersAlone := by
  unfold Obligations.CommandsLeaveTheHostsRegistersAlone
  intro i s t h
  obtain ⟨host, hirq⟩ := exec_hostPart h
  refine ⟨?_, hirq, fun hp => ?_⟩
  · exact ⟨congrArg HostPart.ctrl host, congrArg HostPart.symLimit host, congrArg HostPart.irqEnable host,
      congrArg HostPart.cmd host, congrArg HostPart.wireBe host, congrArg HostPart.symLsb host,
      congrArg HostPart.limitEn host, congrArg HostPart.symLimitL host, congrArg HostPart.rstN host,
      congrArg HostPart.busRsp host, congrArg HostPart.rspLog host, congrArg HostPart.sched host⟩
  · cases hw : writesResult i with
    | false => exact .inl (exec_result hp hw h)
    | true => exact .inr (writesResult_cases hw)

/-! ### The streams -/

/-- The middle of a turn that began at `s`: the beats are accounted for, and where only the last operation can
give a marker, one that has been given leaves nothing pending. -/
structure Streaming (s : State) (start ops : List Op) (u : State) (taken given : List Beat) : Prop where
  transfers : Transfers s u taken given
  host : u.hostPart = s.hostPart
  marks : marksLast start = true → marksLast ops = true
  ended : marksLast start = true → endBeat ∈ given → ops = []

theorem Streaming.step {s u v : State} {start ops more : List Op} {op : Op} {taken given : List Beat}
    (h : Streaming s start (op :: ops) u taken given) (hr : runOp op u = .ok v more) :
    ∃ taken given, Streaming s start (more ++ ops) v taken given := by
  obtain ⟨taken', given', htrans, hend⟩ := runOp_transfers hr
  refine ⟨_, _, h.transfers.trans htrans, (runOp_ok hr).1.trans h.host, fun hm => marksLast_step (h.marks hm) hr,
    fun hm hg => ?_⟩
  obtain hg | hg := List.mem_append.1 hg
  · cases h.ended hm hg
  · obtain ⟨rfl, rfl⟩ := hend hg
    obtain rfl | ⟨hmay, -⟩ := marksLast_cons.1 (h.marks hm)
    · rfl
    · cases hmay

theorem startOps_marksLast {i : Instr} {s : State} (h : ∀ ops, s.prog = some ops → marksLast ops = true) :
    marksLast (startOps i s) = true := by
  unfold startOps
  cases hp : s.prog with
  | none => rfl
  | some ops => exact h ops hp

/-- Settles O60, by `Streaming` along the turn: where a marker has been given nothing is pending, so the turn
ends as `TurnEnd.of_nil` says. -/
theorem streamsAreAccountedFor : Obligations.StreamsAreAccountedFor := by
  unfold Obligations.StreamsAreAccountedFor
  intro i s t h
  rw [exec_eq_runAll] at h
  obtain ⟨ops, s', ⟨taken, given, hs⟩, hend⟩ := runAll_cases
    (P := fun ops u => ∃ taken given, Streaming s (startOps i s) ops u taken given)
    (fun ⟨_, _, hu⟩ hr => hu.step hr) _ _ ⟨[], [], .of_same rfl, rfl, id, by simp⟩ h
  obtain ⟨u, -, -, ⟨taken', hu⟩, hleft⟩ := hend.leaves
  have hsame : t.streamPart = u.streamPart := by obtain ⟨p, rfl⟩ | rfl | ⟨r, rfl⟩ := hleft <;> rfl
  have htrans := (hs.transfers.trans hu).then_same hsame
  rw [List.append_nil] at htrans
  refine ⟨_, given, htrans.inQ, htrans.inCount, htrans.outLog, htrans.outCount, htrans.outReady, htrans.shape,
    fun hmarks hg => ?_⟩
  obtain rfl := hs.ended (startOps_marksLast hmarks) hg
  obtain ⟨-, hcode, hinfo⟩ := hostPart_phase hs.host
  rw [← hcode, ← hinfo]
  exact hend.of_nil

end Sys2Proof.Machine
end

section
/-! SUPPORT. When the host offers and takes beats (20_memory.md R88, R90, R92, R97): a turn that goes on with more
beats is the turn that had them from the start, and a core that has nothing to do holds its state. -/

namespace Sys2Proof.Machine

/-! ### More beats, more readiness -/

/-- What the host offers is outside of an operation that does not wait. -/
theorem runOp_offered (q : List Beat) (k : Nat) {op : Op} {s : State} (hw : runOp op s ≠ .wait) :
    runOp op (s.offered q k) = (runOp op s).map (State.offered · q k) := by
  have hsame : ∀ {u : State}, u.outside = s.outside → u.around s.outside q k = u.offered q k := fun hu => hu ▸ rfl
  rw [← hsame (u := s) rfl, runOp_around s.outside q k op s hw]
  cases hr : runOp op s with
  | ok s' more => rw [Res.map, Res.map, hsame (outside_of_hostPart (runOp_ok hr).1)]
  | raise r s' => rw [Res.map, Res.map, hsame (outside_of_hostPart (runOp_raise hr).1)]
  | wait => rfl
  | fault f => rfl

theorem runOp_offered_ok (q : List Beat) (k : Nat) {op : Op} {s s' : State} {more : List Op}
    (h : runOp op s = .ok s' more) : runOp op (s.offered q k) = .ok (s'.offered q k) more := by
  rw [runOp_offered q k (by simp [h]), h, Res.map]

theorem runOp_offered_raise (q : List Beat) (k : Nat) {op : Op} {s s' : State} {r : Raise}
    (h : runOp op s = .raise r s') : runOp op (s.offered q k) = .raise r (s'.offered q k) := by
  rw [runOp_offered q k (by simp [h]), h, Res.map]

/-- How far a command has come is not read by a turn that is offered more. -/
theorem runAll_offered_prog (p : Option (List Op)) (q : List Beat) (k : Nat) (ops : List Op) (s : State) :
    runAll ops (State.offered { s with prog := p } q k) = runAll ops (s.offered q k) :=
  runAll_prog p ops (s.offered q k)

/-- Where a turn leaves its command in EXEC, what it leaves pending goes on, with more beats, as the operations it
stopped at would have with those beats. -/
theorem TurnEnd.offered (q : List Beat) (k : Nat) {ops : List Op} {s t : State} (h : TurnEnd ops s t)
    (hx : t.phase = .exec) :
    ∃ p, t.prog = some p ∧ runAll p (t.offered q k) = runAll ops (s.offered q k) := by
  cases h with
  | finish hf =>
    obtain rfl | rfl := finish_next hf
    · exact ⟨[], rfl, runAll_offered_prog _ q k [] s⟩
    · cases hx
  | @raise op ops s s' t r hr hf =>
    obtain rfl | rfl := failWith_next hf
    · refine ⟨[.fail r], rfl, ?_⟩
      rw [runAll_offered_prog, runAll_raise (op := .fail r) rfl, runAll_raise (runOp_offered_raise q k hr)]
    · cases hx
  | @wait op ops s hw => exact ⟨op :: ops, rfl, runAll_offered_prog _ q k (op :: ops) s⟩

/-- Settles O11: with the later beats there from the start the turn performs the same operations
(`runOp_offered_ok`) up to where it stopped, and there it goes on alike (`TurnEnd.offered`). -/
theorem pacingOfBeatsMakesNoDifference : Obligations.PacingOfBeatsMakesNoDifference := by
  unfold Obligations.PacingOfBeatsMakesNoDifference
  intro i s t q k _ h hx
  rw [exec_eq_runAll] at h
  obtain ⟨ops, s', hsame, hend⟩ := runAll_cases
    (P := fun ops u => runAll (startOps i s) (s.offered q k) = runAll ops (u.offered q k))
    (fun hu hr => hu.trans (runAll_ok (runOp_offered_ok q k hr))) _ _ rfl h
  obtain ⟨p, hp, he⟩ := hend.offered q k hx
  have hstart : startOps i (t.offered q k) = p := by simp only [startOps, State.offered, hp]
  calc exec i (t.offered q k)
    _ = runAll p (t.offered q k) := by rw [exec_eq_runAll, hstart]
    _ = runAll ops (s'.offered q k) := he
    _ = runAll (startOps i s) (s.offered q k) := hsame.symm
    _ = exec i (s.offered q k) := (exec_eq_runAll i (s.offered q k)).symm

/-! ### A core that waits -/

/-- A core turn moves the schedule on and is held or not; nothing else distinguishes where it starts from. -/
theorem State.CoreTurn.start_eq {s s1 : State} (h : s.CoreTurn s1) :
    ∃ sched hold, s1 = { s with sched := sched, hold := hold } := by
  obtain ⟨-, -, rfl⟩ | ⟨hold, rest, -, rfl⟩ := h
  · exact ⟨s.sched, false, rfl⟩
  · exact ⟨rest, hold, rfl⟩

theorem State.CoreTurn.step_eq {s s1 : State} (h : s.CoreTurn s1) : step s = coreTurn s1 := by
  obtain ⟨hs, hr, rfl⟩ | ⟨hold, rest, hs, rfl⟩ := h
  · simp only [step, hs, hr]
  · simp only [step, hs]

/-- Inside `in_take`, in the middle of a message, an operation waits while no beat is offered (20_memory.md R90). -/
theorem runOp_wait_of_takesInput {op : Op} {s : State} (hop : op.takesInput = true) (hq : s.inQ = [])
    (he : s.inEom = false) : runOp op s = .wait := by
  have hb : s.takeBeat = none := by rw [State.takeBeat, hq]
  cases op with
  | run | put | putEnd | fail => cases hop
  | discard => simp [runOp, discardLoop, he, hb]
  | accum => simp [runOp, accumLoop, he, hb]
  | rdLen => simp [runOp, rdLenLoop, hb]
  | rdBucket => simp [runOp, rdBucketLoop, he, hb]
  | pack => simp [runOp, packLoop, he, hb]
  | unpack => simp [runOp, unpackLoop, he, hb]

/-- Inside `out_put` and `out_end` an operation waits while the host is not ready (20_memory.md R92, R93). -/
theorem runOp_wait_of_offers {op : Op} {s : State} (hop : op.offers.isSome = true) (hr : s.outReady = 0) :
    runOp op s = .wait := by
  cases op with
  | put b => simp [runOp, putOp, State.putByte, hr]
  | putEnd => simp [runOp, putEndOp, State.putMarker, hr]
  | run | discard | accum | rdLen | rdBucket | pack | unpack | fail => cases hop

/-- A turn whose first pending operation waits changes nothing. -/
theorem exec_of_wait {i : Instr} {op : Op} {ops : List Op} {s : State} (hp : s.prog = some (op :: ops))
    (hw : runOp op s = .wait) : exec i s = .next s := by
  have hstart : startOps i s = op :: ops := by simp only [startOps, hp]
  rw [exec_eq_runAll, hstart, runAll_wait hw, ← hp]

/-- Settles O12: an idle core turn does nothing, and a pending operation that waits keeps its turn's state
(`exec_of_wait`). -/
theorem waitingCoreHoldsAllState : Obligations.WaitingCoreHoldsAllState := by
  unfold Obligations.WaitingCoreHoldsAllState
  intro s s1 h hn
  rw [h.step_eq]
  obtain ⟨sched, hold, rfl⟩ := h.start_eq
  refine ⟨fun hp => by simp only [coreTurn, hn, hp, if_true], fun i op ops hx hd hp hwait => ?_⟩
  simp only [coreTurn, hn, hx, hd, if_true]
  refine exec_of_wait hp ?_
  obtain ⟨hin, hq, he⟩ | ⟨hout, hr⟩ := hwait
  · exact runOp_wait_of_takesInput hin hq he
  · exact runOp_wait_of_offers hout hr

end Sys2Proof.Machine
end

section
/-! SUPPORT. Draining a message and moving the header of the bit buffer (40_control.md R137, 41_bitbuffer.md R159,
R160), and the two pipelines that send and receive it (44_codec.md R241, R242). -/

namespace Sys2Proof.Machine

/-! ### IN_DISCARD -/

/-- With no message open there is nothing to discard. -/
theorem runOp_discard_ended {s : State} (h : s.inEom = true) : runOp .discard s = .ok s [] := by
  rw [runOp, discardLoop, if_pos h]

/-- Settles O27: IN_DISCARD is its loop, which stops at once when `r_in_eom` = 1 and takes a whole message when it
is 0 (`discard_spec`). -/
theorem inDiscardDrainsTheOpenMessage : Obligations.InDiscardDrainsTheOpenMessage := by
  unfold Obligations.InDiscardDrainsTheOpenMessage
  intro s hf
  have hloop : exec .inDiscard s = runAll [.discard] s := exec_ops hf rfl
  refine ⟨fun he => ?_, fun he q rest hm hq => ?_⟩
  · rw [hloop, runAll_ok (runOp_discard_ended he), List.append_nil, finish_fresh hf.2]
  · rw [hloop, discard_spec q rest [] s hm hq he, finish_fresh (s := s.took q rest) hf.2, State.took,
      lastFlag_message _ hm]

/-! ### BB_SERIALIZE -/

/-- The header's length in the terms of 41_bitbuffer.md R162. -/
theorem headerOf_length (be : Bool) {len : BitVec 12} (hl : len.toNat ≤ Config.tbMaxBits) (tb : BitVec 2576) :
    (headerOf be len.toNat tb).length = 4 + 2 * ((len.toNat + 15) / 16 + 1) := by
  rw [headerOf_eq be hl, headerBytes_length, bucketCount]

/-- The end marker as the tail of the output. -/
theorem State.gaveEnd_eq (s : State) (f : Bool) :
    s.gaveEnd f = { s with outReady := s.outReady - f.toNat
                           outLog := s.outLog ++ if f then [endBeat] else [] } := by
  cases f <;> simp [State.gaveEnd]

/-- Settles O32: BB_SERIALIZE leaves only bytes and its marker to emit, and the bytes are the header's
(`headerOf_eq`). -/
theorem bbSerializeEmitsTheHeader : Obligations.BbSerializeEmitsTheHeader := by
  unfold Obligations.BbSerializeEmitsTheHeader
  intro s f hf hl hr
  have hlen := headerOf_length s.wireBe hl s.tb
  refine ⟨hlen, ?_⟩
  rw [exec_ops hf (i := .bbSerialize f) rfl, ← headerOf_eq s.wireBe hl, runAll_output hf.2 (by omega),
    State.gaveEnd_eq, State.gave, hlen]
  rfl

/-! ### BB_DESERIALIZE -/

/-- Where the header's buckets stand in TB, with the padding dropped (41_bitbuffer.md R151, R153). -/
theorem tbGet_keep_ofBuckets {n : Nat} {vs : List (BitVec 16)} (hn : n ≤ Config.tbMaxBits)
    (hl : vs.length ≤ Config.tbBuckets) (i : Nat) :
    tbGet (tbKeep (tbOfBuckets 0 vs) n) i = (decide (i < n) && (vs.getD (i / 16) 0).getMsbD (i % 16)) := by
  rw [tbGet_tbKeep _ _ _ (hn.trans (by decide)), tbGet_tbOfBuckets _ _ _ (by omega)]
  simp

/-- Settles O33: the beats are the header `header_spec` reads, and its buckets load as
`tbGet_keep_ofBuckets` says. -/
theorem bbDeserializeLoadsAHeader : Obligations.BbDeserializeLoadsAHeader := by
  unfold Obligations.BbDeserializeLoadsAHeader
  intro s n vs q rest hf hn hl hq hc
  obtain ⟨n, rfl⟩ : ∃ v : Word, n = v.toNat := ⟨BitVec.ofNat 32 n, by rw [BitVec.toNat_ofNat]; omega⟩
  simp only [wrInt_eq] at hc
  have hpay : (payload q).length = 4 + 2 * vs.length := by
    rw [hc.1]
    simp [intBytes_length, List.length_flatMap, Nat.mul_comm]
  have hread := header_spec n vs q rest [] { s with inEom := false } hc hn hl hq
  refine ⟨_, (exec_ops hf rfl).trans (hread.trans (finish_fresh hf.2)), ?_, tbGet_keep_ofBuckets hn ?_⟩
  · rw [← hpay]; rfl
  · simp only [Config.tbBuckets]; omega

/-! ### ENCODE -/

/-- The header of an encoded tree fits the buffer: at most 256 leaves (43_tree.md R211). -/
theorem State.EncodesFor.tbLen_le {t s : State} {S : List Byte} {T : HTree} (h : t.EncodesFor s S T)
    (hl : T.leaves ≤ Config.symbols) : t.tbLen.toNat ≤ Config.tbMaxBits := by
  have hbits := T.toBits_length s.symLsb
  rw [h.bitCount]
  simp only [Config.symbols, Config.tbMaxBits] at hl ⊢
  omega

/-- Settles O52: ENCODE as a whole (`encode_ok`), its header in the spec's terms and its codes those of the tree
(`State.EncodesFor.bodyBits`). -/
theorem encodeEmitsHeaderBodyAndMarker : Obligations.EncodeEmitsHeaderBodyAndMarker := by
  unfold Obligations.EncodeEmitsHeaderBodyAndMarker
  intro s q1 q2 rest S S2 hf hn hh hm1 hm2 hp1 hp2 hq hne hlen hsub hr
  obtain ⟨t, l, r, body, hrun, ht, hl, hbody, e⟩ := encode_ok hf hn hh hm1 hm2 hp1 hp2 hq hne
    (Nat.le_of_lt_succ hlen) hsub hr
  rw [ht.bodyBits hsub] at hbody
  rw [← headerOf_eq s.wireBe (ht.tbLen_le hl)] at e
  exact ⟨t, .node l r, body, hrun, ht, hbody, e⟩

/-! ### DECODE -/

/-- A walk of a parsed tree emits what a walk of the tree does, and stands inside it alike: which leaf is synthetic
shows in neither (43_tree.md R215). -/
theorem descend_of_plain {T stand : HTree} {bs : List Bool} {out : List Byte}
    (h : HTree.descend T T bs = (out, stand)) :
    HTree.descend T.plain T.plain bs = (out, stand.plain) ∧
      decide (stand.plain ≠ T.plain) = decide (stand ≠ T) := by
  have hpart := descend_plain_partial T bs
  rw [h] at hpart
  exact ⟨by rw [descend_plain, h], hpart⟩

/-- Settles O54: a whole stream by `decode_ok`, the header of a leaf by `decode_leaf`, and the three steps by
`decode_steps`. -/
theorem decodeEmitsTheSymbolsOfTheBody : Obligations.DecodeEmitsTheSymbolsOfTheBody := by
  unfold Obligations.DecodeEmitsTheSymbolsOfTheBody
  intro s hf hn
  refine ⟨fun q rest tb len hq hlen htail => ?_, fun t hx he h ht => decode_steps hf hx he h ht⟩
  obtain ⟨len, rfl⟩ : ∃ v : BitVec 12, len = v.toNat := ⟨BitVec.ofNat 12 len, by rw [BitVec.toNat_ofNat]; omega⟩
  rw [headerOf_eq s.wireBe hlen, BitVec.ofNat_toNat, BitVec.setWidth_eq]
  refine ⟨fun l r stand body out hm hp hbits hfit hd => ?_, fun sym y hc hbits hfit => ?_⟩
  · obtain ⟨hplain, hpart⟩ := descend_of_plain hd
    obtain ⟨hall, hlimit⟩ := decode_ok hf hn hm hq hp hlen htail hbits hfit hplain
    refine ⟨fun hlt hr => ?_, fun hen hle hr => ?_⟩
    · obtain ⟨m, x, pos, hpar, hrun⟩ := hall hlt hr
      rw [hpart] at hrun
      exact ⟨_, hrun, hpar, rfl⟩
    · obtain ⟨m, x, pos, hpar, hrun⟩ := hlimit hen hle hr
      exact ⟨_, hrun, hpar, rfl⟩
  · obtain ⟨m, pos, hpar, hrun⟩ := decode_leaf hf hn hq hc hlen htail hbits hfit
    exact ⟨_, hrun, hpar, rfl⟩

end Sys2Proof.Machine
end

section
/-! SUPPORT. The address map of the register bus (20_memory.md R75, R78): what an address names, which accesses are
performed, and what the windows read and take (R79 to R83). -/

namespace Sys2Proof.Machine

/-! ### What an address names -/

/-- The reserved ranges of 20_memory.md R75. -/
def ReservedAddr (n : Nat) : Prop :=
  (0x048 ≤ n ∧ n < 0x400) ∨ (0xC00 ≤ n ∧ n < 0x1000) ∨ (0x2284 ≤ n ∧ n < 0x4000)

/-- The addresses of the windows that are only read (20_memory.md R80 to R83). -/
def ReadOnlyWindowAddr (n : Nat) : Prop := n % 4 = 0 ∧ 0x800 ≤ n ∧ ¬ ReservedAddr n

/-- The regions of the address map (20_memory.md R75), each with what its addresses name. -/
inductive AddrRegion (n : Nat) : Target → Prop where
  | nothing (h : n % 4 ≠ 0 ∨ ReservedAddr n) : AddrRegion n .nothing
  | reg (m : Nat) (hm : m < 18) (h : n = 4 * m) : AddrRegion n (regAt m)
  | freq (x : Byte) (h : n % 4 = 0 ∧ 0x400 ≤ n ∧ n < 0x800) : AddrRegion n (.freq x)
  | heap (k : Nat) (h : ReadOnlyWindowAddr n) : AddrRegion n (.heap k)
  | node (i : NodeIx) (hi : Bool) (h : ReadOnlyWindowAddr n) : AddrRegion n (.node i hi)
  | tb (k : Nat) (h : ReadOnlyWindowAddr n) : AddrRegion n (.tb k)
  | code (x : Byte) (w : Nat) (h : ReadOnlyWindowAddr n) : AddrRegion n (.code x w)

theorem regAt_of_ge {m : Nat} (h : 18 ≤ m) : regAt m = .nothing := by
  obtain ⟨k, rfl⟩ := Nat.exists_eq_add_of_le' h
  rfl

/-- Every address lies in the region of what it names. -/
theorem targetOf_region (addr : BitVec 15) : AddrRegion addr.toNat (targetOf addr) := by
  unfold targetOf
  generalize addr.toNat = n
  have window : n % 4 = 0 → 0x800 ≤ n → ¬ ReservedAddr n → ReadOnlyWindowAddr n := fun h1 h2 h3 => ⟨h1, h2, h3⟩
  unfold ReservedAddr at window
  dsimp only
  split_ifs
  · exact .nothing (.inl ‹_›)
  · by_cases hm : n / 4 < 18
    · exact .reg _ hm (by omega)
    · rw [regAt_of_ge (by omega)]
      exact .nothing (.inr (.inl (by omega)))
  · exact .freq _ (by omega)
  · exact .heap _ (window (by omega) (by omega) (by omega))
  · exact .nothing (.inr (.inr (.inl (by omega))))
  · exact .node _ _ (window (by omega) (by omega) (by omega))
  · exact .tb _ (window (by omega) (by omega) (by omega))
  · exact .nothing (.inr (.inr (.inr (by omega))))
  · exact .code _ _ (window (by omega) (by omega) (by omega))

/-! ### Which accesses are performed -/

/-- Whether an access is performed (20_memory.md R76, R77). -/
def State.performs (s : State) (a : BusReq) : Bool :=
  if a.write then s.writable (targetOf a.addr) else s.readable (targetOf a.addr)

/-- An access that is not performed (20_memory.md R78). -/
theorem step_notPerformed {s : State} {a : BusReq} {rest : List Turn} (h : s.Presents a rest)
    (hno : s.performs a = false) : step s = .next (State.notPerformed { s with sched := rest }) := by
  have hno' : State.performs { s with sched := rest } a = false := hno
  rw [step_presents h, State.busAccess]
  unfold State.performs at hno'
  cases hw : a.write with
  | false => simp only [hw, Bool.false_eq_true, if_false] at hno' ⊢; rw [hno', if_neg (by simp)]
  | true => simp only [hw, if_true] at hno' ⊢; rw [hno', if_neg (by simp)]

/-- In INIT only ID, VERSION and STATUS are read (20_memory.md R78 case 5). -/
theorem readable_regAt {s : State} {m : Nat} (hm : m < 18) :
    s.readable (regAt m) = true ↔ (s.phase = .init → m = 0 ∨ m = 1 ∨ m = 5) := by
  interval_cases m <;> simp [regAt, State.readable]

/-- CTRL, SYM_LIMIT, CMD, IRQ_STATUS and IRQ_ENABLE are written, outside INIT (20_memory.md R78 cases 3, 5). -/
theorem writable_regAt {s : State} {m : Nat} (hm : m < 18) :
    s.writable (regAt m) = true ↔ s.phase ≠ .init ∧ (m = 2 ∨ m = 3 ∨ m = 4 ∨ m = 9 ∨ m = 10) := by
  interval_cases m <;> simp [regAt, State.writable]

/-- The reads of the registers that R78 leaves (20_memory.md R76, R78 case 5). -/
theorem not_refuses_reg_read {s : State} {a : BusReq} {m : Nat} (hm : m < 18) (h : a.addr.toNat = 4 * m)
    (hw : a.write = false) : ¬ s.Refuses a ↔ (s.phase = .init → m = 0 ∨ m = 1 ∨ m = 5) := by
  simp only [State.Refuses, hw, h, List.mem_cons, List.not_mem_nil, or_false, Bool.false_eq_true, false_and,
    true_and, false_or]
  by_cases hp : s.phase = .init
  · simp only [hp, true_and, true_implies, ne_eq, reduceCtorEq, not_false_eq_true, and_true]; omega
  · simp only [hp, false_and, or_false, false_implies, iff_true]; omega

/-- The writes of the registers that R78 leaves (20_memory.md R77, R78 cases 3, 5). -/
theorem not_refuses_reg_write {s : State} {a : BusReq} {m : Nat} (hm : m < 18) (h : a.addr.toNat = 4 * m)
    (hw : a.write = true) : ¬ s.Refuses a ↔ s.phase ≠ .init ∧ (m = 2 ∨ m = 3 ∨ m = 4 ∨ m = 9 ∨ m = 10) := by
  simp only [State.Refuses, roRegisters, hw, h, List.mem_cons, List.not_mem_nil, or_false, Bool.true_eq_false,
    false_and, true_and, not_false_eq_true, and_true, ne_eq]
  by_cases hp : s.phase = .init
  · simp [hp]
  · simp only [hp, or_false, not_false_eq_true, true_and]; omega

/-- The FREQ window is read and written while idle (20_memory.md R78 case 4). -/
theorem not_refuses_freq {s : State} {a : BusReq}
    (h : a.addr.toNat % 4 = 0 ∧ 0x400 ≤ a.addr.toNat ∧ a.addr.toNat < 0x800) :
    ¬ s.Refuses a ↔ s.phase = .idle := by
  simp only [State.Refuses, roRegisters, List.mem_cons, List.not_mem_nil, or_false]
  by_cases hp : s.phase = .idle
  · simp only [hp, ne_eq, not_true, and_false, reduceCtorEq, false_and, or_false, iff_true]; omega
  · simp [hp, h.2.1]

/-- The other windows are only read, while idle (20_memory.md R78 cases 3, 4). -/
theorem not_refuses_readOnlyWindow {s : State} {a : BusReq} (h : ReadOnlyWindowAddr a.addr.toNat) :
    ¬ s.Refuses a ↔ a.write = false ∧ s.phase = .idle := by
  obtain ⟨h4, h800, hres⟩ := h
  unfold ReservedAddr at hres
  have h400 : 0x400 ≤ a.addr.toNat := by omega
  simp only [State.Refuses, h4, h800, h400, hres, ne_eq, not_true, or_true, and_true, true_and, false_or]
  by_cases hp : s.phase = .idle <;> simp [hp]

/-- An access is performed unless it falls under one of the five cases (20_memory.md R78). -/
theorem State.performs_iff (s : State) (a : BusReq) : s.performs a = true ↔ ¬ s.Refuses a := by
  unfold State.performs
  have region := targetOf_region a.addr
  generalize targetOf a.addr = t at region
  cases region with
  | nothing h =>
    have href : s.Refuses a := by
      obtain h | h := h
      · exact .inl h
      · exact .inr (.inl h)
    simp [href, State.readable, State.writable]
  | reg m hm h =>
    cases hw : a.write with
    | false => exact (readable_regAt hm).trans (not_refuses_reg_read hm h hw).symm
    | true => exact (writable_regAt hm).trans (not_refuses_reg_write hm h hw).symm
  | freq x h => simp [not_refuses_freq h, State.readable, State.writable]
  | heap k h | node i hi h | tb k h | code x w h =>
    rw [not_refuses_readOnlyWindow h]
    cases a.write <;> simp [State.readable, State.writable]

/-- Settles O17: such an access is one that is not performed (`State.performs_iff`). -/
theorem refusedAccessSetsBusErrOnly : Obligations.RefusedAccessSetsBusErrOnly := by
  unfold Obligations.RefusedAccessSetsBusErrOnly
  intro s a rest h href
  have hno : s.performs a = false := Bool.eq_false_iff.2 fun hp => (s.performs_iff a).1 hp href
  rw [step_notPerformed h hno]
  rfl

/-- A read moves at most the model's counter of free values (20_memory.md R76; log 4). -/
theorem State.countDraw_eq (s : State) (t : Target) : s.countDraw t = { s with draws := (s.countDraw t).draws } := by
  cases t with
  | reg r => cases hd : s.isDraw r <;> simp [State.countDraw, hd]
  | _ => rfl

/-- Settles O18: an access under none of the five cases is performed (`State.performs_iff`), as a read or as a
write. -/
theorem otherAccessesArePerformed : Obligations.OtherAccessesArePerformed := by
  unfold Obligations.OtherAccessesArePerformed
  intro s a rest h href
  have hp := (s.performs_iff a).2 href
  obtain ⟨_ | _, addr, v⟩ := a
  · refine ⟨_, _, step_read h rfl hp, rfl, by simp, fun _ => ?_⟩
    rw [State.countDraw_eq]
  · exact ⟨_, 0, step_write h rfl hp, rfl, fun _ => rfl, by simp⟩

end Sys2Proof.Machine
end

section
/-! SUPPORT. What the windows of the register bus read and take while idle (20_memory.md R79 to R83). -/

namespace Sys2Proof.Machine

/-! ### Addresses of window words -/

/-- What names a window word and not a register (20_memory.md R75). -/
def Target.isWindow : Target → Bool
  | .freq _ | .heap _ | .node .. | .tb _ | .code .. => true
  | .reg _ | .nothing => false

theorem toNat_ofNat15 {n : Nat} (h : n < 32768) : (BitVec.ofNat 15 n).toNat = n := by
  rw [BitVec.toNat_ofNat]; omega

theorem targetOf_freq (x : Byte) : targetOf (BitVec.ofNat 15 (0x400 + 4 * x.toNat)) = .freq x := by
  have hx := x.isLt
  simp only [targetOf, toNat_ofNat15 (show 0x400 + 4 * x.toNat < 32768 by omega)]
  iterate 2 rw [if_neg (by omega)]
  rw [if_pos (by omega), show (0x400 + 4 * x.toNat - 0x400) / 4 = x.toNat by omega, BitVec.ofNat_toNat,
    BitVec.setWidth_eq]

theorem targetOf_heap {i : Nat} (hi : i < 256) : targetOf (BitVec.ofNat 15 (0x800 + 4 * i)) = .heap i := by
  simp only [targetOf, toNat_ofNat15 (show 0x800 + 4 * i < 32768 by omega)]
  iterate 3 rw [if_neg (by omega)]
  rw [if_pos (by omega), show (0x800 + 4 * i - 0x800) / 4 = i by omega]

/-- The two words of a NODE window entry (20_memory.md R81). -/
theorem targetOf_node {n i : Nat} (hi : i < 512) (h4 : n % 4 = 0) (h8 : n / 8 = 0x200 + i) :
    targetOf (BitVec.ofNat 15 n) = .node (BitVec.ofNat 9 i) (decide (n % 8 = 4)) := by
  simp only [targetOf, toNat_ofNat15 (show n < 32768 by omega)]
  iterate 5 rw [if_neg (by omega)]
  rw [if_pos (by omega), show (n - 0x1000) / 8 = i by omega]

theorem targetOf_tb {k : Nat} (hk : k < 161) : targetOf (BitVec.ofNat 15 (0x2000 + 4 * k)) = .tb k := by
  simp only [targetOf, toNat_ofNat15 (show 0x2000 + 4 * k < 32768 by omega)]
  iterate 6 rw [if_neg (by omega)]
  rw [if_pos (by omega), show (0x2000 + 4 * k - 0x2000) / 4 = k by omega]

theorem targetOf_code (x : Byte) {k : Nat} (hk : k < 16) :
    targetOf (BitVec.ofNat 15 (0x4000 + 64 * x.toNat + 4 * k)) = .code x k := by
  have hx := x.isLt
  simp only [targetOf, toNat_ofNat15 (show 0x4000 + 64 * x.toNat + 4 * k < 32768 by omega)]
  iterate 8 rw [if_neg (by omega)]
  rw [show (0x4000 + 64 * x.toNat + 4 * k - 0x4000) / 64 = x.toNat by omega,
    show (0x4000 + 64 * x.toNat + 4 * k - 0x4000) % 64 / 4 = k by omega, BitVec.ofNat_toNat, BitVec.setWidth_eq]

/-- While idle a window word answers a read, and nothing else changes (20_memory.md R76). -/
theorem step_readWindow {s : State} {addr : BitVec 15} {w : Word} {rest : List Turn} {t : Target}
    (ht : targetOf addr = t) (hwin : t.isWindow = true) (hp : s.phase = .idle)
    (h : s.Presents (readOf addr w) rest) : step s = .next (s.answered rest (s.readTarget t) false) := by
  have hr : s.readable t = true := by
    cases t with
    | reg | nothing => cases hwin
    | freq | heap | node | tb | code => exact decide_eq_true hp
  rw [step_read h ht hr]
  cases t with
  | reg | nothing => cases hwin
  | freq | heap | node | tb | code => rfl

/-! ### FREQ -/

/-- Settles O22: a word of the FREQ window is one entry of FREQ, read and written alone (`freqAt_freqPut`). -/
theorem freqWindowReadsAndWritesFreq : Obligations.FreqWindowReadsAndWritesFreq := by
  unfold Obligations.FreqWindowReadsAndWritesFreq
  intro s rest x v hp
  refine ⟨step_readWindow (targetOf_freq x) rfl hp, fun h hw => ⟨freqPut s.freq x v, ?_, ?_⟩⟩
  · exact step_write h (targetOf_freq x) (decide_eq_true hp)
  · exact fun y => freqAt_freqPut hw x y v

/-! ### HEAP and NODE -/

theorem toNat_append_eq_add {v w : Nat} (x : BitVec v) (y : BitVec w) :
    (x ++ y).toNat = x.toNat * 2 ^ w + y.toNat := by
  rw [BitVec.toNat_append, ← Nat.shiftLeft_add_eq_or_of_lt y.isLt, Nat.shiftLeft_eq]

/-- The layout of word 0 of a NODE window entry (20_memory.md R81). -/
theorem Node.word0_eq (n : Node) : n.word0 = BitVec.ofNat 32 (n.isLeaf.toNat * 2 ^ 31 + n.synth.toNat * 2 ^ 30 +
    n.sym.toNat * 2 ^ 18 + n.right.toNat * 2 ^ 9 + n.left.toNat) := by
  have hbits : n.word0.toNat = n.isLeaf.toNat * 2 ^ 31 + n.synth.toNat * 2 ^ 30 + n.sym.toNat * 2 ^ 18 +
      n.right.toNat * 2 ^ 9 + n.left.toNat := by
    simp only [Node.word0, toNat_append_eq_add, BitVec.toNat_ofBool, BitVec.toNat_ofNat]
    omega
  rw [← hbits, BitVec.ofNat_toNat, BitVec.setWidth_eq]

/-- Settles O23: the HEAP window by its entry's index, the NODE window by its two words (`targetOf_node`,
`Node.word0_eq`). -/
theorem heapAndNodeWindowsReadWhatIsInUse : Obligations.HeapAndNodeWindowsReadWhatIsInUse := by
  unfold Obligations.HeapAndNodeWindowsReadWhatIsInUse
  intro s rest i w hp hi
  have hix : (BitVec.ofNat 9 i).toNat = i := toNat_ofNat9 hi
  refine ⟨fun hi' h => ?_, fun h => ?_, fun h => ?_⟩
  · rw [step_readWindow (targetOf_heap hi') rfl hp h, State.readTarget, BitVec.ofNat_toNat]
  · rw [step_readWindow (targetOf_node hi (by omega) (by omega)) rfl hp h, decide_eq_false (by omega),
      State.readTarget, hix, Node.word0_eq]
    rfl
  · rw [step_readWindow (targetOf_node hi (by omega) (by omega)) rfl hp h, decide_eq_true (by omega),
      State.readTarget, hix]
    rfl

/-! ### CODE and TB -/

/-- A word of the code bits: the word's bits, most significant first, are the positions from `32 * (k - 1)` on, and
the one position past the code is 0 (20_memory.md R82). -/
theorem CodeEntry.word_getLsbD (e : CodeEntry) {k t : Nat} (h1 : 1 ≤ k) (h8 : k ≤ 8) (ht : t < 32) :
    (e.word k).getLsbD (31 - t) =
      (decide (32 * (k - 1) + t < 255) && e.bits.getMsbD (32 * (k - 1) + t)) := by
  have hix : 32 * (8 - k) + (31 - t) = 255 - (32 * (k - 1) + t) := by omega
  rw [CodeEntry.word, if_neg (by omega), if_pos h8, BitVec.getLsbD_extractLsb', hix, BitVec.getLsbD_append,
    BitVec.getMsbD_eq_getLsbD, decide_eq_true (show 31 - t < 32 by omega), Bool.true_and]
  generalize 32 * (k - 1) + t = p
  by_cases hp : p < 255
  · rw [if_neg (by omega), decide_eq_true hp, Bool.true_and, Bool.true_and, Nat.sub_right_comm]
  · rw [if_pos (by omega), decide_eq_false hp, show 255 - p = 0 by omega]
    rfl

/-- Settles O24: CODE by the words of an entry (`CodeEntry.word_getLsbD`), TB by its buckets
(`tbBucket_getMsbD`). -/
theorem codeAndTbWindowsReadTheirBits : Obligations.CodeAndTbWindowsReadTheirBits := by
  unfold Obligations.CodeAndTbWindowsReadTheirBits
  intro s rest w hp
  refine ⟨fun x k hk h => ?_, fun k hk h => ?_⟩
  · refine ⟨_, step_readWindow (targetOf_code x hk) rfl hp h, fun h0 => ?_, fun h1 h8 t ht => ?_, fun h9 => ?_⟩
    · rw [State.readTarget, h0, CodeEntry.word, if_pos rfl, BitVec.toNat_setWidth_of_le (by decide)]
    · exact CodeEntry.word_getLsbD _ h1 h8 ht
    · rw [State.readTarget, CodeEntry.word, if_neg (by omega), if_neg (by omega)]
  · refine ⟨_, step_readWindow (targetOf_tb hk) rfl hp h, fun t ht => ?_, fun i hi => ?_⟩
    · rw [← tbBucket_getMsbD s.tb k t hk ht, State.readTarget, BitVec.getMsbD_eq_getLsbD,
        BitVec.getLsbD_setWidth, decide_eq_true (show 15 - t < 32 by omega), decide_eq_true ht]
    · rw [State.readTarget, BitVec.getLsbD_setWidth, BitVec.getLsbD_of_ge _ _ hi, Bool.and_false]

end Sys2Proof.Machine
end

section
/-! SUPPORT. The turns of the host (20_memory.md R71, R72, R86, R88, R91) and the asserted reset
(70_reset_and_hazards.md R310, R312). -/

namespace Sys2Proof.Machine

/-! ### Access, response, beat, readiness, rst_n -/

/-- A turn that is not the core's is the host's. -/
theorem step_hostTurn {s : State} {t : Turn} {rest : List Turn} (hs : s.sched = t :: rest)
    (ht : ∀ hold, t ≠ .core hold) : step s = .next (s.hostTurn t rest) := by
  cases t with
  | core hold => exact absurd rfl (ht hold)
  | _ => simp only [step, hs]

theorem State.respond_some {s : State} {r : BusRsp} (h : s.busRsp = some r) :
    s.respond = { s with busRsp := none, rspLog := s.rspLog ++ [r] } := by
  simp only [State.respond, h]

theorem State.respond_none {s : State} (h : s.busRsp = none) : s.respond = s := by
  simp only [State.respond, h]

/-- An access waits for the response of its predecessor, which is given first (20_memory.md R72). -/
theorem State.hostTurn_access_waits {s : State} {r : BusRsp} (h : s.busRsp = some r) (a : BusReq) (rest : List Turn) :
    s.hostTurn (.access a) rest = s.respond := by
  rw [State.hostTurn, if_pos (by rw [h]; rfl)]

/-- While rst_n = 0 no access is accepted (20_memory.md R71; log 14). -/
theorem State.hostTurn_access_dropped {s : State} (h : s.busRsp = none) (hn : s.rstN = false) (a : BusReq)
    (rest : List Turn) : s.hostTurn (.access a) rest = { s with sched := rest } := by
  rw [State.hostTurn, h, hn, if_neg (by simp), if_neg (by simp)]

/-- With nothing scheduled an outstanding response is given (log 15). -/
theorem step_respond_unscheduled {s : State} {r : BusRsp} (hs : s.sched = []) (hr : s.busRsp = some r) :
    step s = .next s.respond := by
  simp only [step, hs, hr]

/-- Settles O25: each clause is one kind of turn of the host (`step_hostTurn`), or the response that needs none. -/
theorem hostTurnsDoTheirPart : Obligations.HostTurnsDoTheirPart := by
  unfold Obligations.HostTurnsDoTheirPart
  intro s rest
  refine ⟨fun a r hs hr => ⟨?_, ?_⟩, fun a hs hr hn => ⟨?_, ?_⟩, fun r hs hr => ?_, fun hs hr => ?_, fun r hs hr => ?_,
    fun b hs => step_hostTurn hs nofun, fun hs => step_hostTurn hs nofun, fun hs => step_hostTurn hs nofun⟩
  · simp [State.busReqReady, hr]
  · rw [step_hostTurn hs nofun, State.hostTurn_access_waits hr, State.respond_some hr]
  · simp [State.busReqReady, hn]
  · rw [step_hostTurn hs nofun, State.hostTurn_access_dropped hr hn]
  · rw [step_hostTurn hs nofun, State.hostTurn, State.respond_some (s := { s with sched := rest }) hr]
  · rw [step_hostTurn hs nofun, State.hostTurn, State.respond_none (s := { s with sched := rest }) hr]
  · rw [step_respond_unscheduled hs hr, State.respond_some hr]

/-! ### Reset -/

/-- Every value of the reset table (70_reset_and_hazards.md R310), whatever the state was. -/
theorem State.atReset_hasResetValues (s : State) : s.atReset.HasResetValues where
  ctrl := rfl
  symLimit := rfl
  cmd := rfl
  err := ⟨rfl, rfl, rfl⟩
  irq := ⟨rfl, rfl⟩
  lengths := ⟨rfl, rfl, rfl, rfl⟩
  counters := ⟨rfl, rfl, rfl⟩
  freq _ := rfl
  node _ := rfl
  heap _ := rfl
  tb := tbGet_zero
  code _ := rfl
  inEom := rfl
  latched := ⟨rfl, rfl, rfl, rfl⟩
  path := ⟨rfl, rfl⟩
  acc := ⟨rfl, rfl⟩
  walk := rfl
  pos := rfl
  stack i := Vector.getElem_replicate i.isLt
  valid := ⟨rfl, rfl⟩
  tail := ⟨rfl, rfl⟩

/-- No value of the reset table is the level of a pin. -/
theorem State.HasResetValues.withRstN {s : State} (h : s.HasResetValues) (level : Bool) :
    State.HasResetValues { s with rstN := level } := { h with }

/-- Settles O15: the asserted pin leaves every value of the reset table (`State.atReset_hasResetValues`) and keeps
the host's side. -/
theorem assertedResetAbandonsEverything : Obligations.AssertedResetAbandonsEverything := by
  unfold Obligations.AssertedResetAbandonsEverything
  intro s rest hs
  exact ⟨_, step_hostTurn hs nofun, (State.atReset_hasResetValues _).withRstN false, rfl, rfl, rfl, rfl, rfl, rfl,
    rfl, rfl, rfl, rfl, rfl, rfl⟩

end Sys2Proof.Machine
end

section
/-! SUPPORT. The decoder and the encoder are inverse to each other, and which words are ILLEGAL (30_encoding.md R111 to
R119). -/

namespace Sys2Proof

open Machine (opsN opsF opsA)

/-! ### The formats of the opcode map -/

/-- The OP values of a format (30_encoding.md R116). -/
def Format.ops : Format → List Nat
  | .N => opsN
  | .F => opsF
  | .A => opsA

/-- The word that a format lays out: a field the format does not have is 0 (30_encoding.md R112, R113, R114). -/
def Format.word (fmt : Format) (op : Nat) (f : Bool) (arg : Nat) : Word :=
  match fmt with
  | .N => commandWord op false 0
  | .F => commandWord op f 0
  | .A => commandWord op false arg

theorem mem_ops_of_opcodeRow {op : Nat} {f : Bool} {arg : Nat} {fmt : Format} {i : Instr}
    (h : opcodeRow op f arg = some (fmt, i)) : op ∈ fmt.ops := by
  unfold opcodeRow at h
  split at h <;> cases h <;> decide

theorem opcodeRow_of_mem_ops {op : Nat} {fmt : Format} (h : op ∈ fmt.ops) (f : Bool) (arg : Nat) :
    ∃ i, opcodeRow op f arg = some (fmt, i) := by
  revert op
  cases fmt <;> simp [Format.ops, opsN, opsF, opsA, opcodeRow]

/-- An opcode has one format. -/
theorem mem_ops_iff_of_opcodeRow {op : Nat} {f : Bool} {arg : Nat} {fmt : Format} {i : Instr}
    (h : opcodeRow op f arg = some (fmt, i)) (fmt' : Format) : op ∈ fmt'.ops ↔ fmt = fmt' := by
  refine ⟨fun hm => ?_, fun e => e ▸ mem_ops_of_opcodeRow h⟩
  obtain ⟨j, hj⟩ := opcodeRow_of_mem_ops hm f arg
  exact congrArg Prod.fst (Option.some.inj (h.symm.trans hj))

theorem not_mem_ops_of_opcodeRow {op : Nat} {f : Bool} {arg : Nat} (h : opcodeRow op f arg = none) (fmt : Format) :
    op ∉ fmt.ops := by
  intro hm
  obtain ⟨i, hi⟩ := opcodeRow_of_mem_ops hm f arg
  cases h.symm.trans hi

/-- The encoder follows the opcode map: the format of a command's row lays out its word. -/
theorem encode_of_opcodeRow {op : Nat} {f : Bool} {arg : Nat} {fmt : Format} {i : Instr}
    (h : opcodeRow op f arg = some (fmt, i)) : encode i = fmt.word op f arg := by
  unfold opcodeRow at h
  split at h <;> cases h <;> rfl

/-- A row's command takes its operand, where it has one, from the row's. -/
theorem wellFormed_of_opcodeRow {op : Nat} {f : Bool} {arg : Nat} {fmt : Format} {i : Instr}
    (h : opcodeRow op f arg = some (fmt, i)) (ha : arg < 65536) : WellFormed i := by
  have hfits : argFits arg = true := decide_eq_true ha
  unfold opcodeRow at h
  split at h <;> cases h <;> simp only [WellFormed, Instr.wellFormed, hfits]

/-- A command's word selects its own row: `Laws.OpcodeRow` for every command. -/
theorem opcodeRow_encode {i : Instr} (h : WellFormed i) :
    ∃ fmt, opcodeRow (opField (encode i)) (flagField (encode i)) (argField (encode i)) = some (fmt, i) :=
  match i with
  | .nop => Laws.OpcodeRow.nop h
  | .softReset => Laws.OpcodeRow.softReset h
  | .inDiscard => Laws.OpcodeRow.inDiscard h
  | .bbCreate arg => Laws.OpcodeRow.bbCreate arg h
  | .bbSet arg => Laws.OpcodeRow.bbSet arg h
  | .bbClear arg => Laws.OpcodeRow.bbClear arg h
  | .bbGet arg => Laws.OpcodeRow.bbGet arg h
  | .bbResize arg => Laws.OpcodeRow.bbResize arg h
  | .bbSerialize f => Laws.OpcodeRow.bbSerialize f h
  | .bbDeserialize => Laws.OpcodeRow.bbDeserialize h
  | .pqClear => Laws.OpcodeRow.pqClear h
  | .pqInsert arg => Laws.OpcodeRow.pqInsert arg h
  | .pqExtract => Laws.OpcodeRow.pqExtract h
  | .treeBuild => Laws.OpcodeRow.treeBuild h
  | .treeDestroy => Laws.OpcodeRow.treeDestroy h
  | .treeSerialize => Laws.OpcodeRow.treeSerialize h
  | .treeDeserialize => Laws.OpcodeRow.treeDeserialize h
  | .freqClear => Laws.OpcodeRow.freqClear h
  | .freqAccum => Laws.OpcodeRow.freqAccum h
  | .codeGen => Laws.OpcodeRow.codeGen h
  | .pack f => Laws.OpcodeRow.pack f h
  | .unpack f => Laws.OpcodeRow.unpack f h
  | .encode => Laws.OpcodeRow.encode h
  | .decode => Laws.OpcodeRow.decode h

/-! ### What a format forbids -/

/-- 30_encoding.md R117: F is free in format F only, ARG in format A only. -/
theorem fieldFault_eq_none_iff {fmt : Format} {f : Bool} {rsv arg : Nat} :
    fieldFault fmt f rsv arg = none ↔ rsv = 0 ∧ (fmt ≠ .F → f = false) ∧ (fmt ≠ .A → arg = 0) := by
  by_cases hr : rsv = 0
  · cases fmt with
    | N => cases f <;> simp [fieldFault, hr]
    | F => simp [fieldFault, hr]
    | A => cases f <;> simp [fieldFault, hr]
  · simp [fieldFault, hr]

theorem rsvField_word (fmt : Format) (op : Nat) (f : Bool) (arg : Nat) : rsvField (fmt.word op f arg) = 0 := by
  cases fmt <;> exact rsvField_commandWord ..

theorem flagField_word {fmt : Format} (h : fmt ≠ .F) (op : Nat) (f : Bool) (arg : Nat) :
    flagField (fmt.word op f arg) = false := by
  cases fmt with
  | F => exact absurd rfl h
  | N | A => exact flagField_commandWord ..

theorem argField_word {fmt : Format} (h : fmt ≠ .A) (op : Nat) (f : Bool) (arg : Nat) :
    argField (fmt.word op f arg) = 0 := by
  cases fmt with
  | A => exact absurd rfl h
  | N | F => exact argField_commandWord _ _ (by decide)

/-- Fields that a format does not forbid are laid out in full. -/
theorem word_eq_commandWord {fmt : Format} {f : Bool} {arg : Nat} (op : Nat) (hf : fmt ≠ .F → f = false)
    (ha : fmt ≠ .A → arg = 0) : fmt.word op f arg = commandWord op f arg := by
  cases fmt with
  | N => rw [hf nofun, ha nofun]; rfl
  | F => rw [ha nofun]; rfl
  | A => rw [hf nofun]; rfl

/-- A format forbids nothing in a word exactly when it lays out that word from the word's own fields. -/
theorem fieldFault_eq_none_iff_word {fmt : Format} {w : Word} :
    fieldFault fmt (flagField w) (rsvField w) (argField w) = none ↔
      fmt.word (opField w) (flagField w) (argField w) = w := by
  rw [fieldFault_eq_none_iff]
  constructor
  · rintro ⟨hr, hf, ha⟩
    rw [word_eq_commandWord _ hf ha, commandWord_fields hr]
  · intro hw
    exact ⟨(congrArg rsvField hw).symm.trans (rsvField_word ..),
      fun h => (congrArg flagField hw).symm.trans (flagField_word h ..),
      fun h => (congrArg argField hw).symm.trans (argField_word h ..)⟩

/-! ### Decoding and encoding -/

theorem argField_lt (w : Word) : argField w < 65536 := (w.extractLsb' 16 16).isLt

theorem decode_of_opcodeRow_none {w : Word} (h : opcodeRow (opField w) (flagField w) (argField w) = none) :
    decode w = .error .unknownOpcode := by
  simp only [decode, h]

/-- A word with a row decodes to the row's command, unless the row's format forbids what its fields hold. -/
theorem decode_eq_ok_iff_of_opcodeRow {w : Word} {fmt : Format} {i : Instr}
    (h : opcodeRow (opField w) (flagField w) (argField w) = some (fmt, i)) :
    decode w = .ok i ↔ fieldFault fmt (flagField w) (rsvField w) (argField w) = none := by
  simp only [decode, h]
  cases fieldFault fmt (flagField w) (rsvField w) (argField w) <;> simp

theorem decode_eq_error_iff_of_opcodeRow {w : Word} {fmt : Format} {i : Instr}
    (h : opcodeRow (opField w) (flagField w) (argField w) = some (fmt, i)) :
    (∃ why, decode w = .error why) ↔ fieldFault fmt (flagField w) (rsvField w) (argField w) ≠ none := by
  simp only [decode, h]
  cases fieldFault fmt (flagField w) (rsvField w) (argField w) <;> simp

theorem opcodeRow_of_decode {w : Word} {i : Instr} (h : decode w = .ok i) :
    ∃ fmt, opcodeRow (opField w) (flagField w) (argField w) = some (fmt, i) := by
  unfold decode at h
  split at h
  · cases h
  next fmt j hrow =>
    split at h <;> cases h
    exact ⟨fmt, hrow⟩

/-- Settles O1: a command's word selects the command's row (`opcodeRow_encode`), and is the word the row's format lays
out, in which the format forbids nothing. -/
theorem encodedCommandDecodes : Obligations.EncodedCommandDecodes := by
  unfold Obligations.EncodedCommandDecodes
  intro i hwf
  obtain ⟨fmt, hrow⟩ := opcodeRow_encode hwf
  rw [decode_eq_ok_iff_of_opcodeRow hrow, fieldFault_eq_none_iff_word]
  exact (encode_of_opcodeRow hrow).symm

/-- Settles O2: a word that decodes is the word its format lays out from its fields, which is its command's. -/
theorem decodedWordEncodesBack : Obligations.DecodedWordEncodesBack := by
  unfold Obligations.DecodedWordEncodesBack
  intro w i hd
  obtain ⟨fmt, hrow⟩ := opcodeRow_of_decode hd
  refine ⟨wellFormed_of_opcodeRow hrow (argField_lt w), ?_⟩
  rw [encode_of_opcodeRow hrow, ← fieldFault_eq_none_iff_word]
  exact (decode_eq_ok_iff_of_opcodeRow hrow).mp hd

/-! ### ILLEGAL words -/

/-- The ILLEGAL words in terms of the decoder's fields. A word without a row is in no format's list, and one with a row
in its own format's list only (`mem_ops_iff_of_opcodeRow`), so that only that format's faults can be its. -/
theorem decode_eq_error_iff (w : Word) :
    (∃ why, decode w = .error why) ↔
      opField w ∉ opsN ++ opsF ++ opsA ∨ rsvField w ≠ 0 ∨
        (opField w ∈ opsN ∧ (flagField w = true ∨ argField w ≠ 0)) ∨ (opField w ∈ opsF ∧ argField w ≠ 0) ∨
        (opField w ∈ opsA ∧ flagField w = true) := by
  cases hrow : opcodeRow (opField w) (flagField w) (argField w) with
  | none =>
    have hN : opField w ∉ opsN := not_mem_ops_of_opcodeRow hrow .N
    have hF : opField w ∉ opsF := not_mem_ops_of_opcodeRow hrow .F
    have hA : opField w ∉ opsA := not_mem_ops_of_opcodeRow hrow .A
    simp [decode_of_opcodeRow_none hrow, hN, hF, hA]
  | some row =>
    obtain ⟨fmt, i⟩ := row
    have hN : opField w ∈ opsN ↔ fmt = .N := mem_ops_iff_of_opcodeRow hrow .N
    have hF : opField w ∈ opsF ↔ fmt = .F := mem_ops_iff_of_opcodeRow hrow .F
    have hA : opField w ∈ opsA ↔ fmt = .A := mem_ops_iff_of_opcodeRow hrow .A
    rw [decode_eq_error_iff_of_opcodeRow hrow, Ne, fieldFault_eq_none_iff]
    simp only [List.mem_append, hN, hF, hA, not_and_or, Classical.not_imp, Bool.not_eq_false]
    cases fmt <;> simp

/-- Settles O3: `decode_eq_error_iff`, with the fields as numbers. -/
theorem illegalWordsAreExactlyThese : Obligations.IllegalWordsAreExactlyThese := by
  unfold Obligations.IllegalWordsAreExactlyThese
  intro w
  obtain ⟨hop, hflag, hrsv, harg⟩ := fields_toNat w
  replace hflag : flagField w = true ↔ w.toNat / 256 % 2 ≠ 0 := by rw [hflag]; omega
  have h := decode_eq_error_iff w
  rwa [hop, hflag, hrsv, harg] at h

/-- Settles O4: the words are fixed, and the decoder evaluates on each. -/
theorem specWordsDecode : Obligations.SpecWordsDecode := by
  unfold Obligations.SpecWordsDecode
  decide

end Sys2Proof

namespace Sys2Proof.Machine

/-! ### A core turn in EXEC -/

/-- Settles O5: a core turn starts where `State.CoreTurn.start_eq` says, with `r_cmd` and the phase as they were. -/
theorem stepRunsDecodedCommand : Obligations.StepRunsDecodedCommand := by
  unfold Obligations.StepRunsDecodedCommand
  intro s s1 i hturn hn hx hd
  rw [hturn.step_eq]
  obtain ⟨sched, hold, rfl⟩ := hturn.start_eq
  simp only [coreTurn, hn, hx, hd, if_true]

theorem State.illegalTurn_held {s : State} (h : s.hold = true) : s.illegalTurn = s := by
  rw [State.illegalTurn, if_pos h]

theorem State.illegalTurn_unheld {s : State} (h : s.hold = false) : s.illegalTurn = s.abort ⟨.illegal, s.cmd⟩ := by
  rw [State.illegalTurn, if_neg (by simp [h])]

/-- A core turn in EXEC of an ILLEGAL word (30_encoding.md R117). -/
theorem State.CoreTurn.step_of_illegal {s s1 : State} {why : Illegal} (h : s.CoreTurn s1) (hn : s.rstN = true)
    (hx : s.phase = .exec) (hd : decode s.cmd = .error why) : step s = .next s1.illegalTurn := by
  rw [h.step_eq]
  obtain ⟨sched, hold, rfl⟩ := h.start_eq
  simp only [coreTurn, hn, hx, hd, if_true]

/-- Settles O6: an ILLEGAL word's turn is an abort with the word as its detail, or nothing when held. -/
theorem illegalWordAborts : Obligations.IllegalWordAborts := by
  unfold Obligations.IllegalWordAborts
  intro s s1 why hturn hn hx hd
  rw [hturn.step_of_illegal hn hx hd]
  refine ⟨fun hh => ?_, fun hh => by rw [State.illegalTurn_held hh]⟩
  rw [State.illegalTurn_unheld hh]
  obtain ⟨sched, hold, rfl⟩ := hturn.start_eq
  rfl

end Sys2Proof.Machine
end

section
/-! SUPPORT. The control statements (40_control.md): a CMD write in each phase (R130, R134), what a running command
reads of the configuration (R131), SOFT_RESET (R136), and the errors of ENCODE (R133, 44_codec.md R241). -/

namespace Sys2Proof.Machine

/-! ### A CMD write -/

theorem State.writeCmd_idle {s : State} (h : s.phase = .idle) (w : Word) : s.writeCmd w = s.accept w :=
  if_pos h

theorem State.writeCmd_busy {s : State} (h : s.phase ≠ .idle) (w : Word) : s.writeCmd w = s.raiseIrq irqDropped :=
  if_neg h

/-- CMD takes a write once initialisation is over (20_memory.md R77, R78 case 5). -/
theorem step_writeCmd {s : State} {w : Word} {rest : List Turn} (h : s.Presents (writeOf 0x010 w) rest)
    (hp : s.phase ≠ .init) :
    step s = .next { State.writeCmd { s with sched := rest } w with busRsp := some ⟨0, false⟩ } :=
  step_write h (t := .reg .cmd) rfl (decide_eq_true hp)

/-- Settles O7: the write is performed (`step_writeCmd`), and while idle it is the acceptance of its word. -/
theorem cmdWriteWhileIdleIssues : Obligations.CmdWriteWhileIdleIssues := by
  unfold Obligations.CmdWriteWhileIdleIssues
  intro s w rest h hp
  rw [step_writeCmd h (by simp [hp]), State.writeCmd_idle (s := { s with sched := rest }) hp]
  rfl

/-- Settles O8: in EXEC the write is performed and only sets DROPPED; in INIT it is refused (20_memory.md R78 case 5,
`refusedAccessSetsBusErrOnly`). -/
theorem cmdWriteWhileBusyIsLost : Obligations.CmdWriteWhileBusyIsLost := by
  unfold Obligations.CmdWriteWhileBusyIsLost
  intro s w rest h
  refine ⟨fun hp => ?_, fun hp => ?_⟩
  · rw [step_writeCmd h (by simp [hp]), State.writeCmd_busy (s := { s with sched := rest }) (by simp [hp])]
    rfl
  · exact refusedAccessSetsBusErrOnly s _ rest h (.inr (.inr (.inr (.inr ⟨hp, by simp [writeOf]⟩))))

/-! ### What a running command reads of the configuration -/

/-- The state with other values in CTRL and SYM_LIMIT. -/
def State.configured (s : State) (c : BitVec 3) (l : Word) : State := { s with ctrl := c, symLimit := l }

theorem around_configured (c : BitVec 3) (l : Word) {s u : State} (hu : u.outside = s.outside) :
    u.around { s.outside with ctrl := c, symLimit := l } [] 0 = u.configured c l := by
  rw [← hu]
  simp only [State.around, State.outside, State.configured, List.append_nil, Nat.add_zero]

/-- No operation reads CTRL or SYM_LIMIT (40_control.md R131). -/
theorem runOp_configured (c : BitVec 3) (l : Word) (op : Op) (s : State) :
    runOp op (s.configured c l) = (runOp op s).map (State.configured · c l) := by
  rw [← around_configured c l (s := s) rfl, runOp_around_same]
  cases hr : runOp op s with
  | ok s' more => rw [Res.map, Res.map, around_configured c l (outside_of_hostPart (runOp_ok hr).1)]
  | raise r s' => rw [Res.map, Res.map, around_configured c l (outside_of_hostPart (runOp_raise hr).1)]
  | wait => rfl
  | fault f => rfl

theorem finish_configured (c : BitVec 3) (l : Word) {s t : State} (h : finish s = .next t) :
    finish (s.configured c l) = .next (t.configured c l) := by
  unfold finish at h
  split at h <;> cases h
  · next hh => exact if_pos hh
  · next hh => exact if_neg hh

theorem failWith_configured (c : BitVec 3) (l : Word) {r : Raise} {s t : State} (h : failWith r s = .next t) :
    failWith r (s.configured c l) = .next (t.configured c l) := by
  unfold failWith at h
  split at h <;> cases h
  · next hh => exact if_pos hh
  · next hh => exact if_neg hh

/-- Where a turn stops, it stops alike with other values in CTRL and SYM_LIMIT. -/
theorem TurnEnd.configured (c : BitVec 3) (l : Word) {ops : List Op} {s t : State} (h : TurnEnd ops s t) :
    runAll ops (s.configured c l) = .next (t.configured c l) := by
  cases h with
  | finish hf => rw [runAll_nil, finish_configured c l hf]
  | @raise op ops s s' t r hr hf =>
    have hop : runOp op (s.configured c l) = .raise r (s'.configured c l) := by rw [runOp_configured, hr, Res.map]
    rw [runAll_raise hop, failWith_configured c l hf]
  | @wait op ops s hw =>
    have hop : runOp op (s.configured c l) = .wait := by rw [runOp_configured, hw, Res.map]
    rw [runAll_wait hop]
    rfl

/-- Settles O9: with other values in CTRL and SYM_LIMIT the turn performs the same operations
(`runOp_configured`) and stops alike (`TurnEnd.configured`). -/
theorem commandReadsOnlyLatchedConfiguration : Obligations.CommandReadsOnlyLatchedConfiguration := by
  unfold Obligations.CommandReadsOnlyLatchedConfiguration
  intro i s t c l h
  rw [exec_eq_runAll] at h
  obtain ⟨ops, s', hsame, hend⟩ := runAll_cases
    (P := fun ops u => runAll (startOps i s) (s.configured c l) = runAll ops (u.configured c l))
    (fun hu hr => hu.trans (runAll_ok (by rw [runOp_configured, hr, Res.map]))) _ _ rfl h
  calc exec i (s.configured c l)
    _ = runAll (startOps i s) (s.configured c l) := exec_eq_runAll i (s.configured c l)
    _ = runAll ops (s'.configured c l) := hsame
    _ = .next (t.configured c l) := hend.configured c l

/-! ### SOFT_RESET -/

/-- Settles O26: SOFT_RESET completes in its turn with the datapath at its reset state, where every RAM reads its
reset value. -/
theorem softResetClearsTheDatapath : Obligations.SoftResetClearsTheDatapath := by
  unfold Obligations.SoftResetClearsTheDatapath
  refine ⟨encodedCommandDecodes .softReset rfl, fun s hf => ?_⟩
  have hrun : exec .softReset s = .next s.softReset.ended := exec_done hf rfl rfl
  exact ⟨_, hrun, rfl, fun x => Memory.read_nil _ _, fun x => Memory.read_nil _ _, fun k => Memory.read_nil _ _,
    fun x => Memory.read_nil _ _⟩

/-! ### The errors of ENCODE -/

/-- Settles O53: the empty message by `encode_empty`, the 2^32nd byte by `encode_overflow`, a byte without a code by
`encode_unmapped`, its header in the spec's terms, and the seven steps by `encode_steps`. -/
theorem encodeReportsItsFirstError : Obligations.EncodeReportsItsFirstError := by
  unfold Obligations.EncodeReportsItsFirstError
  intro s hf hn hh
  refine ⟨fun q rest hm hp hq => ?_, fun q b rest hl hb hq hlen => ?_,
    fun q1 q2 b rest S hm1 hp1 hne hlen hl2 hb hq hsub hbS hr => ?_, fun t hx he h ht => encode_steps hf hx he h ht⟩
  · obtain ⟨freq, node, heap, hrun, hzero⟩ := encode_empty hf hn hh hm hp hq
    exact ⟨_, hrun, hzero, rfl⟩
  · obtain ⟨freq, hcount, hrun⟩ := encode_overflow hf hl hb hq hlen
    exact ⟨_, hrun, hcount, rfl⟩
  · obtain ⟨t, l, r, bytes, tail, hrun, ht, hleaves, htail, hbits, e⟩ := encode_unmapped hf hn hh hm1 hp1 hl2 hb hq
      hne (Nat.le_of_lt_succ hlen) hsub hbS hr
    rw [ht.bodyBits hsub] at hbits
    rw [← headerOf_eq s.wireBe (ht.tbLen_le hleaves)] at e
    exact ⟨t, .node l r, bytes, tail, hrun, ht, hbits, htail, e⟩

end Sys2Proof.Machine
end

section
/-! SUPPORT. The commands of the tree bit buffer that move no beat (41_bitbuffer.md R154 to R158): each checks its operand
and then completes in its turn. -/

namespace Sys2Proof.Machine

/-! ### Commands that check and complete -/

/-- The word `{arg, op}` of a format A command decodes to it (30_encoding.md R114). -/
theorem decode_argWord {i : Instr} {op arg : Nat} (hop : op < 256) (ha : arg < 65536) (hwf : WellFormed i)
    (he : encode i = commandWord op false arg) : decode (BitVec.ofNat 32 (arg * 65536 + op)) = .ok i := by
  rw [ofNat_word hop ha, ← he]
  exact encodedCommandDecodes i hwf

/-- A command that raises before it changes anything when its check fails, and otherwise is done at once. -/
theorem exec_checked {i : Instr} {s s' : State} {r : Raise} {bad : Prop} [Decidable bad] (hf : s.Fresh)
    (hp : procOf i s = if bad then .raise r s else .ok s' []) (hh : s'.hold = s.hold) :
    (¬ bad → exec i s = .next s'.ended) ∧ (bad → exec i s = .next (s.aborted r.kind.code r.info)) :=
  ⟨fun hno => exec_done hf (hp.trans (if_neg hno)) hh, fun hbad => exec_abort hf (hp.trans (if_pos hbad)) rfl⟩

/-! ### BB_CREATE, BB_SET, BB_CLEAR, BB_GET -/

/-- Settles O28: BB_CREATE checks `arg` and leaves the buffer all zeros. -/
theorem bbCreateMakesZeroBits : Obligations.BbCreateMakesZeroBits := by
  unfold Obligations.BbCreateMakesZeroBits
  intro s arg hf ha
  obtain ⟨hok, habort⟩ := exec_checked (i := .bbCreate arg) hf rfl rfl
  exact ⟨decode_argWord (by decide) ha (decide_eq_true ha) rfl,
    fun hle => ⟨_, hok (Nat.not_lt.2 hle), rfl, fun i => tbGet_zero i⟩, habort⟩

/-- A command that forces the addressed bit to `b` (41_bitbuffer.md R155, R156). -/
theorem exec_forcesBit {i : Instr} {s : State} {arg : Nat} {b : Bool} (hf : s.Fresh) (hl : s.tbLen.toNat ≤ 2560)
    (hp : procOf i s = if s.tbLen.toNat ≤ arg then .raise (raiseNat .outOfBounds arg) s
      else .ok { s with tb := tbPut s.tb arg b } []) :
    (arg < s.tbLen.toNat → ∃ t, exec i s = .next t ∧ t = State.ended { s with tb := t.tb } ∧
      ∀ j, tbGet t.tb j = if j = arg then b else tbGet s.tb j) ∧
    (s.tbLen.toNat ≤ arg → exec i s = .next (s.aborted 2 (BitVec.ofNat 32 arg))) := by
  obtain ⟨hok, habort⟩ := exec_checked hf hp rfl
  refine ⟨fun hlt => ⟨_, hok (Nat.not_le.2 hlt), rfl, fun j => tbGet_tbPut s.tb arg j b ?_⟩, habort⟩
  simp only [Config.tbBits]
  omega

/-- Settles O29: both commands force the addressed bit, BB_SET to 1 and BB_CLEAR to 0 (`exec_forcesBit`). -/
theorem bbSetAndBbClearForceOneBit : Obligations.BbSetAndBbClearForceOneBit := by
  unfold Obligations.BbSetAndBbClearForceOneBit
  intro s arg hf ha hl
  obtain ⟨hset, hsetAbort⟩ := exec_forcesBit (i := .bbSet arg) (b := true) hf hl rfl
  obtain ⟨hclear, hclearAbort⟩ := exec_forcesBit (i := .bbClear arg) (b := false) hf hl rfl
  exact ⟨decode_argWord (by decide) ha (decide_eq_true ha) rfl, hset, hsetAbort,
    decode_argWord (by decide) ha (decide_eq_true ha) rfl, hclear, hclearAbort⟩

theorem setWidth_ofBool (b : Bool) : (BitVec.ofBool b).setWidth 32 = if b then 1 else 0 := by
  cases b <;> rfl

/-- Settles O30: BB_GET checks `arg` and writes the zero-extended bit to RESULT. -/
theorem bbGetReadsOneBit : Obligations.BbGetReadsOneBit := by
  unfold Obligations.BbGetReadsOneBit
  intro s arg hf ha
  obtain ⟨hok, habort⟩ := exec_checked (i := .bbGet arg) hf rfl rfl
  refine ⟨decode_argWord (by decide) ha (decide_eq_true ha) rfl, fun hlt => ?_, habort⟩
  rw [hok (Nat.not_le.2 hlt), setWidth_ofBool]

/-! ### BB_RESIZE -/

/-- What BB_RESIZE makes of the buffer: a shrink clears the positions it drops, a growth none (41_bitbuffer.md R158). -/
theorem tbGet_resized (tb : BitVec 2576) {len : Nat} (arg : Nat) (hl : len ≤ Config.tbBits) (i : Nat) :
    tbGet (if arg < len then (List.range' arg (len - arg)).foldl (fun tb i => tbPut tb i false) tb else tb) i =
      if arg ≤ i ∧ i < len then false else tbGet tb i := by
  by_cases h : arg < len
  · rw [if_pos h, tbGet_clear _ _ _ _ (by omega), Nat.add_sub_cancel' (Nat.le_of_lt h)]
  · rw [if_neg h, if_neg (by omega)]

/-- Settles O31: BB_RESIZE checks `arg`, and the buffer is then as `tbGet_resized` says, also where the old one was 0 from
its length on. -/
theorem bbResizeKeepsWhatStaysCovered : Obligations.BbResizeKeepsWhatStaysCovered := by
  unfold Obligations.BbResizeKeepsWhatStaysCovered
  intro s arg hf ha hl
  obtain ⟨hok, habort⟩ := exec_checked (i := .bbResize arg) hf rfl rfl
  have hbits := tbGet_resized s.tb (len := s.tbLen.toNat) arg (hl.trans (by decide))
  refine ⟨decode_argWord (by decide) ha (decide_eq_true ha) rfl,
    fun hle => ⟨_, hok (Nat.not_lt.2 hle), rfl, hbits, fun htail => ⟨fun i hi _ => ?_, fun i hi => ?_⟩⟩, habort⟩
  · exact (hbits i).trans (by rw [htail i hi, ite_self])
  · refine (hbits i).trans ?_
    by_cases h : i < s.tbLen.toNat
    · rw [if_pos ⟨hi, h⟩]
    · rw [htail i (by omega), ite_self]

end Sys2Proof.Machine
end

section
/-! SUPPORT. Headers of the bit buffer (41_bitbuffer.md R159, R160, R163): one that BB_DESERIALIZE rejects, and one that
BB_SERIALIZE has emitted. -/

namespace Sys2Proof.Machine

/-! ### Headers that are rejected -/

/-- A message that has ended before a bucket raises without a further beat (41_bitbuffer.md R160; log 7). -/
theorem rdBucket_ended {n k : Nat} {got : List (BitVec 16)} {v : BitVec 16} {ops : List Op} {s : State}
    (h : s.inEom = true) :
    runAll (.rdBucket n got k v :: ops) s = failWith (raiseNat .encoding (4 + 2 * got.length + k)) s.tbDiscard :=
  runAll_raise (by rw [runOp, rdBucketLoop, if_pos h])

/-- A message that ends after total_bits and before its last bucket, also right after total_bits. -/
theorem header_short {n : Word} {ds : List Byte} {q rest : List Beat} {ops : List Op} {s : State}
    (hn : n.toNat ≤ Config.tbMaxBits) (hm : IsMessage q) (hp : payload q = intBytes s.wireBe 4 n ++ ds)
    (hd : ds.length < 2 * bucketCount n.toNat) (hq : s.inQ = q ++ rest) :
    runAll (.rdLen 0 0 :: ops) s =
      failWith (raiseNat .encoding (payload q).length) (s.took q rest).tbDiscard := by
  have h4 := intBytes_length s.wireBe 4 n
  obtain ⟨q1, q2, rfl, hlen, rfl, hend⟩ := hm.split hp (List.ne_nil_of_length_pos (by omega))
  rw [List.append_assoc] at hq
  rw [rdLen_spec _ q1 (q2 ++ rest) 0 0 ops s hlen (by omega) hq, readInt_intBytes4, if_neg (by omega), hp,
    List.length_append, h4]
  obtain ⟨rfl, heom⟩ | ⟨hm2, heom⟩ := hend
  · rw [rdBucket_ended (by rw [State.took_inEom, heom]), List.append_nil]
    rfl
  · rw [rdBucket_short _ q2 rest [] 0 0 ops _ hm2 (by omega) (by simpa using hd) rfl (by rw [State.took_inEom, heom]),
      State.took_took, Nat.zero_add]
    rfl

/-- The abort that rejects a header: its beats are taken, no beat after them, and the buffer is empty. -/
theorem failWith_header {s : State} (hf : s.Fresh) (r : Raise) (q rest : List Beat) :
    failWith r (State.took { s with inEom := false } q rest).tbDiscard =
      .next (State.aborted { s with
        tb := 0, tbLen := 0, inQ := rest, inEom := lastFlag false q
        inCount := countUp s.inCount (payload q).length } r.kind.code r.info) :=
  fail_fresh hf.2

/-- The abort of a header whose message is too short. -/
theorem failWith_header_message {s : State} {q : List Beat} (hf : s.Fresh) (hm : IsMessage q) (rest : List Beat) :
    failWith (raiseNat .encoding (payload q).length) (State.took { s with inEom := false } q rest).tbDiscard =
      .next (State.aborted { s with
        tb := 0, tbLen := 0, inQ := rest, inEom := true, inCount := countUp s.inCount (payload q).length }
        6 (BitVec.ofNat 32 (payload q).length)) := by
  rw [failWith_header hf, lastFlag_message _ hm]
  rfl

/-- Settles O34: a length beyond TB_MAX_BITS by `rdLen_spec`, a message that ends inside total_bits by `rdLen_short`, and
one that ends before its last bucket by `header_short`. -/
theorem bbDeserializeRejectsBadHeaders : Obligations.BbDeserializeRejectsBadHeaders := by
  unfold Obligations.BbDeserializeRejectsBadHeaders
  intro s q rest hf hq
  have hrun : exec .bbDeserialize s = runAll [.rdLen 0 0] { s with inEom := false } := exec_ops hf rfl
  have word : ∀ n < 2 ^ 32, ∃ v : Word, n = v.toNat := fun n hn =>
    ⟨BitVec.ofNat 32 n, by rw [BitVec.toNat_ofNat, Nat.mod_eq_of_lt hn]⟩
  refine ⟨fun n hbig hn hc => ?_, fun hm hlen => ?_, fun n ds hn hm hp hd => ?_⟩
  · obtain ⟨n, rfl⟩ := word n hn
    rw [wrInt_eq] at hc
    have hread := rdLen_spec _ q rest 0 0 [] { s with inEom := false } hc (by rw [intBytes_length]) hq
    rw [readInt_intBytes4, if_pos (show Config.tbMaxBits < n.toNat from hbig), failWith_header hf, hc.1,
      intBytes_length] at hread
    rw [hrun, hread, BitVec.ofNat_toNat, BitVec.setWidth_eq]
    rfl
  · have hread := rdLen_short q rest 0 0 [] { s with inEom := false } hm (by omega) hq
    rw [hrun, hread, Nat.zero_add, failWith_header_message hf hm]
  · obtain ⟨n, rfl⟩ := word n (by omega)
    rw [wrInt_eq] at hp
    rw [hrun, header_short (s := { s with inEom := false }) hn hm hp hd hq, failWith_header_message hf hm]

/-! ### The round trip -/

/-- BB_DESERIALIZE of the bytes of a header loads the buffer they were written from (41_bitbuffer.md R163). -/
theorem exec_bbDeserialize_headerBytes {u : State} {tb : BitVec 2576} {len : BitVec 12} {q rest : List Beat}
    (hf : u.Fresh) (hl : len.toNat ≤ Config.tbMaxBits) (ht : ∀ i, len.toNat ≤ i → tbGet tb i = false)
    (hc : Carries q (headerBytes u.wireBe len tb)) (hq : u.inQ = q ++ rest) :
    exec .bbDeserialize u = .next (State.ended { State.took { u with inEom := false } q rest with
      tb := tb, tbLen := len }) := by
  have hlen : (len.setWidth 32).toNat = len.toNat := BitVec.toNat_setWidth_of_le (by decide)
  rw [headerBytes_eq] at hc
  have hread := header_spec (len.setWidth 32) _ q rest [] { u with inEom := false } hc (by rw [hlen]; exact hl)
    (by rw [hlen, List.length_map, List.length_range]) hq
  rw [hlen, loadBuckets_header hl ht] at hread
  exact (exec_ops hf rfl).trans (hread.trans (finish_fresh hf.2))

/-- Settles O35: BB_SERIALIZE emits the header's bytes, and `exec_bbDeserialize_headerBytes` reads them back. -/
theorem headerRoundTripRestoresTheBuffer : Obligations.HeaderRoundTripRestoresTheBuffer := by
  unfold Obligations.HeaderRoundTripRestoresTheBuffer
  intro s f hf hl ht hr
  have hroom : (headerBytes s.wireBe s.tbLen s.tb).length + f.toNat ≤ s.outReady := by
    have hflag := f.toNat_le
    rw [headerBytes_length, bucketCount]
    omega
  have hrun := (exec_ops hf (i := .bbSerialize f) rfl).trans (runAll_output hf.2 hroom)
  rw [State.gaveEnd_eq] at hrun
  refine ⟨headerBytes s.wireBe s.tbLen s.tb, _, hrun, rfl, rfl, rfl, fun u q rest hfu hbe hq hc => ?_⟩
  rw [← hbe] at hc
  exact ⟨_, exec_bbDeserialize_headerBytes hfu hl ht hc hq, rfl, rfl, rfl, rfl, rfl⟩

end Sys2Proof.Machine
end

section
/-! SUPPORT. CODE_GEN (44_codec.md R236): its two errors, and the table it fills. -/

namespace Sys2Proof.Machine

theorem codeGen_without_tree {s : State} (h : s.treeValid = false) :
    procOf .codeGen s = .raise (raiseNat .sequence 0) s.codeDiscard := by
  rw [procOf, doCodeGen, h, Bool.not_false, if_pos rfl]

theorem codeGen_of_leaf {s : State} (h : s.treeValid = true) (hl : (nodeAt s.node s.root).isLeaf = true) :
    procOf .codeGen s = .raise (raiseNat .encoding 0) s.codeDiscard := by
  rw [procOf, doCodeGen, h, Bool.not_true, if_neg Bool.false_ne_true, if_pos hl]

/-- An error of CODE_GEN leaves the table cleared, whatever error it is (44_codec.md R236). -/
theorem exec_codeGen_abort {s : State} {r : Raise} (hf : s.Fresh) (h : procOf .codeGen s = .raise r s.codeDiscard) :
    ∃ t, exec .codeGen s = .next t ∧
      t = State.aborted { s with code := t.code, codeValid := false } r.kind.code r.info ∧
      ∀ x, codeAt t.code x = ⟨0, 0⟩ :=
  ⟨_, exec_abort hf h rfl, rfl, fun _ => Memory.read_nil _ _⟩

/-- Settles O47: the two errors by `exec_codeGen_abort`, and the table of a tree by `codeGen_ok`, where `Stored` says what
the last leaf of each symbol has left. -/
theorem codeGenStoresThePaths : Obligations.CodeGenStoresThePaths := by
  unfold Obligations.CodeGenStoresThePaths
  intro s hf
  refine ⟨fun hv => exec_codeGen_abort hf (codeGen_without_tree hv),
    fun hv hl => exec_codeGen_abort hf (codeGen_of_leaf hv hl), fun n l r hv hT hl => ?_⟩
  obtain ⟨m, path, depth, -, hst, hproc⟩ := codeGen_ok hv hT hl
  refine ⟨_, exec_done hf hproc rfl, rfl, fun x => ?_⟩
  have hx := hst x
  rw [HTree.codeOf_eq]
  cases hc : lastCode x ((HTree.node l r).codes []) with
  | none => rw [hc] at hx; exact hx
  | some bits => rw [hc] at hx; exact ⟨hx, codes_ne_nil (lastCode_mem hc)⟩

end Sys2Proof.Machine
end

section
/-! SUPPORT. The invariant along a step: a step is a turn of the core, a turn of the host, or a response that needs no
turn, and each keeps the datapath's and the sequencer's part of the invariant (Laws/Step.lean). -/

namespace Sys2Proof.Machine

/-- What a step can be (20_memory.md R97; logs 1, 15). -/
theorem step_cases (s : State) :
    (∃ s1, s.CoreTurn s1 ∧ step s = coreTurn s1) ∨ (∃ turn rest, step s = .next (s.hostTurn turn rest)) ∨
      step s = .next s.respond := by
  have core : ∀ {s1 : State}, s.CoreTurn s1 → ∃ s1, s.CoreTurn s1 ∧ step s = coreTurn s1 :=
    fun h => ⟨_, h, h.step_eq⟩
  cases hs : s.sched with
  | nil =>
    cases hr : s.busRsp with
    | none => exact .inl (core (.inl ⟨hs, hr, rfl⟩))
    | some r => exact .inr (.inr (step_respond_unscheduled hs hr))
  | cons turn rest =>
    by_cases ht : ∃ hold, turn = .core hold
    · obtain ⟨hold, rfl⟩ := ht
      exact .inl (core (.inr ⟨hold, rest, hs, rfl⟩))
    · exact .inr (.inl ⟨turn, rest, step_hostTurn hs fun hold h => ht ⟨hold, h⟩⟩)

/-- Where a core turn starts from: the schedule has moved on, and nothing the invariant speaks of. -/
theorem State.CoreTurn.keeps {s s1 : State} (h : s.CoreTurn s1) (hd : s.Data) (hc : s.Control) :
    Keeps s s1 ∧ s1.Control := by
  obtain ⟨sched, hold, rfl⟩ := h.start_eq
  exact keeps_outside hd hc ⟨rfl, rfl, rfl, rfl, rfl, rfl, rfl, rfl, rfl, rfl, rfl⟩ ⟨rfl, rfl, rfl, rfl⟩

/-- A step keeps both parts of the invariant, and the heap property if it held. -/
theorem step_keeps {s t : State} (hd : s.Data) (hc : s.Control) (h : step s = .next t) : Keeps s t ∧ t.Control := by
  obtain ⟨s1, hturn, e⟩ | ⟨turn, rest, e⟩ | e := step_cases s
  · obtain ⟨hstart, hc1⟩ := hturn.keeps hd hc
    obtain ⟨hcore, hct⟩ := coreTurn_keeps hstart.data hc1 (e ▸ h)
    exact ⟨hstart.trans hcore, hct⟩
  · cases e.symm.trans h
    exact hostTurn_keeps hd hc turn rest
  · cases e.symm.trans h
    exact respond_keeps hd hc

/-- Settles O57: the invariant is its datapath part and its sequencer part, and `step_keeps` keeps both. -/
theorem everyStepKeepsTheInvariant : Obligations.EveryStepKeepsTheInvariant := by
  unfold Obligations.EveryStepKeepsTheInvariant
  intro s t hs h
  obtain ⟨hkeeps, hcontrol⟩ := step_keeps hs.toData hs.toControl h
  exact hkeeps.data.inv hcontrol

end Sys2Proof.Machine
end

section
/-! SUPPORT. The commands that only clear (40_control.md R135, 42_pqueue.md R184, 43_tree.md R208, 44_codec.md R233), and the
priority queue (42_pqueue.md R185 to R187): what PQ_INSERT and PQ_EXTRACT make of a queue operation's answer. -/

namespace Sys2Proof.Machine

/-! ### Commands that only clear -/

/-- Settles O36: each is done at once, and the cleared table of FREQ_CLEAR reads its reset value everywhere. -/
theorem clearingCommandsClearOnlyTheirOwn : Obligations.ClearingCommandsClearOnlyTheirOwn := by
  unfold Obligations.ClearingCommandsClearOnlyTheirOwn
  refine ⟨⟨encodedCommandDecodes .nop rfl, encodedCommandDecodes .pqClear rfl, encodedCommandDecodes .treeDestroy rfl,
    encodedCommandDecodes .freqClear rfl⟩, fun s hf => ?_⟩
  have hclear : exec .freqClear s = .next (State.ended { s with freq := [], freqTotal := 0 }) := exec_done hf rfl rfl
  exact ⟨exec_done hf rfl rfl, exec_done hf rfl rfl, exec_done hf rfl rfl, _, hclear, rfl, fun x => Memory.read_nil _ _⟩

/-! ### PQ_INSERT -/

/-- PQ_INSERT of an allocated node answers what the queue's insertion does (42_pqueue.md R182, R185). -/
theorem procOf_pqInsert_ok {s : State} {arg : Nat} (ha : arg < s.nodeCount.toNat) (hw : HeapWf s.heap)
    (hs : s.pqSize.toNat < Config.heapCap) :
    ∃ h m, procOf (.pqInsert arg) s =
        .ok { s with heap := h, pqSize := BitVec.ofNat 9 (s.pqSize.toNat + 1) } [] ∧
      SiftedUp s.node s.heap h (BitVec.ofNat 9 arg) s.pqSize.toNat m := by
  obtain ⟨h, m, hins, hsift⟩ := pqInsert_exact (BitVec.ofNat 9 arg) s.arena hw hs
  refine ⟨h, m, ?_, hsift⟩
  rw [procOf, doPqInsert, if_neg (Nat.not_le.2 ha), hins, BitVec.ofNat_add, BitVec.ofNat_toNat, BitVec.setWidth_eq]
  rfl

/-- The bounds check of PQ_INSERT comes first (42_pqueue.md R185). -/
theorem procOf_pqInsert_outside {s : State} {arg : Nat} (ha : s.nodeCount.toNat ≤ arg) :
    procOf (.pqInsert arg) s = .raise (raiseNat .outOfBounds arg) s := by
  rw [procOf, doPqInsert, if_pos ha]

theorem procOf_pqInsert_full {s : State} {arg : Nat} (ha : arg < s.nodeCount.toNat)
    (hs : Config.heapCap ≤ s.pqSize.toNat) :
    procOf (.pqInsert arg) s = .raise (raiseNat .alloc (Config.heapCap + 1)) s := by
  have hins : pqInsert (BitVec.ofNat 9 arg) s.arena = .raise (raiseNat .alloc (Config.heapCap + 1)) s.arena := if_pos hs
  rw [procOf, doPqInsert, if_neg (Nat.not_le.2 ha), hins]
  rfl

/-- Settles O37: the three cases are those of the procedure, and where it inserts, `pqInsert_exact` places every item. -/
theorem pqInsertSiftsTheNodeUp : Obligations.PqInsertSiftsTheNodeUp := by
  unfold Obligations.PqInsertSiftsTheNodeUp
  intro s arg hf ha hw _ _
  refine ⟨decode_argWord (by decide) ha (decide_eq_true ha) rfl, fun hin hroom => ?_,
    fun hout => exec_abort hf (procOf_pqInsert_outside hout) rfl,
    fun hin hfull => exec_abort hf (procOf_pqInsert_full hin hfull.ge) rfl⟩
  obtain ⟨h, m, hproc, hsift⟩ := procOf_pqInsert_ok hin hw hroom
  exact ⟨_, m, exec_done hf hproc rfl, rfl, hsift⟩

/-! ### PQ_EXTRACT -/

theorem procOf_pqExtract_ok {s : State} {x : NodeIx} {a : Arena} (h : pqExtract s.arena = .ok x a) :
    procOf .pqExtract s = .ok { s.withArena a with result := x.setWidth 32 } [] := by
  rw [procOf, doPqExtract, h]

theorem procOf_pqExtract_empty {s : State} (h : s.pqSize = 0) :
    procOf .pqExtract s = .raise (raiseNat .empty 0) s := by
  have hext : pqExtract s.arena = .raise (raiseNat .empty 0) s.arena := if_pos h
  rw [procOf, doPqExtract, hext]
  rfl

/-- A PQ_EXTRACT that extracts an item completes with it in RESULT (42_pqueue.md R186). -/
theorem exec_pqExtract_ok {s : State} {x : NodeIx} {a : Arena} (hf : s.Fresh) (h : pqExtract s.arena = .ok x a) :
    exec .pqExtract s = .next (State.ended { s.withArena a with result := x.setWidth 32 }) :=
  exec_done hf (procOf_pqExtract_ok h) rfl

/-- Settles O38: `pqExtract_exact` returns the root and places every item, and an empty queue raises. -/
theorem pqExtractSiftsTheLastDown : Obligations.PqExtractSiftsTheLastDown := by
  unfold Obligations.PqExtractSiftsTheLastDown
  refine ⟨encodedCommandDecodes .pqExtract rfl, fun s n hf hw hn => ⟨fun hs => ?_, fun h0 =>
    exec_abort hf (procOf_pqExtract_empty h0) rfl⟩⟩
  obtain ⟨h, hext, hone, hmore⟩ := pqExtract_exact s.arena n hw hs hn
  have hrun := exec_pqExtract_ok hf hext
  rw [← BitVec.ofNat_toNat 32] at hrun
  exact ⟨_, hrun, rfl, hone, hmore⟩

/-! ### The heap property -/

/-- Settles O39: every step keeps the heap property (`step_keeps`), under which the extracted root is a lowest item of
the queue (`pqExtract_spec`). -/
theorem queueReturnsALowestFrequency : Obligations.QueueReturnsALowestFrequency := by
  unfold Obligations.QueueReturnsALowestFrequency
  intro s t hinv hheap
  refine ⟨fun h => (step_keeps hinv.toData hinv.toControl h).1.heap hheap, fun hf hne hrun => ?_⟩
  obtain ⟨hempty, -⟩ | ⟨-, x, a, hext, -, -, -, -, hitems, hlow⟩ :=
    pqExtract_spec s.arena ⟨hinv.heapWf, hinv.pqSizeRange, hheap⟩
  · exact absurd hempty hne
  · cases (exec_pqExtract_ok hf hext).symm.trans hrun
    exact ⟨x, rfl, hitems, hlow⟩

end Sys2Proof.Machine
end

section
/-! SUPPORT. TREE_BUILD on two symbols or more (43_tree.md R204, R205, R207). -/

namespace Sys2Proof.Machine

theorem eq_ofNat_of_toNat_eq {w n : Nat} {x : BitVec w} (h : x.toNat = n) : x = BitVec.ofNat w n := by
  rw [← h, BitVec.ofNat_toNat, BitVec.setWidth_eq]

/-- Settles O41: `buildTree_many` says what the builder makes of a released arena, and where it overflows; the command
releases the arena before it, and after an overflow again. -/
theorem treeBuildMakesAFullTreeOfTheSymbols : Obligations.TreeBuildMakesAFullTreeOfTheSymbols := by
  unfold Obligations.TreeBuildMakesAFullTreeOfTheSymbols
  intro s L hf hn hh hL h2
  subst hL
  obtain ⟨hsum, r, a, T, hbuild, -, -, hcount, hsize, hroot, hfrom, hholds, hweighs, hsyms, hleaves, htotal⟩ |
    ⟨hsum, j, a, hbuild, hj, hleaves, hover, hheap, -, -⟩ := buildTree_many (released hn hh) h2
  · refine ⟨fun _ => ?_, fun hge => absurd hge (Nat.not_le.2 (Nat.lt_succ_of_le hsum))⟩
    obtain rfl := eq_ofNat_of_toNat_eq hroot
    have hproc := treeBuild_ok hbuild hsize
    rw [eq_ofNat_of_toNat_eq hcount] at hproc
    rw [hcount] at hholds
    exact ⟨_, T, exec_done hf hproc rfl, rfl, hfrom, hholds, hweighs, hsyms, hleaves, htotal⟩
  · refine ⟨fun hlt => absurd hlt (Nat.not_lt.2 hsum), fun _ => ?_⟩
    exact ⟨_, j, exec_abort hf (treeBuild_raise hbuild) rfl, hj, hleaves, hover, hheap, rfl⟩

end Sys2Proof.Machine
end

section
/-! SUPPORT. TREE_BUILD on a table with one symbol or none (43_tree.md R204, R206), and the commands that write a tree as bits
and read it back (43_tree.md R209 to R216). -/

namespace Sys2Proof.Machine

/-! ### TREE_BUILD of one symbol or none -/

/-- The only symbol that has been counted is the only one used (43_tree.md R204). -/
theorem usedSymbols_eq_single_of_others_zero {f : Memory Word} {x : Byte} (hx : freqAt f x ≠ 0)
    (hother : ∀ y, y ≠ x → freqAt f y = 0) : usedSymbols f = [x] :=
  usedSymbols_eq_single fun y => ⟨not_imp_comm.1 (hother y), fun h => h ▸ hx⟩

/-- Settles O40: without a symbol the builder raises (`buildTree_none`); with one it pairs that symbol's leaf with a
synthetic one (`buildTree_single`). -/
theorem treeBuildOfOneSymbolPairsItsLeaf : Obligations.TreeBuildOfOneSymbolPairsItsLeaf := by
  unfold Obligations.TreeBuildOfOneSymbolPairsItsLeaf
  intro s hf hn hh
  refine ⟨fun hzero => ?_, fun x hx hother => ?_⟩
  · obtain ⟨a, hbuild, -, -⟩ := buildTree_none (released hn hh) (usedSymbols_eq_nil hzero)
    exact ⟨_, exec_abort hf (treeBuild_raise hbuild) rfl, rfl⟩
  · obtain ⟨a, hbuild, -, -, hcount, hsize, hleaf, hsynth, hroot⟩ :=
      buildTree_single (released hn hh) (usedSymbols_eq_single_of_others_zero hx hother)
    have hproc := treeBuild_ok hbuild hsize
    rw [hcount] at hproc
    exact ⟨_, exec_done hf hproc rfl, rfl, hleaf, hsynth, hroot⟩

/-! ### TREE_SERIALIZE -/

theorem treeSerialize_without_tree {s : State} (h : s.treeValid = false) :
    procOf .treeSerialize s = .raise (raiseNat .sequence 0) s := by
  rw [procOf, doTreeSerialize, h, if_neg Bool.false_ne_true]

/-- Settles O42: `treeSerialize_ok` says what the procedure writes, and `HTree.toBits_length` how much. -/
theorem treeSerializeWritesTheTreeBits : Obligations.TreeSerializeWritesTheTreeBits := by
  unfold Obligations.TreeSerializeWritesTheTreeBits
  intro s hf
  refine ⟨fun hv => exec_abort hf (treeSerialize_without_tree hv) rfl, fun n T hv hT hl => ?_⟩
  obtain ⟨tb, htb, hproc⟩ := treeSerialize_ok hv hT hl
  rw [Nat.eq_sub_of_add_eq (T.toBits_length s.symLsb)] at hproc
  exact ⟨_, exec_done hf hproc rfl, rfl, htb⟩

/-! ### TREE_DESERIALIZE -/

/-- Settles O43: bits that fit the buffer are those of a tree that fits the node RAM (`HTree.size_le_of_bits`), and
`treeDeserialize_ok` reads it. -/
theorem treeDeserializeRebuildsTheTree : Obligations.TreeDeserializeRebuildsTheTree := by
  unfold Obligations.TreeDeserializeRebuildsTheTree
  intro s T hf hw hlen hfit hbits
  have hsize := HTree.size_le_of_bits (hfit.trans hlen)
  obtain ⟨m, -, hparsed, hproc⟩ := treeDeserialize_ok hw hsize.le hbits hfit
  exact ⟨_, exec_done hf hproc rfl, rfl, hparsed⟩

/-- Settles O44: every buffer begins like some tree (`exists_tree`), and `treeDeserialize_raise` finds the first node
without room. -/
theorem treeDeserializeReportsTheFirstFailure : Obligations.TreeDeserializeReportsTheFirstFailure := by
  unfold Obligations.TreeDeserializeReportsTheFirstFailure
  intro s hf hw _
  refine ⟨exists_tree s.symLsb s.tb s.tbLen.toNat s.tbLen.toNat 0 (Nat.le_add_left _ _), fun T hbits hshort => ?_⟩
  obtain ⟨m, pos, k, -, hk, hcap, hfits, hstops, hproc⟩ := treeDeserialize_raise hw hbits (.inr hshort)
  exact ⟨_, k, exec_abort hf hproc rfl, hk, hcap, hfits, hstops, rfl⟩

/-! ### The round trip -/

/-- TB_LEN holds the length of the bits of a tree of at most 256 leaves, which is at most 2559 (43_tree.md R211). -/
theorem HTree.tbLen_toNat {T : HTree} {lsb : Bool} (hl : T.leaves ≤ 256) :
    (BitVec.ofNat 12 (10 * T.leaves - 1)).toNat = (T.toBits lsb).length ∧ (T.toBits lsb).length ≤ 2560 := by
  have hbits := T.toBits_length lsb
  rw [BitVec.toNat_ofNat]
  omega

/-- A buffer that is the bits begins with them, however far it reaches. -/
theorem BitsAt.of_tbGet {tb : BitVec 2576} {len : Nat} {bits : List Bool} (h : ∀ i, tbGet tb i = bits.getD i false) :
    BitsAt tb len 0 bits := fun i _ _ => by
  rw [Nat.zero_add, h]

/-- Settles O45: TREE_DESERIALIZE (O43) reads the bits that TREE_SERIALIZE (O42) wrote, and a tree has the bits that it has
without its synthetic flags (`HTree.plain_toBits`), so that the second TREE_SERIALIZE writes them again. -/
theorem treeRoundTripKeepsShapeAndSymbols : Obligations.TreeRoundTripKeepsShapeAndSymbols := by
  unfold Obligations.TreeRoundTripKeepsShapeAndSymbols
  intro s n T hf hv hT hl
  obtain ⟨t1, hrun1, ht1, htb1⟩ := (treeSerializeWritesTheTreeBits s hf).2 n T hv hT hl
  have hlen1 : t1.tbLen = BitVec.ofNat 12 (10 * T.leaves - 1) := congrArg State.tbLen ht1
  refine ⟨t1, hrun1, congrArg State.phase ht1, (congrArg State.errCode ht1).trans rfl, fun u hfu hwu htbu hlenu hlsbu => ?_⟩
  obtain ⟨htoNat, hmax⟩ := HTree.tbLen_toNat (lsb := u.symLsb) hl
  rw [← hlen1, ← hlenu] at htoNat
  rw [← htbu, ← hlsbu] at htb1
  obtain ⟨t2, hrun2, ht2, hparsed⟩ :=
    treeDeserializeRebuildsTheTree u T hfu hwu (htoNat.trans_le hmax) htoNat.ge (BitsAt.of_tbGet htb1)
  have hsize : T.size < Config.nodeCap := HTree.size_le_of_bits hmax
  have hcount : t2.nodeCount.toNat = T.size :=
    (congrArg (·.nodeCount.toNat) ht2).trans (Nat.mod_eq_of_lt (hsize.trans (by decide)))
  have hholds : Holds t2.node T.size 0 T.plain := hparsed.holds (Nat.zero_add _).le hsize.le
  have hroot : t2.root = 0 := congrArg State.root ht2
  refine ⟨t2, hrun2, congrArg State.phase ht2, (congrArg State.errCode ht2).trans rfl, congrArg State.treeValid ht2,
    hroot, hcount, hparsed, hholds, fun v hfv hnode hrootv hvv hlsbv => ?_⟩
  rw [← hnode, ← hroot, ← hrootv] at hholds
  obtain ⟨t3, hrun3, ht3, htb3⟩ :=
    (treeSerializeWritesTheTreeBits v hfv).2 T.size T.plain hvv hholds (T.plain_leaves.trans_le hl)
  refine ⟨t3, hrun3, tb_ext fun i _ => ?_, ?_⟩
  · rw [htb3, ← htbu, htb1, hlsbv, hlsbu, HTree.plain_toBits]
  · rw [congrArg State.tbLen ht3, hlen1, ← T.plain_leaves]
    rfl

end Sys2Proof.Machine
end

section
/-! SUPPORT. The codec's own commands (44_codec.md): counting a message (R234), which codes can begin like another (R238), packing
(R237) and unpacking (R239). -/

namespace Sys2Proof.Machine

/-! ### Beats and one more -/

/-- The last of some beats decides whether the message has ended (20_memory.md R90). -/
theorem lastFlag_concat (d : Bool) (q : List Beat) (b : Beat) : lastFlag d (q ++ [b]) = b.last := by
  rw [lastFlag, List.getLast?_concat]
  rfl

/-- A data beat adds one byte (20_memory.md R86). -/
theorem payload_concat_length (q : List Beat) {b : Beat} (hb : b.empty = false) :
    (payload (q ++ [b])).length = (payload q).length + 1 := by
  rw [payload_append, payload_cons, hb, List.length_append]
  rfl

/-! ### FREQ_ACCUM -/

/-- The premise of `accum_spec` and `accum_overflow` as the statement writes it. -/
theorem Fits.of_lt {total : Word} {m : Memory Word} {ds : List Byte} (ht : total.toNat + ds.length < 2 ^ 32)
    (hx : ∀ x, (freqAt m x).toNat + ds.count x < 2 ^ 32) : Fits total m ds :=
  ⟨Nat.le_of_lt_succ ht, fun x => Nat.le_of_lt_succ (hx x)⟩

/-- FREQ_TOTAL after some counted bytes, as the sum that the statement names. -/
theorem countUp_eq_ofNat (c : Word) (n : Nat) : countUp c n = BitVec.ofNat 32 (c.toNat + n) := by
  rw [countUp, BitVec.ofNat_add, BitVec.ofNat_toNat, BitVec.setWidth_eq]

/-- Settles O46: FREQ_ACCUM is its loop over a message that is just opened, so `accum_spec` gives the whole count and
`accum_overflow` the byte where it stops. -/
theorem freqAccumCountsTheMessage : Obligations.FreqAccumCountsTheMessage := by
  unfold Obligations.FreqAccumCountsTheMessage
  intro s q rest hf hw
  have hloop : exec .freqAccum s = runAll [.accum] { s with inEom := false } := exec_ops hf rfl
  refine ⟨fun hm hq ht hx => ?_, fun b hl hb hq ht hx hov => ?_⟩
  · obtain ⟨m, hcounted, hrun⟩ := accum_spec q rest [] { s with inEom := false } hm hq rfl hw (Fits.of_lt ht hx)
    refine ⟨_, hloop.trans (hrun.trans (finish_fresh hf.2)), ?_, hcounted.count⟩
    simp only [State.took, lastFlag_message _ hm, countUp_eq_ofNat]
    rfl
  · obtain ⟨m, hcounted, hrun⟩ := accum_overflow q b rest [] { s with inEom := false } hl hq rfl hw (Fits.of_lt ht hx)
      hb hov
    refine ⟨_, hloop.trans (hrun.trans (fail_fresh hf.2)), ?_, hcounted.count⟩
    simp only [State.took, lastFlag_concat, payload_concat_length q hb, countUp_eq_ofNat]
    rfl

/-! ### CODE_GEN -/

/-- A CODE_GEN that has left a valid table ran on a tree with an internal root, and its table holds the paths of that
tree (44_codec.md R236). -/
theorem codeGen_valid {s t : State} {n : Nat} {T : HTree} (hf : s.Fresh) (hv : s.treeValid = true)
    (hT : Holds s.node n s.root T) (hl : T.leaves ≤ 256) (hrun : exec .codeGen s = .next t) (ht : t.codeValid = true) :
    t.node = s.node ∧ t.root = s.root ∧ Stored [] t.code (T.codes []) := by
  cases T with
  | leaf sym synth =>
    rw [exec_abort hf (codeGen_of_leaf hv hT.2.1) rfl] at hrun
    cases hrun
    exact absurd ht Bool.false_ne_true
  | node l r =>
    obtain ⟨m, path, depth, -, hst, hproc⟩ := codeGen_ok hv hT hl
    rw [exec_done hf hproc rfl] at hrun
    cases hrun
    exact ⟨rfl, rfl, hst⟩

/-- Settles O48: a mapped code is the path of a leaf of its symbol (`Stored.mem`), so `codes_prefix_free` and
`codes_follow` speak of it. -/
theorem codesArePrefixFreeAndWalkBack : Obligations.CodesArePrefixFreeAndWalkBack := by
  unfold Obligations.CodesArePrefixFreeAndWalkBack
  intro s t n T hf hv hT hl _ hrun ht
  obtain ⟨hnode, hroot, hst⟩ := codeGen_valid hf hv hT hl hrun ht
  refine ⟨fun x y hxy hx hy hpre => hxy (codes_prefix_free (hst.mem hx) (hst.mem hy) hpre), fun x hx => ?_⟩
  obtain ⟨bits, e, hend⟩ := codes_follow hT (hst.mem hx)
  rw [List.nil_append] at e
  subst e
  rw [hnode, hroot]
  exact hend

/-! ### PACK -/

theorem pack_without_codes {s : State} {f : Bool} (h : s.codeValid = false) :
    procOf (.pack f) s = .raise (raiseNat .sequence 0) s := by
  rw [procOf, doPack, h, if_neg Bool.false_ne_true]

theorem pack_with_codes {s : State} (f : Bool) (h : s.codeValid = true) :
    procOf (.pack f) s = .ok { s with inEom := false, acc := 0, accN := 0 } [.pack f] := by
  rw [procOf, doPack, if_pos h]

/-- Bits hold one sequence of whole bytes before fewer than eight bits (44_codec.md R231). -/
theorem wholeBytes_unique {a b : List Byte} {x y : List Bool} (h : a.flatMap byteBits ++ x = b.flatMap byteBits ++ y)
    (hx : x.length < 8) (hy : y.length < 8) : a = b := by
  have hlen := congrArg List.length h
  simp only [List.length_append, flatMap_byteBits_length] at hlen
  exact flatMap_byteBits_inj (List.append_inj_left h (by rw [flatMap_byteBits_length, flatMap_byteBits_length]; omega))

/-- Settles O49: a message with a code for every byte by `packStep`; a byte without one by `pack_unmapped`, which
emits the only whole bytes there are before it (`wholeBytes_unique`). -/
theorem packEmitsTheCodes : Obligations.PackEmitsTheCodes := by
  unfold Obligations.PackEmitsTheCodes
  intro s f q rest hf
  refine ⟨fun hv => exec_abort hf (pack_without_codes hv) rfl, fun bytes hv hm hq hmap hbytes hr => ?_,
    fun b bytes tail hv hl hb hq hmap hun hbits htail hr => ?_⟩
  · exact (exec_fresh hf).trans ((packStep hv hm hq hmap hbytes hr).trans (finish_fresh hf.2))
  · have hlen := congrArg List.length hbits
    rw [List.length_append, flatMap_byteBits_length] at hlen
    obtain ⟨bytes', tail', acc, n, htail', heq, hrun⟩ := pack_unmapped f (ops := [])
      (s := { s with inEom := false, acc := 0, accN := 0 }) hl hq rfl Pend.zero hmap hb hun (by
        show (0 + ((payload q).flatMap fun d => (codeAt s.code d).toBits).length) / 8 ≤ s.outReady
        omega)
    obtain rfl : bytes' = bytes := wholeBytes_unique (heq.symm.trans hbits) htail' htail
    refine ⟨_, (exec_ops hf (pack_with_codes f hv)).trans (hrun.trans (fail_fresh hf.2)), ?_⟩
    simp only [State.gave, State.took, lastFlag_concat, payload_concat_length q hb]
    rfl

/-! ### UNPACK -/

theorem unpack_without_tree {s : State} {f : Bool} (h : s.treeValid = false) :
    procOf (.unpack f) s = .raise (raiseNat .sequence 0) s := by
  rw [procOf, doUnpack, h, Bool.not_false, if_pos rfl]

/-- Settles O50: `unpackStep` says what the walk emits below the limit and at it. -/
theorem unpackEmitsTheSymbolsOfTheWalk : Obligations.UnpackEmitsTheSymbolsOfTheWalk := by
  unfold Obligations.UnpackEmitsTheSymbolsOfTheWalk
  intro s f n l r q rest out stand hf hv hT hin hm hq hd
  obtain ⟨hall, hlimit⟩ := unpackStep (ops := []) hv hT hin hm hq hd
  refine ⟨fun hlt hr => ?_, fun hen hle hr => ?_⟩
  · obtain ⟨x, hrun⟩ := hall hlt hr
    exact ⟨_, (exec_fresh hf).trans (hrun.trans (finish_fresh hf.2)), rfl⟩
  · obtain ⟨x, hrun⟩ := hlimit hen hle hr
    exact ⟨_, (exec_fresh hf).trans (hrun.trans (finish_fresh hf.2)), rfl⟩

/-- Settles O51: both refusals raise before the loop, and with no message open the loop is left at once
(`unpackClosed`). -/
theorem unpackTakesNoBeatWithoutNeed : Obligations.UnpackTakesNoBeatWithoutNeed := by
  unfold Obligations.UnpackTakesNoBeatWithoutNeed
  intro s f hf
  refine ⟨fun hv => exec_abort hf (unpack_without_tree hv) rfl, fun hv hl => exec_abort hf (unpack_leaf hv hl) rfl, ?_⟩
  rintro hv hl rfl hin hr
  exact (exec_fresh hf).trans ((unpackClosed hv hl hin hr).trans (finish_fresh hf.2))

end Sys2Proof.Machine
end

section
/-! SUPPORT. DECODE of what ENCODE emitted gives the message back (44_codec.md R240, R243). -/

namespace Sys2Proof.Machine

/-! ### What ENCODE has left and emitted -/

/-- The table's code of an encoded byte is the path of its leaf (44_codec.md R236). -/
theorem State.EncodesFor.code_mem {t s : State} {S : List Byte} {T : HTree} (h : t.EncodesFor s S T) {x : Byte}
    (hx : x ∈ S) : (x, (codeAt t.code x).toBits) ∈ T.codes [] := by
  obtain ⟨c, hc, hsays, -⟩ := h.mapped x hx
  rw [HTree.codeOf_eq] at hc
  rw [toBits_of_says hsays]
  exact lastCode_mem hc

/-- TB is zero beyond the bits of the tree (41_bitbuffer.md R153). -/
theorem State.EncodesFor.tbTail {t s : State} {S : List Byte} {T : HTree} (h : t.EncodesFor s S T) (i : Nat)
    (hi : t.tbLen.toNat ≤ i) : tbGet t.tb i = false := by
  rw [h.bits, List.getD_eq_default _ _ (h.bitCount ▸ hi)]

/-- Codes that fill whole bytes with some padding: their lengths and the padding make a multiple of eight (44_codec.md
R231, R240). -/
theorem codeLengths_add_pad {code : Memory CodeEntry} {S body : List Byte} {pad : Nat}
    (h : body.flatMap byteBits = S.flatMap (fun x => (codeAt code x).toBits) ++ List.replicate pad false) :
    ((S.map (fun x => (codeAt code x).len.toNat)).sum + pad) % 8 = 0 := by
  have hlen := congrArg List.length h
  rw [flatMap_byteBits_length, List.length_append, List.length_flatMap, List.length_replicate] at hlen
  simp only [codeEntry_toBits_length] at hlen
  rw [← hlen, Nat.mul_mod_right]

/-- A walk of the codes of a message and of the padding meets the message, then the leftmost leaf as often as the padding
reaches it (44_codec.md R240, R243). -/
theorem State.EncodesFor.descend_body {t s : State} {S body : List Byte} {T : HTree} {pad : Nat} (h : t.EncodesFor s S T)
    (hT : T.inner = true)
    (hbits : body.flatMap byteBits = S.flatMap (fun x => (codeAt t.code x).toBits) ++ List.replicate pad false) :
    HTree.descend T T (body.flatMap byteBits) =
      (S ++ List.replicate (pad / T.leftmost.1) T.leftmost.2, (HTree.descend T T (List.replicate pad false)).2) := by
  rw [hbits, descend_codes hT _ S _ fun x hx => h.code_mem hx, (descend_padding hT pad).1]

/-! ### The statement -/

/-- Settles O55: DECODE reads the header back (`decodeEmitsTheSymbolsOfTheBody`) and walks the body, which
`State.EncodesFor.descend_body` describes; the limit cuts off the symbols of the padding. -/
theorem roundTripGivesTheMessageBack : Obligations.RoundTripGivesTheMessageBack := by
  unfold Obligations.RoundTripGivesTheMessageBack
  intro s q1 q2 rest S hf hn hh hm1 hm2 hp1 hp2 hq hne hlen hr
  obtain ⟨t, l, r, body, hrun, ht, hl, ⟨pad, hpad, hbits⟩, e⟩ := encode_ok hf hn hh hm1 hm2 hp1 hp2 hq hne
    (Nat.le_of_lt_succ hlen) (fun _ hx => hx) hr
  have hmax := ht.tbLen_le hl
  rw [← headerOf_eq s.wireBe hmax] at e
  refine ⟨t, .node l r, headerOf s.wireBe t.tbLen.toNat t.tb ++ body, pad, hrun, congrArg State.phase e,
    (congrArg State.errCode e).trans rfl, congrArg State.outLog e, ht.tree, hpad, codeLengths_add_pad hbits,
    fun u q rest' hfu hwu hbe hlsb hm hp hq hready => ?_⟩
  rw [← hbe] at hp
  obtain ⟨hall, hlimit⟩ := ((decodeEmitsTheSymbolsOfTheBody u hfu hwu).1 q rest' t.tb t.tbLen.toNat hq hmax ht.tbTail).1
    l r _ body _ hm hp (hlsb ▸ BitsAt.of_tbGet ht.bits) (hlsb ▸ ht.bitCount.ge) (ht.descend_body rfl hbits)
  refine ⟨fun hen hlim => ?_, fun hoff => ?_⟩
  · obtain ⟨v, hdec, -, hv⟩ := hlimit hen (by rw [hlim, List.length_append]; omega) (by omega)
    have hout := congrArg State.outLog hv
    rw [hlim, List.take_left] at hout
    exact ⟨v, hdec, congrArg State.phase hv, (congrArg State.errCode hv).trans rfl, congrArg State.limitHit hv,
      congrArg State.inQ hv, hout⟩
  · have hspare := Nat.div_le_self pad (HTree.node l r).leftmost.1
    obtain ⟨v, hdec, -, hv⟩ := hall (fun hen => absurd (hoff.symm.trans hen) Bool.false_ne_true)
      (by rw [List.length_append, List.length_replicate]; omega)
    exact ⟨v, hdec, congrArg State.phase hv, (congrArg State.errCode hv).trans rfl, congrArg State.inQ hv,
      (congrArg State.tailPartial hv).trans (descend_padding rfl pad).2, congrArg State.outLog hv⟩

end Sys2Proof.Machine
end

section
/-! SUPPORT. A step from a state with the invariant always answers a next state (60_exceptions.md R295): the one fault there
is, an overrun of TREE_SERIALIZE (log 11), needs a tree that the invariant rules out. -/

namespace Sys2Proof.Machine

/-- Settles O58: turns of the host and responses never stop (`step_cases`), and a turn of the core starts from a state that
still meets both parts of the invariant (`State.CoreTurn.keeps`), where no command faults (`coreTurn_next`). -/
theorem nothingFaultsOrIsRefused : Obligations.NothingFaultsOrIsRefused := by
  unfold Obligations.NothingFaultsOrIsRefused
  intro s hs
  obtain ⟨s1, hturn, e⟩ | ⟨turn, rest, e⟩ | e := step_cases s
  · obtain ⟨hstart, hcontrol⟩ := hturn.keeps hs.toData hs.toControl
    rw [e]
    exact coreTurn_next hstart.data hcontrol
  · exact ⟨_, e⟩
  · exact ⟨_, e⟩

end Sys2Proof.Machine
end

section
/-! SUPPORT. The reset state and the end of initialisation (70_reset_and_hazards.md R310, R311), and that the invariant
holds at reset. -/

namespace Sys2Proof.Machine

/-! ### A core turn in INIT -/

theorem State.endInit_held {s : State} (h : s.hold = true) : s.endInit = s := by
  rw [State.endInit, if_pos h]

theorem State.endInit_unheld {s : State} (h : s.hold = false) :
    s.endInit = { s.atReset with phase := .idle, rstN := s.rstN, busRsp := s.busRsp } := by
  rw [State.endInit, if_neg (by simp [h])]

/-- No value of the reset table is the phase, the level of a pin or a pending response. -/
theorem State.endInit_hasResetValues {s : State} (h : s.hold = false) : s.endInit.HasResetValues :=
  State.endInit_unheld h ▸ { s.atReset_hasResetValues with }

/-- While rst_n = 0 the core does nothing (20_memory.md R71). -/
theorem coreTurn_of_reset_asserted {s : State} (hn : s.rstN = false) : coreTurn s = .next s := by
  rw [coreTurn, if_neg (by simp [hn])]

theorem coreTurn_of_init {s : State} (hn : s.rstN = true) (hp : s.phase = .init) : coreTurn s = .next s.endInit := by
  simp only [coreTurn, hn, hp, if_true]

/-- A held turn stays in INIT (log 12). -/
theorem coreTurn_of_init_held {s : State} (hp : s.phase = .init) (hh : s.hold = true) : coreTurn s = .next s := by
  cases hn : s.rstN with
  | false => exact coreTurn_of_reset_asserted hn
  | true => rw [coreTurn_of_init hn hp, State.endInit_held hh]

/-- Settles O16: a turn that may end takes the step of `State.endInit`, which is the reset table with the core idle; with
rst_n = 0 (`coreTurn_of_reset_asserted`) or held (`coreTurn_of_init_held`) it changes nothing. -/
theorem initialisationEndsIdle : Obligations.InitialisationEndsIdle := by
  unfold Obligations.InitialisationEndsIdle
  intro s s1 hturn hp
  rw [hturn.step_eq]
  obtain ⟨sched, hold, rfl⟩ := hturn.start_eq
  refine ⟨fun hn hh => ?_, fun hstay => ?_⟩
  · refine ⟨_, coreTurn_of_init hn hp, State.endInit_hasResetValues hh, ?_⟩
    rw [State.endInit_unheld hh]
    exact ⟨rfl, rfl, hn, rfl, rfl, rfl, rfl, rfl, rfl⟩
  · exact hstay.elim (fun hn => coreTurn_of_reset_asserted hn) (fun hh => coreTurn_of_init_held hp hh)

/-! ### The reset state -/

theorem State.reset_hasResetValues : State.reset.HasResetValues :=
  State.reset.atReset_hasResetValues

/-- With every value of the reset table and the core idle, STATUS shows IN_EOM alone (10_state.md R27). -/
theorem State.HasResetValues.statusWord_idle {s : State} (h : s.HasResetValues) (hp : s.phase = .idle) (d : Word) :
    s.statusWord d = 0x00000010#32 := by
  obtain ⟨herr, -, -⟩ := h.err
  obtain ⟨htree, hcode⟩ := h.valid
  obtain ⟨htail, hlimit⟩ := h.tail
  simp only [State.statusWord, hp, State.statusIdle, State.errorFlag, State.rootLeaf, herr, htree, hcode, h.inEom, htail,
    hlimit, Bool.false_and]
  decide

/-- Settles O14: the reset state is its own reset table, and its first step is the one that ends initialisation
(`initialisationEndsIdle`). -/
theorem resetLeavesTheTableOfValues : Obligations.ResetLeavesTheTableOfValues := by
  unfold Obligations.ResetLeavesTheTableOfValues
  obtain ⟨t, hstep, hvalues, hidle, -⟩ :=
    (initialisationEndsIdle State.reset State.reset (.inl ⟨rfl, rfl, rfl⟩) rfl).1 rfl rfl
  exact ⟨State.reset_hasResetValues, rfl, rfl, t, hstep, hvalues, hidle, hvalues.statusWord_idle hidle 0⟩

/-- Settles O56, by the two parts of the invariant (`State.Data.inv`): the datapath's (`reset_data`, with the heap
property of an empty queue) and the sequencer's (`reset_control`). -/
theorem resetMeetsTheInvariant : Obligations.ResetMeetsTheInvariant :=
  ⟨reset_data.1.inv reset_control, reset_data.2⟩

end Sys2Proof.Machine
end
